-- ==== Sys2Proof/Word.lean ====
section
/-! DEFINITION. The word types of HUFFCORE: the byte (00_scope.md R7, R14) and the bit-string (R14). Nothing here
computes: packing, unpacking and field extraction stand in Sys2Proof/Decode.lean and under Sys2Proof/Machine/. -/

namespace Sys2Proof

/-- A byte: bit 7 is the most significant, bit 0 the least (00_scope.md R14). Symbols are bytes (R7). -/
abbrev Byte := BitVec 8

/-- A bit-string: an ordered sequence of bits, the first bit at the head of the list (00_scope.md R14). -/
abbrev Bits := List Bool

end Sys2Proof
end

