-- ==== Sys2Proof/Config.lean ====
section
/-! DEFINITION. What is fixed for one HUFFCORE: the parameter CNT_W (00_scope.md R9) and the constants the spec derives
from the 8-bit symbol (00_scope.md R7, R8), and the free values: the fields of a node that have no meaning for its kind, which
93_implementation_defined.md V2 lets hold any value. -/

namespace Sys2Proof

/-- The parameters of one HUFFCORE. DESIGN CHOICE (log 1): the spec makes CNT_W "an argument of the model" (00_scope.md R9);
the fixed type of `step` has no argument for it, so a value of this structure stands in State and no operation writes it. -/
structure Config where
  /-- CNT_W, the width in bits of every frequency count, at least 1 (00_scope.md R9). -/
  cntW : Nat
  deriving DecidableEq, Repr

/-- The spec's default, CNT_W = 32 (00_scope.md R9, 92_eei_decisions.md D9). -/
def Config.standard : Config := { cntW := 32 }

/-- CNT_W >= 1 (00_scope.md R9). -/
abbrev Config.wf (c : Config) : Prop := 1 ≤ c.cntW

/-- MAXCNT = 2^CNT_W - 1, the largest input length one compress accepts (00_scope.md R9). -/
def Config.maxCnt (c : Config) : Nat := 2 ^ c.cntW - 1

/-- PAYBITS_W = CNT_W + 8, the width of the payload bit counters (00_scope.md R9). -/
def Config.paybitsW (c : Config) : Nat := c.cntW + 8

/-- ALPHA, the alphabet size (00_scope.md R7): the entries of FREQ, CODE and SEEN (10_state.md R30, R32, R37). -/
def alpha : Nat := 256

/-- NODE_MAX, the entries of NODE (00_scope.md R8, 10_state.md R31). -/
def nodeMax : Nat := 511

/-- CODE_MAX, the longest code in bits and the deepest path of a traversal (00_scope.md R8, 10_state.md R32, R39). -/
def codeMax : Nat := 255

/-- The capacity of the priority queue (10_state.md R33). -/
def pqMax : Nat := 256

/-- The entries of PSTACK (10_state.md R37). -/
def pstackMax : Nat := 255

/-! ## Free values (93_implementation_defined.md V2; log 14, 22) -/

/-- The value that the n-th read of `sym` of an internal node gives: any byte. -/
opaque Config.freeSym : Nat → Byte

/-- The value that the n-th read of `left` or `right` of a leaf gives: any 9-bit index. -/
opaque Config.freeIndex : Nat → BitVec 9

end Sys2Proof
end

