-- ==== Sys2Proof/Syntax.lean ====
section
/-! DEFINITION. The operations of HUFFCORE as one inductive, one constructor per row of spec/opcode_table.json
(30_encoding.md R114), and the two enumerations they mention: the phases (10_state.md R21) and the error codes
(60_exceptions.md R281). -/

namespace Sys2Proof

/-- The values of `phase` (10_state.md R21). The reserved codes 10 to 14 are never taken by any rule, so they have no
constructor (93_implementation_defined.md V13; log 12). -/
inductive Phase where
  | idle
  | scan
  | build
  | derive
  | emitHdr
  | encode
  | dCount
  | dTree
  | dPad
  | dPayload
  | error
  deriving DecidableEq, Repr

/-- The values of `err` (60_exceptions.md R281). The reserved codes 8 to 15 are never written, so they have no constructor
(93_implementation_defined.md V13; log 12). -/
inductive ErrCode where
  | none
  | inputRead
  | emptyInput
  | countOverflow
  | unknownSymbol
  | passMismatch
  | corruptArtifact
  | illegalCmd
  deriving DecidableEq, Repr

/-- The operations of HUFFCORE (30_encoding.md R114). The comment of a constructor is its row's mnemonic and rule. -/
inductive Instr where
  -- commands, 30_encoding.md R92
  /-- CMD.COMPRESS, 46_codec_commands.md R251. -/
  | cmdCompress
  /-- CMD.DECOMPRESS, R252. -/
  | cmdDecompress
  /-- CMD.CLEAR, R253. -/
  | cmdClear
  /-- CMD.RESERVED, R254. -/
  | cmdReserved
  /-- CMD.IGNORED, R258, with the command word that is ignored. -/
  | cmdIgnored (op : BitVec 2)
  -- input beats, 30_encoding.md R95, R96
  /-- FREQ.COUNT, 40_frequency.md R132. -/
  | freqCount (b : Byte)
  /-- SCAN.END, R133. -/
  | scanEnd
  /-- SCAN.FAIL, R134. -/
  | scanFail
  /-- ENC.SYM, 44_framing.md R207. -/
  | encSym (b : Byte)
  /-- ENC.END, R208. -/
  | encEnd
  /-- ENC.FAIL, R206. -/
  | encFail
  /-- DEC.COUNT, R215. -/
  | decCount (b : Byte)
  /-- DEC.TRUNC.COUNT, R216 (END). -/
  | decTruncCount
  /-- DEC.SRCFAIL.COUNT, R216 (FAIL). -/
  | decSrcfailCount
  /-- DEC.TREE1, R217. -/
  | decTree1 (b : Byte)
  /-- DEC.TREE, R218. -/
  | decTree (b : Byte)
  /-- DEC.TRUNC.TREE, R223 (END). -/
  | decTruncTree
  /-- DEC.SRCFAIL.TREE, R223 (FAIL). -/
  | decSrcfailTree
  /-- DEC.PAD, R224. -/
  | decPad (b : Byte)
  /-- DEC.TRUNC.PAD, R225 (END). -/
  | decTruncPad
  /-- DEC.SRCFAIL.PAD, R225 (FAIL). -/
  | decSrcfailPad
  /-- DEC.DATA, 45_decode.md R231. -/
  | decData (b : Byte)
  /-- DEC.END, R234. -/
  | decEnd
  /-- DEC.FAIL, R235. -/
  | decFail
  -- output beats, 30_encoding.md R97
  /-- OUT.DATA, R97. -/
  | outData (b : Byte)
  /-- OUT.END, R97. -/
  | outEnd
  -- artifact elements, 30_encoding.md R100 to R109
  /-- ART.N, R101: byte 0 of the artifact. -/
  | artN (n : Byte)
  /-- ART.TREE1, R103: the tree section for N = 1. -/
  | artTree1 (y : Byte)
  /-- T.INTERNAL, R104. -/
  | tInternal
  /-- T.LEAF, R104, with its symbol. -/
  | tLeaf (y : Byte)
  /-- ART.TREEPAD, R106, with the number of pad bits. -/
  | artTreepad (n : Nat)
  /-- ART.PAD, R107, with the pad-bit count. -/
  | artPad (p : BitVec 3)
  /-- ART.PAYLOAD, R108, with the payload bytes. -/
  | artPayload (bs : List Byte)
  /-- CODE, R109, with the bits of one code. -/
  | code (c : Bits)
  -- internal operations, 30_encoding.md R114
  /-- FREQ.CLEAR, 40_frequency.md R130. -/
  | freqClear
  /-- BUILD, 41_tree_build.md R146. -/
  | build
  /-- PQ.INSERT(f, k), R142. -/
  | pqInsert (f k : Nat)
  /-- PQ.EXTRACT_MIN, R143. -/
  | pqExtractMin
  /-- PQ.INIT, R144. -/
  | pqInit
  /-- MERGE, R145. -/
  | merge
  /-- DERIVE, 42_codebook.md R160. -/
  | derive
  /-- CODE.CLEAR, R161. -/
  | codeClear
  /-- CODE.ASSIGN(k, p), R162. -/
  | codeAssign (k : Nat) (p : Bits)
  /-- CODE.ASSIGN1, R163. -/
  | codeAssign1
  /-- CODE.LOOKUP(b), R165. -/
  | codeLookup (b : Byte)
  /-- PAD.PREDICT, R166. -/
  | padPredict
  /-- W.PUTBIT(b), 43_bitstream.md R176. -/
  | wPutbit (x : Bool)
  /-- W.PUTBITS(c), R177. -/
  | wPutbits (c : Bits)
  /-- W.FLUSH, R178. -/
  | wFlush
  /-- W.PUTBYTE(v), R179. -/
  | wPutbyte (v : Byte)
  /-- R.BITS(v, n), R182. -/
  | rBits (v : Byte) (n : Nat)
  /-- EMIT_HDR, 44_framing.md R195. -/
  | emitHdr
  /-- HDR.COUNT, R196. -/
  | hdrCount
  /-- HDR.TREE1, R197. -/
  | hdrTree1
  /-- HDR.TREE, R198. -/
  | hdrTree
  /-- HDR.PAD, R199. -/
  | hdrPad
  /-- TREE.FLAG(x), R219. -/
  | treeFlag (x : Bool)
  /-- TREE.SYMBIT(x), R220. -/
  | treeSymbit (x : Bool)
  /-- TREE.ATTACH(k), R221. -/
  | treeAttach (k : Nat)
  /-- TREE.COMPLETE, R222. -/
  | treeComplete
  /-- WALK.BIT(x), 45_decode.md R232. -/
  | walkBit (x : Bool)
  /-- WALK.BIT1(x), R233. -/
  | walkBit1 (x : Bool)
  /-- ERROR.ENTRY, the primitive `raise E(info, data)`, 60_exceptions.md R290. -/
  | errorEntry (e : ErrCode) (info : BitVec 4) (data : Byte)
  /-- RESET, 70_reset_and_hazards.md R311. -/
  | reset
  deriving DecidableEq, Repr

end Sys2Proof
end

