-- ==== Sys2Proof/WellFormed.lean ====
section
/-! DEFINITION. Which terms of Instr are operations of HUFFCORE: the operand ranges the rules state. An operand whose type
already is its range (a byte, a bit, a 3-bit pad count) needs no check. -/

namespace Sys2Proof

/-- The operand ranges, one line per constructor that has one to check. -/
def Instr.wellFormed : Instr → Bool
  -- 46_codec_commands.md R258: a command other than `11`
  | .cmdIgnored op => op != 3#2
  -- 30_encoding.md R106: 1 to 7 tree pad bits
  | .artTreepad n => decide (1 ≤ n ∧ n ≤ 7)
  -- 30_encoding.md R109: a code has 1 to 255 bits
  | .code c => decide (1 ≤ c.length ∧ c.length ≤ codeMax)
  -- 41_tree_build.md R142: the node is an index of NODE; the count has any size, since CNT_W is a parameter in State and not known
  -- here (DESIGN CHOICE, log 26)
  | .pqInsert _ k => decide (k < nodeMax)
  -- 42_codebook.md R162: the node is an index of NODE, the path has at most 255 bits
  | .codeAssign k p => decide (k < nodeMax ∧ p.length ≤ codeMax)
  -- 43_bitstream.md R177: a bit-string of 1 to 255 bits
  | .wPutbits c => decide (1 ≤ c.length ∧ c.length ≤ codeMax)
  -- 43_bitstream.md R182: 0 <= n <= 8
  | .rBits _ n => decide (n ≤ 8)
  -- 44_framing.md R221: the new node is an index of NODE
  | .treeAttach k => decide (k < nodeMax)
  -- 60_exceptions.md R281: code 0 is "no error"
  | .errorEntry e _ _ => e != ErrCode.none
  | .cmdCompress | .cmdDecompress | .cmdClear | .cmdReserved => true
  | .freqCount _ | .scanEnd | .scanFail | .encSym _ | .encEnd | .encFail => true
  | .decCount _ | .decTruncCount | .decSrcfailCount | .decTree1 _ | .decTree _ => true
  | .decTruncTree | .decSrcfailTree | .decPad _ | .decTruncPad | .decSrcfailPad => true
  | .decData _ | .decEnd | .decFail | .outData _ | .outEnd => true
  | .artN _ | .artTree1 _ | .tInternal | .tLeaf _ | .artPad _ | .artPayload _ => true
  | .freqClear | .build | .pqExtractMin | .pqInit | .merge | .derive | .codeClear => true
  | .codeAssign1 | .codeLookup _ | .padPredict | .wPutbit _ | .wFlush | .wPutbyte _ => true
  | .emitHdr | .hdrCount | .hdrTree1 | .hdrTree | .hdrPad => true
  | .treeFlag _ | .treeSymbit _ | .treeComplete | .walkBit _ | .walkBit1 _ | .reset => true

end Sys2Proof
end

