-- ==== Sys2Proof/Decode.lean ====
section
/-! DEFINITION. Decoding and encoding (30_encoding.md). HUFFCORE has no instruction word: a word has one of the formats of
R90, and WHAT SELECTS an operation is the channel together with `phase` (R114). So the decoder takes a `Selector` (what
selects) and a `Word` (the bits), answers an operation or rejects by name, and is total. The encoder is written from the same
tables. The operations that R114 calls "not encoded" and that no event selects have no word and are never decoded. -/

namespace Sys2Proof

/-! ## Bits and bytes -/

/-- The bits of a byte, most significant first (20_memory.md R63, 30_encoding.md R105). -/
def bitsOfByte (v : Byte) : Bits :=
  [v.getLsbD 7, v.getLsbD 6, v.getLsbD 5, v.getLsbD 4, v.getLsbD 3, v.getLsbD 2, v.getLsbD 1, v.getLsbD 0]

/-- The byte whose bits, most significant first, are the given ones; shifting the next bit in from the right
(the shift of 44_framing.md R220). -/
def byteOfBits (c : Bits) : Byte :=
  c.foldl (fun v x => (v <<< 1) ||| (if x then 1#8 else 0#8)) 0#8

/-! ## Formats -/

/-- A word of one of the formats (30_encoding.md R90). -/
inductive Word where
  /-- CMD, 2 bits (R91). -/
  | cmd (op : BitVec 2)
  /-- INBEAT, 10 bits, in_fail then in_end then in_data (R95). -/
  | inBeat (w : BitVec 10)
  /-- OUTBEAT, 9 bits, out_end then out_data (R97). -/
  | outBeat (w : BitVec 9)
  /-- ARTIFACT, a sequence of bytes (R100). -/
  | bytes (bs : List Byte)
  /-- TOKEN and CODE (R104, R109), and tree pad bits (R106): a sequence of bits, first bit first. -/
  | bits (c : Bits)
  /-- No bits: the operation is selected without an encoding (R114). -/
  | noBits
  deriving DecidableEq, Repr

/-- What selects an operation (30_encoding.md R114). -/
inductive Selector where
  /-- A command transfer in a phase (R92). -/
  | command (ph : Phase)
  /-- An input-beat transfer in a phase; `one` says nsym == 1 (R96, R114). -/
  | input (ph : Phase) (one : Bool)
  /-- A beat of the output stream (R97). -/
  | output
  /-- Byte 0 of the artifact (R100). -/
  | artN
  /-- The tree section when N == 1 (R103). -/
  | artTree1
  /-- A token of the tree section when N >= 2 (R104). -/
  | token
  /-- The bits after the last token (R106). -/
  | treePad
  /-- The byte after the tree section (R107). -/
  | artPad
  /-- All bytes after the pad byte (R108). -/
  | payload
  /-- The bits of one code (R109). -/
  | codeBits
  /-- An internal step of a phase (46_codec_commands.md R259). -/
  | internal (ph : Phase)
  /-- `rst` = 1 at a rising edge (70_reset_and_hazards.md R310). -/
  | reset
  deriving DecidableEq, Repr

/-- Why a word is rejected. Each is safe: the machine's own step never meets one (`step` asks only what its selector
admits). -/
inductive DecodeError where
  /-- No command is accepted in this phase (30_encoding.md R94). -/
  | noCommandInPhase
  /-- No input beat is accepted in this phase (30_encoding.md R98). -/
  | noInputInPhase
  /-- No internal step runs in this phase (46_codec_commands.md R259). -/
  | noInternalStepInPhase
  /-- The word has not the format that the selector reads. -/
  | wrongFormat
  /-- The bits are no token: not `0` and not `1` followed by eight bits (30_encoding.md R104). -/
  | notAToken
  /-- A pad byte above 7 is no pad byte (30_encoding.md R107). -/
  | padAboveSeven
  /-- Not 1 to 7 tree pad bits (30_encoding.md R106). -/
  | notTreePad
  /-- Not 1 to 255 bits (30_encoding.md R109). -/
  | notACode
  deriving DecidableEq, Repr

/-! ## Beats -/

/-- The kind of an input beat (30_encoding.md R96). -/
inductive BeatKind where
  | data (b : Byte)
  | endOfStream
  | fail
  deriving DecidableEq, Repr

/-- FAIL before END before DATA (30_encoding.md R96; in_fail is bit 9, in_end bit 8, in_data bits 7:0, R95). -/
def beatKind (w : BitVec 10) : BeatKind :=
  if w.getLsbD 9 then .fail
  else if w.getLsbD 8 then .endOfStream
  else .data (w.setWidth 8)

/-! ## Decoding -/

/-- Commands by opcode (30_encoding.md R92) in IDLE; in ERROR every command but CLEAR is ignored (R93, R258). -/
def decodeCommand (ph : Phase) (op : BitVec 2) : Except DecodeError Instr :=
  match ph with
  | .idle =>
    if op = 1#2 then .ok .cmdCompress
    else if op = 2#2 then .ok .cmdDecompress
    else if op = 3#2 then .ok .cmdClear
    else .ok .cmdReserved
  | .error => if op = 3#2 then .ok .cmdClear else .ok (.cmdIgnored op)
  | _ => .error .noCommandInPhase

/-- Input beats by phase and kind (30_encoding.md R114, 46_codec_commands.md R257). -/
def decodeInput (ph : Phase) (one : Bool) (w : BitVec 10) : Except DecodeError Instr :=
  match ph, beatKind w with
  | .scan, .data b => .ok (.freqCount b)
  | .scan, .endOfStream => .ok .scanEnd
  | .scan, .fail => .ok .scanFail
  | .encode, .data b => .ok (.encSym b)
  | .encode, .endOfStream => .ok .encEnd
  | .encode, .fail => .ok .encFail
  | .dCount, .data b => .ok (.decCount b)
  | .dCount, .endOfStream => .ok .decTruncCount
  | .dCount, .fail => .ok .decSrcfailCount
  | .dTree, .data b => .ok (if one then .decTree1 b else .decTree b)
  | .dTree, .endOfStream => .ok .decTruncTree
  | .dTree, .fail => .ok .decSrcfailTree
  | .dPad, .data b => .ok (.decPad b)
  | .dPad, .endOfStream => .ok .decTruncPad
  | .dPad, .fail => .ok .decSrcfailPad
  | .dPayload, .data b => .ok (.decData b)
  | .dPayload, .endOfStream => .ok .decEnd
  | .dPayload, .fail => .ok .decFail
  | _, _ => .error .noInputInPhase

/-- Output beats (30_encoding.md R97): bit 8 is out_end. DESIGN CHOICE (log 28): a word with out_end = 1 and out_data other than 0x00,
which R97 never produces, is read as the end beat, whatever its data. -/
def decodeOutput (w : BitVec 9) : Instr :=
  if w.getLsbD 8 then .outEnd else .outData (w.setWidth 8)

/-- Tokens (30_encoding.md R104): the first bit tells the length. -/
def decodeToken (c : Bits) : Except DecodeError Instr :=
  match c with
  | [false] => .ok .tInternal
  | true :: y => if y.length = 8 then .ok (.tLeaf (byteOfBits y)) else .error .notAToken
  | _ => .error .notAToken

/-- The internal steps (46_codec_commands.md R259). -/
def decodeInternal (ph : Phase) : Except DecodeError Instr :=
  match ph with
  | .build => .ok .build
  | .derive => .ok .derive
  | .emitHdr => .ok .emitHdr
  | _ => .error .noInternalStepInPhase

/-- The decoder: what selects, and the bits. Total; a word that fits no row is rejected by name. -/
def decode (sel : Selector) (w : Word) : Except DecodeError Instr :=
  match sel, w with
  | .command ph, .cmd op => decodeCommand ph op
  | .input ph one, .inBeat v => decodeInput ph one v
  | .output, .outBeat v => .ok (decodeOutput v)
  | .artN, .bytes [b] => .ok (.artN b)
  | .artTree1, .bytes [b] => .ok (.artTree1 b)
  | .token, .bits c => decodeToken c
  | .treePad, .bits c =>
    if 1 ≤ c.length ∧ c.length ≤ 7 then .ok (.artTreepad c.length) else .error .notTreePad
  | .artPad, .bytes [b] => if b.toNat ≤ 7 then .ok (.artPad (b.setWidth 3)) else .error .padAboveSeven
  | .payload, .bytes bs => .ok (.artPayload bs)
  | .codeBits, .bits c =>
    if 1 ≤ c.length ∧ c.length ≤ codeMax then .ok (.code c) else .error .notACode
  | .internal ph, .noBits => decodeInternal ph
  | .reset, .noBits => .ok .reset
  | _, _ => .error .wrongFormat

/-! ## Encoding -/

/-- The INBEAT word of a DATA beat: in_fail = 0, in_end = 0 (30_encoding.md R95). -/
def dataBeat (b : Byte) : BitVec 10 := 0#2 ++ b

/-- The INBEAT word of an END beat, its ignored bits 0 (30_encoding.md R95, R96). -/
def endBeat : BitVec 10 := 0x100#10

/-- The INBEAT word of a FAIL beat, its ignored bits 0 (30_encoding.md R95, R96). -/
def failBeat : BitVec 10 := 0x200#10

/-- What selects an operation and the word that encodes it, from the tables of 30_encoding.md; `none` for a sub-operation,
which no event selects and which has no word (R114). -/
def encode : Instr → Option (Selector × Word)
  | .cmdCompress => some (.command .idle, .cmd 1#2)
  | .cmdDecompress => some (.command .idle, .cmd 2#2)
  | .cmdClear => some (.command .idle, .cmd 3#2)
  | .cmdReserved => some (.command .idle, .cmd 0#2)
  | .cmdIgnored op => some (.command .error, .cmd op)
  | .freqCount b => some (.input .scan false, .inBeat (dataBeat b))
  | .scanEnd => some (.input .scan false, .inBeat endBeat)
  | .scanFail => some (.input .scan false, .inBeat failBeat)
  | .encSym b => some (.input .encode false, .inBeat (dataBeat b))
  | .encEnd => some (.input .encode false, .inBeat endBeat)
  | .encFail => some (.input .encode false, .inBeat failBeat)
  | .decCount b => some (.input .dCount false, .inBeat (dataBeat b))
  | .decTruncCount => some (.input .dCount false, .inBeat endBeat)
  | .decSrcfailCount => some (.input .dCount false, .inBeat failBeat)
  | .decTree1 b => some (.input .dTree true, .inBeat (dataBeat b))
  | .decTree b => some (.input .dTree false, .inBeat (dataBeat b))
  | .decTruncTree => some (.input .dTree false, .inBeat endBeat)
  | .decSrcfailTree => some (.input .dTree false, .inBeat failBeat)
  | .decPad b => some (.input .dPad false, .inBeat (dataBeat b))
  | .decTruncPad => some (.input .dPad false, .inBeat endBeat)
  | .decSrcfailPad => some (.input .dPad false, .inBeat failBeat)
  | .decData b => some (.input .dPayload false, .inBeat (dataBeat b))
  | .decEnd => some (.input .dPayload false, .inBeat endBeat)
  | .decFail => some (.input .dPayload false, .inBeat failBeat)
  | .outData b => some (.output, .outBeat (0#1 ++ b))
  | .outEnd => some (.output, .outBeat 0x100#9)
  | .artN n => some (.artN, .bytes [n])
  | .artTree1 y => some (.artTree1, .bytes [y])
  | .tInternal => some (.token, .bits [false])
  | .tLeaf y => some (.token, .bits (true :: bitsOfByte y))
  | .artTreepad n => some (.treePad, .bits (List.replicate n false))
  | .artPad p => some (.artPad, .bytes [0#5 ++ p])
  | .artPayload bs => some (.payload, .bytes bs)
  | .code c => some (.codeBits, .bits c)
  | .build => some (.internal .build, .noBits)
  | .derive => some (.internal .derive, .noBits)
  | .emitHdr => some (.internal .emitHdr, .noBits)
  | .reset => some (.reset, .noBits)
  | .freqClear | .pqInsert _ _ | .pqExtractMin | .pqInit | .merge => none
  | .codeClear | .codeAssign _ _ | .codeAssign1 | .codeLookup _ | .padPredict => none
  | .wPutbit _ | .wPutbits _ | .wFlush | .wPutbyte _ | .rBits _ _ => none
  | .hdrCount | .hdrTree1 | .hdrTree | .hdrPad => none
  | .treeFlag _ | .treeSymbit _ | .treeAttach _ | .treeComplete => none
  | .walkBit _ | .walkBit1 _ | .errorEntry _ _ _ => none

/-! ## The table's words -/

/-- The selector under which a word of `nbits` bits is read when nothing else is known. DESIGN CHOICE (log 10): the rows of
one format differ by what selects them, not by their bits (30_encoding.md R90, R114), so one place has to be fixed: a word of
up to 8 bits is a command in IDLE, a longer one an input beat in SCAN, the first rows of the table with those formats. -/
def tableSelector (nbits : Nat) : Selector :=
  if nbits ≤ 8 then .command .idle else .input .scan false

/-- The word of `nbits` bits with value `w`; none where the value does not fit the format of R90. -/
def tableWord (nbits w : Nat) : Option Word :=
  if nbits ≤ 8 then
    if w < 4 then some (.cmd (BitVec.ofNat 2 w)) else none
  else
    if w < 1024 then some (.inBeat (BitVec.ofNat 10 w)) else none

/-- The operation the decoder reads from a word numbered as spec/opcode_table.json numbers its bits (log 10). -/
def decodeTableWord (nbits w : Nat) : Option Instr :=
  match tableWord nbits w with
  | none => none
  | some word =>
    match decode (tableSelector nbits) word with
    | .ok i => some i
    | .error _ => none

end Sys2Proof
end

