-- ==== Sys2Proof/Machine/State.lean ====
section
/-! DEFINITION. The state of HUFFCORE as plain data (10_state.md R20), the ways a step can stop, and the state right after
reset (10_state.md R45, 70_reset_and_hazards.md R311). Counts, sizes and indices are natural numbers; the width each register
has in the spec stands at its field, and Sys2Proof/Safety.lean states that every step keeps every register inside it (00_scope.md R16;
log 6). Bytes are bit vectors. -/

namespace Sys2Proof.Machine

/-! ## Elements of the internal arrays and of the streams -/

/-- An internal array: pairs of an index and its element, the indices strictly rising; an index that is not listed has not been
written by the current transaction and reads as no value (10_state.md R45, 70_reset_and_hazards.md R311,
93_implementation_defined.md V1; log 4). -/
abbrev Memory (α : Type) := List (Nat × α)

/-- The index spaces of 20_memory.md R61 that are arrays. -/
inductive Space where
  | freq
  | node
  | code
  | pstack
  | seen
  deriving DecidableEq, Repr

/-- The groups of registers and arrays that 10_state.md R47 gives one meaningful range each. -/
inductive Group where
  /-- FREQ, `total`. -/
  | counts
  /-- `nsym`. -/
  | symbols
  /-- NODE, `root`, `seq`, PQ. -/
  | tree
  /-- CODE. -/
  | codebook
  /-- `paybits`. -/
  | paybits
  /-- `pad`. -/
  | pad
  /-- `bitcnt`, `w_acc`, `w_n`. -/
  | writer
  /-- `hold`, `hold_v`, `cur`. -/
  | reader
  /-- The parser registers, PSTACK, SEEN. -/
  | parser
  deriving DecidableEq, Repr

/-- One entry of NODE (10_state.md R31). `freq` is absent where no compress has written it: DEC.TREE writes the other
fields only (44_framing.md R217, R219, R220; log 17). -/
structure Node where
  /-- 1 bit: true for a leaf. -/
  leaf : Bool
  /-- 8 bits, meaningful only in a leaf. -/
  sym : Byte
  /-- CNT_W bits, meaningful only in compress. -/
  freq : Option Nat
  /-- 9 bits, meaningful only in an internal node. -/
  left : Nat
  /-- 9 bits, meaningful only in an internal node. -/
  right : Nat
  deriving DecidableEq, Repr

/-- One entry of CODE (10_state.md R32): `bits` holds the `len` meaningful bits, first edge first (log 16). -/
structure CodeEntry where
  /-- 8 bits, 0..255; 0 means the symbol has no code. -/
  len : Nat
  /-- At most 255 bits. -/
  bits : Bits
  deriving DecidableEq, Repr

/-- One entry of PQ (10_state.md R33). -/
structure PqEntry where
  /-- CNT_W bits. -/
  freq : Nat
  /-- 9 bits. -/
  seq : Nat
  /-- 9 bits. -/
  node : Nat
  deriving DecidableEq, Repr

/-- The values of `t_state` (10_state.md R36). -/
inductive TreeState where
  | flag
  | sym
  deriving DecidableEq, Repr

/-- An output beat `{out_end, out_data}` (30_encoding.md R97). -/
structure OutBeat where
  isEnd : Bool
  data : Byte
  deriving DecidableEq, Repr

/-- The values the host drives on the input ports at one rising edge of `clk` (10_state.md R43). -/
structure PortsIn where
  rst : Bool
  cmdValid : Bool
  cmdOp : BitVec 2
  inValid : Bool
  inData : Byte
  inEnd : Bool
  inFail : Bool
  outReady : Bool
  deriving DecidableEq, Repr

/-- The value that a sub-operation returns (41_tree_build.md R143, 42_codebook.md R165, 43_bitstream.md R178, R182,
44_framing.md R220, R222), kept when the sub-operation is run as an operation of its own (log 7). -/
inductive Ret where
  | none
  /-- PQ.EXTRACT_MIN returns (f, k). -/
  | entry (f k : Nat)
  /-- CODE.LOOKUP returns (len, bits); no bits when `len` is 0, where they are unspecified (R165). -/
  | code (len : Nat) (bits : Option Bits)
  /-- W.FLUSH returns the number of pad bits. -/
  | padCount (p : Nat)
  /-- R.BITS returns a bit sequence. -/
  | bits (c : Bits)
  /-- TREE.SYMBIT and TREE.COMPLETE tell whether the tree is complete. -/
  | complete (c : Bool)
  deriving DecidableEq, Repr

/-! ## The ways a step can stop -/

/-- A fault of the MODEL, not of HUFFCORE: HUFFCORE's own errors are next states (60_exceptions.md R290). Each is safe (the
model stops where no rule says what happens), and no state a run reaches raises one (46_codec_commands.md R260). -/
inductive Fault where
  /-- Raised by every operation that reads a group outside the range in which 10_state.md R47 calls it meaningful ("a model
  should treat a read outside these ranges as a fault of the model"; log 23). Safe. -/
  | outsideRange (g : Group)
  /-- Raised by every operation that reads an array element the current transaction has not written (10_state.md R47,
  70_reset_and_hazards.md R311, 93_implementation_defined.md V1; log 4). Safe. -/
  | unwritten (sp : Space) (i : Nat)
  /-- Raised by BUILD's, MERGE's and the tree parser's writes at an index the array has not (20_memory.md R61). Safe. -/
  | noSuchElement (sp : Space) (i : Nat)
  /-- Raised by PQ.INSERT when PQ already holds 256 entries (10_state.md R33). Safe. -/
  | queueFull
  /-- Raised by PQ.EXTRACT_MIN when PQ is empty: its precondition (41_tree_build.md R143). Safe. -/
  | queueEmpty
  /-- Raised by TREE.ATTACH when it pops an empty PSTACK (44_framing.md R221). Safe. -/
  | stackEmpty
  /-- Raised by CODE.ASSIGN and HDR.TREE when a path is longer than 255 bits: the traversal stack and the current path have
  no more room (10_state.md R39). Safe. -/
  | traversalTooDeep
  deriving DecidableEq, Repr

/-- The machine has no meaning for what it was asked to run. -/
inductive Refusal where
  /-- Raised by `exec` for an operation without a meaning; no operation is without one. Safe. -/
  | notModelled (mnemonic : String)
  /-- Raised by `step` if the decoder rejects what the handshake let through; it never does (30_encoding.md R94, R98, R114).
  Safe. -/
  | notSelected
  deriving DecidableEq, Repr

/-! ## The state -/

/-- What earlier transactions have left in the arrays: "the storage persists between transactions" (R20). No operation of a later
transaction can read it (70_reset_and_hazards.md R311; log 4). -/
structure Arrays where
  /-- FREQ (R30). -/
  freq : Memory Nat
  /-- NODE (R31). -/
  node : Memory Node
  /-- CODE (R32). -/
  code : Memory CodeEntry
  /-- The PSTACK entries (R37). -/
  pstack : Memory Nat
  /-- SEEN (R37). -/
  seen : Memory Bool
  deriving DecidableEq, Repr

/-- Nothing is known of what the arrays hold (R45; log 5). -/
def Arrays.unspecified : Arrays where
  freq := []
  node := []
  code := []
  pstack := []
  seen := []

/-- The state of HUFFCORE (10_state.md R20), with the parameter and the host's side of the ports (log 1, 2, 7). -/
structure State where
  /-- The parameter CNT_W (00_scope.md R9); never written (log 1). -/
  cfg : Config
  -- control and status registers, 10_state.md section 2
  /-- 4 bits (R21). -/
  phase : Phase
  /-- 1 bit (R22). -/
  doneOk : Bool
  /-- 4 bits (R23). -/
  err : ErrCode
  /-- 4 bits (R23). -/
  errInfo : BitVec 4
  /-- 4 bits: the phase in which the error was raised; IDLE is code 0 (R23). -/
  errPhase : Phase
  /-- 8 bits (R23). -/
  errData : Byte
  /-- CNT_W bits (R24). -/
  total : Nat
  /-- 9 bits, 0..256 (R25). -/
  nsym : Nat
  /-- 9 bits (R26). -/
  root : Nat
  /-- 9 bits, 0..511 (R27). -/
  seq : Nat
  /-- 9 bits, 0..256 (R27). -/
  pqCount : Nat
  /-- CNT_W + 8 bits (R28). -/
  paybits : Nat
  /-- CNT_W + 8 bits (R28). -/
  bitcnt : Nat
  /-- 3 bits (R29). -/
  pad : Nat
  -- internal arrays, 10_state.md section 4: of FREQ, NODE, CODE, PSTACK and SEEN the elements that the current transaction, or the
  -- last one, has written; what an array holds besides stands in `old` (log 4)
  /-- FREQ[0..255] of CNT_W bits (R30). -/
  freq : Memory Nat
  /-- NODE[0..510] (R31). -/
  node : Memory Node
  /-- CODE[0..255] (R32). -/
  code : Memory CodeEntry
  /-- PQ, at most 256 entries, in the order inserted (R33; log 18). -/
  pq : List PqEntry
  /-- PSTACK[0..254] of 9 bits (R37). -/
  pstack : Memory Nat
  /-- 8 bits, 0..255 (R37). -/
  psN : Nat
  /-- SEEN[0..255] of 1 bit (R37). -/
  seen : Memory Bool
  /-- What earlier transactions left in the five arrays (R20; log 4). -/
  old : Arrays
  -- bit-level registers, 10_state.md section 5
  /-- 8 bits (R34). -/
  wAcc : Byte
  /-- 3 bits, 0..7 (R34). -/
  wN : Nat
  /-- 8 bits (R35). -/
  hold : Byte
  /-- 1 bit (R35). -/
  holdV : Bool
  /-- 9 bits (R35). -/
  cur : Nat
  /-- 1 bit (R36). -/
  tState : TreeState
  /-- 8 bits (R36). -/
  tSym : Byte
  /-- 4 bits, 0..8 (R36). -/
  tSymn : Nat
  /-- 9 bits, 0..511 (R36). -/
  tNodes : Nat
  /-- 9 bits, 0..256 (R36). -/
  tLeaves : Nat
  /-- 9 bits, 0..255 (R36). -/
  tInts : Nat
  /-- 1 bit (R36). -/
  tLwi : Bool
  -- output queue, 10_state.md section 6
  /-- The beats produced and not yet transferred, oldest first (R38). -/
  oq : List OutBeat
  -- the host's side, 10_state.md R43, R46 (log 2)
  /-- What the host drives on the input ports at the coming edges; after the last of them, an idle host. -/
  ports : List PortsIn
  /-- The output beats the host has taken, oldest first. -/
  taken : List OutBeat
  /-- The model's own: the value last returned by a sub-operation run on its own; no rule reads it (log 7). -/
  ret : Ret
  /-- The model's own: how many free values have been read, so that each read gets one of its own (log 22). -/
  draws : Nat
  /-- The model's own: a command has been ignored in ERROR (46_codec_commands.md R258), which ends the ranges of R47 there (log 23,
  24). -/
  rangesEnded : Bool
  deriving DecidableEq, Repr

/-- The machine right after reset (10_state.md R45). The arrays are unspecified: nothing is written (log 5). CNT_W is the spec's
default (log 1); the host's side is idle and has taken nothing (log 2). -/
def State.reset : State where
  cfg := Config.standard
  phase := .idle
  doneOk := false
  err := .none
  errInfo := 0#4
  errPhase := .idle
  errData := 0#8
  total := 0
  nsym := 0
  root := 0
  seq := 0
  pqCount := 0
  paybits := 0
  bitcnt := 0
  pad := 0
  freq := []
  node := []
  code := []
  pq := []
  pstack := []
  psN := 0
  seen := []
  old := Arrays.unspecified
  wAcc := 0#8
  wN := 0
  hold := 0#8
  holdV := false
  cur := 0
  tState := .flag
  tSym := 0#8
  tSymn := 0
  tNodes := 0
  tLeaves := 0
  tInts := 0
  tLwi := false
  oq := []
  ports := []
  taken := []
  ret := .none
  draws := 0
  rangesEnded := false

/-! ## The outcome of an operation that may return a value or raise an error -/

/-- What an operation or sub-operation does: it returns a value and goes on (`ok`), it raised an error and the event is over
(`raised`: 00_scope.md R15, "no later statement of the rule is executed"), or the model stops (`fault`). -/
inductive Res (α : Type) where
  | ok (a : α) (s : State)
  | raised (s : State)
  | fault (f : Fault)
  deriving DecidableEq, Repr

end Sys2Proof.Machine
end

