-- ==== Sys2Proof/Machine/Ops.lean ====
section
/-! DEFINITION. The named operations every meaning is written with: sequencing of results, the arrays (20_memory.md R61),
the output stream (30_encoding.md R97), error entry (60_exceptions.md R290) and the return from it (R293), and the host's side
of an edge (20_memory.md R75). -/

namespace Sys2Proof.Machine

/-! ## Sequencing -/

/-- Go on with the returned value; a raised error or a fault ends the event (00_scope.md R15). -/
def Res.bind {α β : Type} (r : Res α) (k : α → State → Res β) : Res β :=
  match r with
  | .ok a s => k a s
  | .raised s => .raised s
  | .fault f => .fault f

/-- Go on with a value-free operation. -/
def Res.next {β : Type} (r : Res Unit) (k : State → Res β) : Res β :=
  r.bind fun _ s => k s

/-- The outcome of a whole event: an error that was raised is a next state (60_exceptions.md R290). -/
def Res.outcome (r : Res Unit) : Host.Outcome State Fault Refusal :=
  match r with
  | .ok _ s => .next s
  | .raised s => .next s
  | .fault f => .fault f

/-- The outcome of a sub-operation run on its own: its value is kept in `ret` (log 7). -/
def Res.outcomeRet {α : Type} (r : Res α) (f : α → Ret) : Host.Outcome State Fault Refusal :=
  match r with
  | .ok a s => .next { s with ret := f a }
  | .raised s => .next s
  | .fault f => .fault f

/-! ## Arrays -/

/-- The element at an index; no value where nothing has written one (93_implementation_defined.md V1). -/
def Memory.read {α : Type} (m : Memory α) (i : Nat) : Option α :=
  match m with
  | [] => none
  | (j, a) :: rest => if i = j then some a else Memory.read rest i

/-- Write one element (20_memory.md R67), keeping the indices strictly rising. -/
def Memory.write {α : Type} (m : Memory α) (i : Nat) (a : α) : Memory α :=
  match m with
  | [] => [(i, a)]
  | (j, b) :: rest =>
    if i < j then (i, a) :: (j, b) :: rest
    else if i = j then (i, a) :: rest
    else (j, b) :: Memory.write rest i a

/-- Write the same value at every index below `n` ("for s in 0..255: X[s] <- v"): the array then has exactly these
elements. -/
def Memory.fill {α : Type} (n : Nat) (v : α) : Memory α :=
  (List.range n).map fun i => (i, v)

/-- The elements of `m`, and below them those of `base`. -/
def Memory.over {α : Type} (m base : Memory α) : Memory α :=
  match m with
  | [] => base
  | (i, a) :: rest => Memory.write (Memory.over rest base) i a

/-- The canonical form: indices strictly rising and below the size of the space. -/
def Memory.wf {α : Type} (size : Nat) (m : Memory α) : Bool :=
  match m with
  | [] => true
  | [(i, _)] => decide (i < size)
  | (i, _) :: (j, b) :: rest => decide (i < j) && Memory.wf size ((j, b) :: rest)

/-- What FREQ[i] holds, whichever transaction wrote it (10_state.md R20, R30); no value where it is unspecified. -/
def State.freqAt (s : State) (i : Nat) : Option Nat := (Memory.read s.freq i).or (Memory.read s.old.freq i)

/-- What NODE[k] holds (R20, R31). -/
def State.nodeAt (s : State) (k : Nat) : Option Node := (Memory.read s.node k).or (Memory.read s.old.node k)

/-- What CODE[i] holds (R20, R32). -/
def State.codeAt (s : State) (i : Nat) : Option CodeEntry := (Memory.read s.code i).or (Memory.read s.old.code i)

/-- What PSTACK[i] holds (R20, R37). -/
def State.pstackAt (s : State) (i : Nat) : Option Nat := (Memory.read s.pstack i).or (Memory.read s.old.pstack i)

/-- What SEEN[i] holds (R20, R37). -/
def State.seenAt (s : State) (i : Nat) : Option Bool := (Memory.read s.seen i).or (Memory.read s.old.seen i)

/-- The arrays as they stand, all of it left behind for the next transaction (R20; log 4). -/
def State.arrays (s : State) : Arrays where
  freq := Memory.over s.freq s.old.freq
  node := Memory.over s.node s.old.node
  code := Memory.over s.code s.old.code
  pstack := Memory.over s.pstack s.old.pstack
  seen := Memory.over s.seen s.old.seen

/-- Read an element of an array for an operation: an unwritten one is a fault of the model (10_state.md R47). -/
def readAt {α : Type} (sp : Space) (m : Memory α) (i : Nat) (s : State) : Res α :=
  match Memory.read m i with
  | some a => .ok a s
  | none => .fault (.unwritten sp i)

/-- FREQ[i] (10_state.md R30). -/
def readFreq (i : Nat) (s : State) : Res Nat := readAt .freq s.freq i s

/-- NODE[k] (10_state.md R31). -/
def readNode (k : Nat) (s : State) : Res Node := readAt .node s.node k s

/-- CODE[i] (10_state.md R32). -/
def readCode (i : Nat) (s : State) : Res CodeEntry := readAt .code s.code i s

/-- SEEN[i] (10_state.md R37). -/
def readSeen (i : Nat) (s : State) : Res Bool := readAt .seen s.seen i s

/-- NODE[k].sym, meaningful only in a leaf (10_state.md R31); in an internal node any value (93_implementation_defined.md V2;
log 14, 22). -/
def readSym (k : Nat) (s : State) : Res Byte :=
  (readNode k s).bind fun n s =>
    if n.leaf then .ok n.sym s else .ok (Config.freeSym s.draws) { s with draws := s.draws + 1 }

/-- NODE[k].right or NODE[k].left, meaningful only in an internal node (10_state.md R31); in a leaf any 9-bit index
(93_implementation_defined.md V2; log 14, 22). -/
def readChild (x : Bool) (k : Nat) (s : State) : Res Nat :=
  (readNode k s).bind fun n s =>
    if n.leaf then .ok (Config.freeIndex s.draws).toNat { s with draws := s.draws + 1 }
    else .ok (if x then n.right else n.left) s

/-- NODE[k] <- n; NODE has the indices 0..510 (10_state.md R31; log 15). -/
def writeNode (k : Nat) (n : Node) (s : State) : Res Unit :=
  if k < nodeMax then .ok () { s with node := Memory.write s.node k n }
  else .fault (.noSuchElement .node k)

/-- NODE[k] <- {leaf, sym, left = 0, right = 0}, `freq` not written (44_framing.md R217, R219, R220): it stays what it was
(log 17). -/
def writeTreeNode (k : Nat) (leaf : Bool) (y : Byte) (s : State) : Res Unit :=
  writeNode k
    { leaf := leaf, sym := y, freq := (s.nodeAt k).bind Node.freq, left := 0, right := 0 } s

/-! ## Meaningful ranges (10_state.md R47; log 23) -/

/-- The phases in which a group is meaningful. `nsym` is meaningful also once DEC.COUNT has written it (44_framing.md R215,
46_codec_commands.md R260), and CODE also inside DERIVE, once CODE.CLEAR has written it (42_codebook.md R166 reads it there).
DESIGN CHOICE (log 24): the group `tree` is meaningful as a whole in D_TREE, D_PAD and D_PAYLOAD, `root` also before the tree is
complete and `seq` and PQ although no rule of a decompress writes them; R47's "as parsed so far in D_TREE" leaves this open. A read
there gives the value the register or queue has kept. An element of NODE that the parser has not written faults in any case. -/
def Group.duringPhase (g : Group) (ph : Phase) : Bool :=
  match g, ph with
  | .counts, .scan | .counts, .build | .counts, .derive | .counts, .emitHdr | .counts, .encode => true
  | .symbols, .scan | .symbols, .build | .symbols, .derive | .symbols, .emitHdr | .symbols, .encode => true
  | .symbols, .dTree | .symbols, .dPad | .symbols, .dPayload => true
  | .tree, .build | .tree, .derive | .tree, .emitHdr | .tree, .encode => true
  | .tree, .dTree | .tree, .dPad | .tree, .dPayload => true
  | .codebook, .derive | .codebook, .emitHdr | .codebook, .encode => true
  | .paybits, .emitHdr | .paybits, .encode => true
  | .pad, .emitHdr | .pad, .encode | .pad, .dPayload => true
  | .writer, .emitHdr | .writer, .encode => true
  | .reader, .dPayload => true
  | .parser, .dTree => true
  | _, _ => false

/-- The groups that stay meaningful in IDLE after a transaction that succeeded: what a compress counted and coded (its arrays
are then listed), and what any transaction left of the tree, `nsym` and `pad`. DESIGN CHOICE (log 24): R47 gives NODE, CODE,
`paybits` and `pad` no end, and in the model their ranges end with the next command. -/
def Group.afterSuccess (g : Group) (s : State) : Bool :=
  match g with
  | .counts => !s.freq.isEmpty
  | .codebook | .paybits => !s.code.isEmpty
  | .symbols | .tree | .pad => true
  | .writer | .reader | .parser => false

/-- The groups that stay meaningful in ERROR, by the phase in which the error was raised: those whose range R47 carries on from
that phase ("from ... on", "until the next CLEAR, reset or command"). The writer, the reader and the parser have ranges in the phases
that use them only, and the tree "as parsed so far" in D_TREE only; CODE is meaningful from the end of DERIVE. -/
def Group.inError (g : Group) (raisedIn : Phase) : Bool :=
  match g with
  | .counts | .symbols | .paybits | .pad => g.duringPhase raisedIn
  | .tree => g.duringPhase raisedIn && raisedIn != .dTree
  | .codebook => g.duringPhase raisedIn && raisedIn != .derive
  | .writer | .reader | .parser => false

/-- Whether a group may be read. In ERROR every register and array keeps the value it had (R47), and a command that is ignored there
ends the ranges. DESIGN CHOICE (log 24): R47 says so of FREQ, `total` and `nsym` and gives NODE, CODE, `paybits` and `pad` no end;
in the model every command ends them too, so in ERROR entered from IDLE (CMD.RESERVED, also after a success) no group is meaningful,
and neither in ERROR entered by ERROR.ENTRY run in ERROR. -/
def State.meaningful (s : State) (g : Group) : Bool :=
  match s.phase with
  | .idle => s.doneOk && g.afterSuccess s
  | .error => !s.rangesEnded && g.inError s.errPhase
  | ph => g.duringPhase ph

/-- Run an operation that reads the given groups; a read outside its range is a fault of the model (R47). -/
def reading (gs : List Group) (s : State) (o : Host.Outcome State Fault Refusal) : Host.Outcome State Fault Refusal :=
  match gs with
  | [] => o
  | g :: rest => if s.meaningful g then reading rest s o else .fault (.outsideRange g)

/-! ## The output stream -/

/-- Append a beat to the output queue (10_state.md R38). -/
def pushBeat (b : OutBeat) (s : State) : State := { s with oq := s.oq ++ [b] }

/-- `emit(b)`: the data beat `{0, b}` (30_encoding.md R97). -/
def emit (b : Byte) (s : State) : State := pushBeat { isEnd := false, data := b } s

/-- `emit_end()`: the end beat `{1, 0x00}` (30_encoding.md R97). -/
def emitEnd (s : State) : State := pushBeat { isEnd := true, data := 0#8 } s

/-- An output transfer: the head of `oq` goes to the host (20_memory.md R71, R75; 10_state.md R38). -/
def transferOutput (s : State) : State :=
  match s.oq with
  | [] => s
  | b :: rest => { s with oq := rest, taken := s.taken ++ [b] }

/-! ## Errors -/

/-- Error entry, the meaning of `raise E(info, data)` (60_exceptions.md R290): the record gets the code, the sub-cause, the
byte and the phase in which the error was raised, and the phase becomes ERROR. Nothing else changes (log 21). -/
def raise (e : ErrCode) (info : BitVec 4) (data : Byte) (s : State) : State :=
  { s with err := e, errInfo := info, errData := data, errPhase := s.phase, phase := .error }

/-- `raise` inside an event: the event ends (00_scope.md R15). -/
def raising {α : Type} (e : ErrCode) (info : BitVec 4) (data : Byte) (s : State) : Res α :=
  .raised (raise e info data s)

/-- The only way out of ERROR (60_exceptions.md R293): every register and queue takes its value of 10_state.md R45 and the
arrays become unspecified. The parameter and the host's side are no state of HUFFCORE and stay (R46; log 2). -/
def resetBlock (s : State) : State :=
  { State.reset with cfg := s.cfg, ports := s.ports, taken := s.taken, draws := s.draws }

/-! ## The host's side of an edge -/

/-- An idle host: `rst`, every valid and `out_ready` are 0. -/
def PortsIn.idle : PortsIn where
  rst := false
  cmdValid := false
  cmdOp := 0#2
  inValid := false
  inData := 0#8
  inEnd := false
  inFail := false
  outReady := false

/-- What the host drives at the coming edge. -/
def State.edge (s : State) : PortsIn :=
  match s.ports with
  | [] => PortsIn.idle
  | p :: _ => p

/-- The edge has passed. -/
def State.tick (s : State) : State := { s with ports := s.ports.tail }

end Sys2Proof.Machine
end

