-- ==== Sys2Proof/Machine/Operands.lean ====
section
/-! DEFINITION. The operand forms: the INBEAT word on the input ports (30_encoding.md R95), the command on the command port
(R91), the N byte (R101), the pad byte (R107), the sub-causes of the errors (60_exceptions.md R281), and the numeric codes of
`phase` and `err` that the status ports show (10_state.md R21, R44). -/

namespace Sys2Proof.Machine

/-- The INBEAT word on the input ports: `{in_fail, in_end, in_data}` (30_encoding.md R95). -/
def PortsIn.beat (p : PortsIn) : BitVec 10 :=
  (BitVec.ofBool p.inFail ++ BitVec.ofBool p.inEnd) ++ p.inData

/-- N byte to count: 0x00 means 256 (30_encoding.md R101, 44_framing.md R215). -/
def countOfByte (b : Byte) : Nat := if b = 0#8 then 256 else b.toNat

/-- Count to N byte: N mod 256 (30_encoding.md R101, 44_framing.md R196). -/
def byteOfCount (n : Nat) : Byte := BitVec.ofNat 8 (n % 256)

/-- The pad-bit count that completes a number of bits to whole bytes (00_scope.md R16, 42_codebook.md R166). -/
def padOf (nbits : Nat) : Nat := (8 - nbits % 8) % 8

/-- `err_info` codes (60_exceptions.md R281). -/
def infoNone : BitVec 4 := 0#4
/-- PASS_MISMATCH, sub-cause TOO_LONG. -/
def infoTooLong : BitVec 4 := 1#4
/-- PASS_MISMATCH, sub-cause TOO_SHORT. -/
def infoTooShort : BitVec 4 := 2#4
/-- CORRUPT_ARTIFACT, sub-cause TRUNCATED. -/
def infoTruncated : BitVec 4 := 1#4
/-- CORRUPT_ARTIFACT, sub-cause SOURCE_FAIL. -/
def infoSourceFail : BitVec 4 := 2#4
/-- CORRUPT_ARTIFACT, sub-cause BAD_TREE. -/
def infoBadTree : BitVec 4 := 3#4
/-- CORRUPT_ARTIFACT, sub-cause DUP_SYMBOL. -/
def infoDupSymbol : BitVec 4 := 4#4
/-- CORRUPT_ARTIFACT, sub-cause BAD_PAD. -/
def infoBadPad : BitVec 4 := 5#4
/-- CORRUPT_ARTIFACT, sub-cause PAD_EXCEEDS. -/
def infoPadExceeds : BitVec 4 := 6#4
/-- CORRUPT_ARTIFACT, sub-cause MID_PATH. -/
def infoMidPath : BitVec 4 := 7#4

/-- The 4-bit value of `phase` and `err_phase` (10_state.md R21). -/
def phaseCode : Phase → BitVec 4
  | .idle => 0#4
  | .scan => 1#4
  | .build => 2#4
  | .derive => 3#4
  | .emitHdr => 4#4
  | .encode => 5#4
  | .dCount => 6#4
  | .dTree => 7#4
  | .dPad => 8#4
  | .dPayload => 9#4
  | .error => 15#4

/-- The 4-bit value of `err` (60_exceptions.md R281). -/
def errCode : ErrCode → BitVec 4
  | .none => 0#4
  | .inputRead => 1#4
  | .emptyInput => 2#4
  | .countOverflow => 3#4
  | .unknownSymbol => 4#4
  | .passMismatch => 5#4
  | .corruptArtifact => 6#4
  | .illegalCmd => 7#4

end Sys2Proof.Machine
end

