-- ==== Sys2Proof/Machine/BitStream.lean ====
section
/-! DEFINITION. The bit-stream writer and reader (43_bitstream.md). -/

namespace Sys2Proof.Machine

/-! ## Writer (R175 to R180) -/

/-- `v[i] <- x` (00_scope.md R14): one bit of a byte is replaced. -/
def setBit (v : Byte) (i : Nat) (x : Bool) : Byte :=
  if x then v ||| (1#8 <<< i) else v &&& ~~~(1#8 <<< i)

/-- W.PUTBIT (R176). -/
def putBit (x : Bool) (s : State) : State :=
  let acc := setBit s.wAcc (7 - s.wN) x
  if s.wN = 7 then emit acc { s with wAcc := 0#8, wN := 0 }
  else { s with wAcc := acc, wN := s.wN + 1 }

/-- W.PUTBITS (R177): first bit of the string first. -/
def putBits (c : Bits) (s : State) : State :=
  match c with
  | [] => s
  | x :: rest => putBits rest (putBit x s)

/-- The value W.FLUSH returns (R178). -/
def flushCount (s : State) : Nat := (8 - s.wN) % 8

/-- W.FLUSH (R178): an unfinished byte leaves with its low bits 0. -/
def flush (s : State) : State :=
  if s.wN > 0 then emit s.wAcc { s with wAcc := 0#8, wN := 0 } else s

/-- W.PUTBYTE (R179): a whole byte on a byte boundary. DESIGN CHOICE (log 25): with its precondition `w_n == 0` broken it has the
effect of its pseudocode, so the byte goes out before the bits that wait in `w_acc`, and these stay. -/
def putByte (v : Byte) (s : State) : State := emit v s

/-! ## Reader (R181, R182) -/

/-- R.BITS(v, n): the n most significant bits, most significant first (R182). -/
def rBits (v : Byte) (n : Nat) : Bits := (bitsOfByte v).take n

/-! ## Meanings -/

/-- W.PUTBIT (R176). -/
def execWPutbit (x : Bool) (s : State) : Host.Outcome State Fault Refusal :=
  reading [.writer] s (.next (putBit x s))

/-- W.PUTBITS (R177). -/
def execWPutbits (c : Bits) (s : State) : Host.Outcome State Fault Refusal :=
  reading [.writer] s (.next (putBits c s))

/-- W.FLUSH (R178). -/
def execWFlush (s : State) : Host.Outcome State Fault Refusal :=
  reading [.writer] s (.next { flush s with ret := .padCount (flushCount s) })

/-- W.PUTBYTE (R179); where `w_n` is not 0, log 25. -/
def execWPutbyte (v : Byte) (s : State) : Host.Outcome State Fault Refusal := .next (putByte v s)

/-- R.BITS (R182): it writes no register; the bits it returns are in `ret`. -/
def execRBits (v : Byte) (n : Nat) (s : State) : Host.Outcome State Fault Refusal :=
  .next { s with ret := .bits (rBits v n) }

end Sys2Proof.Machine
end

