-- ==== Sys2Proof/Machine/Codebook.lean ====
section
/-! DEFINITION. Codebook derivation, lookup and pad prediction, phase DERIVE (42_codebook.md). DERIVE runs as one step (R160;
log 19); its traversal is a recursion whose depth is bounded by the path register of 10_state.md R39 (log 13). -/

namespace Sys2Proof.Machine

/-- CODE.CLEAR (R161): every `len` becomes 0; an entry with `len` 0 holds no meaningful bits (log 16). -/
def codeClear (s : State) : State :=
  { s with code := Memory.fill alpha { len := 0, bits := [] } }

/-- CODE[y] <- {len = |p|, bits = p} (R162). -/
def writeCode (y : Byte) (p : Bits) (s : State) : State :=
  { s with code := Memory.write s.code y.toNat { len := p.length, bits := p } }

/-- CODE.ASSIGN(k, p) (R162), left then right; `room` is how many more levels the traversal may enter (log 13). -/
def codeAssignFrom (room k : Nat) (p : Bits) (s : State) : Res Unit :=
  match room with
  | 0 => .fault .traversalTooDeep
  | room + 1 =>
    (readNode k s).bind fun n s =>
      if n.leaf then .ok () (writeCode n.sym p s)
      else
        (codeAssignFrom room n.left (p ++ [false]) s).next fun s =>
          codeAssignFrom room n.right (p ++ [true]) s

/-- CODE.ASSIGN(k, p): the path has room for 255 bits (10_state.md R39). -/
def codeAssign (k : Nat) (p : Bits) (s : State) : Res Unit :=
  codeAssignFrom (codeMax + 1 - p.length) k p s

/-- CODE.ASSIGN1 (R163): the single symbol's code is "0". -/
def codeAssign1 (s : State) : Res Unit :=
  (readSym s.root s).bind fun y s => .ok () (writeCode y [false] s)

/-- CODE.LOOKUP(b) (R165). -/
def codeLookup (b : Byte) (s : State) : Res CodeEntry := readCode b.toNat s

/-- The sum of FREQ[s] * CODE[s].len over the given symbols (R166). -/
def paySum (ys : List Nat) (s : State) : Res Nat :=
  match ys with
  | [] => .ok 0 s
  | y :: rest =>
    (readFreq y s).bind fun f s =>
      (readCode y s).bind fun c s =>
        (paySum rest s).bind fun n s => .ok (f * c.len + n) s

/-- PAD.PREDICT (R166). -/
def padPredict (s : State) : Res Unit :=
  (paySum (List.range alpha) s).bind fun n s =>
    .ok () { s with paybits := n, pad := padOf n, bitcnt := 0 }

/-- DERIVE (R160). -/
def derive (s : State) : Res Unit :=
  (readNode s.root (codeClear s)).bind fun n s =>
    (if n.leaf then codeAssign1 s else codeAssign s.root [] s).next fun s =>
      (padPredict s).next fun s => .ok () { s with phase := .emitHdr }

/-- DERIVE (R160). -/
def execDerive (s : State) : Host.Outcome State Fault Refusal :=
  reading [.counts, .tree] s (derive s).outcome

/-- CODE.CLEAR (R161). -/
def execCodeClear (s : State) : Host.Outcome State Fault Refusal := .next (codeClear s)

/-- CODE.ASSIGN (R162). -/
def execCodeAssign (k : Nat) (p : Bits) (s : State) : Host.Outcome State Fault Refusal :=
  reading [.tree] s (codeAssign k p s).outcome

/-- CODE.ASSIGN1 (R163). -/
def execCodeAssign1 (s : State) : Host.Outcome State Fault Refusal :=
  reading [.tree] s (codeAssign1 s).outcome

/-- CODE.LOOKUP (R165): it writes no register; (len, bits) is in `ret`, without bits when len is 0, where R165 calls them
unspecified. -/
def execCodeLookup (b : Byte) (s : State) : Host.Outcome State Fault Refusal :=
  reading [.codebook] s ((codeLookup b s).outcomeRet fun c => .code c.len (if c.len = 0 then none else some (c.bits.take c.len)))

/-- PAD.PREDICT (R166). -/
def execPadPredict (s : State) : Host.Outcome State Fault Refusal :=
  reading [.counts, .codebook] s (padPredict s).outcome

end Sys2Proof.Machine
end

