-- ==== Sys2Proof/Machine/Framing.lean ====
section
/-! DEFINITION. Artifact framing (44_framing.md): writing the header (phase EMIT_HDR), writing the payload (phase ENCODE), and
parsing the header (phases D_COUNT, D_TREE, D_PAD). -/

namespace Sys2Proof.Machine

/-! ## Writing the header (R195 to R199) -/

/-- HDR.COUNT (R196). -/
def hdrCount (s : State) : State := putByte (byteOfCount s.nsym) s

/-- HDR.TREE1 (R197). -/
def hdrTree1 (s : State) : Res Unit :=
  (readSym s.root s).bind fun y s => .ok () (putByte y s)

/-- SER(k) (R198): pre-order, a leaf as 1 and its symbol most significant bit first; `room` bounds the depth (log 13). -/
def serFrom (room k : Nat) (s : State) : Res Unit :=
  match room with
  | 0 => .fault .traversalTooDeep
  | room + 1 =>
    (readNode k s).bind fun n s =>
      if n.leaf then .ok () (putBits (bitsOfByte n.sym) (putBit true s))
      else
        (serFrom room n.left (putBit false s)).next fun s => serFrom room n.right s

/-- HDR.TREE (R198): SER(root), then W.FLUSH, whose value is discarded. -/
def hdrTree (s : State) : Res Unit :=
  (serFrom (codeMax + 1) s.root s).next fun s => .ok () (flush s)

/-- HDR.PAD (R199). -/
def hdrPad (s : State) : State := putByte (BitVec.ofNat 8 s.pad) s

/-- EMIT_HDR (R195). -/
def emitHdr (s : State) : Res Unit :=
  let s := hdrCount s
  (if s.nsym = 1 then hdrTree1 s else hdrTree s).next fun s =>
    .ok () { hdrPad s with phase := .encode }

/-! ## Writing the payload (R205 to R209) -/

/-- ENC.SYM (R207): UNKNOWN_SYMBOL is tested first, TOO_LONG second. -/
def encSym (b : Byte) (s : State) : Res Unit :=
  (codeLookup b s).bind fun c s =>
    if c.len = 0 then raising .unknownSymbol infoNone b s
    else if s.paybits < s.bitcnt + c.len then raising .passMismatch infoTooLong b s
    else
      let s := putBits (c.bits.take c.len) s
      .ok () { s with bitcnt := s.bitcnt + c.len }

/-- ENC.END (R208). -/
def encEnd (s : State) : Res Unit :=
  if s.bitcnt ≠ s.paybits then raising .passMismatch infoTooShort 0#8 s
  else .ok () { emitEnd (flush s) with doneOk := true, phase := .idle }

/-! ## Parsing the header (R215 to R226) -/

/-- DEC.COUNT (R215). -/
def decCount (b : Byte) (s : State) : State := { s with nsym := countOfByte b, phase := .dTree }

/-- DEC.TREE1 (R217). -/
def decTree1 (b : Byte) (s : State) : Res Unit :=
  (writeTreeNode 0 true b s).next fun s => .ok () { s with root := 0, phase := .dPad }

/-- Pop PSTACK (R221). -/
def popStack (s : State) : Res Nat :=
  if s.psN = 0 then .fault .stackEmpty
  else (readAt .pstack s.pstack (s.psN - 1) s).bind fun p s => .ok p { s with psN := s.psN - 1 }

/-- Push on PSTACK (R219); it has 255 entries (10_state.md R37; log 15). -/
def pushStack (k : Nat) (s : State) : Res Unit :=
  if s.psN < pstackMax then
    .ok () { s with pstack := Memory.write s.pstack s.psN k, psN := s.psN + 1 }
  else .fault (.noSuchElement .pstack s.psN)

/-- TREE.ATTACH(k) (R221): links the new node to its parent. DESIGN CHOICE (log 27): R221 writes one field of the parent, and the
model keeps its other fields by reading the node first, so it stops where the current transaction has not written the parent, or
where there is no such node; the spec gives no effect there, and no run gets there. -/
def treeAttach (k : Nat) (s : State) : Res Unit :=
  if k = 0 then .ok () s
  else if s.tLwi then
    (readNode (k - 1) s).bind fun n s => writeNode (k - 1) { n with left := k } s
  else
    (popStack s).bind fun p s =>
      (readNode p s).bind fun n s => writeNode p { n with right := k } s

/-- TREE.FLAG(x) (R219). The test `t_ints == nsym - 1` is on unsigned integers of unbounded precision (00_scope.md R15), so it
is `t_ints + 1 == nsym`. -/
def treeFlag (x : Bool) (s : State) : Res Unit :=
  if x then .ok () { s with tState := .sym, tSym := 0#8, tSymn := 0 }
  else if s.tInts + 1 = s.nsym then raising .corruptArtifact infoBadTree 0#8 s
  else
    let k := s.tNodes
    (treeAttach k s).next fun s =>
      (writeTreeNode k false 0#8 s).next fun s =>
        (pushStack k s).next fun s =>
          .ok () { s with tLwi := true, tInts := s.tInts + 1, tNodes := s.tNodes + 1 }

/-- TREE.COMPLETE (R222): the tree is complete when a leaf has just been parsed and no internal node waits for its right
child; it is malformed if it then has fewer than N leaves. Returns whether the tree is complete. -/
def treeComplete (s : State) : Res Bool :=
  if s.tLwi = false ∧ 1 ≤ s.tNodes ∧ s.psN = 0 then
    if s.tLeaves < s.nsym then raising .corruptArtifact infoBadTree 0#8 s else .ok true s
  else .ok false s

/-- The leaf branch of TREE.SYMBIT (R220), with symbol `y`. -/
def treeLeaf (y : Byte) (s : State) : Res Bool :=
  (readSeen y.toNat s).bind fun seen s =>
    if seen then raising .corruptArtifact infoDupSymbol y s
    else
      let k := s.tNodes
      (treeAttach k { s with seen := Memory.write s.seen y.toNat true }).next fun s =>
        (writeTreeNode k true y s).next fun s =>
          treeComplete { s with tLwi := false, tLeaves := s.tLeaves + 1, tNodes := s.tNodes + 1 }

/-- TREE.SYMBIT(x) (R220): returns whether the tree is complete after this bit. -/
def treeSymbit (x : Bool) (s : State) : Res Bool :=
  let y := (s.tSym <<< 1) ||| (if x then 1#8 else 0#8)
  let s := { s with tSym := y, tSymn := s.tSymn + 1 }
  if s.tSymn = 8 then treeLeaf y { s with tState := .flag } else .ok false s

/-- One bit of the tree section (R218): TREE.FLAG or TREE.SYMBIT by `t_state`. -/
def treeBit (x : Bool) (s : State) : Res Bool :=
  match s.tState with
  | .flag => (treeFlag x s).next fun s => .ok false s
  | .sym => treeSymbit x s

/-- The loop of DEC.TREE (R218): when the tree completes, the remaining bits are not examined. -/
def treeBits (c : Bits) (s : State) : Res Unit :=
  match c with
  | [] => .ok () s
  | x :: rest =>
    (treeBit x s).bind fun complete s =>
      if complete then .ok () { s with root := 0, phase := .dPad } else treeBits rest s

/-- DEC.TREE (R218). -/
def decTree (b : Byte) (s : State) : Res Unit := treeBits (rBits b 8) s

/-- DEC.PAD (R224). -/
def decPad (b : Byte) (s : State) : Res Unit :=
  if 7 < b.toNat then raising .corruptArtifact infoBadPad b s
  else .ok () { s with pad := b.toNat % 8, holdV := false, cur := s.root, phase := .dPayload }

/-- An artifact that ends too early (R216, R223, R225). -/
def truncated (s : State) : State := raise .corruptArtifact infoTruncated 0#8 s

/-- An artifact whose source failed (R216, R223, R225, 45_decode.md R235). -/
def sourceFailed (s : State) : State := raise .corruptArtifact infoSourceFail 0#8 s

/-! ## Meanings -/

/-- EMIT_HDR (R195). -/
def execEmitHdr (s : State) : Host.Outcome State Fault Refusal :=
  reading [.symbols, .tree, .pad, .writer] s (emitHdr s).outcome

/-- HDR.COUNT (R196). -/
def execHdrCount (s : State) : Host.Outcome State Fault Refusal :=
  reading [.symbols] s (.next (hdrCount s))

/-- HDR.TREE1 (R197). -/
def execHdrTree1 (s : State) : Host.Outcome State Fault Refusal :=
  reading [.tree] s (hdrTree1 s).outcome

/-- HDR.TREE (R198). -/
def execHdrTree (s : State) : Host.Outcome State Fault Refusal :=
  reading [.tree, .writer] s (hdrTree s).outcome

/-- HDR.PAD (R199). -/
def execHdrPad (s : State) : Host.Outcome State Fault Refusal :=
  reading [.pad] s (.next (hdrPad s))

/-- ENC.SYM (R207). -/
def execEncSym (b : Byte) (s : State) : Host.Outcome State Fault Refusal :=
  reading [.codebook, .paybits, .writer] s (encSym b s).outcome

/-- ENC.END (R208). -/
def execEncEnd (s : State) : Host.Outcome State Fault Refusal :=
  reading [.paybits, .writer] s (encEnd s).outcome

/-- ENC.FAIL (R206): a source failure in pass 2. -/
def execEncFail (s : State) : Host.Outcome State Fault Refusal :=
  .next (raise .inputRead infoNone 0#8 s)

/-- DEC.COUNT (R215). -/
def execDecCount (b : Byte) (s : State) : Host.Outcome State Fault Refusal := .next (decCount b s)

/-- DEC.TRUNC in D_COUNT, END (R216). -/
def execDecTruncCount (s : State) : Host.Outcome State Fault Refusal := .next (truncated s)

/-- DEC.TRUNC in D_COUNT, FAIL (R216). -/
def execDecSrcfailCount (s : State) : Host.Outcome State Fault Refusal := .next (sourceFailed s)

/-- DEC.TREE1 (R217). -/
def execDecTree1 (b : Byte) (s : State) : Host.Outcome State Fault Refusal := (decTree1 b s).outcome

/-- DEC.TREE (R218). -/
def execDecTree (b : Byte) (s : State) : Host.Outcome State Fault Refusal :=
  reading [.parser, .symbols, .tree] s (decTree b s).outcome

/-- DEC.TRUNC in D_TREE, END (R223). -/
def execDecTruncTree (s : State) : Host.Outcome State Fault Refusal := .next (truncated s)

/-- DEC.TRUNC in D_TREE, FAIL (R223). -/
def execDecSrcfailTree (s : State) : Host.Outcome State Fault Refusal := .next (sourceFailed s)

/-- DEC.PAD (R224). -/
def execDecPad (b : Byte) (s : State) : Host.Outcome State Fault Refusal :=
  reading [.tree] s (decPad b s).outcome

/-- DEC.TRUNC in D_PAD, END (R225). -/
def execDecTruncPad (s : State) : Host.Outcome State Fault Refusal := .next (truncated s)

/-- DEC.TRUNC in D_PAD, FAIL (R225). -/
def execDecSrcfailPad (s : State) : Host.Outcome State Fault Refusal := .next (sourceFailed s)

/-- TREE.FLAG (R219). -/
def execTreeFlag (x : Bool) (s : State) : Host.Outcome State Fault Refusal :=
  reading [.parser, .symbols, .tree] s (treeFlag x s).outcome

/-- TREE.SYMBIT (R220): whether the tree is complete is in `ret`. -/
def execTreeSymbit (x : Bool) (s : State) : Host.Outcome State Fault Refusal :=
  reading [.parser, .symbols, .tree] s ((treeSymbit x s).outcomeRet .complete)

/-- TREE.ATTACH (R221). -/
def execTreeAttach (k : Nat) (s : State) : Host.Outcome State Fault Refusal :=
  reading [.parser, .tree] s (treeAttach k s).outcome

/-- TREE.COMPLETE (R222): whether the tree is complete is in `ret`. -/
def execTreeComplete (s : State) : Host.Outcome State Fault Refusal :=
  reading [.parser, .symbols] s ((treeComplete s).outcomeRet .complete)

end Sys2Proof.Machine
end

