-- ==== Sys2Proof/Machine/Walk.lean ====
section
/-! DEFINITION. Tree-walk decoding of the payload, phase D_PAYLOAD (45_decode.md). -/

namespace Sys2Proof.Machine

/-- WALK.BIT(x), N >= 2 (R232): one edge down from `cur`; at a leaf its symbol leaves and the walk restarts at the root. -/
def walkBit (x : Bool) (s : State) : Res Unit :=
  (readChild x s.cur s).bind fun c s =>
    (readNode c s).bind fun m s =>
      if m.leaf then .ok () { emit m.sym s with cur := s.root } else .ok () { s with cur := c }

/-- WALK.BIT1(x), N = 1 (R233): the symbol leaves whatever the bit is. -/
def walkBit1 (_x : Bool) (s : State) : Res Unit :=
  (readSym s.root s).bind fun y s => .ok () (emit y s)

/-- WALK(x) (R231): WALK.BIT1 when nsym == 1 and WALK.BIT otherwise. -/
def walk (x : Bool) (s : State) : Res Unit :=
  if s.nsym = 1 then walkBit1 x s else walkBit x s

/-- WALK over a bit sequence, in order. -/
def walkBits (c : Bits) (s : State) : Res Unit :=
  match c with
  | [] => .ok () s
  | x :: rest => (walk x s).next fun s => walkBits rest s

/-- DEC.DATA (R231): a byte is walked one beat after it arrived. -/
def decData (b : Byte) (s : State) : Res Unit :=
  (if s.holdV then walkBits (rBits s.hold 8) s else .ok () s).next fun s =>
    .ok () { s with hold := b, holdV := true }

/-- The last byte of the payload in DEC.END (R234): its `8 - pad` code bits are walked; without a byte there is nothing to take
pad bits from. -/
def decLast (s : State) : Res Unit :=
  if s.holdV then
    (walkBits (rBits s.hold (8 - s.pad)) s).next fun s => .ok () { s with holdV := false }
  else if s.pad ≠ 0 then raising .corruptArtifact infoPadExceeds (BitVec.ofNat 8 s.pad) s
  else .ok () s

/-- DEC.END (R234). -/
def decEnd (s : State) : Res Unit :=
  (decLast s).next fun s =>
    if s.cur ≠ s.root then raising .corruptArtifact infoMidPath 0#8 s
    else .ok () { emitEnd s with doneOk := true, phase := .idle }

/-- WALK.BIT (R232). -/
def execWalkBit (x : Bool) (s : State) : Host.Outcome State Fault Refusal :=
  reading [.reader, .tree] s (walkBit x s).outcome

/-- WALK.BIT1 (R233). -/
def execWalkBit1 (x : Bool) (s : State) : Host.Outcome State Fault Refusal :=
  reading [.tree] s (walkBit1 x s).outcome

/-- DEC.DATA (R231). -/
def execDecData (b : Byte) (s : State) : Host.Outcome State Fault Refusal :=
  reading [.reader, .symbols, .tree] s (decData b s).outcome

/-- DEC.END (R234). -/
def execDecEnd (s : State) : Host.Outcome State Fault Refusal :=
  reading [.reader, .symbols, .tree, .pad] s (decEnd s).outcome

/-- DEC.FAIL (R235): the byte in `hold` is not walked. -/
def execDecFail (s : State) : Host.Outcome State Fault Refusal := .next (sourceFailed s)

end Sys2Proof.Machine
end

