-- ==== Sys2Proof/Machine/Artifact.lean ====
section
/-! DEFINITION. The elements of the artifact (30_encoding.md R100 to R109). The block writes them in a compress (phases
EMIT_HDR and ENCODE) and reads them in a decompress, so an element has two directions, chosen by the phase (log 9): written,
it goes out through the bit writer; read, it has the effect that the rules of 44_framing.md section 3 and 45_decode.md give
its bits. -/

namespace Sys2Proof.Machine

/-- The phases in which the block writes an artifact (43_bitstream.md R175; log 9). -/
def State.writesArtifact (s : State) : Bool :=
  match s.phase with
  | .emitHdr | .encode => true
  | .idle | .scan | .build | .derive | .dCount | .dTree | .dPad | .dPayload | .error => false

/-- A sequence of payload bytes read by the decoder: DEC.DATA for each (45_decode.md R231). -/
def readPayload (bs : List Byte) (s : State) : Res Unit :=
  match bs with
  | [] => .ok () s
  | b :: rest => (decData b s).next fun s => readPayload rest s

/-- A sequence of payload bytes put through the writer, eight bits each (30_encoding.md R108). -/
def writePayload (bs : List Byte) (s : State) : State :=
  match bs with
  | [] => s
  | b :: rest => writePayload rest (putBits (bitsOfByte b) s)

/-- ART.N (30_encoding.md R101): written by HDR.COUNT as a whole byte, read by DEC.COUNT. -/
def execArtN (n : Byte) (s : State) : Host.Outcome State Fault Refusal :=
  if s.writesArtifact then .next (putByte n s) else .next (decCount n s)

/-- ART.TREE1 (30_encoding.md R103): written by HDR.TREE1 as a whole byte, read by DEC.TREE1. -/
def execArtTree1 (y : Byte) (s : State) : Host.Outcome State Fault Refusal :=
  if s.writesArtifact then .next (putByte y s) else (decTree1 y s).outcome

/-- T.INTERNAL (30_encoding.md R104): the bit 0, written by HDR.TREE, read by the tree parser. DESIGN CHOICE (log 29): read in the
middle of a symbol (`t_state` = SYM), where no token begins, its bit is the next bit of the symbol. -/
def execTInternal (s : State) : Host.Outcome State Fault Refusal :=
  if s.writesArtifact then reading [.writer] s (.next (putBit false s))
  else reading [.parser, .symbols, .tree] s (treeBits [false] s).outcome

/-- T.LEAF (30_encoding.md R104, R105): the bit 1 and the symbol, most significant bit first. DESIGN CHOICE (log 29): read in the
middle of a symbol (`t_state` = SYM), where no token begins, its nine bits go to the parser one by one, the first of them to the
symbol that is open. -/
def execTLeaf (y : Byte) (s : State) : Host.Outcome State Fault Refusal :=
  if s.writesArtifact then reading [.writer] s (.next (putBits (true :: bitsOfByte y) s))
  else reading [.parser, .symbols, .tree] s (treeBits (true :: bitsOfByte y) s).outcome

/-- ART.TREEPAD (30_encoding.md R106): zero bits when written; read, they are discarded without being examined. -/
def execArtTreepad (n : Nat) (s : State) : Host.Outcome State Fault Refusal :=
  if s.writesArtifact then reading [.writer] s (.next (putBits (List.replicate n false) s)) else .next s

/-- ART.PAD (30_encoding.md R107): written by HDR.PAD, read by DEC.PAD. -/
def execArtPad (p : BitVec 3) (s : State) : Host.Outcome State Fault Refusal :=
  if s.writesArtifact then .next (putByte (0#5 ++ p) s) else reading [.tree] s (decPad (0#5 ++ p) s).outcome

/-- ART.PAYLOAD (30_encoding.md R108): the packed code bits. -/
def execArtPayload (bs : List Byte) (s : State) : Host.Outcome State Fault Refusal :=
  if s.writesArtifact then reading [.writer] s (.next (writePayload bs s))
  else reading [.reader, .symbols, .tree] s (readPayload bs s).outcome

/-- CODE (30_encoding.md R109): the bits of one code, put by ENC.SYM, walked by the decoder. -/
def execCode (c : Bits) (s : State) : Host.Outcome State Fault Refusal :=
  if s.writesArtifact then reading [.writer] s (.next (putBits c s))
  else reading [.reader, .symbols, .tree] s (walkBits c s).outcome

end Sys2Proof.Machine
end

