-- ==== Sys2Proof/Machine/Frequency.lean ====
section
/-! DEFINITION. Frequency accounting, phase SCAN (40_frequency.md). -/

namespace Sys2Proof.Machine

/-- FREQ.CLEAR (R130). -/
def freqClear (s : State) : State :=
  { s with freq := Memory.fill alpha 0, total := 0, nsym := 0 }

/-- FREQ.COUNT (R132): the overflow test comes before any update. -/
def freqCount (b : Byte) (s : State) : Res Unit :=
  if s.total = s.cfg.maxCnt then raising .countOverflow infoNone b s
  else
    (readFreq b.toNat s).bind fun f s =>
      .ok () { s with
        nsym := if f = 0 then s.nsym + 1 else s.nsym
        freq := Memory.write s.freq b.toNat (f + 1)
        total := s.total + 1 }

/-- SCAN.END (R133). -/
def scanEnd (s : State) : Res Unit :=
  if s.total = 0 then raising .emptyInput infoNone 0#8 s
  else .ok () { s with phase := .build }

/-- FREQ.CLEAR (R130). -/
def execFreqClear (s : State) : Host.Outcome State Fault Refusal := .next (freqClear s)

/-- FREQ.COUNT (R132). -/
def execFreqCount (b : Byte) (s : State) : Host.Outcome State Fault Refusal :=
  reading [.counts] s (freqCount b s).outcome

/-- SCAN.END (R133). -/
def execScanEnd (s : State) : Host.Outcome State Fault Refusal :=
  reading [.counts] s (scanEnd s).outcome

/-- SCAN.FAIL (R134): a source failure in pass 1. -/
def execScanFail (s : State) : Host.Outcome State Fault Refusal :=
  .next (raise .inputRead infoNone 0#8 s)

end Sys2Proof.Machine
end

