-- ==== Sys2Proof/Machine/Commands.lean ====
section
/-! DEFINITION. The host commands (46_codec_commands.md), error entry and reset as operations (60_exceptions.md R290,
70_reset_and_hazards.md R311), and the beats of the output stream (30_encoding.md R97). -/

namespace Sys2Proof.Machine

/-- A command opens a transaction: `done_ok` is cleared (R251, R252). The arrays keep what they hold (10_state.md R20), but no element
of them has been written by the new transaction, so none can be read (70_reset_and_hazards.md R311; log 4). -/
def openTransaction (s : State) : State :=
  { s with
    doneOk := false, freq := [], node := [], code := [], pstack := [], seen := [], old := s.arrays, rangesEnded := false }

/-- CMD.COMPRESS (R251). -/
def cmdCompress (s : State) : State :=
  { freqClear (openTransaction s) with wAcc := 0#8, wN := 0, bitcnt := 0, phase := .scan }

/-- CMD.DECOMPRESS (R252). -/
def cmdDecompress (s : State) : State :=
  { openTransaction s with
    seen := Memory.fill alpha false
    tState := .flag
    tSym := 0#8
    tSymn := 0
    tNodes := 0
    tLeaves := 0
    tInts := 0
    tLwi := false
    psN := 0
    holdV := false
    phase := .dCount }

/-- CMD.COMPRESS (R251). -/
def execCmdCompress (s : State) : Host.Outcome State Fault Refusal := .next (cmdCompress s)

/-- CMD.DECOMPRESS (R252). -/
def execCmdDecompress (s : State) : Host.Outcome State Fault Refusal := .next (cmdDecompress s)

/-- CMD.CLEAR (R253): every register and queue takes its reset value, the arrays become unspecified. -/
def execCmdClear (s : State) : Host.Outcome State Fault Refusal := .next (resetBlock s)

/-- CMD.RESERVED (R254). -/
def execCmdReserved (s : State) : Host.Outcome State Fault Refusal :=
  .next (raise .illegalCmd infoNone 0#8 s)

/-- CMD.IGNORED (R258): the command is transferred and nothing of HUFFCORE changes; the model's own mark says that the ranges of
10_state.md R47 have ended with it (log 23, 24). -/
def execCmdIgnored (_op : BitVec 2) (s : State) : Host.Outcome State Fault Refusal :=
  .next { s with rangesEnded := true }

/-- OUT.DATA (30_encoding.md R97): `emit(b)`. -/
def execOutData (b : Byte) (s : State) : Host.Outcome State Fault Refusal := .next (emit b s)

/-- OUT.END (30_encoding.md R97): `emit_end()`. -/
def execOutEnd (s : State) : Host.Outcome State Fault Refusal := .next (emitEnd s)

/-- ERROR.ENTRY (60_exceptions.md R290). -/
def execErrorEntry (e : ErrCode) (info : BitVec 4) (data : Byte) (s : State) :
    Host.Outcome State Fault Refusal := .next (raise e info data s)

/-- RESET (70_reset_and_hazards.md R311). -/
def execReset (s : State) : Host.Outcome State Fault Refusal := .next (resetBlock s)

end Sys2Proof.Machine
end

