-- ==== Sys2Proof/Machine/Tree.lean ====
section
/-! DEFINITION. Huffman tree construction, phase BUILD (41_tree_build.md). BUILD runs as one step (R140, 46_codec_commands.md
R259; log 19). -/

namespace Sys2Proof.Machine

/-- The priority order: entry `e` is before entry `f` (R141). -/
def PqEntry.before (e f : PqEntry) : Bool :=
  decide (e.freq < f.freq) || (decide (e.freq = f.freq) && decide (e.seq < f.seq))

/-- The entry that is before every other one among `e` and a list (R141, R143). -/
def pqLeast (e : PqEntry) (l : List PqEntry) : PqEntry :=
  match l with
  | [] => e
  | f :: rest => pqLeast (if PqEntry.before f e then f else e) rest

/-- PQ.INSERT(f, k) (R142); PQ has room for 256 entries (10_state.md R33; log 15). DESIGN CHOICE (log 26): run by itself it does
not test the widths: with `seq` = 511 it leaves 512, and a count `f` wider than CNT_W is stored as it is (10_state.md R27, R33 give
9 bits and CNT_W bits, and the spec gives no effect there). -/
def pqInsert (f k : Nat) (s : State) : Res Unit :=
  if s.pq.length < pqMax then
    .ok () { s with
      pq := s.pq ++ [{ freq := f, seq := s.seq, node := k }]
      seq := s.seq + 1
      pqCount := s.pqCount + 1 }
  else .fault .queueFull

/-- PQ.EXTRACT_MIN (R143): the removed entry is returned; an empty queue breaks its precondition. -/
def pqExtractMin (s : State) : Res PqEntry :=
  match s.pq with
  | [] => .fault .queueEmpty
  | e :: rest =>
    let m := pqLeast e rest
    .ok m { s with pq := s.pq.erase m, pqCount := s.pqCount - 1 }

/-- The loop of PQ.INIT over symbol values (R144): a symbol that occurs becomes a leaf. -/
def pqInitFrom (ys : List Nat) (s : State) : Res Unit :=
  match ys with
  | [] => .ok () s
  | y :: rest =>
    (readFreq y s).bind fun f s =>
      if 0 < f then
        (writeNode s.seq
          { leaf := true, sym := BitVec.ofNat 8 y, freq := some f, left := 0, right := 0 } s).next fun s' =>
          (pqInsert f s.seq s').next fun s => pqInitFrom rest s
      else pqInitFrom rest s

/-- PQ.INIT (R144): ascending symbol value. -/
def pqInit (s : State) : Res Unit :=
  pqInitFrom (List.range alpha) { s with pq := [], seq := 0, pqCount := 0 }

/-- MERGE (R145): left = first-removed, right = second-removed. -/
def merge (s : State) : Res Unit :=
  (pqExtractMin s).bind fun e1 s =>
    (pqExtractMin s).bind fun e2 s =>
      (writeNode s.seq
        { leaf := false, sym := 0#8, freq := some (e1.freq + e2.freq), left := e1.node, right := e2.node } s).next
        fun s' => pqInsert (e1.freq + e2.freq) s.seq s'

/-- `while pq_count >= 2: MERGE` (R146). Each MERGE lowers `pq_count` by one, so `pq_count` itself bounds the rounds. -/
def mergeLoop (rounds : Nat) (s : State) : Res Unit :=
  match rounds with
  | 0 => .ok () s
  | n + 1 => if 2 ≤ s.pqCount then (merge s).next fun s => mergeLoop n s else .ok () s

/-- BUILD (R146). -/
def build (s : State) : Res Unit :=
  (pqInit s).next fun s =>
    (mergeLoop s.pqCount s).next fun s =>
      (pqExtractMin s).bind fun e s => .ok () { s with root := e.node, phase := .derive }

/-- BUILD (R146). -/
def execBuild (s : State) : Host.Outcome State Fault Refusal :=
  reading [.counts] s (build s).outcome

/-- PQ.INSERT (R142). -/
def execPqInsert (f k : Nat) (s : State) : Host.Outcome State Fault Refusal :=
  reading [.tree] s (pqInsert f k s).outcome

/-- PQ.EXTRACT_MIN (R143): returns (f, k) in `ret`. -/
def execPqExtractMin (s : State) : Host.Outcome State Fault Refusal :=
  reading [.tree] s ((pqExtractMin s).outcomeRet fun e => .entry e.freq e.node)

/-- PQ.INIT (R144). -/
def execPqInit (s : State) : Host.Outcome State Fault Refusal :=
  reading [.counts] s (pqInit s).outcome

/-- MERGE (R145). -/
def execMerge (s : State) : Host.Outcome State Fault Refusal :=
  reading [.tree] s (merge s).outcome

end Sys2Proof.Machine
end

