-- ==== Sys2Proof/Machine/Dispatch.lean ====
section
/-! DEFINITION. One arm per operation, in the order of spec/opcode_table.json. -/

namespace Sys2Proof.Machine

def exec (i : Instr) (s : State) : Host.Outcome State Fault Refusal :=
  match i with
  | .cmdCompress => Sys2Proof.Machine.execCmdCompress s
  | .cmdDecompress => Sys2Proof.Machine.execCmdDecompress s
  | .cmdClear => Sys2Proof.Machine.execCmdClear s
  | .cmdReserved => Sys2Proof.Machine.execCmdReserved s
  | .cmdIgnored op => Sys2Proof.Machine.execCmdIgnored op s
  | .freqCount b => Sys2Proof.Machine.execFreqCount b s
  | .scanEnd => Sys2Proof.Machine.execScanEnd s
  | .scanFail => Sys2Proof.Machine.execScanFail s
  | .encSym b => Sys2Proof.Machine.execEncSym b s
  | .encEnd => Sys2Proof.Machine.execEncEnd s
  | .encFail => Sys2Proof.Machine.execEncFail s
  | .decCount b => Sys2Proof.Machine.execDecCount b s
  | .decTruncCount => Sys2Proof.Machine.execDecTruncCount s
  | .decSrcfailCount => Sys2Proof.Machine.execDecSrcfailCount s
  | .decTree1 b => Sys2Proof.Machine.execDecTree1 b s
  | .decTree b => Sys2Proof.Machine.execDecTree b s
  | .decTruncTree => Sys2Proof.Machine.execDecTruncTree s
  | .decSrcfailTree => Sys2Proof.Machine.execDecSrcfailTree s
  | .decPad b => Sys2Proof.Machine.execDecPad b s
  | .decTruncPad => Sys2Proof.Machine.execDecTruncPad s
  | .decSrcfailPad => Sys2Proof.Machine.execDecSrcfailPad s
  | .decData b => Sys2Proof.Machine.execDecData b s
  | .decEnd => Sys2Proof.Machine.execDecEnd s
  | .decFail => Sys2Proof.Machine.execDecFail s
  | .outData b => Sys2Proof.Machine.execOutData b s
  | .outEnd => Sys2Proof.Machine.execOutEnd s
  | .artN n => Sys2Proof.Machine.execArtN n s
  | .artTree1 y => Sys2Proof.Machine.execArtTree1 y s
  | .tInternal => Sys2Proof.Machine.execTInternal s
  | .tLeaf y => Sys2Proof.Machine.execTLeaf y s
  | .artTreepad n => Sys2Proof.Machine.execArtTreepad n s
  | .artPad p => Sys2Proof.Machine.execArtPad p s
  | .artPayload bs => Sys2Proof.Machine.execArtPayload bs s
  | .code c => Sys2Proof.Machine.execCode c s
  | .freqClear => Sys2Proof.Machine.execFreqClear s
  | .build => Sys2Proof.Machine.execBuild s
  | .pqInsert f k => Sys2Proof.Machine.execPqInsert f k s
  | .pqExtractMin => Sys2Proof.Machine.execPqExtractMin s
  | .pqInit => Sys2Proof.Machine.execPqInit s
  | .merge => Sys2Proof.Machine.execMerge s
  | .derive => Sys2Proof.Machine.execDerive s
  | .codeClear => Sys2Proof.Machine.execCodeClear s
  | .codeAssign k p => Sys2Proof.Machine.execCodeAssign k p s
  | .codeAssign1 => Sys2Proof.Machine.execCodeAssign1 s
  | .codeLookup b => Sys2Proof.Machine.execCodeLookup b s
  | .padPredict => Sys2Proof.Machine.execPadPredict s
  | .wPutbit x => Sys2Proof.Machine.execWPutbit x s
  | .wPutbits c => Sys2Proof.Machine.execWPutbits c s
  | .wFlush => Sys2Proof.Machine.execWFlush s
  | .wPutbyte v => Sys2Proof.Machine.execWPutbyte v s
  | .rBits v n => Sys2Proof.Machine.execRBits v n s
  | .emitHdr => Sys2Proof.Machine.execEmitHdr s
  | .hdrCount => Sys2Proof.Machine.execHdrCount s
  | .hdrTree1 => Sys2Proof.Machine.execHdrTree1 s
  | .hdrTree => Sys2Proof.Machine.execHdrTree s
  | .hdrPad => Sys2Proof.Machine.execHdrPad s
  | .treeFlag x => Sys2Proof.Machine.execTreeFlag x s
  | .treeSymbit x => Sys2Proof.Machine.execTreeSymbit x s
  | .treeAttach k => Sys2Proof.Machine.execTreeAttach k s
  | .treeComplete => Sys2Proof.Machine.execTreeComplete s
  | .walkBit x => Sys2Proof.Machine.execWalkBit x s
  | .walkBit1 x => Sys2Proof.Machine.execWalkBit1 x s
  | .errorEntry e info data => Sys2Proof.Machine.execErrorEntry e info data s
  | .reset => Sys2Proof.Machine.execReset s

end Sys2Proof.Machine
end

