-- ==== Sys2Proof/Machine/Flags.lean ====
section
/-! DEFINITION. The one-bit outputs and the status ports (10_state.md R42 to R44). HUFFCORE has no arithmetic condition codes
(R42); its flags are the state bits `done_ok`, `hold_v`, `t_state`, `t_lwi`, SEEN and the leaf bits, each written by the rules
that own it, and the handshake outputs below, which are functions of the state. -/

namespace Sys2Proof.Machine

/-- The phases in which the block works without the host (46_codec_commands.md R259). -/
def Phase.isInternal : Phase → Bool
  | .build | .derive | .emitHdr => true
  | .idle | .scan | .encode | .dCount | .dTree | .dPad | .dPayload | .error => false

/-- The phases that accept input beats (30_encoding.md R98). -/
def Phase.takesInput : Phase → Bool
  | .scan | .encode | .dCount | .dTree | .dPad | .dPayload => true
  | .idle | .build | .derive | .emitHdr | .error => false

/-- The phases that accept commands (30_encoding.md R94). -/
def Phase.takesCommand : Phase → Bool
  | .idle | .error => true
  | .scan | .build | .derive | .emitHdr | .encode | .dCount | .dTree | .dPad | .dPayload => false

/-- `cmd_ready` (30_encoding.md R94). -/
def State.cmdReady (s : State) : Bool := Phase.takesCommand s.phase && s.oq.isEmpty

/-- `in_ready` (30_encoding.md R98). -/
def State.inReady (s : State) : Bool := Phase.takesInput s.phase && s.oq.isEmpty

/-- `out_valid` (30_encoding.md R98). -/
def State.outValid (s : State) : Bool := !s.oq.isEmpty

/-- `{out_end, out_data}`: the beat at the head of `oq`, driven only while `out_valid` is 1 (30_encoding.md R98). -/
def State.outBeat (s : State) : Option OutBeat := s.oq.head?

/-- `busy`: `phase` is neither IDLE nor ERROR (10_state.md R44). -/
def State.busy (s : State) : Bool := !Phase.takesCommand s.phase

/-- The status ports (10_state.md R44), at their widths; `total` and `paybits` are as wide as CNT_W makes them. -/
structure StatusPorts (cntW : Nat) where
  phase : BitVec 4
  doneOk : BitVec 1
  err : BitVec 4
  errInfo : BitVec 4
  errPhase : BitVec 4
  errData : BitVec 8
  nsym : BitVec 9
  pad : BitVec 3
  total : BitVec cntW
  paybits : BitVec (cntW + 8)
  busy : BitVec 1
  deriving DecidableEq, Repr

/-- Read-only copies of the registers (10_state.md R44); reading them changes nothing (20_memory.md R68). -/
def State.status (s : State) : StatusPorts s.cfg.cntW where
  phase := phaseCode s.phase
  doneOk := BitVec.ofBool s.doneOk
  err := errCode s.err
  errInfo := s.errInfo
  errPhase := phaseCode s.errPhase
  errData := s.errData
  nsym := BitVec.ofNat 9 s.nsym
  pad := BitVec.ofNat 3 s.pad
  total := BitVec.ofNat s.cfg.cntW s.total
  paybits := BitVec.ofNat (s.cfg.cntW + 8) s.paybits
  busy := BitVec.ofBool s.busy

end Sys2Proof.Machine
end

