-- ==== Sys2Proof/Machine/Fetch.lean ====
section
/-! DEFINITION. What the coming edge asks of the block (20_memory.md R75): the event, and the state in which a given word is
the next one the block reads. HUFFCORE fetches no instructions (10_state.md R41); this plays that part. -/

namespace Sys2Proof.Machine

/-- The events of 00_scope.md R12, and the edge at which nothing happens. -/
inductive Event where
  /-- `rst` = 1 at the edge (70_reset_and_hazards.md R310). -/
  | reset
  /-- An output beat is transferred. -/
  | output
  /-- An internal step of the current phase. -/
  | internal
  /-- A command is transferred. -/
  | command (op : BitVec 2)
  /-- An input beat is transferred. -/
  | input (w : BitVec 10)
  /-- No transfer: the block waits for the host (93_implementation_defined.md V11). -/
  | idle
  deriving DecidableEq, Repr

/-- The event of the coming edge. A transfer needs valid and ready (20_memory.md R75) and no reset (70_reset_and_hazards.md
R310). `out_valid`, `cmd_ready` and `in_ready` exclude each other (R74), so at most one channel transfers; an internal step is
always enabled (46_codec_commands.md R259). -/
def State.event (s : State) : Event :=
  let p := s.edge
  if p.rst then .reset
  else if s.outValid && p.outReady then .output
  else if Phase.isInternal s.phase then .internal
  else if s.cmdReady && p.cmdValid then .command p.cmdOp
  else if s.inReady && p.inValid then .input p.beat
  else .idle

/-- An edge at which the host offers a command. -/
def PortsIn.offerCommand (op : BitVec 2) : PortsIn :=
  { PortsIn.idle with cmdValid := true, cmdOp := op }

/-- An edge at which the host offers an input beat. -/
def PortsIn.offerBeat (w : BitVec 10) : PortsIn :=
  { PortsIn.idle with inValid := true, inFail := w.getLsbD 9, inEnd := w.getLsbD 8, inData := w.setWidth 8 }

/-- The block stands where a word of `nbits` bits is read and the host offers that word at the coming edge (log 10, 11): a
command in IDLE, an input beat in SCAN, with the output queue drained. Outside SCAN, standing in SCAN means that a compress has
been opened (46_codec_commands.md R251), which gives FREQ its contents. -/
def State.placeWord (s : State) (nbits w : Nat) : State :=
  if nbits ≤ 8 then
    { s with phase := .idle, oq := [], ports := PortsIn.offerCommand (BitVec.ofNat 2 w) :: s.ports }
  else
    let s := if s.phase = .scan then s else cmdCompress s
    { s with oq := [], ports := PortsIn.offerBeat (BitVec.ofNat 10 w) :: s.ports }

end Sys2Proof.Machine
end

