-- ==== Sys2Proof/Machine/Step.lean ====
section
/-! DEFINITION. One step of the machine is one event (00_scope.md R12): a reset, an output transfer, an internal step, a
command transfer, an input-beat transfer, or an edge at which nothing happens. Which one it is follows from the values on the
input ports at the coming edge, `phase` and `oq` (20_memory.md R75, 30_encoding.md R94, R98, 46_codec_commands.md R257, R259;
log 3). -/

namespace Sys2Proof.Machine

/-- Run what the decoder reads; the decoder rejects nothing that the handshake lets through. -/
def runDecoded (d : Except DecodeError Instr) (s : State) : Host.Outcome State Fault Refusal :=
  match d with
  | .ok i => exec i s
  | .error _ => .refused .notSelected

/-- One event. An internal step takes no edge of the host's list: none of its offers is looked at meanwhile (log 3). -/
def step (s : State) : Host.Outcome State Fault Refusal :=
  match s.event with
  | .reset => runDecoded (decode .reset .noBits) s.tick
  | .output => .next (transferOutput s.tick)
  | .internal => runDecoded (decode (.internal s.phase) .noBits) s
  | .command op => runDecoded (decode (.command s.phase) (.cmd op)) s.tick
  | .input w => runDecoded (decode (.input s.phase (decide (s.nsym = 1))) (.inBeat w)) s.tick
  | .idle => .next s.tick

/-- The state in which the very next step runs the operation that `decodeTableWord` reads from the same word (log 10, 11). -/
def State.withFetchWord (s : State) (nbits w : Nat) : State := State.placeWord s nbits w

end Sys2Proof.Machine
end

