-- ==== Sys2Proof/Safety.lean ====
section
/-! DEFINITION. What a safe run of HUFFCORE is, in the terms the statements use: the tree that NODE holds, the packing of bits
into bytes, the invariant that every step keeps, and whole transactions as sequences of operations. -/

namespace Sys2Proof.Machine

/-! ## Trees (41_tree_build.md, 42_codebook.md, 30_encoding.md R102 to R104) -/

/-- A full binary tree with a symbol in each leaf: the source's tagged variant without its frequencies (10_state.md R31). -/
inductive HTree where
  | leaf (y : Byte)
  | node (l r : HTree)
  deriving DecidableEq, Repr

/-- The symbols of the leaves, left to right. -/
def HTree.leaves : HTree → List Byte
  | .leaf y => [y]
  | .node l r => l.leaves ++ r.leaves

/-- The length of the longest root-to-leaf path. -/
def HTree.depth : HTree → Nat
  | .leaf _ => 0
  | .node l r => max l.depth r.depth + 1

/-- The tokens of all nodes in pre-order (30_encoding.md R102, R104). -/
def HTree.ser : HTree → Bits
  | .leaf y => true :: bitsOfByte y
  | .node l r => false :: (l.ser ++ r.ser)

/-- Every leaf with the path that leads to it, `p` first: 0 for left, 1 for right (42_codebook.md R162). -/
def HTree.paths (p : Bits) : HTree → List (Byte × Bits)
  | .leaf y => [(y, p)]
  | .node l r => l.paths (p ++ [false]) ++ r.paths (p ++ [true])

/-- The codes of the symbols (30_encoding.md R109): the paths, and "0" when the tree is a single leaf. -/
def HTree.codes : HTree → List (Byte × Bits)
  | .leaf y => [(y, [false])]
  | .node l r => (HTree.node l r).paths []

/-- The tree at index `k` of NODE. -/
def Represents (m : Memory Node) (k : Nat) : HTree → Prop
  | .leaf y => ∃ n, Memory.read m k = some n ∧ n.leaf = true ∧ n.sym = y
  | .node l r =>
    ∃ n, Memory.read m k = some n ∧ n.leaf = false ∧ Represents m n.left l ∧ Represents m n.right r

/-- The tree section of the artifact as bits, before padding (30_encoding.md R102, R103). -/
def HTree.sectionBits : HTree → Bits
  | .leaf y => bitsOfByte y
  | .node l r => (HTree.node l r).ser

/-! ## Packing (43_bitstream.md R180) -/

/-- The bytes that hold a bit sequence: ceil(m/8) of them, byte i has bit 7 - j equal to bit 8i + j of the sequence, 0 where
the sequence has ended (43_bitstream.md R180). -/
def packed (c : Bits) : List Byte :=
  (List.range ((c.length + 7) / 8)).map fun i =>
    byteOfBits ((List.range 8).map fun j => c.getD (8 * i + j) false)

/-- The data beats of a byte sequence (30_encoding.md R97). -/
def dataBeats (bs : List Byte) : List OutBeat := bs.map fun b => { isEnd := false, data := b }

/-- The end beat (30_encoding.md R97). -/
def endOfOutput : OutBeat := { isEnd := true, data := 0#8 }

/-- The first `n` bits of a byte, most significant first (43_bitstream.md R182). -/
def topBits (v : Byte) (n : Nat) : Bits := (List.range n).map fun j => v.getLsbD (7 - j)

/-! ## Arrays as functions -/

/-- The count at an index, 0 where nothing is written. -/
def countAt (m : Memory Nat) (i : Nat) : Nat := (Memory.read m i).getD 0

/-- The code length at an index, 0 where nothing is written. -/
def lenAt (m : Memory CodeEntry) (i : Nat) : Nat := ((Memory.read m i).map CodeEntry.len).getD 0

/-- The symbol values that occur, ascending (41_tree_build.md R144). -/
def symbolsThatOccur (m : Memory Nat) : List Nat := (List.range 256).filter fun y => decide (0 < countAt m y)

/-! ## Errors and reset, written out -/

/-- The state that error entry leaves (60_exceptions.md R290). -/
def recorded (e : ErrCode) (info : BitVec 4) (data : Byte) (s : State) : State :=
  { s with err := e, errInfo := info, errData := data, errPhase := s.phase, phase := .error }

/-- The table of 10_state.md R45. An unspecified array holds no element (log 5). -/
structure AtReset (t : State) : Prop where
  phase : t.phase = .idle
  doneOk : t.doneOk = false
  err : t.err = .none ∧ t.errInfo = 0#4 ∧ t.errPhase = .idle ∧ t.errData = 0#8
  counters : t.total = 0 ∧ t.nsym = 0 ∧ t.root = 0 ∧ t.seq = 0 ∧ t.pqCount = 0
  payload : t.paybits = 0 ∧ t.bitcnt = 0 ∧ t.pad = 0
  writer : t.wAcc = 0#8 ∧ t.wN = 0
  reader : t.hold = 0#8 ∧ t.holdV = false ∧ t.cur = 0
  parser : t.tState = .flag ∧ t.tSym = 0#8 ∧ t.tSymn = 0 ∧ t.tNodes = 0 ∧ t.tLeaves = 0 ∧ t.tInts = 0 ∧
    t.tLwi = false ∧ t.psN = 0
  queues : t.pq = [] ∧ t.oq = []
  arrays : ∀ i, t.freqAt i = none ∧ t.nodeAt i = none ∧ t.codeAt i = none ∧ t.seenAt i = none ∧ t.pstackAt i = none
  outputs : t.cmdReady = true ∧ t.inReady = false ∧ t.outValid = false ∧ t.busy = false

/-- The phases that the table of 46_codec_commands.md R257 lets an event lead to; none for an event that cannot occur. -/
def phasesAfter (ph : Phase) (ev : Event) : List Phase :=
  match ev with
  | .reset => [.idle]
  | .output => [ph]
  | .idle => [ph]
  | .internal =>
    match ph with
    | .build => [.derive]
    | .derive => [.emitHdr]
    | .emitHdr => [.encode]
    | _ => []
  | .command op =>
    match ph with
    | .idle => if op = 1#2 then [.scan] else if op = 2#2 then [.dCount] else if op = 3#2 then [.idle] else [.error]
    | .error => if op = 3#2 then [.idle] else [.error]
    | _ => []
  | .input w =>
    match ph, beatKind w with
    | .scan, .data _ => [.scan, .error]
    | .scan, .endOfStream => [.build, .error]
    | .scan, .fail => [.error]
    | .encode, .data _ => [.encode, .error]
    | .encode, .endOfStream => [.idle, .error]
    | .encode, .fail => [.error]
    | .dCount, .data _ => [.dTree]
    | .dCount, _ => [.error]
    | .dTree, .data _ => [.dTree, .dPad, .error]
    | .dTree, _ => [.error]
    | .dPad, .data _ => [.dPayload, .error]
    | .dPad, _ => [.error]
    | .dPayload, .data _ => [.dPayload]
    | .dPayload, .endOfStream => [.idle, .error]
    | .dPayload, .fail => [.error]
    | _, _ => []

/-! ## What an operation reads (10_state.md R47) -/

/-- Every one of these groups may be read. -/
abbrev Readable (s : State) (gs : List Group) : Prop := ∀ g ∈ gs, s.meaningful g = true

/-- The groups of R47 that an operation reads: the "Reads" of its rule (`nsym` may be read wherever FREQ may). An artifact
element reads what the writer reads where it is written, and what the operations that parse it read where it is read (log 9). -/
def groupsRead (i : Instr) (s : State) : List Group :=
  match i with
  | .freqCount _ | .scanEnd | .build | .pqInit => [.counts]
  | .pqInsert _ _ | .pqExtractMin | .merge | .codeAssign _ _ | .codeAssign1 | .hdrTree1 | .decPad _ | .walkBit1 _ => [.tree]
  | .derive => [.counts, .tree]
  | .codeLookup _ => [.codebook]
  | .padPredict => [.counts, .codebook]
  | .wPutbit _ | .wPutbits _ | .wFlush => [.writer]
  | .emitHdr => [.symbols, .tree, .pad, .writer]
  | .hdrCount => [.symbols]
  | .hdrTree => [.tree, .writer]
  | .hdrPad => [.pad]
  | .encSym _ => [.codebook, .paybits, .writer]
  | .encEnd => [.paybits, .writer]
  | .decTree _ | .treeFlag _ | .treeSymbit _ => [.parser, .symbols, .tree]
  | .treeAttach _ => [.parser, .tree]
  | .treeComplete => [.parser, .symbols]
  | .walkBit _ => [.reader, .tree]
  | .decData _ => [.reader, .symbols, .tree]
  | .decEnd => [.reader, .symbols, .tree, .pad]
  | .tInternal | .tLeaf _ => if s.writesArtifact then [.writer] else [.parser, .symbols, .tree]
  | .artPayload _ | .code _ => if s.writesArtifact then [.writer] else [.reader, .symbols, .tree]
  | .artTreepad _ => if s.writesArtifact then [.writer] else []
  | .artPad _ => if s.writesArtifact then [] else [.tree]
  | .cmdCompress | .cmdDecompress | .cmdClear | .cmdReserved | .cmdIgnored _ | .scanFail | .encFail => []
  | .decCount _ | .decTruncCount | .decSrcfailCount | .decTree1 _ | .decTruncTree | .decSrcfailTree => []
  | .decTruncPad | .decSrcfailPad | .decFail | .outData _ | .outEnd | .artN _ | .artTree1 _ => []
  | .freqClear | .codeClear | .wPutbyte _ | .rBits _ _ | .errorEntry _ _ _ | .reset => []

/-! ## The invariant -/

/-- Every element of an array of `n` elements has been written. -/
def Covers {α : Type} (n : Nat) (m : Memory α) : Prop := m.map Prod.fst = List.range n

/-- What stands in the arrays from earlier transactions fits the widths of the spec (10_state.md R30 to R32, R37), in canonical form. -/
structure Arrays.Fit (cfg : Config) (a : Arrays) : Prop where
  freqForm : Memory.wf alpha a.freq = true
  freqElem : ∀ p ∈ a.freq, p.2 ≤ cfg.maxCnt
  nodeForm : Memory.wf nodeMax a.node = true
  nodeElem : ∀ p ∈ a.node, p.2.left < nodeMax ∧ p.2.right < nodeMax ∧ ∀ f, p.2.freq = some f → f ≤ cfg.maxCnt
  codeForm : Memory.wf alpha a.code = true
  codeElem : ∀ p ∈ a.code, p.2.len ≤ codeMax ∧ p.2.bits.length ≤ codeMax
  pstackForm : Memory.wf pstackMax a.pstack = true
  pstackElem : ∀ p ∈ a.pstack, p.2 < nodeMax
  seenForm : Memory.wf alpha a.seen = true

/-- Every register and every array element fits the width the spec gives it (10_state.md R21 to R37), and the arrays have their
canonical form: no register ever wraps (00_scope.md R16). -/
structure Widths (s : State) : Prop where
  total : s.total ≤ s.cfg.maxCnt
  nsym : s.nsym ≤ 256
  root : s.root < nodeMax
  seq : s.seq ≤ 511
  pqCount : s.pqCount ≤ pqMax
  paybits : s.paybits < 2 ^ s.cfg.paybitsW
  bitcnt : s.bitcnt < 2 ^ s.cfg.paybitsW
  pad : s.pad ≤ 7
  psN : s.psN ≤ pstackMax
  wN : s.wN ≤ 7
  cur : s.cur < nodeMax
  tSymn : s.tSymn ≤ 8
  tNodes : s.tNodes ≤ 511
  tLeaves : s.tLeaves ≤ 256
  tInts : s.tInts ≤ 255
  freqForm : Memory.wf alpha s.freq = true
  freqElem : ∀ p ∈ s.freq, p.2 ≤ s.cfg.maxCnt
  nodeForm : Memory.wf nodeMax s.node = true
  nodeElem : ∀ p ∈ s.node,
    p.2.left < nodeMax ∧ p.2.right < nodeMax ∧ ∀ f, p.2.freq = some f → f ≤ s.cfg.maxCnt
  codeForm : Memory.wf alpha s.code = true
  codeElem : ∀ p ∈ s.code, p.2.len ≤ codeMax ∧ p.2.bits.length ≤ codeMax
  pstackForm : Memory.wf pstackMax s.pstack = true
  pstackElem : ∀ p ∈ s.pstack, p.2 < nodeMax
  seenForm : Memory.wf alpha s.seen = true
  old : s.old.Fit s.cfg

/-- What the spec says of the registers in every phase. -/
structure Always (s : State) : Prop where
  /-- CNT_W >= 1 (00_scope.md R9). -/
  cfg : s.cfg.wf
  /-- `err != 0` if and only if `phase == ERROR` (10_state.md R23). -/
  errIff : s.err ≠ ErrCode.none ↔ s.phase = .error
  /-- Without an error the record is 0 (10_state.md R23). -/
  errZero : s.err = ErrCode.none → s.errInfo = 0#4 ∧ s.errPhase = .idle ∧ s.errData = 0#8
  /-- `done_ok` is 1 only between a transaction and the next command (10_state.md R22; log 21). -/
  done : s.doneOk = true → s.phase = .idle ∨ (s.phase = .error ∧ s.errPhase = .idle)
  /-- `bitcnt <= paybits` (10_state.md R28). -/
  bitcnt : s.bitcnt ≤ s.paybits
  /-- PQ is empty at every time but inside BUILD (10_state.md R33). -/
  pq : s.pq = [] ∧ s.pqCount = 0
  /-- The bits of `w_acc` that hold nothing are 0 (10_state.md R34, 43_bitstream.md R175). -/
  writer : ∀ i, i + s.wN < 8 → s.wAcc.getLsbD i = false
  /-- Nothing waits in `oq` where nothing has been emitted (40_frequency.md R131, 41_tree_build.md R140). -/
  oq : s.oq = [] ∨ s.phase = .idle ∨ s.phase = .encode ∨ s.phase = .dPayload ∨ s.phase = .error

/-- FREQ, `total` and `nsym` belong together (40_frequency.md R135). -/
structure Counted (s : State) : Prop where
  covers : Covers alpha s.freq
  total : s.total = (s.freq.map Prod.snd).sum
  nsym : s.nsym = s.freq.countP fun p => p.2 != 0

/-- NODE holds a tree with N leaves at `root` (41_tree_build.md R148). -/
def TreeBuilt (s : State) : Prop :=
  ∃ t, Represents s.node s.root t ∧ t.leaves.length = s.nsym

/-- CODE is complete, and every entry holds as many bits as it says (42_codebook.md R164). -/
structure CodeOk (s : State) : Prop where
  covers : Covers alpha s.code
  len : ∀ p ∈ s.code, p.2.len = p.2.bits.length

/-- The parser's bookkeeping while the tree section is read (44_framing.md R219 to R222, R226). -/
structure Parsing (s : State) : Prop where
  nodes : ∀ k, k < s.tNodes → ∃ n, Memory.read s.node k = some n ∧ n.left < s.tNodes ∧ n.right < s.tNodes
  rootInternal : 0 < s.tNodes → ∃ n, Memory.read s.node 0 = some n ∧ n.leaf = false
  stack : ∀ i, i < s.psN → ∃ k, Memory.read s.pstack i = some k ∧ k < s.tNodes
  count : s.tNodes = s.tInts + s.tLeaves
  fresh : s.tNodes = 0 → s.psN = 0 ∧ s.tLwi = false
  owed : 0 < s.tNodes → 1 ≤ s.psN ∧ s.tLeaves + s.psN + (if s.tLwi then 1 else 0) = s.tInts + 1
  room : s.psN ≤ s.tInts
  ints : s.tInts < s.nsym
  symbits : s.tState = .sym → s.tSymn < 8

/-- The decoder's tree: the first `n` entries of NODE are written and point at each other, the root is NODE[0], and it is a leaf
exactly when N = 1 (44_framing.md R217, R218). -/
structure DecoderTree (s : State) (n : Nat) : Prop where
  root : s.root = 0
  pos : 0 < n
  nodes : ∀ k, k < n → ∃ e, Memory.read s.node k = some e ∧ e.left < n ∧ e.right < n
  kind : ∃ e, Memory.read s.node 0 = some e ∧ (e.leaf = true ↔ s.nsym = 1)

/-- The parent that TREE.ATTACH(k) links to exists (44_framing.md R221): the node before `k`, or the top of PSTACK. -/
def CanAttach (s : State) (k : Nat) : Prop :=
  k = 0 ∨
  (s.tLwi = true ∧ k ≤ nodeMax ∧ ∃ n, Memory.read s.node (k - 1) = some n) ∨
  (s.tLwi = false ∧ 0 < s.psN ∧ ∃ p n, Memory.read s.pstack (s.psN - 1) = some p ∧ p < nodeMax ∧
    Memory.read s.node p = some n)

/-- `cur` stands on an internal node, or on the root of the single-leaf tree (45_decode.md R232, R233). -/
def WalkOk (s : State) (n : Nat) : Prop :=
  s.cur < n ∧ (s.nsym = 1 → s.cur = s.root) ∧
    (s.nsym ≠ 1 → ∃ e, Memory.read s.node s.cur = some e ∧ e.leaf = false)

/-- What each phase has to work with (10_state.md R47, 46_codec_commands.md R260). -/
def PhaseReady (ph : Phase) (s : State) : Prop :=
  match ph with
  | .idle => True
  | .scan => Counted s ∧ s.wN = 0 ∧ s.bitcnt = 0
  | .build => Counted s ∧ 0 < s.total ∧ s.wN = 0 ∧ s.bitcnt = 0
  | .derive => Counted s ∧ 0 < s.total ∧ TreeBuilt s ∧ s.wN = 0 ∧ s.bitcnt = 0
  | .emitHdr => TreeBuilt s ∧ CodeOk s ∧ s.wN = 0 ∧ s.bitcnt = 0
  | .encode => CodeOk s ∧ s.wN = s.bitcnt % 8
  | .dCount => Covers alpha s.seen ∧ s.tState = .flag ∧ s.tNodes = 0 ∧ s.tLeaves = 0 ∧ s.tInts = 0 ∧
      s.tLwi = false ∧ s.psN = 0
  | .dTree => Covers alpha s.seen ∧ Parsing s
  | .dPad => ∃ n, n ≤ nodeMax ∧ DecoderTree s n
  | .dPayload => ∃ n, n ≤ nodeMax ∧ DecoderTree s n ∧ WalkOk s n
  | .error => True

/-- What the current phase has to work with. -/
abbrev PhaseOk (s : State) : Prop := PhaseReady s.phase s

/-- The invariant of HUFFCORE: it holds at reset and every step keeps it; in a state that has it no step stops. -/
structure Inv (s : State) : Prop where
  widths : Widths s
  always : Always s
  phase : PhaseOk s

/-! ## Whole transactions as sequences of operations (46_codec_commands.md R255, R256) -/

/-- Operations one after the other, until one stops. -/
def execAll (is : List Instr) (s : State) : Host.Outcome State Fault Refusal :=
  match is with
  | [] => .next s
  | i :: rest =>
    match exec i s with
    | .next t => execAll rest t
    | .fault f => .fault f
    | .refused r => .refused r

/-- An input beat, decoded in the phase where it arrives. -/
def feedBeat (w : BitVec 10) (s : State) : Host.Outcome State Fault Refusal :=
  runDecoded (decode (.input s.phase (decide (s.nsym = 1))) (.inBeat w)) s

/-- Input beats one after the other, until one stops. -/
def feed (ws : List (BitVec 10)) (s : State) : Host.Outcome State Fault Refusal :=
  match ws with
  | [] => .next s
  | w :: rest =>
    match feedBeat w s with
    | .next t => feed rest t
    | .fault f => .fault f
    | .refused r => .refused r

/-- Go on from a next state. -/
def onNext (o : Host.Outcome State Fault Refusal) (k : State → Host.Outcome State Fault Refusal) :
    Host.Outcome State Fault Refusal :=
  match o with
  | .next t => k t
  | .fault f => .fault f
  | .refused r => .refused r

/-- The internal step of the current phase (46_codec_commands.md R259). -/
def internalStep (s : State) : Host.Outcome State Fault Refusal :=
  runDecoded (decode (.internal s.phase) .noBits) s

/-- A byte sequence closed by END, as input beats (30_encoding.md R95). -/
def stream (S : List Byte) : List (BitVec 10) := S.map dataBeat ++ [endBeat]

/-- A compress with pass 1 `S1` and pass 2 `S2` (46_codec_commands.md R255): the output collects in `oq`. Refused where an error
ends the transaction before its last beat, since ERROR takes no input. -/
def compressRun (S1 S2 : List Byte) (s : State) : Host.Outcome State Fault Refusal :=
  onNext (exec .cmdCompress s) fun s =>
    onNext (feed (stream S1) s) fun s =>
      onNext (internalStep s) fun s =>
        onNext (internalStep s) fun s =>
          onNext (internalStep s) fun s => feed (stream S2) s

/-- A decompress of the artifact `A` closed by END (R256): the output collects in `oq`. -/
def decompressRun (A : List Byte) (s : State) : Host.Outcome State Fault Refusal :=
  onNext (exec .cmdDecompress s) fun s => feed (stream A) s

/-- The bits of a tree-section byte through TREE.FLAG and TREE.SYMBIT, until the tree completes or an error is raised
(44_framing.md R218). -/
def parseBits (c : Bits) (s : State) : Host.Outcome State Fault Refusal :=
  match c with
  | [] => .next s
  | x :: rest =>
    onNext (exec (if s.tState = .flag then .treeFlag x else .treeSymbit x) s) fun t =>
      if t.phase = .error then .next t
      else if s.tState = .sym ∧ t.ret = .complete true then .next { t with root := 0, phase := .dPad }
      else parseBits rest t

/-- WALK (45_decode.md R231): WALK.BIT1 when nsym == 1 and WALK.BIT otherwise. -/
def walkOp (nsym : Nat) (x : Bool) : Instr := if nsym = 1 then .walkBit1 x else .walkBit x

end Sys2Proof.Machine
end

