-- ==== Sys2Proof/Certificates/Slice0/Obligations.lean ====
section
/-! DEFINITION. The statements for the provers, in the order of OBLIGATIONS.json. A record update on the right of an equality says
the frame as well: every field it does not name is unchanged, `oq` and the host's side among them. Where an array changes,
the statement says what every index reads afterwards. -/

open Sys2Proof Sys2Proof.Machine

/-! ## Encoding and selection -/

/-- 30_encoding.md R91 to R109, R114: no bit of an operation's word is dropped. -/
def Obligations.DecodeInvertsEncode : Prop :=
  ∀ i : Instr, i.wellFormed = true → ∀ sel w, encode i = some (sel, w) → decode sel w = .ok i

/-- 30_encoding.md R114: what the decoder answers is well-formed and is an operation that has a word; the sub-operations that
R114 calls "not encoded" are never decoded. -/
def Obligations.DecodedOperationsHaveAWord : Prop :=
  ∀ sel w i, decode sel w = .ok i → i.wellFormed = true ∧ ∃ sel' w', encode i = some (sel', w')

/-- Words written out from the tables of 30_encoding.md (R92, R95, R97, R101, R103, R104, R106, R107, R108, R109). The tree pad bits
may have any value (R106). -/
def Obligations.WordsDecodeAsWrittenOut : Prop :=
  decode (.command .idle) (.cmd 0b01#2) = .ok .cmdCompress ∧
  decode (.command .idle) (.cmd 0b10#2) = .ok .cmdDecompress ∧
  decode (.command .idle) (.cmd 0b11#2) = .ok .cmdClear ∧
  decode (.command .error) (.cmd 0b11#2) = .ok .cmdClear ∧
  decode (.command .idle) (.cmd 0b00#2) = .ok .cmdReserved ∧
  decode (.command .error) (.cmd 0b00#2) = .ok (.cmdIgnored 0b00#2) ∧
  decode (.command .scan) (.cmd 0b01#2) = .error .noCommandInPhase ∧
  decode (.input .scan false) (.inBeat 0b0001100001#10) = .ok (.freqCount 0x61#8) ∧
  decode (.input .scan false) (.inBeat 0b0111111111#10) = .ok .scanEnd ∧
  decode (.input .encode false) (.inBeat 0b1101100001#10) = .ok .encFail ∧
  decode (.input .dTree true) (.inBeat 0b0010000001#10) = .ok (.decTree1 0x81#8) ∧
  decode (.input .dTree false) (.inBeat 0b0010000001#10) = .ok (.decTree 0x81#8) ∧
  decode (.input .build false) (.inBeat 0b0001100001#10) = .error .noInputInPhase ∧
  decode .output (.outBeat 0b010000001#9) = .ok (.outData 0x81#8) ∧
  decode .output (.outBeat 0b100000000#9) = .ok .outEnd ∧
  decode .token (.bits [true, false, true, true, false, false, false, false, true]) = .ok (.tLeaf 0x61#8) ∧
  decode .token (.bits [false]) = .ok .tInternal ∧
  decode .token (.bits [true, false]) = .error .notAToken ∧
  decode .artPad (.bytes [0x05#8]) = .ok (.artPad 5#3) ∧
  decode .artPad (.bytes [0x08#8]) = .error .padAboveSeven ∧
  decode .artN (.bytes [0x00#8]) = .ok (.artN 0x00#8) ∧
  decode .artTree1 (.bytes [0x81#8]) = .ok (.artTree1 0x81#8) ∧
  decode .treePad (.bits [false, false, false, false, false]) = .ok (.artTreepad 5) ∧
  decode .treePad (.bits [true, false, true]) = .ok (.artTreepad 3) ∧
  decode .treePad (.bits [false, true, false, false, false, false, false, true]) = .error .notTreePad ∧
  decode .payload (.bytes [0x6E#8, 0x8A#8, 0xDC#8]) = .ok (.artPayload [0x6E#8, 0x8A#8, 0xDC#8]) ∧
  decode .codeBits (.bits [true, true, false]) = .ok (.code [true, true, false])

/-- 30_encoding.md R96: FAIL before END before DATA, in every phase that takes input. -/
def Obligations.BeatKindIsDecidedInOrder : Prop :=
  ∀ w : BitVec 10,
    (w.getLsbD 9 = true → beatKind w = .fail) ∧
    (w.getLsbD 9 = false → w.getLsbD 8 = true → beatKind w = .endOfStream) ∧
    (w.getLsbD 9 = false → w.getLsbD 8 = false → beatKind w = .data (w.setWidth 8))

/-- 30_encoding.md R94, R98: the ready and valid outputs, and the beat that is offered. -/
def Obligations.ReadyAndValidSignals : Prop :=
  ∀ s : State,
    (s.cmdReady = true ↔ (s.phase = .idle ∨ s.phase = .error) ∧ s.oq = []) ∧
    (s.inReady = true ↔ s.oq = [] ∧ (s.phase = .scan ∨ s.phase = .encode ∨ s.phase = .dCount ∨ s.phase = .dTree ∨
      s.phase = .dPad ∨ s.phase = .dPayload)) ∧
    (s.outValid = true ↔ s.oq ≠ []) ∧
    (∀ b rest, s.oq = b :: rest → s.outBeat = some b)

/-- 10_state.md R44: the status ports are copies of the registers, none of which is wider than its port; `phase`, `err_phase` and
`err` show the numbers of 10_state.md R21 and 60_exceptions.md R281, in every state. -/
def Obligations.StatusPortsCopyTheRegisters : Prop :=
  (∀ s : State,
    (∀ p ∈ [(Phase.idle, 0#4), (.scan, 1#4), (.build, 2#4), (.derive, 3#4), (.emitHdr, 4#4), (.encode, 5#4), (.dCount, 6#4),
        (.dTree, 7#4), (.dPad, 8#4), (.dPayload, 9#4), (.error, 15#4)],
      (s.phase = p.1 → s.status.phase = p.2) ∧ (s.errPhase = p.1 → s.status.errPhase = p.2)) ∧
    ∀ p ∈ [(ErrCode.none, 0#4), (.inputRead, 1#4), (.emptyInput, 2#4), (.countOverflow, 3#4), (.unknownSymbol, 4#4),
        (.passMismatch, 5#4), (.corruptArtifact, 6#4), (.illegalCmd, 7#4)],
      s.err = p.1 → s.status.err = p.2) ∧
  ∀ s : State, Inv s →
    s.status.phase = phaseCode s.phase ∧ s.status.doneOk.toNat = s.doneOk.toNat ∧ s.status.err = errCode s.err ∧
    s.status.errInfo = s.errInfo ∧ s.status.errPhase = phaseCode s.errPhase ∧ s.status.errData = s.errData ∧
    s.status.nsym.toNat = s.nsym ∧ s.status.pad.toNat = s.pad ∧ s.status.total.toNat = s.total ∧
    s.status.paybits.toNat = s.paybits ∧ (s.status.busy = 1#1 ↔ s.phase ≠ .idle ∧ s.phase ≠ .error)

/-! ## The step -/

/-- 20_memory.md R75, 30_encoding.md R94, R98, 46_codec_commands.md R259, 70_reset_and_hazards.md R310: what an edge does. The
decoded operation runs on the state whose list of edges has moved on by one; an internal step takes no edge (log 3). -/
def Obligations.StepRunsTheDecodedOperation : Prop :=
  (∀ (s : State) (p : PortsIn) (rest : List PortsIn), s.ports = p :: rest →
    (p.rst = true → step s = exec .reset { s with ports := rest }) ∧
    (p.rst = false →
      (∀ b more, s.oq = b :: more → p.outReady = true →
        step s = .next { s with ports := rest, oq := more, taken := s.taken ++ [b] }) ∧
      (s.oq = [] ∨ p.outReady = false →
        (∀ i, decode (.internal s.phase) .noBits = .ok i → step s = exec i s) ∧
        (s.oq = [] → p.cmdValid = true → ∀ i, decode (.command s.phase) (.cmd p.cmdOp) = .ok i →
          step s = exec i { s with ports := rest }) ∧
        (s.oq = [] → p.inValid = true → ∀ i,
          decode (.input s.phase (decide (s.nsym = 1)))
            (.inBeat (BitVec.ofBool p.inFail ++ BitVec.ofBool p.inEnd ++ p.inData)) = .ok i →
          step s = exec i { s with ports := rest }) ∧
        (s.phase ≠ .build → s.phase ≠ .derive → s.phase ≠ .emitHdr →
          ¬ (s.cmdReady = true ∧ p.cmdValid = true) → ¬ (s.inReady = true ∧ p.inValid = true) →
          step s = .next { s with ports := rest })))) ∧
  (∀ s : State, s.ports = [] →
    (∀ i, decode (.internal s.phase) .noBits = .ok i → step s = exec i s) ∧
    (s.phase ≠ .build → s.phase ≠ .derive → s.phase ≠ .emitHdr → step s = .next s))

/-- 20_memory.md R61: the canonical form of an array (the model's, log 4; R61 gives the index spaces) is unique, so equal contents
are equal data, whatever the elements are: counts, nodes, code entries, stack entries or bits. -/
def Obligations.ArraysWithEqualContentsAreEqual : Prop :=
  ∀ (α : Type) (size : Nat) (m m' : Memory α), Memory.wf size m = true → Memory.wf size m' = true →
    (∀ i, Memory.read m i = Memory.read m' i) → m = m'

/-- 10_state.md R38, 20_memory.md R71: every step but a reset keeps the beats that were produced, in their order, and may put
new ones behind them; what the host has taken stays taken. -/
def Obligations.OutputLeavesInTheOrderProduced : Prop :=
  ∀ s t : State, step s = .next t → s.edge.rst = false →
    (∃ beats, t.taken ++ t.oq = s.taken ++ s.oq ++ beats) ∧ ∃ more, t.taken = s.taken ++ more ∧ more.length ≤ 1

/-- 46_codec_commands.md R257: every step moves `phase` as the table says. -/
def Obligations.PhaseMovesAsTheTableSays : Prop :=
  ∀ s t : State, step s = .next t → t.phase ∈ phasesAfter s.phase s.event

/-- 60_exceptions.md R280: an error is raised only by a command or an input beat, and it records the phase. -/
def Obligations.ErrorsComeFromTransfersOnly : Prop :=
  ∀ s t : State, step s = .next t → s.phase ≠ .error → t.phase = .error →
    ((∃ op, s.event = .command op) ∨ (∃ w, s.event = .input w)) ∧ t.errPhase = s.phase ∧ t.err ≠ .none

/-- 60_exceptions.md R293: ERROR is left by CLEAR or reset, with every register at its reset value (and the arrays
unspecified, log 5); nothing else changes the error record. -/
def Obligations.ErrorIsLeftByClearOrReset : Prop :=
  ∀ s t : State, step s = .next t → s.phase = .error →
    (t.phase = .error ∧ t.err = s.err ∧ t.errInfo = s.errInfo ∧ t.errPhase = s.errPhase ∧ t.errData = s.errData) ∨
    ((s.event = .reset ∨ s.event = .command 3#2) ∧ AtReset t)

/-- 20_memory.md R73, 41_tree_build.md R148, 42_codebook.md R167: the finished tree and codebook are not written again before the
next command or a reset, in IDLE and ERROR either, where CMD.RESERVED and CMD.IGNORED do not write them. -/
def Obligations.TreeAndCodebookAreNotRewritten : Prop :=
  ∀ s t : State, step s = .next t → s.edge.rst = false →
    (s.phase = .derive ∨ s.phase = .emitHdr ∨ s.phase = .encode ∨ s.phase = .dPad ∨ s.phase = .dPayload →
      t.node = s.node ∧ t.old = s.old ∧ t.root = s.root) ∧
    (s.phase = .emitHdr ∨ s.phase = .encode → t.code = s.code ∧ t.old = s.old ∧ t.paybits = s.paybits ∧ t.pad = s.pad) ∧
    ((s.phase = .idle ∧ s.event ≠ .command 1#2 ∧ s.event ≠ .command 2#2 ∧ s.event ≠ .command 3#2) ∨
      (s.phase = .error ∧ s.event ≠ .command 3#2) →
      t.node = s.node ∧ t.old = s.old ∧ t.root = s.root ∧ t.code = s.code ∧ t.paybits = s.paybits ∧ t.pad = s.pad)

/-! ## The invariant -/

/-- The state right after reset satisfies the invariant, and is the state of 10_state.md R45. -/
def Obligations.InvariantHoldsAtReset : Prop := Inv State.reset ∧ AtReset State.reset

/-- 00_scope.md R16, 10_state.md R21 to R37: in every state with the invariant, every step keeps it. -/
def Obligations.StepKeepsTheInvariant : Prop :=
  ∀ s t : State, Inv s → step s = .next t → Inv t

/-- 46_codec_commands.md R260, 70_reset_and_hazards.md R331: in a state with the invariant no step stops: no rule reads what
nothing has written, and every event finishes. -/
def Obligations.StepNeverStops : Prop :=
  ∀ s : State, Inv s → ∃ t, step s = .next t

/-! ## Commands, errors, reset -/

/-- 10_state.md R45, 46_codec_commands.md R253, 70_reset_and_hazards.md R311. The arrays are unspecified, which in the model means
that no element can be read (log 5). CNT_W and the host's side are no state of HUFFCORE (10_state.md R46) and stay (log 2), and so
does the count of free values (log 22). -/
def Obligations.ClearAndResetGiveTheResetValues : Prop :=
  ∀ s : State, ∀ i ∈ [Instr.cmdClear, Instr.reset],
    ∃ t, exec i s = .next t ∧ AtReset t ∧ t.cfg = s.cfg ∧ t.ports = s.ports ∧ t.taken = s.taken ∧ t.draws = s.draws

/-- 46_codec_commands.md R251, with FREQ.CLEAR, 40_frequency.md R130. The other arrays keep what they hold (10_state.md R20); that no
operation of the new transaction can read it (70_reset_and_hazards.md R311, 46_codec_commands.md R260) is the model's reading
(log 4), and so is the mark `rangesEnded` (log 23). -/
def Obligations.CompressOpensPassOne : Prop :=
  ∀ s : State, ∃ (F : Memory Nat) (t : State),
    (∀ y, y < 256 → Memory.read F y = some 0) ∧ (∀ y, 256 ≤ y → Memory.read F y = none) ∧
    exec .freqClear s = .next { s with freq := F, total := 0, nsym := 0 } ∧
    exec .cmdCompress s = .next t ∧
    t = { s with
      doneOk := false, freq := F, total := 0, nsym := 0, wAcc := 0#8, wN := 0, bitcnt := 0, phase := .scan,
      node := [], code := [], pstack := [], seen := [], old := t.old, rangesEnded := false } ∧
    ∀ i, t.nodeAt i = s.nodeAt i ∧ t.codeAt i = s.codeAt i ∧ t.pstackAt i = s.pstackAt i ∧ t.seenAt i = s.seenAt i

/-- 46_codec_commands.md R252. The other arrays keep what they hold (10_state.md R20); that no operation of the new transaction can
read it (70_reset_and_hazards.md R311, 46_codec_commands.md R260) is the model's reading (log 4), and so is the mark
`rangesEnded` (log 23). -/
def Obligations.DecompressOpensTheParser : Prop :=
  ∀ s : State, ∃ (F : Memory Bool) (t : State),
    (∀ y, y < 256 → Memory.read F y = some false) ∧ (∀ y, 256 ≤ y → Memory.read F y = none) ∧
    exec .cmdDecompress s = .next t ∧
    t = { s with
      doneOk := false, seen := F, tState := .flag, tSym := 0#8, tSymn := 0, tNodes := 0, tLeaves := 0, tInts := 0,
      tLwi := false, psN := 0, holdV := false, phase := .dCount, freq := [], node := [], code := [], pstack := [],
      old := t.old, rangesEnded := false } ∧
    ∀ i, t.freqAt i = s.freqAt i ∧ t.nodeAt i = s.nodeAt i ∧ t.codeAt i = s.codeAt i ∧ t.pstackAt i = s.pstackAt i

/-- 46_codec_commands.md R258: in ERROR, a command other than CLEAR is transferred and nothing changes: no register, array or queue of
HUFFCORE (`rangesEnded` is the model's own mark, log 23). -/
def Obligations.OtherCommandsAreIgnoredInError : Prop :=
  ∀ (op : BitVec 2) (s : State), op ≠ 3#2 →
    decode (.command .error) (.cmd op) = .ok (.cmdIgnored op) ∧
    ∃ t, exec (.cmdIgnored op) s = .next t ∧ t = { s with rangesEnded := t.rangesEnded }

/-- 60_exceptions.md R290: what `raise E(info, data)` writes, and that it writes nothing else. Then the operations whose whole
effect is an error, each with its code and sub-cause: 40_frequency.md R134, 44_framing.md R206, R216, R223, R225, 45_decode.md
R235, 46_codec_commands.md R254. That `done_ok` is among the registers that R290 does not write, so that CMD.RESERVED after a
successful transaction leaves it 1, is the model's reading of R290's pseudocode against its prose (log 21). -/
def Obligations.ErrorEntryWritesTheRecord : Prop :=
  (∀ (e : ErrCode) (info : BitVec 4) (data : Byte) (s : State),
    exec (.errorEntry e info data) s =
      .next { s with err := e, errInfo := info, errData := data, errPhase := s.phase, phase := .error }) ∧
  ∀ s : State,
    ∀ p ∈ [(Instr.scanFail, ErrCode.inputRead, 0#4), (.encFail, .inputRead, 0#4), (.cmdReserved, .illegalCmd, 0#4),
        (.decTruncCount, .corruptArtifact, 1#4), (.decSrcfailCount, .corruptArtifact, 2#4),
        (.decTruncTree, .corruptArtifact, 1#4), (.decSrcfailTree, .corruptArtifact, 2#4),
        (.decTruncPad, .corruptArtifact, 1#4), (.decSrcfailPad, .corruptArtifact, 2#4),
        (.decFail, .corruptArtifact, 2#4)],
      exec p.1 s =
        .next { s with err := p.2.1, errInfo := p.2.2, errData := 0#8, errPhase := s.phase, phase := .error }

/-- The model's own stops: a read outside the ranges of 10_state.md R47 (log 23, 24); a read of an element that the current transaction
has not written (R47, 70_reset_and_hazards.md R311; log 4, 27); a queue, stack or array over its capacity or empty (10_state.md R31,
R33, R37; log 15); a traversal deeper than 255 (10_state.md R39; log 13). -/
def Obligations.TheModelStopsWhereNoRuleApplies : Prop :=
  -- reads outside the ranges
  (∀ (i : Instr) (s : State), ¬ Readable s (groupsRead i s) →
    ∃ g ∈ groupsRead i s, s.meaningful g = false ∧ exec i s = .fault (.outsideRange g)) ∧
  (∀ (s t : State) (b : Byte), exec .cmdDecompress s = .next t →
    exec (.freqCount b) t = .fault (.outsideRange .counts) ∧ exec .scanEnd t = .fault (.outsideRange .counts)) ∧
  (∀ (s : State) (b : Byte) (x : Bool), s.phase = .scan →
    exec (.codeLookup b) s = .fault (.outsideRange .codebook) ∧ exec .hdrPad s = .fault (.outsideRange .pad) ∧
    exec (.wPutbit x) s = .fault (.outsideRange .writer) ∧ exec .merge s = .fault (.outsideRange .tree) ∧
    exec .treeComplete s = .fault (.outsideRange .parser) ∧ exec (.walkBit x) s = .fault (.outsideRange .reader)) ∧
  -- in ERROR: what belongs to one phase, and everything once a command has been ignored
  (∀ (s : State) (x : Bool), s.phase = .error →
    exec (.wPutbit x) s = .fault (.outsideRange .writer) ∧ exec (.walkBit x) s = .fault (.outsideRange .reader) ∧
    exec .treeComplete s = .fault (.outsideRange .parser)) ∧
  (∀ (s t : State) (op : BitVec 2) (b : Byte), s.phase = .error → exec (.cmdIgnored op) s = .next t →
    exec (.freqCount b) t = .fault (.outsideRange .counts) ∧ exec .hdrCount t = .fault (.outsideRange .symbols) ∧
    exec .merge t = .fault (.outsideRange .tree) ∧ exec (.codeLookup b) t = .fault (.outsideRange .codebook) ∧
    exec .encEnd t = .fault (.outsideRange .paybits) ∧ exec .hdrPad t = .fault (.outsideRange .pad)) ∧
  ∀ s : State,
    -- elements that the transaction has not written
    (∀ b : Byte, Readable s [.counts] → s.total ≠ 2 ^ s.cfg.cntW - 1 → Memory.read s.freq b.toNat = none →
      exec (.freqCount b) s = .fault (.unwritten .freq b.toNat)) ∧
    (∀ b : Byte, Memory.read s.code b.toNat = none →
      (Readable s [.codebook] → exec (.codeLookup b) s = .fault (.unwritten .code b.toNat)) ∧
      (Readable s [.codebook, .paybits, .writer] → exec (.encSym b) s = .fault (.unwritten .code b.toNat))) ∧
    (∀ x : Bool, Readable s [.tree] → Memory.read s.node s.root = none →
      exec .codeAssign1 s = .fault (.unwritten .node s.root) ∧ exec .hdrTree1 s = .fault (.unwritten .node s.root) ∧
      exec (.walkBit1 x) s = .fault (.unwritten .node s.root)) ∧
    (∀ x : Bool, Readable s [.reader, .tree] → Memory.read s.node s.cur = none →
      exec (.walkBit x) s = .fault (.unwritten .node s.cur)) ∧
    (∀ x : Bool, Readable s [.parser, .symbols, .tree] → s.tSymn = 7 →
      Memory.read s.seen ((s.tSym <<< 1) ||| (if x then 1#8 else 0#8)).toNat = none →
      exec (.treeSymbit x) s = .fault (.unwritten .seen ((s.tSym <<< 1) ||| (if x then 1#8 else 0#8)).toNat)) ∧
    (∀ k : Nat, Readable s [.parser, .tree] → 0 < k → s.tLwi = false → 0 < s.psN →
      Memory.read s.pstack (s.psN - 1) = none →
      exec (.treeAttach k) s = .fault (.unwritten .pstack (s.psN - 1))) ∧
    -- a parent that the transaction has not written (log 27)
    (∀ k : Nat, Readable s [.parser, .tree] → 0 < k → s.tLwi = true → Memory.read s.node (k - 1) = none →
      exec (.treeAttach k) s = .fault (.unwritten .node (k - 1))) ∧
    (∀ k p : Nat, Readable s [.parser, .tree] → 0 < k → s.tLwi = false → 0 < s.psN →
      Memory.read s.pstack (s.psN - 1) = some p → Memory.read s.node p = none →
      exec (.treeAttach k) s = .fault (.unwritten .node p)) ∧
    -- capacities, and taking from what is empty
    (∀ f k : Nat, Readable s [.tree] → 256 ≤ s.pq.length → exec (.pqInsert f k) s = .fault .queueFull) ∧
    (Readable s [.tree] → s.pq = [] → exec .pqExtractMin s = .fault .queueEmpty) ∧
    (∀ k : Nat, Readable s [.parser, .tree] → 0 < k → s.tLwi = false → s.psN = 0 →
      exec (.treeAttach k) s = .fault .stackEmpty) ∧
    (Readable s [.tree] → 2 ≤ s.pq.length → 511 ≤ s.seq → exec .merge s = .fault (.noSuchElement .node s.seq)) ∧
    (∀ (k : Nat) (n : Node), Readable s [.parser, .tree] → 511 < k → s.tLwi = true →
      Memory.read s.node (k - 1) = some n → exec (.treeAttach k) s = .fault (.noSuchElement .node (k - 1))) ∧
    (∀ n : Node, Readable s [.parser, .symbols, .tree] → s.tInts + 1 ≠ s.nsym → s.tNodes = 511 → s.tLwi = true →
      Memory.read s.node 510 = some n → exec (.treeFlag false) s = .fault (.noSuchElement .node 511)) ∧
    (Readable s [.parser, .symbols, .tree] → s.tInts + 1 ≠ s.nsym → s.tNodes = 0 → 255 ≤ s.psN →
      exec (.treeFlag false) s = .fault (.noSuchElement .pstack s.psN)) ∧
    -- depth
    (∀ (k : Nat) (p : Bits), Readable s [.tree] → 255 < p.length →
      exec (.codeAssign k p) s = .fault .traversalTooDeep) ∧
    (∀ (k : Nat) (p : Bits) (T : HTree), Readable s [.tree] → Represents s.node k T → 255 < p.length + T.depth →
      exec (.codeAssign k p) s = .fault .traversalTooDeep) ∧
    (∀ T : HTree, Readable s [.tree, .writer] → Represents s.node s.root T → 255 < T.depth →
      exec .hdrTree s = .fault .traversalTooDeep)

/-! ## Frequency accounting -/

/-- 40_frequency.md R132, R133: in FREQ.COUNT the overflow test comes first, and a counted symbol changes FREQ[b], `total` and
`nsym` only; SCAN.END. -/
def Obligations.ScanBeatsCountAndClose : Prop :=
  (∀ (b : Byte) (s : State) (f : Nat), Readable s [.counts] → Memory.read s.freq b.toNat = some f →
    (s.total = 2 ^ s.cfg.cntW - 1 → exec (.freqCount b) s = .next (recorded .countOverflow 0#4 b s)) ∧
    (s.total ≠ 2 ^ s.cfg.cntW - 1 → ∃ F : Memory Nat,
      exec (.freqCount b) s = .next { s with
        freq := F, total := s.total + 1, nsym := if f = 0 then s.nsym + 1 else s.nsym } ∧
      ∀ y, Memory.read F y = if y = b.toNat then some (f + 1) else Memory.read s.freq y)) ∧
  ∀ s : State, Readable s [.counts] →
    (s.total = 0 → exec .scanEnd s = .next (recorded .emptyInput 0#4 0#8 s)) ∧
    (s.total ≠ 0 → exec .scanEnd s = .next { s with phase := .build })

/-- 40_frequency.md R135: after the command and any number of DATA beats up to MAXCNT, `total`, FREQ and `nsym` count them; at an
END beat then the bounds hold. The other arrays keep what they hold (10_state.md R20); that none of it is left to read is the model's
reading (log 4), and so is the mark `rangesEnded` (log 23). -/
def Obligations.PassOneCountsItsInput : Prop :=
  ∀ (S : List Byte) (s : State), S.length ≤ 2 ^ s.cfg.cntW - 1 →
    ∃ t, execAll (.cmdCompress :: S.map .freqCount) s = .next t ∧
      t = { s with
        doneOk := false, freq := t.freq, total := t.total, nsym := t.nsym, wAcc := 0#8, wN := 0, bitcnt := 0,
        phase := .scan, node := [], code := [], pstack := [], seen := [], old := t.old, rangesEnded := false } ∧
      (∀ i, t.nodeAt i = s.nodeAt i ∧ t.codeAt i = s.codeAt i ∧ t.pstackAt i = s.pstackAt i ∧ t.seenAt i = s.seenAt i) ∧
      t.total = S.length ∧ t.total = ((List.range 256).map fun y => countAt t.freq y).sum ∧
      t.nsym = ((List.range 256).filter fun y => decide (0 < countAt t.freq y)).length ∧
      (∀ y : Byte, Memory.read t.freq y.toNat = some (S.count y)) ∧
      (S ≠ [] → exec .scanEnd t = .next { t with phase := .build } ∧ 1 ≤ t.nsym ∧ t.nsym ≤ min 256 t.total ∧
        1 ≤ t.total ∧ t.total ≤ 2 ^ s.cfg.cntW - 1)

/-! ## Tree construction -/

/-- 41_tree_build.md R142: PQ.INSERT (PQ in the order of insertion, log 18). For `seq` = 511 and for a count wider than CNT_W, where
the spec gives no effect, what it says is the model's choice (log 26). -/
def Obligations.InsertAppendsAnEntry : Prop :=
  ∀ (f k : Nat) (s : State), Readable s [.tree] → s.pq.length < 256 →
    exec (.pqInsert f k) s = .next { s with
      pq := s.pq ++ [{ freq := f, seq := s.seq, node := k }], seq := s.seq + 1, pqCount := s.pqCount + 1 }

/-- 41_tree_build.md R141, R143: PQ.EXTRACT_MIN takes the entry that is before every other one by (freq, seq). -/
def Obligations.ExtractMinTakesTheFirstEntry : Prop :=
  ∀ s : State, Readable s [.tree] → s.pq ≠ [] → (s.pq.map PqEntry.seq).Nodup →
    ∃ m ∈ s.pq, (∀ e ∈ s.pq, e ≠ m → m.freq < e.freq ∨ (m.freq = e.freq ∧ m.seq < e.seq)) ∧
      exec .pqExtractMin s = .next { s with
        pq := s.pq.erase m, pqCount := s.pqCount - 1, ret := .entry m.freq m.node }

/-- 41_tree_build.md R144: PQ.INIT makes one leaf for every symbol that occurs, in ascending symbol value (that PQ lists its entries
in the order of insertion is the model's layout, log 18). -/
def Obligations.QueueInitMakesTheLeavesInOrder : Prop :=
  ∀ (s : State) (f : Nat → Nat), Readable s [.counts] → (∀ y, y < 256 → Memory.read s.freq y = some (f y)) →
    let ys := (List.range 256).filter fun y => decide (0 < f y)
    ∃ M : Memory Node,
      exec .pqInit s = .next { s with
        node := M, pq := ys.zipIdx.map (fun q => { freq := f q.1, seq := q.2, node := q.2 }), seq := ys.length,
        pqCount := ys.length } ∧
      (∀ k y, ys[k]? = some y → Memory.read M k =
        some { leaf := true, sym := BitVec.ofNat 8 y, freq := some (f y), left := 0, right := 0 }) ∧
      ∀ k, ys.length ≤ k → Memory.read M k = Memory.read s.node k

/-- 41_tree_build.md R145: MERGE takes the two first entries in the order of R141 and puts their parent back (at the end of the
list: the model's layout, log 18). -/
def Obligations.MergeJoinsTheTwoFirstEntries : Prop :=
  ∀ s : State, Readable s [.tree] → 2 ≤ s.pq.length → s.pq.length ≤ 256 → s.pqCount = s.pq.length →
    (s.pq.map PqEntry.seq).Nodup → s.seq < 511 →
    ∃ e1 ∈ s.pq, ∃ e2 ∈ s.pq, e1 ≠ e2 ∧ e1.freq ≤ e2.freq ∧
      (∀ e ∈ s.pq, e ≠ e1 → e1.freq < e.freq ∨ (e1.freq = e.freq ∧ e1.seq < e.seq)) ∧
      (∀ e ∈ s.pq, e ≠ e1 → e ≠ e2 → e2.freq < e.freq ∨ (e2.freq = e.freq ∧ e2.seq < e.seq)) ∧
      ∃ M : Memory Node,
        exec .merge s = .next { s with
          node := M
          pq := (s.pq.erase e1).erase e2 ++ [{ freq := e1.freq + e2.freq, seq := s.seq, node := s.seq }]
          seq := s.seq + 1
          pqCount := s.pqCount - 1 } ∧
        ∀ k, Memory.read M k = if k = s.seq then
          some { leaf := false, sym := 0#8, freq := some (e1.freq + e2.freq), left := e1.node, right := e2.node }
          else Memory.read s.node k

/-- 41_tree_build.md R146: BUILD is PQ.INIT, then exactly nsym - 1 MERGEs, then one PQ.EXTRACT_MIN; at the end PQ is empty,
the extracted count is `total` and `seq` is 2 * nsym - 1. -/
def Obligations.BuildRunsItsSubOperations : Prop :=
  ∀ s : State, Inv s → s.phase = .build →
    ∃ u, execAll (.pqInit :: (List.replicate (s.nsym - 1) .merge ++ [.pqExtractMin])) s = .next u ∧
      u.ret = .entry s.total (2 * s.nsym - 2) ∧ u.pq = [] ∧ u.pqCount = 0 ∧ u.seq = 2 * s.nsym - 1 ∧
      exec .build s = .next { u with ret := s.ret, root := 2 * s.nsym - 2, phase := .derive }

/-- 41_tree_build.md R147, R148 (a) to (e): the numbering, the shape and the counts of the tree that BUILD makes; entries of NODE
above 2N - 2 are not written. -/
def Obligations.BuildMakesTheNumberedTree : Prop :=
  ∀ s : State, Inv s → s.phase = .build →
    ∃ (t : State) (T : HTree), exec .build s = .next t ∧
      t = { s with node := t.node, seq := 2 * s.nsym - 1, root := 2 * s.nsym - 2, phase := .derive } ∧
      Represents t.node t.root T ∧ T.leaves.Nodup ∧
      T.leaves.Perm ((symbolsThatOccur s.freq).map (BitVec.ofNat 8)) ∧
      (symbolsThatOccur s.freq).length = s.nsym ∧
      (∀ k y, (symbolsThatOccur s.freq)[k]? = some y → Memory.read t.node k =
        some { leaf := true, sym := BitVec.ofNat 8 y, freq := some (countAt s.freq y), left := 0, right := 0 }) ∧
      (∀ k, s.nsym ≤ k → k < 2 * s.nsym - 1 → ∃ n l r f g,
        Memory.read t.node k = some n ∧ n.leaf = false ∧ n.left < k ∧ n.right < k ∧ n.left ≠ n.right ∧
        Memory.read t.node n.left = some l ∧ Memory.read t.node n.right = some r ∧
        l.freq = some f ∧ r.freq = some g ∧ n.freq = some (f + g)) ∧
      (∀ j, j < 2 * s.nsym - 2 → ∃! k, s.nsym ≤ k ∧ k < 2 * s.nsym - 1 ∧
        ∃ n, Memory.read t.node k = some n ∧ (n.left = j ∨ n.right = j)) ∧
      (∃ n, Memory.read t.node t.root = some n ∧ n.freq = some s.total ∧ (n.leaf = true ↔ s.nsym = 1)) ∧
      ∀ k, 2 * s.nsym - 1 ≤ k → Memory.read t.node k = Memory.read s.node k

/-- 41_tree_build.md R149: two states with the same FREQ get the same tree, whatever else differs. -/
def Obligations.TreeDependsOnCountsAlone : Prop :=
  ∀ s s' : State, Inv s → Inv s' → s.phase = .build → s'.phase = .build → s.freq = s'.freq →
    ∃ t t', exec .build s = .next t ∧ exec .build s' = .next t' ∧ t.root = t'.root ∧
      ∀ k, k < 2 * s.nsym - 1 → Memory.read t.node k = Memory.read t'.node k

/-- 41_tree_build.md R150: no prefix code for the same counts is shorter than `paybits`. -/
def Obligations.PayloadSizeIsMinimal : Prop :=
  ∀ s : State, Inv s → s.phase = .build →
    ∃ u, execAll [.build, .derive] s = .next u ∧
      ∀ c : Byte → Bits,
        (∀ a, 0 < countAt s.freq a.toNat → c a ≠ []) →
        (∀ a b, 0 < countAt s.freq a.toNat → 0 < countAt s.freq b.toNat → a ≠ b → ¬ c a <+: c b) →
        u.paybits ≤ ((List.range 256).map fun y => countAt s.freq y * (c (BitVec.ofNat 8 y)).length).sum

/-! ## Codebook -/

/-- 42_codebook.md R161, R163, R165: CODE.CLEAR, CODE.ASSIGN1 and CODE.LOOKUP. That CODE.LOOKUP returns no bits for a symbol without
a code, where R165 leaves them unspecified, and that its value stands in `ret`, is the model's (log 7, 16); so is the free
value that CODE.ASSIGN1 reads where the root is no leaf (93_implementation_defined.md V2; log 14, 22): whatever it is. -/
def Obligations.CodebookEntries : Prop :=
  ∀ (s : State) (b : Byte),
    (∃ C : Memory CodeEntry, exec .codeClear s = .next { s with code := C } ∧
      ∀ y, y < 256 → ∃ c, Memory.read C y = some c ∧ c.len = 0) ∧
    (∀ n, Readable s [.tree] → Memory.read s.node s.root = some n →
      (n.leaf = true → ∃ C : Memory CodeEntry, exec .codeAssign1 s = .next { s with code := C } ∧
        ∀ y, Memory.read C y =
          if y = n.sym.toNat then some { len := 1, bits := [false] } else Memory.read s.code y) ∧
      (n.leaf = false → ∃ C : Memory CodeEntry,
        exec .codeAssign1 s = .next { s with code := C, draws := s.draws + 1 } ∧
        ∀ y, Memory.read C y = if y = (Config.freeSym s.draws).toNat then some { len := 1, bits := [false] }
          else Memory.read s.code y)) ∧
    (∀ c, Readable s [.codebook] → Memory.read s.code b.toNat = some c →
      (c.len = 0 → exec (.codeLookup b) s = .next { s with ret := .code 0 none }) ∧
      (c.len ≠ 0 → exec (.codeLookup b) s = .next { s with ret := .code c.len (some (c.bits.take c.len)) }))

/-- 42_codebook.md R162: CODE.ASSIGN gives every leaf below `k` its path behind `p`, and writes nothing else. -/
def Obligations.CodeAssignWritesThePaths : Prop :=
  ∀ (s : State) (k : Nat) (p : Bits) (T : HTree),
    Readable s [.tree] → Represents s.node k T → T.leaves.Nodup → p.length + T.depth ≤ 255 →
    ∃ C : Memory CodeEntry, exec (.codeAssign k p) s = .next { s with code := C } ∧
      (∀ q ∈ T.paths p, Memory.read C q.1.toNat = some { len := q.2.length, bits := q.2 }) ∧
      ∀ y, (∀ z ∈ T.leaves, y ≠ z.toNat) → Memory.read C y = Memory.read s.code y

/-- 42_codebook.md R166: PAD.PREDICT. -/
def Obligations.PadIsPredicted : Prop :=
  ∀ (s : State) (f l : Nat → Nat), Readable s [.counts, .codebook] → (∀ y, y < 256 → Memory.read s.freq y = some (f y)) →
    (∀ y, y < 256 → ∃ c, Memory.read s.code y = some c ∧ c.len = l y) →
    exec .padPredict s = .next { s with
      paybits := ((List.range 256).map fun y => f y * l y).sum
      pad := (8 - ((List.range 256).map fun y => f y * l y).sum % 8) % 8
      bitcnt := 0 }

/-- 42_codebook.md R160, R164 (a) to (d): DERIVE from a tree whose leaves are the symbols that occur. -/
def Obligations.DeriveMakesThePrefixCode : Prop :=
  ∀ (s : State) (T : HTree), Readable s [.counts, .tree] → Represents s.node s.root T → T.leaves.Nodup →
    (∀ y, y < 256 → ∃ f, Memory.read s.freq y = some f) →
    (∀ y : Byte, y ∈ T.leaves ↔ 0 < countAt s.freq y.toNat) →
    ∃ u, exec .derive s = .next u ∧
      u = { s with code := u.code, paybits := u.paybits, pad := u.pad, bitcnt := 0, phase := .emitHdr } ∧
      u.paybits = ((List.range 256).map fun y => countAt s.freq y * lenAt u.code y).sum ∧
      u.pad = (8 - u.paybits % 8) % 8 ∧
      (∀ q ∈ T.codes, Memory.read u.code q.1.toNat = some { len := q.2.length, bits := q.2 }) ∧
      T.codes.map Prod.fst = T.leaves ∧
      (∀ y : Byte, (1 ≤ lenAt u.code y.toNat ↔ 0 < countAt s.freq y.toNat) ∧ lenAt u.code y.toNat ≤ 255) ∧
      (∀ y, y < 256 → ∃ c, Memory.read u.code y = some c) ∧
      (∀ a ∈ T.codes, ∀ b ∈ T.codes, a.1 ≠ b.1 → ¬ a.2 <+: b.2)

/-! ## Bit stream -/

/-- 43_bitstream.md R176, R178, R179: W.PUTBIT, W.FLUSH and W.PUTBYTE. R179 has the precondition `w_n == 0`; that W.PUTBYTE has the
same effect for every other `w_n` is the model's choice (log 25). -/
def Obligations.WriterOperations : Prop :=
  ∀ (s : State) (x : Bool) (v : Byte),
    (Readable s [.writer] → s.wN ≤ 7 → ∃ acc : Byte,
      (∀ i, i < 8 → acc.getLsbD i = if i = 7 - s.wN then x else s.wAcc.getLsbD i) ∧
      (s.wN = 7 → exec (.wPutbit x) s = .next { s with
        wAcc := 0#8, wN := 0, oq := s.oq ++ [{ isEnd := false, data := acc }] }) ∧
      (s.wN ≠ 7 → exec (.wPutbit x) s = .next { s with wAcc := acc, wN := s.wN + 1 })) ∧
    (Readable s [.writer] → s.wN = 0 → exec .wFlush s = .next { s with ret := .padCount 0 }) ∧
    (Readable s [.writer] → 0 < s.wN → exec .wFlush s = .next { s with
      wAcc := 0#8, wN := 0, oq := s.oq ++ [{ isEnd := false, data := s.wAcc }], ret := .padCount ((8 - s.wN) % 8) }) ∧
    exec (.wPutbyte v) s = .next { s with oq := s.oq ++ [{ isEnd := false, data := v }] }

/-- 43_bitstream.md R177: W.PUTBITS puts the bits one by one, first bit first, and emits floor((w_n + |c|) / 8) bytes. -/
def Obligations.PutBitsPutsEachBitInOrder : Prop :=
  ∀ (c : Bits) (s : State), Readable s [.writer] → s.wN ≤ 7 →
    ∃ (u : State) (bs : List Byte), exec (.wPutbits c) s = .next u ∧ execAll (c.map .wPutbit) s = .next u ∧
      u = { s with wAcc := u.wAcc, wN := (s.wN + c.length) % 8, oq := s.oq ++ dataBeats bs } ∧
      bs.length = (s.wN + c.length) / 8

/-- 43_bitstream.md R180: the writer law. -/
def Obligations.WriterLaw : Prop :=
  ∀ (c : Bits) (s : State), Readable s [.writer] → s.wN = 0 → s.wAcc = 0#8 →
    ∃ bs : List Byte, bs.length = (c.length + 7) / 8 ∧
      (∀ i j, i < bs.length → j < 8 → (bs.getD i 0#8).getLsbD (7 - j) = c.getD (8 * i + j) false) ∧
      execAll (c.map .wPutbit ++ [.wFlush]) s = .next { s with
        oq := s.oq ++ dataBeats bs, ret := .padCount ((8 - c.length % 8) % 8) }

/-- 43_bitstream.md R182: R.BITS takes the most significant bits, most significant first, and inverts the writer: 8 bits of every
byte but the last, 8 - p of the last. -/
def Obligations.ReaderInvertsTheWriter : Prop :=
  (∀ (v : Byte) (n : Nat) (s : State), n ≤ 8 →
    ∃ c : Bits, exec (.rBits v n) s = .next { s with ret := .bits c } ∧ c.length = n ∧
      ∀ j, j < n → c.getD j false = v.getLsbD (7 - j)) ∧
  (∀ (c : Bits) (bs : List Byte) (v : Byte), packed c = bs ++ [v] →
    (bs.flatMap fun w => topBits w 8) ++ topBits v (8 - (8 - c.length % 8) % 8) = c)

/-! ## Writing the header and the payload -/

/-- 44_framing.md R196, R197, R199: the N byte, the single-symbol tree byte and the pad byte. Where the root is no leaf, HDR.TREE1
reads a free value (93_implementation_defined.md V2; log 14, 22): whatever it is. All three call W.PUTBYTE, whose precondition is
`w_n == 0` (43_bitstream.md R179); that they have the same effect for every other `w_n` is the model's choice (log 25). -/
def Obligations.HeaderBytes : Prop :=
  ∀ s : State,
    (Readable s [.symbols] →
      exec .hdrCount s = .next { s with oq := s.oq ++ [{ isEnd := false, data := BitVec.ofNat 8 (s.nsym % 256) }] }) ∧
    (∀ n, Readable s [.tree] → Memory.read s.node s.root = some n →
      (n.leaf = true → exec .hdrTree1 s = .next { s with oq := s.oq ++ [{ isEnd := false, data := n.sym }] }) ∧
      (n.leaf = false → exec .hdrTree1 s = .next { s with
        oq := s.oq ++ [{ isEnd := false, data := Config.freeSym s.draws }], draws := s.draws + 1 })) ∧
    (Readable s [.pad] →
      exec .hdrPad s = .next { s with oq := s.oq ++ [{ isEnd := false, data := BitVec.ofNat 8 s.pad }] })

/-- 44_framing.md R198, 30_encoding.md R102, R106: the pre-order tokens, packed; 10N - 1 bits in ceil((10N - 1) / 8) bytes, the
writer left empty. -/
def Obligations.TreeSectionIsThePreOrder : Prop :=
  ∀ (s : State) (T : HTree), Readable s [.tree, .writer] → Represents s.node s.root T → T.leaves.length ≤ 256 →
    s.wN = 0 → s.wAcc = 0#8 →
    exec .hdrTree s = .next { s with oq := s.oq ++ dataBeats (packed T.ser) } ∧
    T.ser.length = 10 * T.leaves.length - 1 ∧ (packed T.ser).length = (10 * T.leaves.length - 1 + 7) / 8

/-- 44_framing.md R195: EMIT_HDR emits 2 + T bytes: N mod 256, the tree section, the pad count. -/
def Obligations.HeaderIsEmittedWhole : Prop :=
  ∀ (s : State) (T : HTree), Readable s [.symbols, .tree, .pad, .writer] → Represents s.node s.root T →
    T.leaves.length = s.nsym → s.nsym ≤ 256 → s.wN = 0 → s.wAcc = 0#8 →
    exec .emitHdr s = .next { s with
      oq := s.oq ++ dataBeats ([BitVec.ofNat 8 (s.nsym % 256)] ++ packed T.sectionBits ++ [BitVec.ofNat 8 s.pad])
      phase := .encode } ∧
    (packed T.sectionBits).length = if s.nsym = 1 then 1 else (10 * s.nsym - 1 + 7) / 8

/-- 44_framing.md R207: ENC.SYM; UNKNOWN_SYMBOL is tested first, TOO_LONG second, and in both cases nothing is put. -/
def Obligations.EncodingASymbol : Prop :=
  ∀ (b : Byte) (s : State) (c : CodeEntry), Readable s [.codebook, .paybits, .writer] →
    Memory.read s.code b.toNat = some c →
    (c.len = 0 → exec (.encSym b) s = .next (recorded .unknownSymbol 0#4 b s)) ∧
    (c.len ≠ 0 → s.paybits < s.bitcnt + c.len → exec (.encSym b) s = .next (recorded .passMismatch 1#4 b s)) ∧
    (c.len ≠ 0 → s.bitcnt + c.len ≤ s.paybits →
      ∃ u, exec (.wPutbits (c.bits.take c.len)) s = .next u ∧
        u = { s with wAcc := u.wAcc, wN := u.wN, oq := u.oq } ∧
        exec (.encSym b) s = .next { u with bitcnt := s.bitcnt + c.len })

/-- 44_framing.md R208: ENC.END, and that the flushed pad bits are as many as the pad byte said. -/
def Obligations.EndOfPassTwo : Prop :=
  ∀ s : State, Readable s [.paybits, .writer] →
    (s.bitcnt ≠ s.paybits → exec .encEnd s = .next (recorded .passMismatch 2#4 0#8 s)) ∧
    (s.bitcnt = s.paybits →
      ∃ u, exec .wFlush s = .next u ∧
        exec .encEnd s = .next { u with
          ret := s.ret, oq := u.oq ++ [{ isEnd := true, data := 0#8 }], doneOk := true, phase := .idle } ∧
        (s.wN = s.bitcnt % 8 → s.pad = (8 - s.paybits % 8) % 8 → u.ret = .padCount s.pad))

/-! ## Parsing -/

/-- 44_framing.md R215, R217, R224: DEC.COUNT, DEC.TREE1 and DEC.PAD. `freq` of NODE[0] is not written (log 17). -/
def Obligations.HeaderBytesAreParsed : Prop :=
  ∀ (b : Byte) (s : State),
    exec (.decCount b) s = .next { s with nsym := if b = 0#8 then 256 else b.toNat, phase := .dTree } ∧
    (∃ M : Memory Node, exec (.decTree1 b) s = .next { s with node := M, root := 0, phase := .dPad } ∧
      (∃ n, Memory.read M 0 = some n ∧ n.leaf = true ∧ n.sym = b ∧ n.left = 0 ∧ n.right = 0 ∧
        n.freq = (s.nodeAt 0).bind Node.freq) ∧
      ∀ k, k ≠ 0 → Memory.read M k = Memory.read s.node k) ∧
    (Readable s [.tree] → 7 < b.toNat → exec (.decPad b) s = .next (recorded .corruptArtifact 5#4 b s)) ∧
    (Readable s [.tree] → b.toNat ≤ 7 → exec (.decPad b) s = .next { s with
      pad := b.toNat, holdV := false, cur := s.root, phase := .dPayload })

/-- 44_framing.md R221: TREE.ATTACH links the new node to its parent, which this transaction has written (else it stops, log 27:
TheModelStopsWhereNoRuleApplies). -/
def Obligations.TreeAttachLinksTheParent : Prop :=
  ∀ (s : State) (k : Nat) (n : Node), Readable s [.parser, .tree] →
    exec (.treeAttach 0) s = .next s ∧
    (0 < k → k ≤ 511 → s.tLwi = true → Memory.read s.node (k - 1) = some n →
      ∃ M : Memory Node, exec (.treeAttach k) s = .next { s with node := M } ∧
        ∀ j, Memory.read M j = if j = k - 1 then some { n with left := k } else Memory.read s.node j) ∧
    (∀ p, 0 < k → s.tLwi = false → 0 < s.psN → Memory.read s.pstack (s.psN - 1) = some p → p < 511 →
      Memory.read s.node p = some n →
      ∃ M : Memory Node, exec (.treeAttach k) s = .next { s with node := M, psN := s.psN - 1 } ∧
        ∀ j, Memory.read M j = if j = p then some { n with right := k } else Memory.read s.node j)

/-- 44_framing.md R219: TREE.FLAG. `freq` of the new node is not written (log 17). -/
def Obligations.FlagBitsAreParsed : Prop :=
  ∀ s : State, Readable s [.parser, .symbols, .tree] →
    exec (.treeFlag true) s = .next { s with tState := .sym, tSym := 0#8, tSymn := 0 } ∧
    (s.tInts + 1 = s.nsym → exec (.treeFlag false) s = .next (recorded .corruptArtifact 3#4 0#8 s)) ∧
    (s.tInts + 1 ≠ s.nsym → CanAttach s s.tNodes → s.tNodes < 511 → s.psN < 255 →
      ∃ u, exec (.treeAttach s.tNodes) s = .next u ∧
        ∃ (M : Memory Node) (P : Memory Nat),
          exec (.treeFlag false) s = .next { u with
            node := M, pstack := P, psN := u.psN + 1, tLwi := true, tInts := s.tInts + 1, tNodes := s.tNodes + 1 } ∧
          (∀ j, Memory.read M j = if j = s.tNodes then
              some { leaf := false, sym := 0#8, freq := (u.nodeAt s.tNodes).bind Node.freq, left := 0, right := 0 }
            else Memory.read u.node j) ∧
          ∀ i, Memory.read P i = if i = u.psN then some s.tNodes else Memory.read s.pstack i)

/-- 44_framing.md R220, R222: TREE.SYMBIT and TREE.COMPLETE. `ret` tells whether the tree is complete (log 7), and `freq`
of the new node is not written (log 17). With `t_symn` = 8 or `t_leaves` = 256, where the spec gives no effect, the registers get
wider: the model's choice (log 26). -/
def Obligations.SymbolBitsAreParsed : Prop :=
  ∀ (s : State) (x : Bool), Readable s [.parser, .symbols, .tree] →
    let y : Byte := (s.tSym <<< 1) ||| (if x then 1#8 else 0#8)
    let v : State := { s with tSym := y, tSymn := 8, tState := .flag }
    (s.tSymn ≠ 7 → exec (.treeSymbit x) s = .next { s with tSym := y, tSymn := s.tSymn + 1, ret := .complete false }) ∧
    (s.tSymn = 7 → Memory.read s.seen y.toNat = some true →
      exec (.treeSymbit x) s = .next (recorded .corruptArtifact 4#4 y v)) ∧
    (s.tSymn = 7 → Memory.read s.seen y.toNat = some false → CanAttach s s.tNodes → s.tNodes < 511 →
      ∃ (S : Memory Bool) (u : State) (M : Memory Node),
        (∀ i, Memory.read S i = if i = y.toNat then some true else Memory.read s.seen i) ∧
        exec (.treeAttach s.tNodes) { v with seen := S } = .next u ∧
        (∀ j, Memory.read M j = if j = s.tNodes then
            some { leaf := true, sym := y, freq := (u.nodeAt s.tNodes).bind Node.freq, left := 0, right := 0 }
          else Memory.read u.node j) ∧
        exec (.treeSymbit x) s =
          exec .treeComplete { u with node := M, tLwi := false, tLeaves := s.tLeaves + 1, tNodes := s.tNodes + 1 }) ∧
    (s.tLwi = false ∧ 1 ≤ s.tNodes ∧ s.psN = 0 → s.tLeaves < s.nsym →
      exec .treeComplete s = .next (recorded .corruptArtifact 3#4 0#8 s)) ∧
    (s.tLwi = false ∧ 1 ≤ s.tNodes ∧ s.psN = 0 → s.nsym ≤ s.tLeaves →
      exec .treeComplete s = .next { s with ret := .complete true }) ∧
    (¬ (s.tLwi = false ∧ 1 ≤ s.tNodes ∧ s.psN = 0) → exec .treeComplete s = .next { s with ret := .complete false })

/-- 44_framing.md R218: DEC.TREE takes the eight bits of the byte in order, and in a state with the invariant it completes: the
parse goes on, or the tree is complete, or the artifact is corrupt. -/
def Obligations.TreeByteIsParsedBitByBit : Prop :=
  ∀ (b : Byte) (s : State), Inv s → s.phase = .dTree → s.nsym ≠ 1 →
    ∃ u, parseBits (topBits b 8) s = .next u ∧ exec (.decTree b) s = .next { u with ret := s.ret } ∧
      u = { s with
        phase := u.phase, root := u.root, node := u.node, pstack := u.pstack, psN := u.psN, seen := u.seen,
        tState := u.tState, tSym := u.tSym, tSymn := u.tSymn, tNodes := u.tNodes, tLeaves := u.tLeaves,
        tInts := u.tInts, tLwi := u.tLwi, err := u.err, errInfo := u.errInfo, errPhase := u.errPhase,
        errData := u.errData, ret := u.ret } ∧
      ((u.phase = .dTree ∧ u.err = .none ∧ u.root = s.root) ∨
       (u.phase = .dPad ∧ u.err = .none ∧ u.root = 0 ∧ u.tState = .flag) ∨
       (u.phase = .error ∧ u.err = .corruptArtifact ∧ u.errPhase = .dTree ∧ (u.errInfo = 3#4 ∨ u.errInfo = 4#4)))

/-- 44_framing.md R226, 30_encoding.md R102, R103, R106. From any state, the tree section of a tree with N distinct symbols is
accepted, and NODE then holds that tree, with 2N - 1 nodes; the rest of NODE, FREQ and CODE hold what they held (10_state.md R20), and
that no operation of this transaction can read it is the model's reading (log 4). After any count byte, DEC.TREE and DEC.TREE1 end
the parse with the last of some bytes exactly where those bytes are the section of such a tree and fewer than eight bits behind it,
whatever these are; NODE then holds that tree. -/
def Obligations.ParserRebuildsTheTree : Prop :=
  (∀ (s : State) (T : HTree), T.leaves.Nodup →
    let N := T.leaves.length
    ∃ u, execAll (.cmdDecompress :: .decCount (BitVec.ofNat 8 (N % 256)) ::
        (packed T.sectionBits).map (if N = 1 then .decTree1 else .decTree)) s = .next u ∧
      u.phase = .dPad ∧ u.root = 0 ∧ u.nsym = N ∧ Represents u.node 0 T ∧
      (N ≠ 1 → u.tNodes = 2 * N - 1 ∧ u.tLeaves = N ∧ u.tInts = N - 1) ∧
      u.oq = s.oq ∧ u.err = s.err ∧
      (∀ k, 2 * N - 1 ≤ k → Memory.read u.node k = none ∧ u.nodeAt k = s.nodeAt k) ∧
      ∀ i, u.freqAt i = s.freqAt i ∧ u.codeAt i = s.codeAt i) ∧
  ∀ (s : State) (n : Byte) (bs : List Byte),
    let N := if n = 0#8 then 256 else n.toNat
    let run := onNext (exec .cmdDecompress s) (feed ((n :: bs).map dataBeat))
    let IsSection (T : HTree) : Prop := T.leaves.Nodup ∧ T.leaves.length = N ∧
      ∃ rest : Bits, rest.length < 8 ∧ (bs.flatMap fun b => topBits b 8) = T.sectionBits ++ rest
    ((∃ u, run = .next u ∧ u.phase = .dPad) ↔ ∃ T, IsSection T) ∧
    ∀ u, run = .next u → u.phase = .dPad → u.nsym = N ∧ u.root = 0 ∧ ∃ T, IsSection T ∧ Represents u.node 0 T

/-! ## Walking the payload -/

/-- 45_decode.md R232, R233: WALK.BIT and WALK.BIT1. From a leaf, WALK.BIT follows a free index, and WALK.BIT1 on a root that is no
leaf emits a free byte (93_implementation_defined.md V2; log 14, 22): whatever they are. -/
def Obligations.WalkStepsDownTheTree : Prop :=
  ∀ (s : State) (x : Bool) (n : Node),
    (∀ m, Readable s [.reader, .tree] → Memory.read s.node s.cur = some n → n.leaf = false →
      Memory.read s.node (if x then n.right else n.left) = some m →
      (m.leaf = true → exec (.walkBit x) s = .next { s with
        cur := s.root, oq := s.oq ++ [{ isEnd := false, data := m.sym }] }) ∧
      (m.leaf = false → exec (.walkBit x) s = .next { s with cur := if x then n.right else n.left })) ∧
    (∀ m, Readable s [.reader, .tree] → Memory.read s.node s.cur = some n → n.leaf = true →
      Memory.read s.node (Config.freeIndex s.draws).toNat = some m →
      (m.leaf = true → exec (.walkBit x) s = .next { s with
        cur := s.root, oq := s.oq ++ [{ isEnd := false, data := m.sym }], draws := s.draws + 1 }) ∧
      (m.leaf = false → exec (.walkBit x) s = .next { s with
        cur := (Config.freeIndex s.draws).toNat, draws := s.draws + 1 })) ∧
    (Readable s [.tree] → Memory.read s.node s.root = some n →
      (n.leaf = true → exec (.walkBit1 x) s = .next { s with oq := s.oq ++ [{ isEnd := false, data := n.sym }] }) ∧
      (n.leaf = false → exec (.walkBit1 x) s = .next { s with
        oq := s.oq ++ [{ isEnd := false, data := Config.freeSym s.draws }], draws := s.draws + 1 }))

/-- 45_decode.md R231: DEC.DATA walks the byte that was held and holds the new one. -/
def Obligations.PayloadByteIsHeldForOneBeat : Prop :=
  ∀ (b : Byte) (s : State),
    (Readable s [.reader, .symbols, .tree] → s.holdV = false →
      exec (.decData b) s = .next { s with hold := b, holdV := true }) ∧
    (s.holdV = true → Inv s → s.phase = .dPayload →
      ∃ (u : State) (ys : List Byte), execAll ((topBits s.hold 8).map (walkOp s.nsym)) s = .next u ∧
        u = { s with cur := u.cur, oq := s.oq ++ dataBeats ys } ∧ ys.length ≤ 8 ∧ (s.nsym = 1 → ys.length = 8) ∧
        exec (.decData b) s = .next { u with hold := b, holdV := true })

/-- 45_decode.md R234: DEC.END walks the 8 - pad first bits of the last byte; PAD_EXCEEDS without a byte, MID_PATH inside a code,
after the symbols already completed. -/
def Obligations.EndOfPayload : Prop :=
  ∀ s : State,
    (Readable s [.reader, .symbols, .tree, .pad] → s.holdV = false → s.pad ≠ 0 →
      exec .decEnd s = .next (recorded .corruptArtifact 6#4 (BitVec.ofNat 8 s.pad) s)) ∧
    (Readable s [.reader, .symbols, .tree, .pad] → s.holdV = false → s.pad = 0 → s.cur ≠ s.root →
      exec .decEnd s = .next (recorded .corruptArtifact 7#4 0#8 s)) ∧
    (Readable s [.reader, .symbols, .tree, .pad] → s.holdV = false → s.pad = 0 → s.cur = s.root →
      exec .decEnd s = .next { s with
        oq := s.oq ++ [{ isEnd := true, data := 0#8 }], doneOk := true, phase := .idle }) ∧
    (s.holdV = true → Inv s → s.phase = .dPayload →
      ∃ u ys, execAll ((topBits s.hold (8 - s.pad)).map (walkOp s.nsym)) s = .next u ∧
        u = { s with cur := u.cur, oq := s.oq ++ dataBeats ys } ∧
        (u.cur ≠ s.root →
          exec .decEnd s = .next (recorded .corruptArtifact 7#4 0#8 { u with holdV := false })) ∧
        (u.cur = s.root →
          exec .decEnd s = .next { u with
            holdV := false, oq := u.oq ++ [{ isEnd := true, data := 0#8 }], doneOk := true, phase := .idle }))

/-- 45_decode.md R237, 42_codebook.md R164 (e): walking the codes of some symbols one after the other emits these symbols and ends
at the root. -/
def Obligations.WalkInvertsTheCodes : Prop :=
  ∀ (s : State) (T : HTree) (L : List (Byte × Bits)), Readable s [.reader, .tree] → Represents s.node s.root T →
    s.cur = s.root →
    (∀ q ∈ L, q ∈ T.codes) →
    execAll ((L.flatMap Prod.snd).map (walkOp T.leaves.length)) s =
      .next { s with oq := s.oq ++ dataBeats (L.map Prod.fst) }

/-! ## Output and artifact elements -/

/-- 30_encoding.md R97: `emit(b)` and `emit_end()`. -/
def Obligations.OutputBeatsAreAppended : Prop :=
  ∀ (b : Byte) (s : State),
    exec (.outData b) s = .next { s with oq := s.oq ++ [{ isEnd := false, data := b }] } ∧
    exec .outEnd s = .next { s with oq := s.oq ++ [{ isEnd := true, data := 0#8 }] }

/-- 30_encoding.md R101 to R109: the artifact elements in the phases that write an artifact (the choice of direction by phase is the
model's, log 9): whole bytes bypass the writer, everything else goes through it bit by bit. That ART.N, ART.TREE1 and ART.PAD have
this effect also where bits wait in the writer (`w_n` other than 0, 43_bitstream.md R179), and that the other elements have theirs
also where no element of their kind begins, is the model's choice (log 25, 29). -/
def Obligations.ArtifactElementsAreWritten : Prop :=
  ∀ s : State, s.phase = .emitHdr ∨ s.phase = .encode →
    (∀ n : Byte, exec (.artN n) s = .next { s with oq := s.oq ++ [{ isEnd := false, data := n }] }) ∧
    (∀ y : Byte, exec (.artTree1 y) s = .next { s with oq := s.oq ++ [{ isEnd := false, data := y }] }) ∧
    (∃ t, exec .tInternal s = .next t ∧ exec (.wPutbit false) s = .next t) ∧
    (∀ y : Byte, ∃ t, exec (.tLeaf y) s = .next t ∧ execAll ((true :: topBits y 8).map .wPutbit) s = .next t) ∧
    (∀ n, 1 ≤ n → n ≤ 7 → ∃ t, exec (.artTreepad n) s = .next t ∧
      execAll ((List.replicate n false).map .wPutbit) s = .next t) ∧
    (∀ p : BitVec 3, exec (.artPad p) s = .next { s with
      oq := s.oq ++ [{ isEnd := false, data := BitVec.ofNat 8 p.toNat }] }) ∧
    (∀ bs : List Byte, ∃ t, exec (.artPayload bs) s = .next t ∧
      execAll ((bs.flatMap fun b => topBits b 8).map .wPutbit) s = .next t) ∧
    (∀ c : Bits, ∃ t, exec (.code c) s = .next t ∧ execAll (c.map .wPutbit) s = .next t)

/-- 30_encoding.md R101 to R109, R111: the artifact elements in the phases that read an artifact (log 9): each has the effect of
the operations that parse it; the tree pad bits are ignored. That CODE has its effect also with `cur` inside another code is the
model's choice (log 29). -/
def Obligations.ArtifactElementsAreRead : Prop :=
  ∀ s : State, Inv s →
    (s.phase = .dCount → ∀ n : Byte, ∃ t, exec (.artN n) s = .next t ∧ exec (.decCount n) s = .next t) ∧
    (s.phase = .dTree → s.nsym = 1 → ∀ y : Byte, ∃ t, exec (.artTree1 y) s = .next t ∧ exec (.decTree1 y) s = .next t) ∧
    (s.phase = .dTree → s.nsym ≠ 1 → s.tState = .flag →
      (∃ t, exec .tInternal s = .next t ∧ exec (.treeFlag false) s = .next t) ∧
      ∀ y : Byte, ∃ t, exec (.tLeaf y) s = .next { t with ret := s.ret } ∧ parseBits (true :: topBits y 8) s = .next t) ∧
    (s.phase = .dPad → ∀ n, exec (.artTreepad n) s = .next s) ∧
    (s.phase = .dPad → ∀ p : BitVec 3, ∃ t, exec (.artPad p) s = .next t ∧
      exec (.decPad (BitVec.ofNat 8 p.toNat)) s = .next t ∧ t.phase = .dPayload) ∧
    (s.phase = .dPayload → ∀ bs : List Byte, ∃ t, exec (.artPayload bs) s = .next t ∧
      execAll (bs.map .decData) s = .next t) ∧
    (s.phase = .dPayload → ∀ c : Bits, ∃ t, exec (.code c) s = .next t ∧ execAll (c.map (walkOp s.nsym)) s = .next t)

/-! ## Whole transactions -/

/-- 46_codec_commands.md R270 for S2 = S1 = S, 30_encoding.md R100: from any state, compressing S succeeds, and the artifact is the
N byte, the tree section, the pad byte and the packed codes, for a tree whose leaves are the symbols of S. -/
def Obligations.CompressWritesTheArtifact : Prop :=
  ∀ (S : List Byte) (s : State), S ≠ [] → S.length ≤ 2 ^ s.cfg.cntW - 1 →
    ∃ (t : State) (T : HTree) (c : Byte → Bits), compressRun S S s = .next t ∧ t.phase = .idle ∧ t.doneOk = true ∧
      T.leaves.Nodup ∧ (∀ y, y ∈ T.leaves ↔ y ∈ S) ∧ (∀ y ∈ S, (y, c y) ∈ T.codes) ∧
      t.oq = s.oq ++ dataBeats ([BitVec.ofNat 8 (T.leaves.length % 256)] ++ packed T.sectionBits ++
        [BitVec.ofNat 8 ((8 - (S.flatMap c).length % 8) % 8)] ++ packed (S.flatMap c)) ++
        [{ isEnd := true, data := 0#8 }]

/-- 46_codec_commands.md R272, R273, 44_framing.md R209: whatever a compress with passes S1 and S2 has output when it succeeds, a
decompress of it gives S2, from any state; and the artifact does not depend on the state it started from. These runs collect the
output in `oq`, where the block would wait for the host to take it before each beat (20_memory.md R74). The last clause says that this
makes no difference, whatever the schedule of `out_ready`: but for CLEAR and RESET no operation depends on what waits in `oq`, it
only puts beats behind it. -/
def Obligations.DecompressInvertsCompress : Prop :=
  (∀ (S1 S2 : List Byte) (s t : State), compressRun S1 S2 s = .next t → t.phase = .idle →
    ∃ A : List Byte, t.oq = s.oq ++ dataBeats A ++ [{ isEnd := true, data := 0#8 }] ∧
      (∀ s' : State, ∃ u, decompressRun A s' = .next u ∧ u.phase = .idle ∧ u.doneOk = true ∧
        u.oq = s'.oq ++ dataBeats S2 ++ [{ isEnd := true, data := 0#8 }]) ∧
      ∀ s' : State, s'.cfg = s.cfg → ∃ t', compressRun S1 S2 s' = .next t' ∧ t'.phase = .idle ∧
        t'.oq = s'.oq ++ dataBeats A ++ [{ isEnd := true, data := 0#8 }]) ∧
  ∀ (i : Instr) (s : State) (q : List OutBeat), i ≠ .cmdClear → i ≠ .reset →
    (∀ t, exec i s = .next t →
      ∃ bs, t.oq = s.oq ++ bs ∧ exec i { s with oq := q } = .next { t with oq := q ++ bs }) ∧
    ∀ f, exec i s = .fault f → exec i { s with oq := q } = .fault f
end

