-- ==== Sys2Proof/Laws/Memory.lean ====
section
/-! SUPPORT. The laws of the internal arrays: read after write, the canonical form, fully written arrays. -/

namespace Sys2Proof.Machine

theorem Memory.read_write {α : Type} (m : Memory α) (i j : Nat) (a : α) :
    Memory.read (Memory.write m i a) j = if j = i then some a else Memory.read m j := by
  induction m with
  | nil => simp [Memory.write, Memory.read]
  | cons p rest ih =>
    obtain ⟨k, b⟩ := p
    unfold Memory.write
    split
    · by_cases hj : j = i <;> simp [Memory.read, hj]
    · split
      · subst_vars; by_cases hj : j = k <;> simp [Memory.read, hj]
      · by_cases hj : j = k
        · subst hj; simp [Memory.read]; omega
        · simp [Memory.read, hj, ih]

@[simp] theorem Memory.read_write_same {α : Type} (m : Memory α) (i : Nat) (a : α) :
    Memory.read (Memory.write m i a) i = some a := by simp [Memory.read_write]

theorem Memory.read_write_other {α : Type} (m : Memory α) {i j : Nat} (a : α) (h : j ≠ i) :
    Memory.read (Memory.write m i a) j = Memory.read m j := by simp [Memory.read_write, h]

theorem Memory.mem_of_read {α : Type} {m : Memory α} {i : Nat} {a : α} (h : Memory.read m i = some a) :
    (i, a) ∈ m := by
  induction m with
  | nil => simp [Memory.read] at h
  | cons p rest ih =>
    obtain ⟨k, b⟩ := p
    unfold Memory.read at h
    split at h
    · simp_all
    · exact List.mem_cons_of_mem _ (ih h)

theorem Memory.mem_write {α : Type} {m : Memory α} {i : Nat} {a : α} {p : Nat × α}
    (h : p ∈ Memory.write m i a) : p = (i, a) ∨ p ∈ m := by
  induction m with
  | nil => simpa [Memory.write] using h
  | cons q rest ih =>
    obtain ⟨k, b⟩ := q
    unfold Memory.write at h
    split at h
    · simpa using h
    · split at h
      · rcases List.mem_cons.1 h with h | h
        · exact .inl h
        · exact .inr (List.mem_cons_of_mem _ h)
      · rcases List.mem_cons.1 h with h | h
        · exact .inr (h ▸ List.mem_cons_self)
        · rcases ih h with h | h
          · exact .inl h
          · exact .inr (List.mem_cons_of_mem _ h)

/-- The canonical form, as facts about the indices. -/
theorem Memory.wf_iff {α : Type} (size : Nat) (m : Memory α) :
    Memory.wf size m = true ↔ (m.map Prod.fst).Pairwise (· < ·) ∧ ∀ p ∈ m, p.1 < size := by
  induction m with
  | nil => simp [Memory.wf]
  | cons p rest ih =>
    obtain ⟨i, a⟩ := p
    cases rest with
    | nil => simp [Memory.wf]
    | cons q rest =>
      obtain ⟨j, b⟩ := q
      simp only [Memory.wf, Bool.and_eq_true, decide_eq_true_eq, ih, List.map_cons, List.pairwise_cons]
      constructor
      · rintro ⟨hij, ⟨hj, hr⟩, hs⟩
        refine ⟨⟨?_, hj, hr⟩, ?_⟩
        · intro k hk
          rcases List.mem_cons.1 hk with rfl | hk
          · exact hij
          · exact Nat.lt_trans hij (hj _ hk)
        · intro p hp
          rcases List.mem_cons.1 hp with rfl | hp
          · exact Nat.lt_trans hij (hs (j, b) List.mem_cons_self)
          · exact hs p hp
      · rintro ⟨⟨hi, hj, hr⟩, hs⟩
        exact ⟨hi j List.mem_cons_self, ⟨hj, hr⟩, fun p hp => hs p (List.mem_cons_of_mem _ hp)⟩

theorem Memory.keys_write {α : Type} {m : Memory α} {i : Nat} {a : α} {k : Nat}
    (h : k ∈ (Memory.write m i a).map Prod.fst) : k = i ∨ k ∈ m.map Prod.fst := by
  obtain ⟨p, hp, rfl⟩ := List.mem_map.1 h
  rcases Memory.mem_write hp with rfl | hp
  · exact .inl rfl
  · exact .inr (List.mem_map_of_mem hp)

theorem Memory.pairwise_write {α : Type} {m : Memory α} (i : Nat) (a : α)
    (h : (m.map Prod.fst).Pairwise (· < ·)) : ((Memory.write m i a).map Prod.fst).Pairwise (· < ·) := by
  induction m with
  | nil => simp [Memory.write]
  | cons p rest ih =>
    obtain ⟨k, b⟩ := p
    simp only [List.map_cons, List.pairwise_cons] at h
    unfold Memory.write
    split
    · rename_i hik
      simp only [List.map_cons, List.pairwise_cons]
      refine ⟨?_, h.1, h.2⟩
      intro x hx
      rcases List.mem_cons.1 hx with rfl | hx
      · exact hik
      · exact Nat.lt_trans hik (h.1 x hx)
    · split
      · rename_i hik; subst hik
        simpa [List.pairwise_cons] using h
      · simp only [List.map_cons, List.pairwise_cons]
        refine ⟨?_, ih h.2⟩
        intro x hx
        rcases Memory.keys_write hx with rfl | hx
        · omega
        · exact h.1 x hx

/-- Every write inside the space keeps the canonical form. -/
theorem Memory.wf_write {α : Type} {size : Nat} {m : Memory α} {i : Nat} (a : α)
    (h : Memory.wf size m = true) (hi : i < size) : Memory.wf size (Memory.write m i a) = true := by
  rw [Memory.wf_iff] at h ⊢
  refine ⟨Memory.pairwise_write i a h.1, ?_⟩
  intro p hp
  rcases Memory.mem_write hp with rfl | hp
  · exact hi
  · exact h.2 p hp

/-- What lies over the other comes first. -/
@[simp] theorem Memory.read_over {α : Type} (m base : Memory α) (i : Nat) :
    Memory.read (Memory.over m base) i = (Memory.read m i).or (Memory.read base i) := by
  induction m with
  | nil => simp [Memory.over, Memory.read]
  | cons p rest ih =>
    obtain ⟨k, a⟩ := p
    rw [Memory.over, Memory.read_write, ih]
    by_cases h : i = k <;> simp [Memory.read, h]

theorem Memory.mem_over {α : Type} {m base : Memory α} {p : Nat × α} (h : p ∈ Memory.over m base) : p ∈ m ∨ p ∈ base := by
  induction m with
  | nil => exact .inr h
  | cons q rest ih =>
    rcases Memory.mem_write h with h | h
    · exact .inl (h ▸ List.mem_cons_self)
    · exact (ih h).imp (List.mem_cons_of_mem _) id

theorem Memory.wf_over {α : Type} {size : Nat} {m base : Memory α} (h : Memory.wf size m = true)
    (hb : Memory.wf size base = true) : Memory.wf size (Memory.over m base) = true := by
  have hm := ((Memory.wf_iff _ _).1 h).2
  clear h
  induction m with
  | nil => exact hb
  | cons q rest ih =>
    exact Memory.wf_write _ (ih fun p hp => hm p (List.mem_cons_of_mem _ hp)) (hm q List.mem_cons_self)

/-- What every array holds when a command opens a transaction, it holds afterwards (10_state.md R20). -/
@[simp] theorem openTransaction_freqAt (s : State) (i : Nat) : (openTransaction s).freqAt i = s.freqAt i := by
  simp [State.freqAt, openTransaction, State.arrays, Memory.read]
@[simp] theorem openTransaction_nodeAt (s : State) (k : Nat) : (openTransaction s).nodeAt k = s.nodeAt k := by
  simp [State.nodeAt, openTransaction, State.arrays, Memory.read]
@[simp] theorem openTransaction_codeAt (s : State) (i : Nat) : (openTransaction s).codeAt i = s.codeAt i := by
  simp [State.codeAt, openTransaction, State.arrays, Memory.read]
@[simp] theorem openTransaction_pstackAt (s : State) (i : Nat) : (openTransaction s).pstackAt i = s.pstackAt i := by
  simp [State.pstackAt, openTransaction, State.arrays, Memory.read]
@[simp] theorem openTransaction_seenAt (s : State) (i : Nat) : (openTransaction s).seenAt i = s.seenAt i := by
  simp [State.seenAt, openTransaction, State.arrays, Memory.read]

theorem Memory.wf_nil {α : Type} (size : Nat) : Memory.wf size ([] : Memory α) = true := rfl

theorem Memory.covers_fill {α : Type} (n : Nat) (v : α) : Covers n (Memory.fill n v) := by
  simp [Covers, Memory.fill, List.map_map, Function.comp_def]

/-- A fully written array has the canonical form. -/
theorem Covers.wf {α : Type} {n : Nat} {m : Memory α} (h : Covers n m) : Memory.wf n m = true := by
  rw [Memory.wf_iff, h]
  refine ⟨List.pairwise_lt_range, ?_⟩
  intro p hp
  have : p.1 ∈ m.map Prod.fst := List.mem_map_of_mem hp
  rw [h] at this
  simpa using this

theorem Memory.wf_fill {α : Type} (n : Nat) (v : α) : Memory.wf n (Memory.fill n v) = true :=
  (Memory.covers_fill n v).wf

theorem Memory.mem_fill {α : Type} {n : Nat} {v : α} {p : Nat × α} (h : p ∈ Memory.fill n v) :
    p.2 = v := by
  simp [Memory.fill] at h
  obtain ⟨i, _, rfl⟩ := h
  rfl

theorem Memory.read_none_iff {α : Type} (m : Memory α) (i : Nat) :
    Memory.read m i = none ↔ i ∉ m.map Prod.fst := by
  induction m with
  | nil => simp [Memory.read]
  | cons p rest ih =>
    obtain ⟨k, b⟩ := p
    by_cases h : i = k <;> simp_all [Memory.read]

/-- In a fully written array every element can be read. -/
theorem Covers.read {α : Type} {n : Nat} {m : Memory α} (h : Covers n m) {i : Nat} (hi : i < n) :
    ∃ a, Memory.read m i = some a ∧ (i, a) ∈ m := by
  cases hr : Memory.read m i with
  | none => rw [Memory.read_none_iff, h] at hr; simp at hr; omega
  | some a => exact ⟨a, rfl, Memory.mem_of_read hr⟩

theorem Memory.read_fill {α : Type} (n : Nat) (v : α) {i : Nat} (hi : i < n) :
    Memory.read (Memory.fill n v) i = some v := by
  obtain ⟨a, ha, hm⟩ := (Memory.covers_fill n v).read hi
  rw [ha, show a = v from Memory.mem_fill hm]

theorem Memory.keys_write_of_mem {α : Type} {m : Memory α} {i : Nat} (a : α)
    (hs : (m.map Prod.fst).Pairwise (· < ·)) (h : i ∈ m.map Prod.fst) :
    (Memory.write m i a).map Prod.fst = m.map Prod.fst := by
  induction m with
  | nil => simp at h
  | cons p rest ih =>
    obtain ⟨k, b⟩ := p
    simp only [List.map_cons, List.pairwise_cons] at hs
    unfold Memory.write
    rcases List.mem_cons.1 h with rfl | h
    · simp
    · have := hs.1 i h
      rw [if_neg (by omega), if_neg (by omega)]
      simp [ih hs.2 h]

/-- Writing an element of a fully written array leaves it fully written. -/
theorem Covers.write {α : Type} {n : Nat} {m : Memory α} (h : Covers n m) {i : Nat} (a : α) (hi : i < n) :
    Covers n (Memory.write m i a) := by
  unfold Covers at *
  rw [Memory.keys_write_of_mem a _ _, h]
  · rw [h]; exact List.pairwise_lt_range
  · rw [h]; simpa using hi

/-- What a write does to a sum over the elements of an array. -/
theorem Memory.sum_write {α : Type} (g : Nat × α → Nat) {m : Memory α} {i : Nat} (a b : α)
    (hs : (m.map Prod.fst).Pairwise (· < ·)) (hr : Memory.read m i = some b) :
    ((Memory.write m i a).map g).sum + g (i, b) = (m.map g).sum + g (i, a) := by
  induction m with
  | nil => simp [Memory.read] at hr
  | cons p rest ih =>
    obtain ⟨k, c⟩ := p
    simp only [List.map_cons, List.pairwise_cons] at hs
    unfold Memory.read at hr
    unfold Memory.write
    split at hr
    · rename_i hk; subst hk
      simp only [Option.some.injEq] at hr; subst hr
      simp; omega
    · rename_i hk
      have := hs.1 i (List.mem_map_of_mem (f := Prod.fst) (Memory.mem_of_read hr))
      rw [if_neg (by omega), if_neg (by omega)]
      have := ih hs.2 hr
      simp only [List.map_cons, List.sum_cons]
      omega

theorem Covers.pairwise {α : Type} {n : Nat} {m : Memory α} (h : Covers n m) :
    (m.map Prod.fst).Pairwise (· < ·) := by
  rw [h]; exact List.pairwise_lt_range

end Sys2Proof.Machine
end

