-- ==== Sys2Proof/Laws/State.lean ====
section
/-! SUPPORT. One lemma per field for each named update of the state, so that no proof unfolds a record update. -/

namespace Sys2Proof.Machine

@[simp] theorem pushBeat_cfg (b : OutBeat) (s : State) : (pushBeat b s).cfg = s.cfg := rfl
@[simp] theorem pushBeat_phase (b : OutBeat) (s : State) : (pushBeat b s).phase = s.phase := rfl
@[simp] theorem pushBeat_doneOk (b : OutBeat) (s : State) : (pushBeat b s).doneOk = s.doneOk := rfl
@[simp] theorem pushBeat_err (b : OutBeat) (s : State) : (pushBeat b s).err = s.err := rfl
@[simp] theorem pushBeat_errInfo (b : OutBeat) (s : State) : (pushBeat b s).errInfo = s.errInfo := rfl
@[simp] theorem pushBeat_errPhase (b : OutBeat) (s : State) : (pushBeat b s).errPhase = s.errPhase := rfl
@[simp] theorem pushBeat_errData (b : OutBeat) (s : State) : (pushBeat b s).errData = s.errData := rfl
@[simp] theorem pushBeat_total (b : OutBeat) (s : State) : (pushBeat b s).total = s.total := rfl
@[simp] theorem pushBeat_nsym (b : OutBeat) (s : State) : (pushBeat b s).nsym = s.nsym := rfl
@[simp] theorem pushBeat_root (b : OutBeat) (s : State) : (pushBeat b s).root = s.root := rfl
@[simp] theorem pushBeat_seq (b : OutBeat) (s : State) : (pushBeat b s).seq = s.seq := rfl
@[simp] theorem pushBeat_pqCount (b : OutBeat) (s : State) : (pushBeat b s).pqCount = s.pqCount := rfl
@[simp] theorem pushBeat_paybits (b : OutBeat) (s : State) : (pushBeat b s).paybits = s.paybits := rfl
@[simp] theorem pushBeat_bitcnt (b : OutBeat) (s : State) : (pushBeat b s).bitcnt = s.bitcnt := rfl
@[simp] theorem pushBeat_pad (b : OutBeat) (s : State) : (pushBeat b s).pad = s.pad := rfl
@[simp] theorem pushBeat_freq (b : OutBeat) (s : State) : (pushBeat b s).freq = s.freq := rfl
@[simp] theorem pushBeat_node (b : OutBeat) (s : State) : (pushBeat b s).node = s.node := rfl
@[simp] theorem pushBeat_code (b : OutBeat) (s : State) : (pushBeat b s).code = s.code := rfl
@[simp] theorem pushBeat_pq (b : OutBeat) (s : State) : (pushBeat b s).pq = s.pq := rfl
@[simp] theorem pushBeat_pstack (b : OutBeat) (s : State) : (pushBeat b s).pstack = s.pstack := rfl
@[simp] theorem pushBeat_psN (b : OutBeat) (s : State) : (pushBeat b s).psN = s.psN := rfl
@[simp] theorem pushBeat_seen (b : OutBeat) (s : State) : (pushBeat b s).seen = s.seen := rfl
@[simp] theorem pushBeat_old (b : OutBeat) (s : State) : (pushBeat b s).old = s.old := rfl
@[simp] theorem pushBeat_wAcc (b : OutBeat) (s : State) : (pushBeat b s).wAcc = s.wAcc := rfl
@[simp] theorem pushBeat_wN (b : OutBeat) (s : State) : (pushBeat b s).wN = s.wN := rfl
@[simp] theorem pushBeat_hold (b : OutBeat) (s : State) : (pushBeat b s).hold = s.hold := rfl
@[simp] theorem pushBeat_holdV (b : OutBeat) (s : State) : (pushBeat b s).holdV = s.holdV := rfl
@[simp] theorem pushBeat_cur (b : OutBeat) (s : State) : (pushBeat b s).cur = s.cur := rfl
@[simp] theorem pushBeat_tState (b : OutBeat) (s : State) : (pushBeat b s).tState = s.tState := rfl
@[simp] theorem pushBeat_tSym (b : OutBeat) (s : State) : (pushBeat b s).tSym = s.tSym := rfl
@[simp] theorem pushBeat_tSymn (b : OutBeat) (s : State) : (pushBeat b s).tSymn = s.tSymn := rfl
@[simp] theorem pushBeat_tNodes (b : OutBeat) (s : State) : (pushBeat b s).tNodes = s.tNodes := rfl
@[simp] theorem pushBeat_tLeaves (b : OutBeat) (s : State) : (pushBeat b s).tLeaves = s.tLeaves := rfl
@[simp] theorem pushBeat_tInts (b : OutBeat) (s : State) : (pushBeat b s).tInts = s.tInts := rfl
@[simp] theorem pushBeat_tLwi (b : OutBeat) (s : State) : (pushBeat b s).tLwi = s.tLwi := rfl
@[simp] theorem pushBeat_oq (b : OutBeat) (s : State) : (pushBeat b s).oq = s.oq ++ [b] := rfl
@[simp] theorem pushBeat_ports (b : OutBeat) (s : State) : (pushBeat b s).ports = s.ports := rfl
@[simp] theorem pushBeat_taken (b : OutBeat) (s : State) : (pushBeat b s).taken = s.taken := rfl
@[simp] theorem pushBeat_ret (b : OutBeat) (s : State) : (pushBeat b s).ret = s.ret := rfl
@[simp] theorem pushBeat_draws (b : OutBeat) (s : State) : (pushBeat b s).draws = s.draws := rfl
@[simp] theorem pushBeat_rangesEnded (b : OutBeat) (s : State) : (pushBeat b s).rangesEnded = s.rangesEnded := rfl

@[simp] theorem emit_cfg (b : Byte) (s : State) : (emit b s).cfg = s.cfg := rfl
@[simp] theorem emit_phase (b : Byte) (s : State) : (emit b s).phase = s.phase := rfl
@[simp] theorem emit_doneOk (b : Byte) (s : State) : (emit b s).doneOk = s.doneOk := rfl
@[simp] theorem emit_err (b : Byte) (s : State) : (emit b s).err = s.err := rfl
@[simp] theorem emit_errInfo (b : Byte) (s : State) : (emit b s).errInfo = s.errInfo := rfl
@[simp] theorem emit_errPhase (b : Byte) (s : State) : (emit b s).errPhase = s.errPhase := rfl
@[simp] theorem emit_errData (b : Byte) (s : State) : (emit b s).errData = s.errData := rfl
@[simp] theorem emit_total (b : Byte) (s : State) : (emit b s).total = s.total := rfl
@[simp] theorem emit_nsym (b : Byte) (s : State) : (emit b s).nsym = s.nsym := rfl
@[simp] theorem emit_root (b : Byte) (s : State) : (emit b s).root = s.root := rfl
@[simp] theorem emit_seq (b : Byte) (s : State) : (emit b s).seq = s.seq := rfl
@[simp] theorem emit_pqCount (b : Byte) (s : State) : (emit b s).pqCount = s.pqCount := rfl
@[simp] theorem emit_paybits (b : Byte) (s : State) : (emit b s).paybits = s.paybits := rfl
@[simp] theorem emit_bitcnt (b : Byte) (s : State) : (emit b s).bitcnt = s.bitcnt := rfl
@[simp] theorem emit_pad (b : Byte) (s : State) : (emit b s).pad = s.pad := rfl
@[simp] theorem emit_freq (b : Byte) (s : State) : (emit b s).freq = s.freq := rfl
@[simp] theorem emit_node (b : Byte) (s : State) : (emit b s).node = s.node := rfl
@[simp] theorem emit_code (b : Byte) (s : State) : (emit b s).code = s.code := rfl
@[simp] theorem emit_pq (b : Byte) (s : State) : (emit b s).pq = s.pq := rfl
@[simp] theorem emit_pstack (b : Byte) (s : State) : (emit b s).pstack = s.pstack := rfl
@[simp] theorem emit_psN (b : Byte) (s : State) : (emit b s).psN = s.psN := rfl
@[simp] theorem emit_seen (b : Byte) (s : State) : (emit b s).seen = s.seen := rfl
@[simp] theorem emit_old (b : Byte) (s : State) : (emit b s).old = s.old := rfl
@[simp] theorem emit_wAcc (b : Byte) (s : State) : (emit b s).wAcc = s.wAcc := rfl
@[simp] theorem emit_wN (b : Byte) (s : State) : (emit b s).wN = s.wN := rfl
@[simp] theorem emit_hold (b : Byte) (s : State) : (emit b s).hold = s.hold := rfl
@[simp] theorem emit_holdV (b : Byte) (s : State) : (emit b s).holdV = s.holdV := rfl
@[simp] theorem emit_cur (b : Byte) (s : State) : (emit b s).cur = s.cur := rfl
@[simp] theorem emit_tState (b : Byte) (s : State) : (emit b s).tState = s.tState := rfl
@[simp] theorem emit_tSym (b : Byte) (s : State) : (emit b s).tSym = s.tSym := rfl
@[simp] theorem emit_tSymn (b : Byte) (s : State) : (emit b s).tSymn = s.tSymn := rfl
@[simp] theorem emit_tNodes (b : Byte) (s : State) : (emit b s).tNodes = s.tNodes := rfl
@[simp] theorem emit_tLeaves (b : Byte) (s : State) : (emit b s).tLeaves = s.tLeaves := rfl
@[simp] theorem emit_tInts (b : Byte) (s : State) : (emit b s).tInts = s.tInts := rfl
@[simp] theorem emit_tLwi (b : Byte) (s : State) : (emit b s).tLwi = s.tLwi := rfl
@[simp] theorem emit_oq (b : Byte) (s : State) : (emit b s).oq = s.oq ++ [{ isEnd := false, data := b }] := rfl
@[simp] theorem emit_ports (b : Byte) (s : State) : (emit b s).ports = s.ports := rfl
@[simp] theorem emit_taken (b : Byte) (s : State) : (emit b s).taken = s.taken := rfl
@[simp] theorem emit_ret (b : Byte) (s : State) : (emit b s).ret = s.ret := rfl
@[simp] theorem emit_draws (b : Byte) (s : State) : (emit b s).draws = s.draws := rfl
@[simp] theorem emit_rangesEnded (b : Byte) (s : State) : (emit b s).rangesEnded = s.rangesEnded := rfl

@[simp] theorem emitEnd_cfg (s : State) : (emitEnd s).cfg = s.cfg := rfl
@[simp] theorem emitEnd_phase (s : State) : (emitEnd s).phase = s.phase := rfl
@[simp] theorem emitEnd_doneOk (s : State) : (emitEnd s).doneOk = s.doneOk := rfl
@[simp] theorem emitEnd_err (s : State) : (emitEnd s).err = s.err := rfl
@[simp] theorem emitEnd_errInfo (s : State) : (emitEnd s).errInfo = s.errInfo := rfl
@[simp] theorem emitEnd_errPhase (s : State) : (emitEnd s).errPhase = s.errPhase := rfl
@[simp] theorem emitEnd_errData (s : State) : (emitEnd s).errData = s.errData := rfl
@[simp] theorem emitEnd_total (s : State) : (emitEnd s).total = s.total := rfl
@[simp] theorem emitEnd_nsym (s : State) : (emitEnd s).nsym = s.nsym := rfl
@[simp] theorem emitEnd_root (s : State) : (emitEnd s).root = s.root := rfl
@[simp] theorem emitEnd_seq (s : State) : (emitEnd s).seq = s.seq := rfl
@[simp] theorem emitEnd_pqCount (s : State) : (emitEnd s).pqCount = s.pqCount := rfl
@[simp] theorem emitEnd_paybits (s : State) : (emitEnd s).paybits = s.paybits := rfl
@[simp] theorem emitEnd_bitcnt (s : State) : (emitEnd s).bitcnt = s.bitcnt := rfl
@[simp] theorem emitEnd_pad (s : State) : (emitEnd s).pad = s.pad := rfl
@[simp] theorem emitEnd_freq (s : State) : (emitEnd s).freq = s.freq := rfl
@[simp] theorem emitEnd_node (s : State) : (emitEnd s).node = s.node := rfl
@[simp] theorem emitEnd_code (s : State) : (emitEnd s).code = s.code := rfl
@[simp] theorem emitEnd_pq (s : State) : (emitEnd s).pq = s.pq := rfl
@[simp] theorem emitEnd_pstack (s : State) : (emitEnd s).pstack = s.pstack := rfl
@[simp] theorem emitEnd_psN (s : State) : (emitEnd s).psN = s.psN := rfl
@[simp] theorem emitEnd_seen (s : State) : (emitEnd s).seen = s.seen := rfl
@[simp] theorem emitEnd_old (s : State) : (emitEnd s).old = s.old := rfl
@[simp] theorem emitEnd_wAcc (s : State) : (emitEnd s).wAcc = s.wAcc := rfl
@[simp] theorem emitEnd_wN (s : State) : (emitEnd s).wN = s.wN := rfl
@[simp] theorem emitEnd_hold (s : State) : (emitEnd s).hold = s.hold := rfl
@[simp] theorem emitEnd_holdV (s : State) : (emitEnd s).holdV = s.holdV := rfl
@[simp] theorem emitEnd_cur (s : State) : (emitEnd s).cur = s.cur := rfl
@[simp] theorem emitEnd_tState (s : State) : (emitEnd s).tState = s.tState := rfl
@[simp] theorem emitEnd_tSym (s : State) : (emitEnd s).tSym = s.tSym := rfl
@[simp] theorem emitEnd_tSymn (s : State) : (emitEnd s).tSymn = s.tSymn := rfl
@[simp] theorem emitEnd_tNodes (s : State) : (emitEnd s).tNodes = s.tNodes := rfl
@[simp] theorem emitEnd_tLeaves (s : State) : (emitEnd s).tLeaves = s.tLeaves := rfl
@[simp] theorem emitEnd_tInts (s : State) : (emitEnd s).tInts = s.tInts := rfl
@[simp] theorem emitEnd_tLwi (s : State) : (emitEnd s).tLwi = s.tLwi := rfl
@[simp] theorem emitEnd_oq (s : State) : (emitEnd s).oq = s.oq ++ [{ isEnd := true, data := 0#8 }] := rfl
@[simp] theorem emitEnd_ports (s : State) : (emitEnd s).ports = s.ports := rfl
@[simp] theorem emitEnd_taken (s : State) : (emitEnd s).taken = s.taken := rfl
@[simp] theorem emitEnd_ret (s : State) : (emitEnd s).ret = s.ret := rfl
@[simp] theorem emitEnd_draws (s : State) : (emitEnd s).draws = s.draws := rfl
@[simp] theorem emitEnd_rangesEnded (s : State) : (emitEnd s).rangesEnded = s.rangesEnded := rfl

@[simp] theorem raise_cfg (e : ErrCode) (info : BitVec 4) (data : Byte) (s : State) : (raise e info data s).cfg = s.cfg := rfl
@[simp] theorem raise_phase (e : ErrCode) (info : BitVec 4) (data : Byte) (s : State) : (raise e info data s).phase = Phase.error := rfl
@[simp] theorem raise_doneOk (e : ErrCode) (info : BitVec 4) (data : Byte) (s : State) : (raise e info data s).doneOk = s.doneOk := rfl
@[simp] theorem raise_err (e : ErrCode) (info : BitVec 4) (data : Byte) (s : State) : (raise e info data s).err = e := rfl
@[simp] theorem raise_errInfo (e : ErrCode) (info : BitVec 4) (data : Byte) (s : State) : (raise e info data s).errInfo = info := rfl
@[simp] theorem raise_errPhase (e : ErrCode) (info : BitVec 4) (data : Byte) (s : State) : (raise e info data s).errPhase = s.phase := rfl
@[simp] theorem raise_errData (e : ErrCode) (info : BitVec 4) (data : Byte) (s : State) : (raise e info data s).errData = data := rfl
@[simp] theorem raise_total (e : ErrCode) (info : BitVec 4) (data : Byte) (s : State) : (raise e info data s).total = s.total := rfl
@[simp] theorem raise_nsym (e : ErrCode) (info : BitVec 4) (data : Byte) (s : State) : (raise e info data s).nsym = s.nsym := rfl
@[simp] theorem raise_root (e : ErrCode) (info : BitVec 4) (data : Byte) (s : State) : (raise e info data s).root = s.root := rfl
@[simp] theorem raise_seq (e : ErrCode) (info : BitVec 4) (data : Byte) (s : State) : (raise e info data s).seq = s.seq := rfl
@[simp] theorem raise_pqCount (e : ErrCode) (info : BitVec 4) (data : Byte) (s : State) : (raise e info data s).pqCount = s.pqCount := rfl
@[simp] theorem raise_paybits (e : ErrCode) (info : BitVec 4) (data : Byte) (s : State) : (raise e info data s).paybits = s.paybits := rfl
@[simp] theorem raise_bitcnt (e : ErrCode) (info : BitVec 4) (data : Byte) (s : State) : (raise e info data s).bitcnt = s.bitcnt := rfl
@[simp] theorem raise_pad (e : ErrCode) (info : BitVec 4) (data : Byte) (s : State) : (raise e info data s).pad = s.pad := rfl
@[simp] theorem raise_freq (e : ErrCode) (info : BitVec 4) (data : Byte) (s : State) : (raise e info data s).freq = s.freq := rfl
@[simp] theorem raise_node (e : ErrCode) (info : BitVec 4) (data : Byte) (s : State) : (raise e info data s).node = s.node := rfl
@[simp] theorem raise_code (e : ErrCode) (info : BitVec 4) (data : Byte) (s : State) : (raise e info data s).code = s.code := rfl
@[simp] theorem raise_pq (e : ErrCode) (info : BitVec 4) (data : Byte) (s : State) : (raise e info data s).pq = s.pq := rfl
@[simp] theorem raise_pstack (e : ErrCode) (info : BitVec 4) (data : Byte) (s : State) : (raise e info data s).pstack = s.pstack := rfl
@[simp] theorem raise_psN (e : ErrCode) (info : BitVec 4) (data : Byte) (s : State) : (raise e info data s).psN = s.psN := rfl
@[simp] theorem raise_seen (e : ErrCode) (info : BitVec 4) (data : Byte) (s : State) : (raise e info data s).seen = s.seen := rfl
@[simp] theorem raise_old (e : ErrCode) (info : BitVec 4) (data : Byte) (s : State) : (raise e info data s).old = s.old := rfl
@[simp] theorem raise_wAcc (e : ErrCode) (info : BitVec 4) (data : Byte) (s : State) : (raise e info data s).wAcc = s.wAcc := rfl
@[simp] theorem raise_wN (e : ErrCode) (info : BitVec 4) (data : Byte) (s : State) : (raise e info data s).wN = s.wN := rfl
@[simp] theorem raise_hold (e : ErrCode) (info : BitVec 4) (data : Byte) (s : State) : (raise e info data s).hold = s.hold := rfl
@[simp] theorem raise_holdV (e : ErrCode) (info : BitVec 4) (data : Byte) (s : State) : (raise e info data s).holdV = s.holdV := rfl
@[simp] theorem raise_cur (e : ErrCode) (info : BitVec 4) (data : Byte) (s : State) : (raise e info data s).cur = s.cur := rfl
@[simp] theorem raise_tState (e : ErrCode) (info : BitVec 4) (data : Byte) (s : State) : (raise e info data s).tState = s.tState := rfl
@[simp] theorem raise_tSym (e : ErrCode) (info : BitVec 4) (data : Byte) (s : State) : (raise e info data s).tSym = s.tSym := rfl
@[simp] theorem raise_tSymn (e : ErrCode) (info : BitVec 4) (data : Byte) (s : State) : (raise e info data s).tSymn = s.tSymn := rfl
@[simp] theorem raise_tNodes (e : ErrCode) (info : BitVec 4) (data : Byte) (s : State) : (raise e info data s).tNodes = s.tNodes := rfl
@[simp] theorem raise_tLeaves (e : ErrCode) (info : BitVec 4) (data : Byte) (s : State) : (raise e info data s).tLeaves = s.tLeaves := rfl
@[simp] theorem raise_tInts (e : ErrCode) (info : BitVec 4) (data : Byte) (s : State) : (raise e info data s).tInts = s.tInts := rfl
@[simp] theorem raise_tLwi (e : ErrCode) (info : BitVec 4) (data : Byte) (s : State) : (raise e info data s).tLwi = s.tLwi := rfl
@[simp] theorem raise_oq (e : ErrCode) (info : BitVec 4) (data : Byte) (s : State) : (raise e info data s).oq = s.oq := rfl
@[simp] theorem raise_ports (e : ErrCode) (info : BitVec 4) (data : Byte) (s : State) : (raise e info data s).ports = s.ports := rfl
@[simp] theorem raise_taken (e : ErrCode) (info : BitVec 4) (data : Byte) (s : State) : (raise e info data s).taken = s.taken := rfl
@[simp] theorem raise_ret (e : ErrCode) (info : BitVec 4) (data : Byte) (s : State) : (raise e info data s).ret = s.ret := rfl
@[simp] theorem raise_draws (e : ErrCode) (info : BitVec 4) (data : Byte) (s : State) : (raise e info data s).draws = s.draws := rfl
@[simp] theorem raise_rangesEnded (e : ErrCode) (info : BitVec 4) (data : Byte) (s : State) : (raise e info data s).rangesEnded = s.rangesEnded := rfl

@[simp] theorem tick_cfg (s : State) : (State.tick s).cfg = s.cfg := rfl
@[simp] theorem tick_phase (s : State) : (State.tick s).phase = s.phase := rfl
@[simp] theorem tick_doneOk (s : State) : (State.tick s).doneOk = s.doneOk := rfl
@[simp] theorem tick_err (s : State) : (State.tick s).err = s.err := rfl
@[simp] theorem tick_errInfo (s : State) : (State.tick s).errInfo = s.errInfo := rfl
@[simp] theorem tick_errPhase (s : State) : (State.tick s).errPhase = s.errPhase := rfl
@[simp] theorem tick_errData (s : State) : (State.tick s).errData = s.errData := rfl
@[simp] theorem tick_total (s : State) : (State.tick s).total = s.total := rfl
@[simp] theorem tick_nsym (s : State) : (State.tick s).nsym = s.nsym := rfl
@[simp] theorem tick_root (s : State) : (State.tick s).root = s.root := rfl
@[simp] theorem tick_seq (s : State) : (State.tick s).seq = s.seq := rfl
@[simp] theorem tick_pqCount (s : State) : (State.tick s).pqCount = s.pqCount := rfl
@[simp] theorem tick_paybits (s : State) : (State.tick s).paybits = s.paybits := rfl
@[simp] theorem tick_bitcnt (s : State) : (State.tick s).bitcnt = s.bitcnt := rfl
@[simp] theorem tick_pad (s : State) : (State.tick s).pad = s.pad := rfl
@[simp] theorem tick_freq (s : State) : (State.tick s).freq = s.freq := rfl
@[simp] theorem tick_node (s : State) : (State.tick s).node = s.node := rfl
@[simp] theorem tick_code (s : State) : (State.tick s).code = s.code := rfl
@[simp] theorem tick_pq (s : State) : (State.tick s).pq = s.pq := rfl
@[simp] theorem tick_pstack (s : State) : (State.tick s).pstack = s.pstack := rfl
@[simp] theorem tick_psN (s : State) : (State.tick s).psN = s.psN := rfl
@[simp] theorem tick_seen (s : State) : (State.tick s).seen = s.seen := rfl
@[simp] theorem tick_old (s : State) : (State.tick s).old = s.old := rfl
@[simp] theorem tick_wAcc (s : State) : (State.tick s).wAcc = s.wAcc := rfl
@[simp] theorem tick_wN (s : State) : (State.tick s).wN = s.wN := rfl
@[simp] theorem tick_hold (s : State) : (State.tick s).hold = s.hold := rfl
@[simp] theorem tick_holdV (s : State) : (State.tick s).holdV = s.holdV := rfl
@[simp] theorem tick_cur (s : State) : (State.tick s).cur = s.cur := rfl
@[simp] theorem tick_tState (s : State) : (State.tick s).tState = s.tState := rfl
@[simp] theorem tick_tSym (s : State) : (State.tick s).tSym = s.tSym := rfl
@[simp] theorem tick_tSymn (s : State) : (State.tick s).tSymn = s.tSymn := rfl
@[simp] theorem tick_tNodes (s : State) : (State.tick s).tNodes = s.tNodes := rfl
@[simp] theorem tick_tLeaves (s : State) : (State.tick s).tLeaves = s.tLeaves := rfl
@[simp] theorem tick_tInts (s : State) : (State.tick s).tInts = s.tInts := rfl
@[simp] theorem tick_tLwi (s : State) : (State.tick s).tLwi = s.tLwi := rfl
@[simp] theorem tick_oq (s : State) : (State.tick s).oq = s.oq := rfl
@[simp] theorem tick_ports (s : State) : (State.tick s).ports = s.ports.tail := rfl
@[simp] theorem tick_taken (s : State) : (State.tick s).taken = s.taken := rfl
@[simp] theorem tick_ret (s : State) : (State.tick s).ret = s.ret := rfl
@[simp] theorem tick_draws (s : State) : (State.tick s).draws = s.draws := rfl
@[simp] theorem tick_rangesEnded (s : State) : (State.tick s).rangesEnded = s.rangesEnded := rfl

@[simp] theorem freqClear_cfg (s : State) : (freqClear s).cfg = s.cfg := rfl
@[simp] theorem freqClear_phase (s : State) : (freqClear s).phase = s.phase := rfl
@[simp] theorem freqClear_doneOk (s : State) : (freqClear s).doneOk = s.doneOk := rfl
@[simp] theorem freqClear_err (s : State) : (freqClear s).err = s.err := rfl
@[simp] theorem freqClear_errInfo (s : State) : (freqClear s).errInfo = s.errInfo := rfl
@[simp] theorem freqClear_errPhase (s : State) : (freqClear s).errPhase = s.errPhase := rfl
@[simp] theorem freqClear_errData (s : State) : (freqClear s).errData = s.errData := rfl
@[simp] theorem freqClear_total (s : State) : (freqClear s).total = 0 := rfl
@[simp] theorem freqClear_nsym (s : State) : (freqClear s).nsym = 0 := rfl
@[simp] theorem freqClear_root (s : State) : (freqClear s).root = s.root := rfl
@[simp] theorem freqClear_seq (s : State) : (freqClear s).seq = s.seq := rfl
@[simp] theorem freqClear_pqCount (s : State) : (freqClear s).pqCount = s.pqCount := rfl
@[simp] theorem freqClear_paybits (s : State) : (freqClear s).paybits = s.paybits := rfl
@[simp] theorem freqClear_bitcnt (s : State) : (freqClear s).bitcnt = s.bitcnt := rfl
@[simp] theorem freqClear_pad (s : State) : (freqClear s).pad = s.pad := rfl
@[simp] theorem freqClear_freq (s : State) : (freqClear s).freq = Memory.fill alpha 0 := rfl
@[simp] theorem freqClear_node (s : State) : (freqClear s).node = s.node := rfl
@[simp] theorem freqClear_code (s : State) : (freqClear s).code = s.code := rfl
@[simp] theorem freqClear_pq (s : State) : (freqClear s).pq = s.pq := rfl
@[simp] theorem freqClear_pstack (s : State) : (freqClear s).pstack = s.pstack := rfl
@[simp] theorem freqClear_psN (s : State) : (freqClear s).psN = s.psN := rfl
@[simp] theorem freqClear_seen (s : State) : (freqClear s).seen = s.seen := rfl
@[simp] theorem freqClear_old (s : State) : (freqClear s).old = s.old := rfl
@[simp] theorem freqClear_wAcc (s : State) : (freqClear s).wAcc = s.wAcc := rfl
@[simp] theorem freqClear_wN (s : State) : (freqClear s).wN = s.wN := rfl
@[simp] theorem freqClear_hold (s : State) : (freqClear s).hold = s.hold := rfl
@[simp] theorem freqClear_holdV (s : State) : (freqClear s).holdV = s.holdV := rfl
@[simp] theorem freqClear_cur (s : State) : (freqClear s).cur = s.cur := rfl
@[simp] theorem freqClear_tState (s : State) : (freqClear s).tState = s.tState := rfl
@[simp] theorem freqClear_tSym (s : State) : (freqClear s).tSym = s.tSym := rfl
@[simp] theorem freqClear_tSymn (s : State) : (freqClear s).tSymn = s.tSymn := rfl
@[simp] theorem freqClear_tNodes (s : State) : (freqClear s).tNodes = s.tNodes := rfl
@[simp] theorem freqClear_tLeaves (s : State) : (freqClear s).tLeaves = s.tLeaves := rfl
@[simp] theorem freqClear_tInts (s : State) : (freqClear s).tInts = s.tInts := rfl
@[simp] theorem freqClear_tLwi (s : State) : (freqClear s).tLwi = s.tLwi := rfl
@[simp] theorem freqClear_oq (s : State) : (freqClear s).oq = s.oq := rfl
@[simp] theorem freqClear_ports (s : State) : (freqClear s).ports = s.ports := rfl
@[simp] theorem freqClear_taken (s : State) : (freqClear s).taken = s.taken := rfl
@[simp] theorem freqClear_ret (s : State) : (freqClear s).ret = s.ret := rfl
@[simp] theorem freqClear_draws (s : State) : (freqClear s).draws = s.draws := rfl
@[simp] theorem freqClear_rangesEnded (s : State) : (freqClear s).rangesEnded = s.rangesEnded := rfl

@[simp] theorem codeClear_cfg (s : State) : (codeClear s).cfg = s.cfg := rfl
@[simp] theorem codeClear_phase (s : State) : (codeClear s).phase = s.phase := rfl
@[simp] theorem codeClear_doneOk (s : State) : (codeClear s).doneOk = s.doneOk := rfl
@[simp] theorem codeClear_err (s : State) : (codeClear s).err = s.err := rfl
@[simp] theorem codeClear_errInfo (s : State) : (codeClear s).errInfo = s.errInfo := rfl
@[simp] theorem codeClear_errPhase (s : State) : (codeClear s).errPhase = s.errPhase := rfl
@[simp] theorem codeClear_errData (s : State) : (codeClear s).errData = s.errData := rfl
@[simp] theorem codeClear_total (s : State) : (codeClear s).total = s.total := rfl
@[simp] theorem codeClear_nsym (s : State) : (codeClear s).nsym = s.nsym := rfl
@[simp] theorem codeClear_root (s : State) : (codeClear s).root = s.root := rfl
@[simp] theorem codeClear_seq (s : State) : (codeClear s).seq = s.seq := rfl
@[simp] theorem codeClear_pqCount (s : State) : (codeClear s).pqCount = s.pqCount := rfl
@[simp] theorem codeClear_paybits (s : State) : (codeClear s).paybits = s.paybits := rfl
@[simp] theorem codeClear_bitcnt (s : State) : (codeClear s).bitcnt = s.bitcnt := rfl
@[simp] theorem codeClear_pad (s : State) : (codeClear s).pad = s.pad := rfl
@[simp] theorem codeClear_freq (s : State) : (codeClear s).freq = s.freq := rfl
@[simp] theorem codeClear_node (s : State) : (codeClear s).node = s.node := rfl
@[simp] theorem codeClear_code (s : State) : (codeClear s).code = Memory.fill alpha { len := 0, bits := [] } := rfl
@[simp] theorem codeClear_pq (s : State) : (codeClear s).pq = s.pq := rfl
@[simp] theorem codeClear_pstack (s : State) : (codeClear s).pstack = s.pstack := rfl
@[simp] theorem codeClear_psN (s : State) : (codeClear s).psN = s.psN := rfl
@[simp] theorem codeClear_seen (s : State) : (codeClear s).seen = s.seen := rfl
@[simp] theorem codeClear_old (s : State) : (codeClear s).old = s.old := rfl
@[simp] theorem codeClear_wAcc (s : State) : (codeClear s).wAcc = s.wAcc := rfl
@[simp] theorem codeClear_wN (s : State) : (codeClear s).wN = s.wN := rfl
@[simp] theorem codeClear_hold (s : State) : (codeClear s).hold = s.hold := rfl
@[simp] theorem codeClear_holdV (s : State) : (codeClear s).holdV = s.holdV := rfl
@[simp] theorem codeClear_cur (s : State) : (codeClear s).cur = s.cur := rfl
@[simp] theorem codeClear_tState (s : State) : (codeClear s).tState = s.tState := rfl
@[simp] theorem codeClear_tSym (s : State) : (codeClear s).tSym = s.tSym := rfl
@[simp] theorem codeClear_tSymn (s : State) : (codeClear s).tSymn = s.tSymn := rfl
@[simp] theorem codeClear_tNodes (s : State) : (codeClear s).tNodes = s.tNodes := rfl
@[simp] theorem codeClear_tLeaves (s : State) : (codeClear s).tLeaves = s.tLeaves := rfl
@[simp] theorem codeClear_tInts (s : State) : (codeClear s).tInts = s.tInts := rfl
@[simp] theorem codeClear_tLwi (s : State) : (codeClear s).tLwi = s.tLwi := rfl
@[simp] theorem codeClear_oq (s : State) : (codeClear s).oq = s.oq := rfl
@[simp] theorem codeClear_ports (s : State) : (codeClear s).ports = s.ports := rfl
@[simp] theorem codeClear_taken (s : State) : (codeClear s).taken = s.taken := rfl
@[simp] theorem codeClear_ret (s : State) : (codeClear s).ret = s.ret := rfl
@[simp] theorem codeClear_draws (s : State) : (codeClear s).draws = s.draws := rfl
@[simp] theorem codeClear_rangesEnded (s : State) : (codeClear s).rangesEnded = s.rangesEnded := rfl

@[simp] theorem writeCode_cfg (y : Byte) (p : Bits) (s : State) : (writeCode y p s).cfg = s.cfg := rfl
@[simp] theorem writeCode_phase (y : Byte) (p : Bits) (s : State) : (writeCode y p s).phase = s.phase := rfl
@[simp] theorem writeCode_doneOk (y : Byte) (p : Bits) (s : State) : (writeCode y p s).doneOk = s.doneOk := rfl
@[simp] theorem writeCode_err (y : Byte) (p : Bits) (s : State) : (writeCode y p s).err = s.err := rfl
@[simp] theorem writeCode_errInfo (y : Byte) (p : Bits) (s : State) : (writeCode y p s).errInfo = s.errInfo := rfl
@[simp] theorem writeCode_errPhase (y : Byte) (p : Bits) (s : State) : (writeCode y p s).errPhase = s.errPhase := rfl
@[simp] theorem writeCode_errData (y : Byte) (p : Bits) (s : State) : (writeCode y p s).errData = s.errData := rfl
@[simp] theorem writeCode_total (y : Byte) (p : Bits) (s : State) : (writeCode y p s).total = s.total := rfl
@[simp] theorem writeCode_nsym (y : Byte) (p : Bits) (s : State) : (writeCode y p s).nsym = s.nsym := rfl
@[simp] theorem writeCode_root (y : Byte) (p : Bits) (s : State) : (writeCode y p s).root = s.root := rfl
@[simp] theorem writeCode_seq (y : Byte) (p : Bits) (s : State) : (writeCode y p s).seq = s.seq := rfl
@[simp] theorem writeCode_pqCount (y : Byte) (p : Bits) (s : State) : (writeCode y p s).pqCount = s.pqCount := rfl
@[simp] theorem writeCode_paybits (y : Byte) (p : Bits) (s : State) : (writeCode y p s).paybits = s.paybits := rfl
@[simp] theorem writeCode_bitcnt (y : Byte) (p : Bits) (s : State) : (writeCode y p s).bitcnt = s.bitcnt := rfl
@[simp] theorem writeCode_pad (y : Byte) (p : Bits) (s : State) : (writeCode y p s).pad = s.pad := rfl
@[simp] theorem writeCode_freq (y : Byte) (p : Bits) (s : State) : (writeCode y p s).freq = s.freq := rfl
@[simp] theorem writeCode_node (y : Byte) (p : Bits) (s : State) : (writeCode y p s).node = s.node := rfl
@[simp] theorem writeCode_code (y : Byte) (p : Bits) (s : State) :
    (writeCode y p s).code = Memory.write s.code y.toNat { len := p.length, bits := p } := rfl
@[simp] theorem writeCode_pq (y : Byte) (p : Bits) (s : State) : (writeCode y p s).pq = s.pq := rfl
@[simp] theorem writeCode_pstack (y : Byte) (p : Bits) (s : State) : (writeCode y p s).pstack = s.pstack := rfl
@[simp] theorem writeCode_psN (y : Byte) (p : Bits) (s : State) : (writeCode y p s).psN = s.psN := rfl
@[simp] theorem writeCode_seen (y : Byte) (p : Bits) (s : State) : (writeCode y p s).seen = s.seen := rfl
@[simp] theorem writeCode_old (y : Byte) (p : Bits) (s : State) : (writeCode y p s).old = s.old := rfl
@[simp] theorem writeCode_wAcc (y : Byte) (p : Bits) (s : State) : (writeCode y p s).wAcc = s.wAcc := rfl
@[simp] theorem writeCode_wN (y : Byte) (p : Bits) (s : State) : (writeCode y p s).wN = s.wN := rfl
@[simp] theorem writeCode_hold (y : Byte) (p : Bits) (s : State) : (writeCode y p s).hold = s.hold := rfl
@[simp] theorem writeCode_holdV (y : Byte) (p : Bits) (s : State) : (writeCode y p s).holdV = s.holdV := rfl
@[simp] theorem writeCode_cur (y : Byte) (p : Bits) (s : State) : (writeCode y p s).cur = s.cur := rfl
@[simp] theorem writeCode_tState (y : Byte) (p : Bits) (s : State) : (writeCode y p s).tState = s.tState := rfl
@[simp] theorem writeCode_tSym (y : Byte) (p : Bits) (s : State) : (writeCode y p s).tSym = s.tSym := rfl
@[simp] theorem writeCode_tSymn (y : Byte) (p : Bits) (s : State) : (writeCode y p s).tSymn = s.tSymn := rfl
@[simp] theorem writeCode_tNodes (y : Byte) (p : Bits) (s : State) : (writeCode y p s).tNodes = s.tNodes := rfl
@[simp] theorem writeCode_tLeaves (y : Byte) (p : Bits) (s : State) : (writeCode y p s).tLeaves = s.tLeaves := rfl
@[simp] theorem writeCode_tInts (y : Byte) (p : Bits) (s : State) : (writeCode y p s).tInts = s.tInts := rfl
@[simp] theorem writeCode_tLwi (y : Byte) (p : Bits) (s : State) : (writeCode y p s).tLwi = s.tLwi := rfl
@[simp] theorem writeCode_oq (y : Byte) (p : Bits) (s : State) : (writeCode y p s).oq = s.oq := rfl
@[simp] theorem writeCode_ports (y : Byte) (p : Bits) (s : State) : (writeCode y p s).ports = s.ports := rfl
@[simp] theorem writeCode_taken (y : Byte) (p : Bits) (s : State) : (writeCode y p s).taken = s.taken := rfl
@[simp] theorem writeCode_ret (y : Byte) (p : Bits) (s : State) : (writeCode y p s).ret = s.ret := rfl
@[simp] theorem writeCode_draws (y : Byte) (p : Bits) (s : State) : (writeCode y p s).draws = s.draws := rfl
@[simp] theorem writeCode_rangesEnded (y : Byte) (p : Bits) (s : State) : (writeCode y p s).rangesEnded = s.rangesEnded := rfl

@[simp] theorem openTransaction_cfg (s : State) : (openTransaction s).cfg = s.cfg := rfl
@[simp] theorem openTransaction_phase (s : State) : (openTransaction s).phase = s.phase := rfl
@[simp] theorem openTransaction_doneOk (s : State) : (openTransaction s).doneOk = false := rfl
@[simp] theorem openTransaction_err (s : State) : (openTransaction s).err = s.err := rfl
@[simp] theorem openTransaction_errInfo (s : State) : (openTransaction s).errInfo = s.errInfo := rfl
@[simp] theorem openTransaction_errPhase (s : State) : (openTransaction s).errPhase = s.errPhase := rfl
@[simp] theorem openTransaction_errData (s : State) : (openTransaction s).errData = s.errData := rfl
@[simp] theorem openTransaction_total (s : State) : (openTransaction s).total = s.total := rfl
@[simp] theorem openTransaction_nsym (s : State) : (openTransaction s).nsym = s.nsym := rfl
@[simp] theorem openTransaction_root (s : State) : (openTransaction s).root = s.root := rfl
@[simp] theorem openTransaction_seq (s : State) : (openTransaction s).seq = s.seq := rfl
@[simp] theorem openTransaction_pqCount (s : State) : (openTransaction s).pqCount = s.pqCount := rfl
@[simp] theorem openTransaction_paybits (s : State) : (openTransaction s).paybits = s.paybits := rfl
@[simp] theorem openTransaction_bitcnt (s : State) : (openTransaction s).bitcnt = s.bitcnt := rfl
@[simp] theorem openTransaction_pad (s : State) : (openTransaction s).pad = s.pad := rfl
@[simp] theorem openTransaction_freq (s : State) : (openTransaction s).freq = [] := rfl
@[simp] theorem openTransaction_node (s : State) : (openTransaction s).node = [] := rfl
@[simp] theorem openTransaction_code (s : State) : (openTransaction s).code = [] := rfl
@[simp] theorem openTransaction_pq (s : State) : (openTransaction s).pq = s.pq := rfl
@[simp] theorem openTransaction_pstack (s : State) : (openTransaction s).pstack = [] := rfl
@[simp] theorem openTransaction_psN (s : State) : (openTransaction s).psN = s.psN := rfl
@[simp] theorem openTransaction_seen (s : State) : (openTransaction s).seen = [] := rfl
@[simp] theorem openTransaction_old (s : State) : (openTransaction s).old = s.arrays := rfl
@[simp] theorem openTransaction_wAcc (s : State) : (openTransaction s).wAcc = s.wAcc := rfl
@[simp] theorem openTransaction_wN (s : State) : (openTransaction s).wN = s.wN := rfl
@[simp] theorem openTransaction_hold (s : State) : (openTransaction s).hold = s.hold := rfl
@[simp] theorem openTransaction_holdV (s : State) : (openTransaction s).holdV = s.holdV := rfl
@[simp] theorem openTransaction_cur (s : State) : (openTransaction s).cur = s.cur := rfl
@[simp] theorem openTransaction_tState (s : State) : (openTransaction s).tState = s.tState := rfl
@[simp] theorem openTransaction_tSym (s : State) : (openTransaction s).tSym = s.tSym := rfl
@[simp] theorem openTransaction_tSymn (s : State) : (openTransaction s).tSymn = s.tSymn := rfl
@[simp] theorem openTransaction_tNodes (s : State) : (openTransaction s).tNodes = s.tNodes := rfl
@[simp] theorem openTransaction_tLeaves (s : State) : (openTransaction s).tLeaves = s.tLeaves := rfl
@[simp] theorem openTransaction_tInts (s : State) : (openTransaction s).tInts = s.tInts := rfl
@[simp] theorem openTransaction_tLwi (s : State) : (openTransaction s).tLwi = s.tLwi := rfl
@[simp] theorem openTransaction_oq (s : State) : (openTransaction s).oq = s.oq := rfl
@[simp] theorem openTransaction_ports (s : State) : (openTransaction s).ports = s.ports := rfl
@[simp] theorem openTransaction_taken (s : State) : (openTransaction s).taken = s.taken := rfl
@[simp] theorem openTransaction_ret (s : State) : (openTransaction s).ret = s.ret := rfl
@[simp] theorem openTransaction_draws (s : State) : (openTransaction s).draws = s.draws := rfl
@[simp] theorem openTransaction_rangesEnded (s : State) : (openTransaction s).rangesEnded = false := rfl

end Sys2Proof.Machine
end

