-- ==== Sys2Proof/Laws/Res.lean ====
section
/-! SUPPORT. The laws of sequencing: what a bind and an outcome can be, and what a read in and outside its range is. -/

namespace Sys2Proof.Machine

variable {α β : Type}

@[simp] theorem Res.bind_ok (a : α) (s : State) (k : α → State → Res β) : (Res.ok a s).bind k = k a s := rfl
@[simp] theorem Res.bind_raised (s : State) (k : α → State → Res β) :
    (Res.raised s : Res α).bind k = .raised s := rfl
@[simp] theorem Res.bind_fault (f : Fault) (k : α → State → Res β) :
    (Res.fault f : Res α).bind k = .fault f := rfl
@[simp] theorem Res.next_ok (s : State) (k : State → Res β) : (Res.ok () s).next k = k s := rfl
@[simp] theorem Res.next_raised (s : State) (k : State → Res β) : (Res.raised s : Res Unit).next k = .raised s := rfl
@[simp] theorem Res.next_fault (f : Fault) (k : State → Res β) : (Res.fault f : Res Unit).next k = .fault f := rfl
@[simp] theorem Res.outcome_ok (a : Unit) (s : State) : (Res.ok a s).outcome = .next s := rfl
@[simp] theorem Res.outcome_raised (s : State) : (Res.raised s).outcome = .next s := rfl
@[simp] theorem Res.outcome_fault (f : Fault) : (Res.fault f).outcome = .fault f := rfl
@[simp] theorem Res.outcomeRet_ok (a : α) (s : State) (f : α → Ret) :
    (Res.ok a s).outcomeRet f = .next { s with ret := f a } := rfl
@[simp] theorem Res.outcomeRet_raised (s : State) (f : α → Ret) : (Res.raised s).outcomeRet f = .next s := rfl
@[simp] theorem Res.outcomeRet_fault (e : Fault) (f : α → Ret) :
    (Res.fault e : Res α).outcomeRet f = .fault e := rfl

/-! ## Meaningful ranges (10_state.md R47) -/

@[simp] theorem reading_nil (s : State) (o : Host.Outcome State Fault Refusal) : reading [] s o = o := rfl

theorem reading_cons (g : Group) (gs : List Group) (s : State) (o : Host.Outcome State Fault Refusal) :
    reading (g :: gs) s o = if s.meaningful g then reading gs s o else .fault (.outsideRange g) := rfl

/-- In its ranges an operation runs. -/
theorem reading_ok {gs : List Group} {s : State} {o : Host.Outcome State Fault Refusal}
    (h : ∀ g ∈ gs, s.meaningful g = true) : reading gs s o = o := by
  induction gs with
  | nil => rfl
  | cons g gs ih =>
    rw [reading_cons, if_pos (h g List.mem_cons_self), ih fun k hk => h k (List.mem_cons_of_mem _ hk)]

/-- An operation that answers a next state answers it in its ranges. -/
theorem reading_eq_next {gs : List Group} {s t : State} {o : Host.Outcome State Fault Refusal} :
    reading gs s o = .next t ↔ (∀ g ∈ gs, s.meaningful g = true) ∧ o = .next t := by
  induction gs with
  | nil => simp
  | cons g gs ih =>
    rw [reading_cons]
    split
    · rename_i h; simp [ih, h]
    · rename_i h; simp [h]

/-- In a phase of a transaction the ranges are those of the phase. -/
theorem meaningful_of_phase {s : State} {ph : Phase} (h : s.phase = ph) (hi : ph ≠ .idle) (he : ph ≠ .error) (g : Group) :
    s.meaningful g = g.duringPhase ph := by
  subst h
  unfold State.meaningful
  cases hp : s.phase <;> simp_all

/-- A bind returns only through both its parts. -/
theorem Res.bind_eq_ok {r : Res α} {k : α → State → Res β} {b : β} {t : State} :
    r.bind k = .ok b t ↔ ∃ a s, r = .ok a s ∧ k a s = .ok b t := by
  cases r with
  | ok a s =>
    constructor
    · exact fun h => ⟨a, s, rfl, h⟩
    · rintro ⟨a', s', h, hk⟩; cases h; exact hk
  | raised s => simp
  | fault f => simp

/-- A bind raises in its first part, or in the rest. -/
theorem Res.bind_eq_raised {r : Res α} {k : α → State → Res β} {t : State} :
    r.bind k = .raised t ↔ r = .raised t ∨ ∃ a s, r = .ok a s ∧ k a s = .raised t := by
  cases r with
  | ok a s =>
    constructor
    · exact fun h => .inr ⟨a, s, rfl, h⟩
    · rintro (h | ⟨a', s', h, hk⟩)
      · cases h
      · cases h; exact hk
  | raised s => simp
  | fault f => simp

theorem Res.next_eq_ok {r : Res Unit} {k : State → Res β} {b : β} {t : State} :
    r.next k = .ok b t ↔ ∃ s, r = .ok () s ∧ k s = .ok b t := by
  cases r <;> simp [Res.next, Res.bind]

theorem Res.next_eq_raised {r : Res Unit} {k : State → Res β} {t : State} :
    r.next k = .raised t ↔ r = .raised t ∨ ∃ s, r = .ok () s ∧ k s = .raised t := by
  cases r <;> simp [Res.next, Res.bind]

/-- An event's next state is the state it returned with, or the state it raised an error in. -/
theorem Res.outcome_eq_next {r : Res Unit} {t : State} :
    r.outcome = .next t ↔ r = .ok () t ∨ r = .raised t := by
  cases r <;> simp [Res.outcome]

theorem readAt_some {sp : Space} {m : Memory α} {i : Nat} {a : α} (s : State)
    (h : Memory.read m i = some a) : readAt sp m i s = .ok a s := by simp [readAt, h]

/-- A read answers the element and changes nothing, or faults. -/
theorem readAt_cases {sp : Space} {m : Memory α} {i : Nat} {s : State} :
    (∃ a, Memory.read m i = some a ∧ readAt sp m i s = .ok a s) ∨
      (Memory.read m i = none ∧ readAt sp m i s = .fault (.unwritten sp i)) := by
  cases h : Memory.read m i <;> simp [readAt, h]

theorem readAt_eq_ok {sp : Space} {m : Memory α} {i : Nat} {s t : State} {a : α} :
    readAt sp m i s = .ok a t ↔ Memory.read m i = some a ∧ t = s := by
  cases h : Memory.read m i <;> simp [readAt, h, eq_comm]

@[simp] theorem readAt_ne_raised {sp : Space} {m : Memory α} {i : Nat} {s t : State} :
    readAt sp m i s ≠ .raised t := by
  cases h : Memory.read m i <;> simp [readAt, h]

/-- The child of an internal node is its field (10_state.md R31). -/
theorem readChild_inner {x : Bool} {k : Nat} {n : Node} {s : State} (h : Memory.read s.node k = some n)
    (hl : n.leaf = false) : readChild x k s = .ok (if x then n.right else n.left) s := by
  unfold readChild
  rw [show readNode k s = .ok n s from readAt_some _ h, Res.bind_ok, if_neg (by simp [hl])]

/-- The child of a leaf is a free value (93_implementation_defined.md V2). -/
theorem readChild_leaf {x : Bool} {k : Nat} {n : Node} {s : State} (h : Memory.read s.node k = some n)
    (hl : n.leaf = true) :
    readChild x k s = .ok (Config.freeIndex s.draws).toNat { s with draws := s.draws + 1 } := by
  unfold readChild
  rw [show readNode k s = .ok n s from readAt_some _ h, Res.bind_ok, if_pos hl]

/-- The symbol of a leaf is its field (10_state.md R31). -/
theorem readSym_leaf {k : Nat} {n : Node} {s : State} (h : Memory.read s.node k = some n) (hl : n.leaf = true) :
    readSym k s = .ok n.sym s := by
  unfold readSym
  rw [show readNode k s = .ok n s from readAt_some _ h, Res.bind_ok, if_pos hl]

/-- The symbol of an internal node is a free value (93_implementation_defined.md V2). -/
theorem readSym_inner {k : Nat} {n : Node} {s : State} (h : Memory.read s.node k = some n) (hl : n.leaf = false) :
    readSym k s = .ok (Config.freeSym s.draws) { s with draws := s.draws + 1 } := by
  unfold readSym
  rw [show readNode k s = .ok n s from readAt_some _ h, Res.bind_ok, if_neg (by simp [hl])]

theorem writeNode_eq_ok {k : Nat} {n : Node} {s t : State} {u : Unit} :
    writeNode k n s = .ok u t ↔ k < nodeMax ∧ t = { s with node := Memory.write s.node k n } := by
  unfold writeNode
  split
  · rename_i h; simp [h, eq_comm]
  · rename_i h; simp [h]

@[simp] theorem writeNode_ne_raised {k : Nat} {n : Node} {s t : State} : writeNode k n s ≠ .raised t := by
  unfold writeNode; split <;> simp

theorem writeNode_ok {k : Nat} (n : Node) (s : State) (h : k < nodeMax) :
    writeNode k n s = .ok () { s with node := Memory.write s.node k n } := by simp [writeNode, h]

end Sys2Proof.Machine
end

