-- ==== Sys2Proof/Laws/Writer.lean ====
section
/-! SUPPORT. The laws of the bit writer (43_bitstream.md R175 to R180): what a sequence of puts and a flush leave. -/

namespace Sys2Proof.Machine

@[simp] theorem putBits_nil (s : State) : putBits [] s = s := rfl
@[simp] theorem putBits_cons (x : Bool) (c : Bits) (s : State) : putBits (x :: c) s = putBits c (putBit x s) := rfl

theorem putBits_append (c d : Bits) (s : State) : putBits (c ++ d) s = putBits d (putBits c s) := by
  induction c generalizing s with
  | nil => rfl
  | cons x c ih => simp [ih]

/-- W.PUTBIT writes `w_acc`, `w_n` and `oq` and nothing else (R176). -/
theorem putBit_frame (x : Bool) (s : State) :
    putBit x s = { s with oq := (putBit x s).oq, wAcc := (putBit x s).wAcc, wN := (putBit x s).wN } := by
  unfold putBit; dsimp only; split <;> rfl

/-- W.PUTBITS writes `w_acc`, `w_n` and `oq` and nothing else (R177). -/
theorem putBits_frame (c : Bits) (s : State) :
    putBits c s = { s with oq := (putBits c s).oq, wAcc := (putBits c s).wAcc, wN := (putBits c s).wN } := by
  induction c generalizing s with
  | nil => rfl
  | cons x c ih =>
    rw [putBits_cons, ih (putBit x s)]
    have h := putBit_frame x s
    generalize hu : putBit x s = u at *
    rw [h]

/-- W.FLUSH writes `w_acc`, `w_n` and `oq` and nothing else (R178). -/
theorem flush_frame (s : State) :
    flush s = { s with oq := (flush s).oq, wAcc := (flush s).wAcc, wN := (flush s).wN } := by
  unfold flush; split <;> rfl

/-- The bits `q` wait in the writer: fewer than eight, the rest of `w_acc` is 0 (R175). -/
structure Pending (s : State) (q : Bits) : Prop where
  count : s.wN = q.length
  short : q.length < 8
  acc : s.wAcc = byteOfBits (q ++ List.replicate (8 - q.length) false)

theorem pending_nil {s : State} (hn : s.wN = 0) (ha : s.wAcc = 0#8) : Pending s [] :=
  ⟨hn, by simp, by rw [ha]; decide⟩

/-- A list shorter than eight is one of these. -/
theorem setBit_pending (q : Bits) (x : Bool) (h : q.length < 8) :
    setBit (byteOfBits (q ++ List.replicate (8 - q.length) false)) (7 - q.length) x =
      byteOfBits (q ++ x :: List.replicate (7 - q.length) false) := by
  match q, h with
  | [], _ => revert x; decide
  | [a], _ => revert a x; decide
  | [a, b], _ => revert a b x; decide
  | [a, b, c], _ => revert a b c x; decide
  | [a, b, c, d], _ => revert a b c d x; decide
  | [a, b, c, d, e], _ => revert a b c d e x; decide
  | [a, b, c, d, e, f], _ => revert a b c d e f x; decide
  | [a, b, c, d, e, f, g], _ => revert a b c d e f g x; decide
  | a :: b :: c :: d :: e :: f :: g :: i :: r, h => simp only [List.length_cons] at h; omega

/-- One put: the bit waits, or it completes a byte, which leaves (R176). -/
theorem putBit_pending {s : State} {q : Bits} (x : Bool) (h : Pending s q) :
    (q.length < 7 ∧ Pending (putBit x s) (q ++ [x]) ∧ (putBit x s).oq = s.oq) ∨
    (q.length = 7 ∧ Pending (putBit x s) [] ∧
      (putBit x s).oq = s.oq ++ [{ isEnd := false, data := byteOfBits (q ++ [x]) }]) := by
  obtain ⟨hc, hs, ha⟩ := h
  have hset := setBit_pending q x hs
  by_cases h7 : q.length = 7
  · right
    refine ⟨h7, ?_, ?_⟩
    · have : s.wN = 7 := by omega
      unfold putBit
      simp only [this, if_true]
      exact pending_nil (by simp) (by simp)
    · have : s.wN = 7 := by omega
      unfold putBit
      simp only [this, if_true, emit_oq]
      rw [ha, show (7 - 7 : Nat) = 7 - q.length by omega, hset, h7]
      simp
  · left
    refine ⟨by omega, ⟨?_, ?_, ?_⟩, ?_⟩
    · unfold putBit; simp only [show s.wN ≠ 7 by omega, if_false]; simp [hc]
    · simp; omega
    · unfold putBit; simp only [show s.wN ≠ 7 by omega, if_false]
      rw [hc, ha, hset]
      simp [show 8 - (q.length + 1) = 7 - q.length by omega]
    · unfold putBit; simp only [show s.wN ≠ 7 by omega, if_false]

theorem packed_nil : packed [] = [] := rfl

/-- Eight bits are one byte (R180). -/
theorem packed_append_eight {a : Bits} (c : Bits) (h : a.length = 8) :
    packed (a ++ c) = byteOfBits a :: packed c := by
  unfold packed
  have hl : ((a ++ c).length + 7) / 8 = (c.length + 7) / 8 + 1 := by simp [h]; omega
  rw [hl, List.range_succ_eq_map (n := (c.length + 7) / 8), List.map_cons, List.map_map]
  congr 1
  · congr 1
    match a, h with
    | [a0, a1, a2, a3, a4, a5, a6, a7], _ => rfl
  · apply List.map_congr_left
    intro i _
    simp only [Function.comp_apply, Nat.succ_eq_add_one]
    congr 1
    apply List.map_congr_left
    intro j _
    rw [List.getD_eq_getElem?_getD, List.getD_eq_getElem?_getD, List.getElem?_append_right (by omega), h]
    congr 2
    omega

/-- Fewer than eight bits are one byte with zero bits behind them (R180). -/
theorem packed_short {q : Bits} (h0 : 0 < q.length) (h : q.length < 8) :
    packed q = [byteOfBits (q ++ List.replicate (8 - q.length) false)] := by
  match q, h with
  | [], _ => simp at h0
  | [a], _ => revert a; decide
  | [a, b], _ => revert a b; decide
  | [a, b, c], _ => revert a b c; decide
  | [a, b, c, d], _ => revert a b c d; decide
  | [a, b, c, d, e], _ => revert a b c d e; decide
  | [a, b, c, d, e, f], _ => revert a b c d e f; decide
  | [a, b, c, d, e, f, g], _ => revert a b c d e f g; decide
  | a :: b :: c :: d :: e :: f :: g :: i :: r, h => simp only [List.length_cons] at h; omega

/-- Puts and a flush together: the bits that waited and the new ones leave as packed bytes (R180). -/
theorem flush_putBits {s : State} {q : Bits} (c : Bits) (h : Pending s q) :
    flush (putBits c s) = { s with oq := s.oq ++ dataBeats (packed (q ++ c)), wAcc := 0#8, wN := 0 } := by
  induction c generalizing s q with
  | nil =>
    obtain ⟨hc, hs, ha⟩ := h
    by_cases h0 : q.length = 0
    · have hq : q = [] := List.eq_nil_of_length_eq_zero h0
      subst hq
      have hw : s.wN = 0 := by simpa using hc
      have hacc : s.wAcc = 0#8 := by rw [ha]; decide
      simp [flush, hw, packed_nil, dataBeats]
      cases s; simp_all
    · have hw : s.wN > 0 := by omega
      simp only [putBits_nil, List.append_nil, packed_short (by omega) hs]
      unfold flush
      rw [if_pos hw]
      simp [emit, pushBeat, dataBeats, ha]
  | cons x c ih =>
    rw [putBits_cons]
    rcases putBit_pending x h with ⟨hq, hp, ho⟩ | ⟨hq, hp, ho⟩
    · rw [ih hp, putBit_frame x s]
      simp [ho]
    · rw [ih hp, putBit_frame x s]
      have : q ++ x :: c = (q ++ [x]) ++ c := by simp
      rw [this, packed_append_eight (a := q ++ [x]) c (by simp [hq])]
      simp [ho, dataBeats]

/-- The number of waiting bits after some puts. -/
theorem putBits_pending {s : State} {q : Bits} (c : Bits) (h : Pending s q) :
    ∃ q', Pending (putBits c s) q' ∧ q'.length = (q.length + c.length) % 8 := by
  induction c generalizing s q with
  | nil => exact ⟨q, h, by have := h.short; simp; omega⟩
  | cons x c ih =>
    rw [putBits_cons]
    rcases putBit_pending x h with ⟨hq, hp, _⟩ | ⟨hq, hp, _⟩
    · obtain ⟨q', h1, h2⟩ := ih hp
      exact ⟨q', h1, by simp at h2 ⊢; omega⟩
    · obtain ⟨q', h1, h2⟩ := ih hp
      exact ⟨q', h1, by simp at h2 ⊢; omega⟩

end Sys2Proof.Machine
end

