-- ==== Sys2Proof/Laws/Codes.lean ====
section
/-! SUPPORT. What the two traversals of a built tree do (42_codebook.md R162, 44_framing.md R198), and what DERIVE and EMIT_HDR
do with them. -/

namespace Sys2Proof.Machine

/-- Write a list of codes into CODE, in order. -/
def storeCodes (l : List (Byte × Bits)) (m : Memory CodeEntry) : Memory CodeEntry :=
  l.foldl (fun m q => Memory.write m q.1.toNat { len := q.2.length, bits := q.2 }) m

theorem storeCodes_append (a b : List (Byte × Bits)) (m : Memory CodeEntry) :
    storeCodes (a ++ b) m = storeCodes b (storeCodes a m) := by
  simp [storeCodes, List.foldl_append]

/-- A full binary tree is less deep than it has leaves (00_scope.md R8). -/
theorem HTree.depth_lt_leaves (t : HTree) : t.depth < t.leaves.length := by
  induction t with
  | leaf y => simp [depth, leaves]
  | node l r ihl ihr => simp [depth, leaves]; omega

theorem HTree.leaves_pos (t : HTree) : 0 < t.leaves.length := by
  have := t.depth_lt_leaves; omega

/-- CODE.ASSIGN writes the code of every leaf (R162). -/
theorem codeAssignFrom_of_represents {t : HTree} {room k : Nat} {p : Bits} {s : State}
    (h : Represents s.node k t) (hd : t.depth < room) :
    codeAssignFrom room k p s = .ok () { s with code := storeCodes (t.paths p) s.code } := by
  induction t generalizing room k p s with
  | leaf y =>
    obtain ⟨n, hn, hl, hy⟩ := h
    cases room with
    | zero => omega
    | succ room =>
      simp [codeAssignFrom, readNode, readAt_some s hn, hl, hy, HTree.paths, storeCodes, writeCode]
  | node l r ihl ihr =>
    obtain ⟨n, hn, hl, hL, hR⟩ := h
    cases room with
    | zero => omega
    | succ room =>
      simp only [HTree.depth] at hd
      have h1 := ihl (room := room) (p := p ++ [false]) hL (by omega)
      have h2 := ihr (room := room) (p := p ++ [true])
        (s := { s with code := storeCodes (l.paths (p ++ [false])) s.code }) hR (by omega)
      simp [codeAssignFrom, readNode, readAt_some s hn, hl, h1, h2, HTree.paths, storeCodes_append]

/-- SER puts the tokens of the tree (R198). -/
theorem serFrom_of_represents {t : HTree} {room k : Nat} {s : State}
    (h : Represents s.node k t) (hd : t.depth < room) :
    serFrom room k s = .ok () (putBits t.ser s) := by
  induction t generalizing room k s with
  | leaf y =>
    obtain ⟨n, hn, hl, hy⟩ := h
    cases room with
    | zero => omega
    | succ room => simp [serFrom, readNode, readAt_some s hn, hl, hy, HTree.ser]
  | node l r ihl ihr =>
    obtain ⟨n, hn, hl, hL, hR⟩ := h
    cases room with
    | zero => omega
    | succ room =>
      simp only [HTree.depth] at hd
      have hb : (putBit false s).node = s.node := by rw [putBit_frame]
      have hc : (putBits l.ser (putBit false s)).node = s.node := by rw [putBits_frame, hb]
      have h1 := ihl (room := room) (s := putBit false s) (hb ▸ hL) (by omega)
      have h2 := ihr (room := room) (s := putBits l.ser (putBit false s)) (hc ▸ hR) (by omega)
      simp [serFrom, readNode, readAt_some s hn, hl, h1, h2, HTree.ser, putBits_append]

/-- PAD.PREDICT's sum over the given symbols (R166). -/
theorem paySum_ok {ys : List Nat} {s : State}
    (hf : ∀ y ∈ ys, ∃ f, Memory.read s.freq y = some f) (hc : ∀ y ∈ ys, ∃ c, Memory.read s.code y = some c) :
    paySum ys s = .ok (ys.map fun y => countAt s.freq y * lenAt s.code y).sum s := by
  induction ys with
  | nil => rfl
  | cons y ys ih =>
    obtain ⟨f, hf'⟩ := hf y List.mem_cons_self
    obtain ⟨c, hc'⟩ := hc y List.mem_cons_self
    have := ih (fun z hz => hf z (List.mem_cons_of_mem _ hz)) (fun z hz => hc z (List.mem_cons_of_mem _ hz))
    simp [paySum, readFreq, readCode, readAt_some s hf', readAt_some s hc', this, countAt, lenAt, hf', hc']

theorem Covers.read_all {α : Type} {m : Memory α} {n : Nat} (h : Covers n m) :
    ∀ y ∈ List.range n, ∃ f, Memory.read m y = some f := by
  intro y hy
  obtain ⟨a, ha, _⟩ := h.read (by simpa using hy)
  exact ⟨a, ha⟩

/-- Storing codes keeps a full CODE full. -/
theorem covers_storeCodes {l : List (Byte × Bits)} {m : Memory CodeEntry} (h : Covers alpha m) :
    Covers alpha (storeCodes l m) := by
  induction l generalizing m with
  | nil => exact h
  | cons q l ih => exact ih (h.write _ (by have := q.1.isLt; simpa [alpha] using this))

/-- An entry after storing codes is one of them or was there before. -/
theorem mem_storeCodes {l : List (Byte × Bits)} {m : Memory CodeEntry} {p : Nat × CodeEntry}
    (h : p ∈ storeCodes l m) : (∃ q ∈ l, p.2 = { len := q.2.length, bits := q.2 }) ∨ p ∈ m := by
  induction l generalizing m with
  | nil => exact .inr h
  | cons q l ih =>
    rcases ih h with ⟨q', hq, he⟩ | h'
    · exact .inl ⟨q', List.mem_cons_of_mem _ hq, he⟩
    · rcases Memory.mem_write h' with rfl | h'
      · exact .inl ⟨q, List.mem_cons_self, rfl⟩
      · exact .inr h'

/-- A symbol that has no code in the list keeps its entry. -/
theorem read_storeCodes_of_not_mem {l : List (Byte × Bits)} {m : Memory CodeEntry} {y : Byte}
    (h : y ∉ l.map Prod.fst) : Memory.read (storeCodes l m) y.toNat = Memory.read m y.toNat := by
  induction l generalizing m with
  | nil => rfl
  | cons q l ih =>
    simp only [List.map_cons, List.mem_cons, not_or] at h
    show Memory.read (storeCodes l (Memory.write m q.1.toNat _)) y.toNat = _
    rw [ih h.2, Memory.read_write_other]
    intro he
    exact h.1 (BitVec.eq_of_toNat_eq he)

/-- With distinct symbols every code of the list is found. -/
theorem read_storeCodes {l : List (Byte × Bits)} {m : Memory CodeEntry} (hn : (l.map Prod.fst).Nodup)
    {q : Byte × Bits} (hq : q ∈ l) :
    Memory.read (storeCodes l m) q.1.toNat = some { len := q.2.length, bits := q.2 } := by
  induction l generalizing m with
  | nil => simp at hq
  | cons q' l ih =>
    simp only [List.map_cons, List.nodup_cons] at hn
    rcases List.mem_cons.1 hq with rfl | hq
    · show Memory.read (storeCodes l (Memory.write m q.1.toNat _)) q.1.toNat = _
      rw [read_storeCodes_of_not_mem hn.1]; simp
    · exact ih hn.2 hq

/-- The paths of a tree lead to its leaves, in order (R164). -/
theorem HTree.paths_leaves (t : HTree) (p : Bits) : (t.paths p).map Prod.fst = t.leaves := by
  induction t generalizing p with
  | leaf y => rfl
  | node l r ihl ihr => simp [paths, leaves, ihl, ihr]

/-- Every path is at most as long as the tree is deep. -/
theorem HTree.paths_length {t : HTree} {p : Bits} {q : Byte × Bits} (h : q ∈ t.paths p) :
    q.2.length ≤ p.length + t.depth := by
  induction t generalizing p with
  | leaf y => simp [paths] at h; simp [h]
  | node l r ihl ihr =>
    simp only [paths, List.mem_append] at h
    simp only [depth]
    rcases h with h | h
    · have := ihl h; simp at this; omega
    · have := ihr h; simp at this; omega

/-- What a written array holds at one index. -/
theorem lenAt_le {m : Memory CodeEntry} {b : Nat} (h : ∀ p ∈ m, p.2.len ≤ b) (y : Nat) : lenAt m y ≤ b := by
  unfold lenAt
  cases hr : Memory.read m y with
  | none => simp
  | some c => exact h _ (Memory.mem_of_read hr)

/-- PAD.PREDICT (R166) in one equation. -/
theorem padPredict_ok {s : State} (hf : ∀ y ∈ List.range alpha, ∃ f, Memory.read s.freq y = some f)
    (hc : ∀ y ∈ List.range alpha, ∃ c, Memory.read s.code y = some c) :
    padPredict s = .ok () { s with
      paybits := ((List.range alpha).map fun y => countAt s.freq y * lenAt s.code y).sum
      pad := padOf ((List.range alpha).map fun y => countAt s.freq y * lenAt s.code y).sum
      bitcnt := 0 } := by
  simp [padPredict, paySum_ok hf hc]

/-- The codebook that DERIVE writes. -/
def codebook (t : HTree) : Memory CodeEntry := storeCodes t.codes (Memory.fill alpha { len := 0, bits := [] })

/-- The payload size that DERIVE predicts. -/
def payload (freq : Memory Nat) (code : Memory CodeEntry) : Nat :=
  ((List.range alpha).map fun y => countAt freq y * lenAt code y).sum

/-- DERIVE (R160) in one equation. -/
theorem derive_ok {s : State} {t : HTree} (h : Represents s.node s.root t) (hd : t.depth ≤ codeMax)
    (hf : ∀ y ∈ List.range alpha, ∃ f, Memory.read s.freq y = some f) :
    derive s = .ok () { s with
      code := codebook t, paybits := payload s.freq (codebook t), pad := padOf (payload s.freq (codebook t)),
      bitcnt := 0, phase := .emitHdr } := by
  have hcov : Covers alpha (codebook t) := covers_storeCodes (Memory.covers_fill _ _)
  have hp := padPredict_ok (s := { s with code := codebook t }) hf hcov.read_all
  cases t with
  | leaf y =>
    obtain ⟨n, hn, hl, hy⟩ := h
    have h1 : codeAssign1 (codeClear s) = .ok () { s with code := codebook (.leaf y) } := by
      simp [codeAssign1, readSym, readNode, codeClear, readAt_some _ hn, hl, hy, writeCode, codebook, HTree.codes,
        storeCodes]
    unfold derive
    rw [show readNode s.root (codeClear s) = .ok n (codeClear s) from readAt_some _ hn]
    rw [Res.bind_ok, if_pos hl, h1, Res.next_ok, hp]
    rfl
  | node l r =>
    have h0 := h
    obtain ⟨n, hn, hl, hL, hR⟩ := h0
    have h1 : codeAssign s.root [] (codeClear s) = .ok () { s with code := codebook (.node l r) } :=
      codeAssignFrom_of_represents (s := codeClear s) (p := []) h (by simp; omega)
    unfold derive
    rw [show readNode s.root (codeClear s) = .ok n (codeClear s) from readAt_some _ hn]
    rw [Res.bind_ok, if_neg (by simp [hl])]
    show ((codeAssign s.root [] (codeClear s)).next _) = _
    rw [h1, Res.next_ok, hp]
    rfl

/-- The byte of eight bits is their packing. -/
theorem packed_byte (y : Byte) : packed (bitsOfByte y) = [y] := by
  have h := packed_append_eight (a := bitsOfByte y) [] rfl
  rw [List.append_nil] at h
  have hb : byteOfBits (bitsOfByte y) = y := by revert y; decide +kernel
  rw [h, hb]; rfl

/-- HDR.TREE (R198) in one equation. -/
theorem hdrTree_ok {s : State} {t : HTree} (h : Represents s.node s.root t) (hd : t.depth ≤ codeMax)
    (hn : s.wN = 0) (ha : s.wAcc = 0#8) :
    hdrTree s = .ok () { s with oq := s.oq ++ dataBeats (packed t.ser) } := by
  unfold hdrTree
  rw [serFrom_of_represents h (by simp; omega), Res.next_ok, flush_putBits _ (pending_nil hn ha)]
  simp [hn, ha]

/-- EMIT_HDR (R195) in one equation. -/
theorem emitHdr_ok {s : State} {t : HTree} (h : Represents s.node s.root t) (hd : t.depth ≤ codeMax)
    (hN : t.leaves.length = s.nsym) (hn : s.wN = 0) (ha : s.wAcc = 0#8) :
    emitHdr s = .ok () { s with
      oq := s.oq ++ dataBeats ([byteOfCount s.nsym] ++ packed t.sectionBits ++ [BitVec.ofNat 8 s.pad])
      phase := .encode } := by
  unfold emitHdr
  cases t with
  | leaf y =>
    have h1 : s.nsym = 1 := by simpa [HTree.leaves] using hN.symm
    obtain ⟨n, hr, hl, hy⟩ := h
    have : hdrTree1 (hdrCount s) = .ok () { s with oq := s.oq ++ dataBeats [byteOfCount s.nsym, y] } := by
      simp [hdrTree1, readSym, readNode, hdrCount, putByte, emit, pushBeat, readAt_some _ hr, hl, hy, dataBeats]
    show Res.next (if s.nsym = 1 then hdrTree1 (hdrCount s) else hdrTree (hdrCount s)) _ = _
    rw [if_pos h1, this, Res.next_ok]
    simp [HTree.sectionBits, packed_byte, hdrPad, putByte, emit, pushBeat, dataBeats]
  | node l r =>
    have hl := l.leaves_pos
    have hr := r.leaves_pos
    have h1 : s.nsym ≠ 1 := by rw [← hN]; simp [HTree.leaves]; omega
    have := hdrTree_ok (s := hdrCount s) (t := .node l r) h hd hn ha
    show Res.next (if s.nsym = 1 then hdrTree1 (hdrCount s) else hdrTree (hdrCount s)) _ = _
    rw [if_neg h1, this, Res.next_ok]
    simp [HTree.sectionBits, hdrCount, hdrPad, putByte, emit, pushBeat, dataBeats]

end Sys2Proof.Machine
end

