-- ==== Sys2Proof/Laws/Frame.lean ====
section
/-! SUPPORT. What each shared operation can change, said once: which registers and arrays it writes, whether it can raise an error,
and that output is only ever appended. -/

namespace Sys2Proof.Machine

variable {α β : Type}

/-- What a result answers: `Q` of the value and the state it returns with, `R` of the state it raised an error in. -/
def Res.Post (r : Res α) (Q : α → State → Prop) (R : State → Prop) : Prop :=
  match r with
  | .ok a t => Q a t
  | .raised t => R t
  | .fault _ => True

theorem Res.Post.bind {r : Res α} {k : α → State → Res β} {Q : α → State → Prop} {Q' : β → State → Prop}
    {R : State → Prop} (h : r.Post Q R) (hk : ∀ a t, Q a t → (k a t).Post Q' R) : (r.bind k).Post Q' R := by
  cases r with
  | ok a t => exact hk a t h
  | raised t => exact h
  | fault f => trivial

theorem Res.Post.next {r : Res Unit} {k : State → Res β} {Q : Unit → State → Prop} {Q' : β → State → Prop}
    {R : State → Prop} (h : r.Post Q R) (hk : ∀ t, Q () t → (k t).Post Q' R) : (r.next k).Post Q' R :=
  Res.Post.bind h fun _ t ht => hk t ht

theorem Res.Post.mono {r : Res α} {Q Q' : α → State → Prop} {R R' : State → Prop} (h : r.Post Q R)
    (hq : ∀ a t, Q a t → Q' a t) (hr : ∀ t, R t → R' t) : r.Post Q' R' := by
  cases r with
  | ok a t => exact hq a t h
  | raised t => exact hr t h
  | fault f => trivial

/-- Nothing is raised. -/
abbrev NoRaise (_ : State) : Prop := False

/-- A read changes nothing and raises nothing. -/
theorem readAt_post {sp : Space} {m : Memory α} {i : Nat} {s : State} :
    (readAt sp m i s).Post (fun a t => t = s ∧ Memory.read m i = some a) NoRaise := by
  unfold readAt; cases h : Memory.read m i <;> simp [Res.Post]

theorem readNode_post {k : Nat} {s : State} :
    (readNode k s).Post (fun a t => t = s ∧ Memory.read s.node k = some a) NoRaise := readAt_post

theorem readSym_post {k : Nat} {s : State} :
    (readSym k s).Post (fun a t => t = { s with draws := t.draws } ∧ ∃ n, Memory.read s.node k = some n ∧
      ((n.leaf = true ∧ t.draws = s.draws ∧ n.sym = a) ∨
       (n.leaf = false ∧ t.draws = s.draws + 1 ∧ Config.freeSym s.draws = a))) NoRaise := by
  refine readNode_post.bind ?_
  rintro n t ⟨rfl, hn⟩
  split
  · rename_i hl; exact ⟨rfl, n, hn, .inl ⟨hl, rfl, rfl⟩⟩
  · rename_i hl; exact ⟨rfl, n, hn, .inr ⟨by simpa using hl, rfl, rfl⟩⟩

/-- A child's index: the field in an internal node, a free value in a leaf. -/
theorem readChild_post {x : Bool} {k : Nat} {s : State} :
    (readChild x k s).Post (fun c t => t = { s with draws := t.draws } ∧ ∃ n, Memory.read s.node k = some n ∧
      ((n.leaf = false ∧ t.draws = s.draws ∧ c = if x then n.right else n.left) ∨
       (n.leaf = true ∧ t.draws = s.draws + 1 ∧ c = (Config.freeIndex s.draws).toNat))) NoRaise := by
  refine readNode_post.bind ?_
  rintro n t ⟨rfl, hn⟩
  split
  · rename_i hl; exact ⟨rfl, n, hn, .inr ⟨hl, rfl, rfl⟩⟩
  · rename_i hl; exact ⟨rfl, n, hn, .inl ⟨by simpa using hl, rfl, rfl⟩⟩

theorem writeNode_post {k : Nat} {n : Node} {s : State} :
    (writeNode k n s).Post (fun _ t => k < nodeMax ∧ t = { s with node := Memory.write s.node k n }) NoRaise := by
  unfold writeNode; split
  · rename_i h; exact ⟨h, rfl⟩
  · trivial

/-! ## Output is appended -/

/-- Only `oq`, the writer and the count of free values change, `oq` at its end. -/
def WriterOnly (s t : State) : Prop :=
  t = { s with oq := t.oq, wAcc := t.wAcc, wN := t.wN, draws := t.draws } ∧ ∃ bs, t.oq = s.oq ++ bs

theorem WriterOnly.refl (s : State) : WriterOnly s s := ⟨rfl, [], by simp⟩

theorem WriterOnly.trans {s t u : State} (h1 : WriterOnly s t) (h2 : WriterOnly t u) : WriterOnly s u := by
  obtain ⟨h1, b1, e1⟩ := h1
  obtain ⟨h2, b2, e2⟩ := h2
  exact ⟨by rw [h2, h1], b1 ++ b2, by rw [e2, e1, List.append_assoc]⟩

theorem putBit_writerOnly (x : Bool) (s : State) : WriterOnly s (putBit x s) := by
  refine ⟨?_, ?_⟩
  · rw [putBit_frame x s]
  unfold putBit; dsimp only; split
  · exact ⟨_, rfl⟩
  · exact ⟨[], by simp⟩

theorem putBits_writerOnly (c : Bits) (s : State) : WriterOnly s (putBits c s) := by
  induction c generalizing s with
  | nil => exact .refl s
  | cons x c ih => exact (putBit_writerOnly x s).trans (ih _)

theorem flush_writerOnly (s : State) : WriterOnly s (flush s) := by
  refine ⟨?_, ?_⟩
  · rw [flush_frame s]
  unfold flush; split
  · exact ⟨_, rfl⟩
  · exact ⟨[], by simp⟩

theorem putByte_writerOnly (v : Byte) (s : State) : WriterOnly s (putByte v s) := ⟨rfl, _, rfl⟩

/-- SER writes the writer only (R198). -/
theorem serFrom_post (room k : Nat) (s : State) :
    (serFrom room k s).Post (fun _ t => WriterOnly s t) NoRaise := by
  induction room generalizing k s with
  | zero => trivial
  | succ room ih =>
    refine readNode_post.bind ?_
    rintro n t ⟨rfl, _⟩
    split
    · exact (putBit_writerOnly _ _).trans (putBits_writerOnly _ _)
    · refine (ih n.left (putBit false t)).next fun u hu => ?_
      exact (ih n.right u).mono (fun _ v hv => ((putBit_writerOnly _ _).trans hu).trans hv) fun _ h => h

/-- HDR.TREE writes the writer only (R198). -/
theorem hdrTree_post (s : State) : (hdrTree s).Post (fun _ t => WriterOnly s t) NoRaise :=
  (serFrom_post _ _ s).next fun t ht => ht.trans (flush_writerOnly t)

/-- HDR.TREE1 writes `oq` only (R197). -/
theorem hdrTree1_post (s : State) : (hdrTree1 s).Post (fun _ t => WriterOnly s t) NoRaise := by
  refine readSym_post.bind ?_
  rintro y t ⟨ht, _⟩
  have h : WriterOnly s t := ⟨by rw [ht], [], by rw [ht]; simp⟩
  exact h.trans (putByte_writerOnly y t)

/-- EMIT_HDR writes the writer and `phase` only (R195). -/
theorem emitHdr_post (s : State) :
    (emitHdr s).Post (fun _ t => t.phase = .encode ∧ WriterOnly s { t with phase := s.phase }) NoRaise := by
  unfold emitHdr
  have h0 : WriterOnly s (hdrCount s) := putByte_writerOnly _ _
  have key : ∀ r : Res Unit, r.Post (fun _ t => WriterOnly (hdrCount s) t) NoRaise →
      (r.next fun s => .ok () { hdrPad s with phase := .encode }).Post
        (fun _ t => t.phase = .encode ∧ WriterOnly s { t with phase := s.phase }) NoRaise := by
    intro r hr
    refine hr.next fun t ht => ⟨rfl, ?_⟩
    have h1 := (h0.trans ht).trans (putByte_writerOnly (BitVec.ofNat 8 t.pad) t)
    have hp : (hdrPad t).phase = s.phase := by
      show (putByte (BitVec.ofNat 8 t.pad) t).phase = _; rw [h1.1]
    show WriterOnly s { hdrPad t with phase := s.phase }
    rw [← hp]; exact h1
  refine key (if (hdrCount s).nsym = 1 then hdrTree1 (hdrCount s) else hdrTree (hdrCount s)) ?_
  split
  · exact hdrTree1_post _
  · exact hdrTree_post _

/-! ## BUILD and DERIVE -/

/-- The state fields that BUILD leaves alone. -/
def SameButTree (s t : State) : Prop :=
  t = { s with node := t.node, seq := t.seq, pq := t.pq, pqCount := t.pqCount }

theorem SameButTree.refl (s : State) : SameButTree s s := rfl

theorem SameButTree.trans {s t u : State} (h1 : SameButTree s t) (h2 : SameButTree t u) : SameButTree s u := by
  unfold SameButTree at *
  rw [h2, h1]

theorem pqInsert_post (f k : Nat) (s : State) : (pqInsert f k s).Post (fun _ t => SameButTree s t) NoRaise := by
  unfold pqInsert; split
  · rfl
  · trivial

theorem pqExtractMin_post (s : State) : (pqExtractMin s).Post (fun _ t => SameButTree s t) NoRaise := by
  unfold pqExtractMin; split
  · trivial
  · rfl

theorem pqInitFrom_post (ys : List Nat) (s : State) :
    (pqInitFrom ys s).Post (fun _ t => SameButTree s t) NoRaise := by
  induction ys generalizing s with
  | nil => exact SameButTree.refl s
  | cons y ys ih =>
    refine readAt_post.bind ?_
    rintro f t ⟨rfl, _⟩
    split
    · refine writeNode_post.next ?_
      rintro u ⟨_, rfl⟩
      refine (pqInsert_post _ _ _).next fun v hv => ?_
      refine (ih v).mono (fun _ w hw => SameButTree.trans (SameButTree.trans ?_ hv) hw) fun _ h => h
      rfl
    · exact ih t

theorem pqInit_post (s : State) : (pqInit s).Post (fun _ t => SameButTree s t) NoRaise :=
  (pqInitFrom_post _ _).mono (fun _ _ h => SameButTree.trans (t := { s with pq := [], seq := 0, pqCount := 0 }) rfl h)
    fun _ h => h

theorem merge_post (s : State) : (merge s).Post (fun _ t => SameButTree s t) NoRaise := by
  refine (pqExtractMin_post s).bind fun e1 t ht => ?_
  refine (pqExtractMin_post t).bind fun e2 u hu => ?_
  refine writeNode_post.next ?_
  rintro v ⟨_, rfl⟩
  refine (pqInsert_post _ _ _).mono (fun _ w hw => ?_) fun _ h => h
  exact SameButTree.trans (SameButTree.trans ht hu) (SameButTree.trans (t := { u with node := _ }) rfl hw)

theorem mergeLoop_post (rounds : Nat) (s : State) :
    (mergeLoop rounds s).Post (fun _ t => SameButTree s t) NoRaise := by
  induction rounds generalizing s with
  | zero => exact SameButTree.refl s
  | succ n ih =>
    unfold mergeLoop; split
    · exact (merge_post s).next fun t ht => (ih t).mono (fun _ _ h => ht.trans h) fun _ h => h
    · exact SameButTree.refl s

/-- BUILD writes the tree, `root` and `phase` only (R146). -/
theorem build_post (s : State) :
    (build s).Post (fun _ t => t.phase = .derive ∧ SameButTree s { t with root := s.root, phase := s.phase }) NoRaise := by
  refine (pqInit_post s).next fun t ht => ?_
  refine (mergeLoop_post _ t).next fun u hu => ?_
  refine (pqExtractMin_post u).bind fun e v hv => ⟨rfl, ?_⟩
  have h := (ht.trans hu).trans hv
  unfold SameButTree at *
  rw [h]

/-- Only CODE and the count of free values change. -/
def CodeOnly (s t : State) : Prop := t = { s with code := t.code, draws := t.draws }

theorem CodeOnly.trans {s t u : State} (h1 : CodeOnly s t) (h2 : CodeOnly t u) : CodeOnly s u := by
  unfold CodeOnly at *; rw [h2, h1]

theorem codeAssignFrom_post (room k : Nat) (p : Bits) (s : State) :
    (codeAssignFrom room k p s).Post (fun _ t => CodeOnly s t) NoRaise := by
  induction room generalizing k p s with
  | zero => trivial
  | succ room ih =>
    refine readNode_post.bind ?_
    rintro n t ⟨rfl, _⟩
    split
    · rfl
    · refine (ih _ _ t).next fun u hu => ?_
      exact (ih _ _ u).mono (fun _ v hv => hu.trans hv) fun _ h => h

theorem codeAssign1_post (s : State) : (codeAssign1 s).Post (fun _ t => CodeOnly s t) NoRaise := by
  refine readSym_post.bind ?_
  rintro y t ⟨ht, _⟩
  show writeCode y [false] t = _
  rw [ht]; rfl

theorem paySum_post (ys : List Nat) (s : State) : (paySum ys s).Post (fun _ t => t = s) NoRaise := by
  induction ys with
  | nil => rfl
  | cons y ys ih =>
    refine readAt_post.bind ?_
    rintro f t ⟨rfl, _⟩
    refine readAt_post.bind ?_
    rintro c t' ⟨rfl, _⟩
    refine ih.bind ?_
    rintro n t'' rfl
    rfl

/-- PAD.PREDICT writes `paybits`, `pad` and `bitcnt` only (R166). -/
theorem padPredict_post (s : State) :
    (padPredict s).Post (fun _ t => t = { s with paybits := t.paybits, pad := t.pad, bitcnt := 0 }) NoRaise := by
  refine (paySum_post _ s).bind ?_
  rintro n t rfl
  rfl

/-- DERIVE writes CODE, `paybits`, `pad`, `bitcnt` and `phase` only (R160), and may read free values. -/
theorem derive_post (s : State) :
    (derive s).Post
      (fun _ t => t = { s with
        code := t.code, paybits := t.paybits, pad := t.pad, bitcnt := 0, draws := t.draws, phase := .emitHdr })
      NoRaise := by
  refine readNode_post.bind ?_
  rintro n t ⟨rfl, _⟩
  have key : ∀ r : Res Unit, r.Post (fun _ t => CodeOnly (codeClear s) t) NoRaise →
      (r.next fun s => (padPredict s).next fun s => .ok () { s with phase := .emitHdr }).Post
        (fun _ t => t = { s with
        code := t.code, paybits := t.paybits, pad := t.pad, bitcnt := 0, draws := t.draws, phase := .emitHdr })
        NoRaise := by
    intro r hr
    refine hr.next fun t ht => ?_
    refine (padPredict_post t).next fun u hu => ?_
    show _ = _
    rw [hu, ht]; rfl
  split
  · exact key _ (codeAssign1_post _)
  · exact key _ (codeAssignFrom_post _ _ _ _)

/-! ## The parser -/

/-- Only the parser's registers and arrays and NODE change. -/
def ParserOnly (s t : State) : Prop :=
  t = { s with
    node := t.node, pstack := t.pstack, psN := t.psN, seen := t.seen, tState := t.tState, tSym := t.tSym,
    tSymn := t.tSymn, tNodes := t.tNodes, tLeaves := t.tLeaves, tInts := t.tInts, tLwi := t.tLwi }

theorem ParserOnly.refl (s : State) : ParserOnly s s := rfl

theorem ParserOnly.trans {s t u : State} (h1 : ParserOnly s t) (h2 : ParserOnly t u) : ParserOnly s u := by
  unfold ParserOnly at *; rw [h2, h1]

/-- The parser found the artifact corrupt: BAD_TREE or DUP_SYMBOL (R219, R220, R222). -/
def ParserRaised (s t : State) : Prop :=
  ∃ u info data, ParserOnly s u ∧ (info = infoBadTree ∨ info = infoDupSymbol) ∧
    t = raise .corruptArtifact info data u

theorem ParserRaised.after {s t u : State} (h1 : ParserOnly s t) (h2 : ParserRaised t u) : ParserRaised s u := by
  obtain ⟨v, i, d, h, hi, he⟩ := h2
  exact ⟨v, i, d, h1.trans h, hi, he⟩

theorem writeTreeNode_post (k : Nat) (leaf : Bool) (y : Byte) (s : State) :
    (writeTreeNode k leaf y s).Post (fun _ t => ParserOnly s t) NoRaise := by
  refine writeNode_post.mono ?_ fun _ h => h
  rintro _ t ⟨_, rfl⟩
  rfl

theorem treeAttach_post (k : Nat) (s : State) : (treeAttach k s).Post (fun _ t => ParserOnly s t) NoRaise := by
  unfold treeAttach
  split
  · exact ParserOnly.refl s
  · split
    · refine readNode_post.bind ?_
      rintro n t ⟨rfl, _⟩
      refine writeNode_post.mono ?_ fun _ h => h
      rintro _ u ⟨_, rfl⟩
      rfl
    · unfold popStack
      split
      · trivial
      · unfold readAt
        split
        · refine readNode_post.bind ?_
          rintro n t ⟨rfl, _⟩
          refine writeNode_post.mono ?_ fun _ h => h
          rintro _ u ⟨_, rfl⟩
          rfl
        · trivial

theorem pushStack_post (k : Nat) (s : State) : (pushStack k s).Post (fun _ t => ParserOnly s t) NoRaise := by
  unfold pushStack; split
  · rfl
  · trivial

theorem treeFlag_post (x : Bool) (s : State) :
    (treeFlag x s).Post (fun _ t => ParserOnly s t) (ParserRaised s) := by
  unfold treeFlag
  split
  · rfl
  · split
    · exact ⟨s, _, _, .refl s, .inl rfl, rfl⟩
    · refine ((treeAttach_post _ s).mono (fun _ _ h => h) fun _ h => h.elim).next fun t ht => ?_
      refine ((writeTreeNode_post _ _ _ t).mono (fun _ _ h => h) fun _ h => h.elim).next fun u hu => ?_
      refine ((pushStack_post _ u).mono (fun _ _ h => h) fun _ h => h.elim).next fun v hv => ?_
      exact ((ht.trans hu).trans hv).trans rfl

theorem treeComplete_post (s : State) :
    (treeComplete s).Post (fun _ t => t = s) (ParserRaised s) := by
  unfold treeComplete
  split
  · split
    · exact ⟨s, _, _, .refl s, .inl rfl, rfl⟩
    · rfl
  · rfl

theorem treeSymbit_post (x : Bool) (s : State) :
    (treeSymbit x s).Post (fun _ t => ParserOnly s t) (ParserRaised s) := by
  unfold treeSymbit
  dsimp only
  split
  · unfold treeLeaf readSeen readAt
    split
    · rename_i seen _
      rw [Res.bind_ok]
      split
      · refine ⟨_, _, _, ?_, .inr rfl, rfl⟩
        unfold ParserOnly; rfl
      · refine ((treeAttach_post _ _).mono (fun _ _ h => h) fun _ h => h.elim).next fun t ht => ?_
        refine ((writeTreeNode_post _ _ _ t).mono (fun _ _ h => h) fun _ h => h.elim).next fun u hu => ?_
        have h0 : ParserOnly s { u with tLwi := false, tLeaves := u.tLeaves + 1, tNodes := u.tNodes + 1 } := by
          unfold ParserOnly at *; rw [hu, ht]
        refine (treeComplete_post _).mono ?_ ?_
        · rintro _ v rfl; exact h0
        · intro v hv; exact hv.after h0
    · trivial
  · rfl

theorem treeBit_post (x : Bool) (s : State) :
    (treeBit x s).Post (fun _ t => ParserOnly s t) (ParserRaised s) := by
  unfold treeBit
  split
  · exact (treeFlag_post x s).next fun t ht => ht
  · exact treeSymbit_post x s

/-- DEC.TREE: the parse goes on, or the tree is complete, or the artifact is corrupt (R218). -/
theorem treeBits_post (c : Bits) (s : State) :
    (treeBits c s).Post
      (fun _ t => ParserOnly s t ∨ (t.phase = .dPad ∧ t.root = 0 ∧ ParserOnly s { t with root := s.root, phase := s.phase }))
      (ParserRaised s) := by
  induction c generalizing s with
  | nil => exact .inl (.refl s)
  | cons x c ih =>
    refine (treeBit_post x s).bind fun complete t ht => ?_
    split
    · refine .inr ⟨rfl, rfl, ?_⟩
      unfold ParserOnly at *
      rw [ht]
    · refine (ih t).mono ?_ fun _ h => h.after ht
      rintro _ u (hu | ⟨h1, h2, hu⟩)
      · exact .inl (ht.trans hu)
      · refine .inr ⟨h1, h2, ?_⟩
        have h := ht.trans hu
        have hr : t.root = s.root := by rw [ht]
        have hp : t.phase = s.phase := by rw [ht]
        rw [hr, hp] at h; exact h

/-! ## The walk -/

/-- Only `cur`, `oq` and the count of free values change, `oq` at its end by data beats. -/
def WalkOnly (s t : State) : Prop := ∃ ys, t = { s with cur := t.cur, oq := s.oq ++ dataBeats ys, draws := t.draws }

theorem WalkOnly.refl (s : State) : WalkOnly s s := ⟨[], by simp [dataBeats]⟩

theorem WalkOnly.trans {s t u : State} (h1 : WalkOnly s t) (h2 : WalkOnly t u) : WalkOnly s u := by
  obtain ⟨a, h1⟩ := h1
  obtain ⟨b, h2⟩ := h2
  refine ⟨a ++ b, ?_⟩
  rw [h2, h1]; simp [dataBeats]

theorem walk_post (x : Bool) (s : State) : (walk x s).Post (fun _ t => WalkOnly s t) NoRaise := by
  unfold walk
  split
  · refine readSym_post.bind ?_
    rintro y t ⟨ht, _⟩
    exact ⟨[y], by rw [ht]; rfl⟩
  · refine readChild_post.bind ?_
    rintro c t ⟨ht, _⟩
    refine readNode_post.bind ?_
    rintro m u ⟨rfl, _⟩
    split
    · exact ⟨[m.sym], by rw [ht]; rfl⟩
    · exact ⟨[], by rw [ht]; simp [dataBeats]⟩

theorem walkBits_post (c : Bits) (s : State) : (walkBits c s).Post (fun _ t => WalkOnly s t) NoRaise := by
  induction c generalizing s with
  | nil => exact .refl s
  | cons x c ih =>
    refine (walk_post x s).next fun t ht => ?_
    exact (ih t).mono (fun _ _ h => ht.trans h) fun _ h => h

/-! ## Whole events -/

theorem Res.Post.outcome {r : Res Unit} {Q : Unit → State → Prop} {R : State → Prop} (h : r.Post Q R) {t : State}
    (e : r.outcome = .next t) : Q () t ∨ R t := by
  cases r with
  | ok a u => simp only [Res.outcome, Host.Outcome.next.injEq] at e; subst e; exact .inl h
  | raised u => simp only [Res.outcome, Host.Outcome.next.injEq] at e; subst e; exact .inr h
  | fault f => simp [Res.outcome] at e

/-- FREQ.COUNT writes FREQ, `total` and `nsym`, or raises COUNT_OVERFLOW with nothing written (R132). -/
theorem freqCount_post (b : Byte) (s : State) :
    (freqCount b s).Post
      (fun _ t => s.total ≠ s.cfg.maxCnt ∧ ∃ f, Memory.read s.freq b.toNat = some f ∧
        t = { s with
          nsym := if f = 0 then s.nsym + 1 else s.nsym
          freq := Memory.write s.freq b.toNat (f + 1)
          total := s.total + 1 })
      (fun t => t = raise .countOverflow infoNone b s) := by
  unfold freqCount
  split
  · rfl
  · rename_i h
    refine (readAt_post.mono (fun _ _ h => h) fun _ h => h.elim).bind ?_
    rintro f t ⟨rfl, hf⟩
    exact ⟨h, f, hf, rfl⟩

/-- SCAN.END leads to BUILD, or raises EMPTY_INPUT (R133). -/
theorem scanEnd_post (s : State) :
    (scanEnd s).Post (fun _ t => s.total ≠ 0 ∧ t = { s with phase := .build })
      (fun t => s.total = 0 ∧ t = raise .emptyInput infoNone 0#8 s) := by
  unfold scanEnd
  split
  · rename_i h; exact ⟨h, rfl⟩
  · rename_i h; exact ⟨h, rfl⟩

/-- ENC.SYM puts the code and advances `bitcnt`, or raises with nothing put (R207). -/
theorem encSym_post (b : Byte) (s : State) :
    (encSym b s).Post
      (fun _ t => ∃ c, Memory.read s.code b.toNat = some c ∧ c.len ≠ 0 ∧ s.bitcnt + c.len ≤ s.paybits ∧
        t = { putBits (c.bits.take c.len) s with bitcnt := s.bitcnt + c.len })
      (fun t => t = raise .unknownSymbol infoNone b s ∨ t = raise .passMismatch infoTooLong b s) := by
  unfold encSym
  refine (readAt_post.mono (fun _ _ h => h) fun _ h => h.elim).bind ?_
  rintro c t ⟨rfl, hc⟩
  split
  · exact .inl rfl
  · rename_i h0
    split
    · exact .inr rfl
    · rename_i h1
      refine ⟨c, hc, h0, by omega, ?_⟩
      show ({ putBits (c.bits.take c.len) t with
        bitcnt := (putBits (c.bits.take c.len) t).bitcnt + c.len } : State) = _
      rw [putBits_frame]

/-- ENC.END flushes and closes the output, or raises TOO_SHORT (R208). -/
theorem encEnd_post (s : State) :
    (encEnd s).Post
      (fun _ t => s.bitcnt = s.paybits ∧ t = { emitEnd (flush s) with doneOk := true, phase := .idle })
      (fun t => t = raise .passMismatch infoTooShort 0#8 s) := by
  unfold encEnd
  split
  · rfl
  · rename_i h; exact ⟨by simpa using h, rfl⟩

/-- DEC.TREE1 makes the single leaf (R217). -/
theorem decTree1_eq (b : Byte) (s : State) :
    decTree1 b s = .ok () { s with
      node := Memory.write s.node 0
        { leaf := true, sym := b, freq := (s.nodeAt 0).bind Node.freq, left := 0, right := 0 }
      root := 0
      phase := .dPad } := rfl

/-- DEC.PAD opens the payload, or raises BAD_PAD (R224). -/
theorem decPad_post (b : Byte) (s : State) :
    (decPad b s).Post
      (fun _ t => t = { s with pad := b.toNat, holdV := false, cur := s.root, phase := .dPayload } ∧ b.toNat ≤ 7)
      (fun t => t = raise .corruptArtifact infoBadPad b s) := by
  unfold decPad
  split
  · rfl
  · rename_i h
    refine ⟨?_, by omega⟩
    rw [Nat.mod_eq_of_lt (by omega)]

/-- DEC.DATA walks the held byte, then holds the new one (R231). -/
theorem decData_post (b : Byte) (s : State) :
    (decData b s).Post
      (fun _ t => ∃ u, WalkOnly s u ∧ t = { u with hold := b, holdV := true }) NoRaise := by
  unfold decData
  have h : (if s.holdV then walkBits (rBits s.hold 8) s else Res.ok () s).Post (fun _ t => WalkOnly s t) NoRaise := by
    split
    · exact walkBits_post _ s
    · exact WalkOnly.refl s
  exact h.next fun u hu => ⟨u, hu, rfl⟩

/-- DEC.END: the rest of the payload is walked, then the output is closed, or the artifact is corrupt (R234). -/
theorem decEnd_post (s : State) :
    (decEnd s).Post
      (fun _ t => ∃ u v, WalkOnly s u ∧ u.cur = u.root ∧
        t = { emitEnd { u with holdV := v } with doneOk := true, phase := .idle })
      (fun t => ∃ u v i d, WalkOnly s u ∧ t = raise .corruptArtifact i d { u with holdV := v }) := by
  unfold decEnd
  have h : (decLast s).Post (fun _ t => ∃ u v, WalkOnly s u ∧ t = { u with holdV := v })
      (fun t => ∃ u v i d, WalkOnly s u ∧ t = raise .corruptArtifact i d { u with holdV := v }) := by
    unfold decLast
    split
    · refine ((walkBits_post _ s).mono (fun _ _ h => h) fun _ h => h.elim).next fun u hu => ?_
      exact ⟨u, false, hu, rfl⟩
    · split
      · exact ⟨s, s.holdV, _, _, .refl s, rfl⟩
      · exact ⟨s, s.holdV, .refl s, rfl⟩
  refine h.next ?_
  rintro t ⟨u, v, hu, rfl⟩
  split
  · exact ⟨u, v, _, _, hu, rfl⟩
  · rename_i hc; exact ⟨u, v, hu, by simpa using hc, rfl⟩

end Sys2Proof.Machine
end

