-- ==== Sys2Proof/Laws/Build.lean ====
section
/-! SUPPORT. What the priority queue and BUILD do (41_tree_build.md): extract-min, PQ.INIT, MERGE, and the forest that the loop
of MERGEs keeps until one tree is left. -/

namespace Sys2Proof.Machine

/-! ## The priority queue -/

theorem pqLeast_mem (e : PqEntry) (l : List PqEntry) : pqLeast e l ∈ e :: l := by
  induction l generalizing e with
  | nil => simp [pqLeast]
  | cons f l ih =>
    unfold pqLeast
    have := ih (if f.before e then f else e)
    rcases List.mem_cons.1 this with h | h
    · rw [h]; split <;> simp
    · exact List.mem_cons_of_mem _ (List.mem_cons_of_mem _ h)

/-- `before` compares (freq, seq) lexicographically (R141). -/
theorem PqEntry.before_iff (e f : PqEntry) :
    e.before f = true ↔ e.freq < f.freq ∨ (e.freq = f.freq ∧ e.seq < f.seq) := by
  simp [PqEntry.before]

/-- Nothing in the list is before the least entry (R141, R143). -/
theorem pqLeast_le (e : PqEntry) (l : List PqEntry) : ∀ f ∈ e :: l, f.before (pqLeast e l) = false := by
  induction l generalizing e with
  | nil => intro f hf; simp at hf; subst hf; simp [pqLeast, PqEntry.before]
  | cons g l ih =>
    intro f hf
    unfold pqLeast
    have hx := ih (if g.before e then g else e)
    have hhead := hx _ List.mem_cons_self
    by_cases hge : g.before e = true
    · simp only [hge, if_true] at hx hhead ⊢
      rcases List.mem_cons.1 hf with rfl | hf
      · rw [Bool.eq_false_iff] at hhead ⊢
        simp only [ne_eq, PqEntry.before_iff] at *; omega
      · exact hx f hf
    · simp only [hge, if_false, Bool.false_eq_true] at hx hhead ⊢
      rcases List.mem_cons.1 hf with rfl | hf
      · exact hhead
      · rcases List.mem_cons.1 hf with rfl | hf
        · rw [Bool.eq_false_iff] at *
          simp only [ne_eq, PqEntry.before_iff] at *; omega
        · exact hx f (List.mem_cons_of_mem _ hf)

/-- What PQ.EXTRACT_MIN answers (R143): an entry of PQ, before which no other entry is, taken out of it. -/
theorem pqExtractMin_eq {s : State} (h : s.pq ≠ []) :
    ∃ m, m ∈ s.pq ∧ (∀ f ∈ s.pq, f.before m = false) ∧
      pqExtractMin s = .ok m { s with pq := s.pq.erase m, pqCount := s.pqCount - 1 } := by
  unfold pqExtractMin
  cases hp : s.pq with
  | nil => exact absurd hp h
  | cons e l => exact ⟨pqLeast e l, pqLeast_mem e l, pqLeast_le e l, rfl⟩

/-- Taking an element out of a list of pairs. -/
theorem split_of_mem_fst {α β : Type} [BEq α] [LawfulBEq α] {P : List (α × β)} {a : α} (h : a ∈ P.map Prod.fst) :
    ∃ P1 b P2, P = P1 ++ (a, b) :: P2 ∧ (P.map Prod.fst).erase a = P1.map Prod.fst ++ P2.map Prod.fst := by
  induction P with
  | nil => simp at h
  | cons q P ih =>
    obtain ⟨x, y⟩ := q
    by_cases hx : x = a
    · subst hx; exact ⟨[], y, P, rfl, by simp⟩
    · have h' : a ∈ P.map Prod.fst := by
        simp only [List.map_cons, List.mem_cons] at h
        rcases h with h | h
        · exact absurd h.symm hx
        · exact h
      obtain ⟨P1, b, P2, he, hr⟩ := ih h'
      refine ⟨(x, y) :: P1, b, P2, by simp [he], ?_⟩
      rw [List.map_cons, List.erase_cons]
      simp [hx, hr]

/-! ## Trees under construction -/

/-- The sum of the counts of a tree's leaves (41_tree_build.md R148 c). -/
def HTree.weight (freq : Memory Nat) : HTree → Nat
  | .leaf y => countAt freq y.toNat
  | .node l r => l.weight freq + r.weight freq

/-- The tree at `k` as BUILD makes it: children have smaller indices, `freq` is the weight (R148 b, c). -/
def Built (freq : Memory Nat) (m : Memory Node) (k : Nat) : HTree → Prop
  | .leaf y => ∃ n, Memory.read m k = some n ∧ n.leaf = true ∧ n.sym = y ∧ n.freq = some (countAt freq y.toNat)
  | .node l r =>
    ∃ n, Memory.read m k = some n ∧ n.leaf = false ∧ n.freq = some (l.weight freq + r.weight freq) ∧
      n.left < k ∧ n.right < k ∧ Built freq m n.left l ∧ Built freq m n.right r

theorem Built.represents {freq : Memory Nat} {m : Memory Node} {k : Nat} {t : HTree} (h : Built freq m k t) :
    Represents m k t := by
  induction t generalizing k with
  | leaf y => obtain ⟨n, h1, h2, h3, _⟩ := h; exact ⟨n, h1, h2, h3⟩
  | node l r ihl ihr =>
    obtain ⟨n, h1, h2, _, _, _, hL, hR⟩ := h
    exact ⟨n, h1, h2, ihl hL, ihr hR⟩

/-- A write above a tree leaves it. -/
theorem Built.write {freq : Memory Nat} {m : Memory Node} {k j : Nat} {t : HTree} (a : Node)
    (h : Built freq m k t) (hj : k < j) : Built freq (Memory.write m j a) k t := by
  induction t generalizing k with
  | leaf y =>
    obtain ⟨n, h1, h2⟩ := h
    exact ⟨n, by rw [Memory.read_write_other _ _ (by omega)]; exact h1, h2⟩
  | node l r ihl ihr =>
    obtain ⟨n, h1, h2, h3, h4, h5, hL, hR⟩ := h
    exact ⟨n, by rw [Memory.read_write_other _ _ (by omega)]; exact h1, h2, h3, h4, h5,
      ihl hL (by omega), ihr hR (by omega)⟩

/-- The forest in PQ: each entry is the root of a tree, its `freq` the tree's weight, its `seq` its index; `syms` are the
symbols in the leaves. -/
structure Forest (freq : Memory Nat) (syms : List Byte) (s : State) (P : List (PqEntry × HTree)) : Prop where
  pq : P.map Prod.fst = s.pq
  count : s.pqCount = s.pq.length
  built : ∀ q ∈ P, Built freq s.node q.1.node q.2
  weight : ∀ q ∈ P, q.1.freq = q.2.weight freq
  index : ∀ q ∈ P, q.1.node < s.seq ∧ q.1.seq = q.1.node
  leaves : (P.flatMap fun q => q.2.leaves).Perm syms
  number : s.seq + s.pq.length = 2 * syms.length
  last : ∃ P0 q, P = P0 ++ [q] ∧ q.1.node + 1 = s.seq

/-- Every element of NODE fits, with counts up to `b`. -/
def NodesFit (b : Nat) (m : Memory Node) : Prop :=
  Memory.wf nodeMax m = true ∧ ∀ p ∈ m, p.2.left < nodeMax ∧ p.2.right < nodeMax ∧ ∀ f, p.2.freq = some f → f ≤ b

theorem NodesFit.write {b : Nat} {m : Memory Node} {k : Nat} {n : Node} (h : NodesFit b m) (hk : k < nodeMax)
    (hn : n.left < nodeMax ∧ n.right < nodeMax ∧ ∀ f, n.freq = some f → f ≤ b) :
    NodesFit b (Memory.write m k n) := by
  refine ⟨Memory.wf_write n h.1 hk, ?_⟩
  intro p hp
  rcases Memory.mem_write hp with rfl | hp
  · exact hn
  · exact h.2 p hp

theorem weight_sum {freq : Memory Nat} {P : List (PqEntry × HTree)} (h : ∀ q ∈ P, q.1.freq = q.2.weight freq) :
    (P.map fun q => q.1.freq).sum = ((P.flatMap fun q => q.2.leaves).map fun y => countAt freq y.toNat).sum := by
  induction P with
  | nil => rfl
  | cons q P ih =>
    have hw : ∀ t : HTree, t.weight freq = (t.leaves.map fun y => countAt freq y.toNat).sum := by
      intro t
      induction t with
      | leaf y => simp [HTree.weight, HTree.leaves]
      | node l r ihl ihr => simp [HTree.weight, HTree.leaves, ihl, ihr]
    simp [ih (fun q hq => h q (List.mem_cons_of_mem _ hq)), h q List.mem_cons_self, hw]

/-- MERGE keeps the forest, with one tree less (R145). -/
theorem merge_forest {freq : Memory Nat} {syms : List Byte} {b : Nat} {s : State} {P : List (PqEntry × HTree)}
    (hF : Forest freq syms s P) (h2 : 2 ≤ s.pq.length) (hsyms : syms.length ≤ 256)
    (hb : (syms.map fun y => countAt freq y.toNat).sum ≤ b) (hfit : NodesFit b s.node) :
    ∃ t P', merge s = .ok () t ∧ Forest freq syms t P' ∧ SameButTree s t ∧ t.pq.length + 1 = s.pq.length ∧
      NodesFit b t.node := by
  obtain ⟨hpq, hcount, hbuilt, hweight, hindex, hleaves, hnumber, hlast⟩ := hF
  -- first extraction
  obtain ⟨e1, he1, _, hx1⟩ := pqExtractMin_eq (s := s) (by intro h; simp [h] at h2)
  rw [← hpq] at he1
  obtain ⟨P1, t1, P2, hP, her⟩ := split_of_mem_fst he1
  let s1 : State := { s with pq := s.pq.erase e1, pqCount := s.pqCount - 1 }
  have hs1 : s1.pq = (P1 ++ P2).map Prod.fst := by simp [s1, ← hpq, her]
  have hlen1 : s1.pq.length + 1 = s.pq.length := by
    rw [hs1, ← hpq, hP]; simp; omega
  -- second extraction
  obtain ⟨e2, he2, _, hx2⟩ := pqExtractMin_eq (s := s1) (by intro h; simp [h] at hlen1; omega)
  rw [hs1] at he2
  obtain ⟨Q1, t2, Q2, hQ, her2⟩ := split_of_mem_fst he2
  let s2 : State := { s1 with pq := s1.pq.erase e2, pqCount := s1.pqCount - 1 }
  have hs2 : s2.pq = (Q1 ++ Q2).map Prod.fst := by
    show s1.pq.erase e2 = _
    rw [hs1, her2, List.map_append]
  have hlen2 : s2.pq.length + 1 = s1.pq.length := by
    rw [hs2, hs1, hQ]; simp; omega
  have hm1 : (e1, t1) ∈ P := by rw [hP]; simp
  have hm2' : (e2, t2) ∈ P1 ++ P2 := by rw [hQ]; simp
  have hsub : ∀ q ∈ P1 ++ P2, q ∈ P := by
    intro q hq; rw [hP]; simp at hq ⊢; tauto
  have hm2 := hsub _ hm2'
  have hsub2 : ∀ q ∈ Q1 ++ Q2, q ∈ P := by
    intro q hq; apply hsub; rw [hQ]; simp at hq ⊢; tauto
  have hseq : s2.seq = s.seq := rfl
  have hnode : s2.node = s.node := rfl
  have hseqlt : s.seq < nodeMax := by simp [nodeMax]; omega
  -- permutation of the leaves
  have hperm : ((Q1 ++ Q2).flatMap (fun q => q.2.leaves) ++ (HTree.node t1 t2).leaves).Perm syms := by
    refine List.Perm.trans ?_ hleaves
    rw [hP, List.perm_iff_count]
    intro a
    have hQp := congrArg (fun L => List.count a (L.flatMap fun q => q.2.leaves)) hQ
    simp only [List.flatMap_append, List.flatMap_cons, HTree.leaves, List.count_append] at hQp ⊢
    omega
  have hw1 : e1.freq = t1.weight freq := hweight _ hm1
  have hw2 : e2.freq = t2.weight freq := hweight _ hm2
  have hw12 : e1.freq + e2.freq ≤ b := by
    have h3 : (P.map fun q => q.1.freq).sum ≤ b := by
      rw [weight_sum hweight, (hleaves.map _).sum_nat]; exact hb
    rw [hP] at h3
    have h4 : ((P1 ++ P2).map fun q => q.1.freq).sum = (Q1.map fun q => q.1.freq).sum + (e2.freq + (Q2.map fun q => q.1.freq).sum) := by
      rw [hQ]; simp
    simp at h3 h4
    omega
  let n : Node := { leaf := false, sym := 0#8, freq := some (e1.freq + e2.freq), left := e1.node, right := e2.node }
  let s3 : State := { s2 with node := Memory.write s2.node s2.seq n }
  let e : PqEntry := { freq := e1.freq + e2.freq, seq := s.seq, node := s.seq }
  let s4 : State := { s3 with pq := s3.pq ++ [e], seq := s3.seq + 1, pqCount := s3.pqCount + 1 }
  have hroom : s3.pq.length < pqMax := by
    show s2.pq.length < 256
    have : s.pq.length ≤ 256 := by
      have hl : P.length ≤ (P.flatMap fun q => q.2.leaves).length := by
        clear * -
        induction P with
        | nil => simp
        | cons q P ih =>
          rw [List.flatMap_cons, List.length_append, List.length_cons]
          have := q.2.leaves_pos; omega
      rw [← hpq]; simp; have := hleaves.length_eq; omega
    omega
  refine ⟨s4, (Q1 ++ Q2) ++ [(e, .node t1 t2)], ?_, ?_, ?_, ?_, ?_⟩
  · unfold merge
    rw [hx1, Res.bind_ok]
    show (pqExtractMin s1).bind _ = _
    rw [hx2, Res.bind_ok]
    show (writeNode s2.seq n s2).next _ = _
    rw [writeNode_ok n s2 (hseq ▸ hseqlt), Res.next_ok]
    show pqInsert _ _ s3 = _
    unfold pqInsert
    rw [if_pos hroom]
  · have hidx1 := hindex _ hm1
    have hidx2 := hindex _ hm2
    constructor
    · simp [s4, s3, hs2]
    · show s.pqCount - 1 - 1 + 1 = (s2.pq ++ [e]).length
      simp; omega
    · intro q hq
      rcases List.mem_append.1 hq with hq | hq
      · exact (hbuilt q (hsub2 q hq)).write n (hindex q (hsub2 q hq)).1
      · simp at hq; subst hq
        refine ⟨n, by simp [s4, s3, e, hseq], rfl, ?_, hidx1.1, hidx2.1,
          (hbuilt _ hm1).write n hidx1.1, (hbuilt _ hm2).write n hidx2.1⟩
        simp [n, hw1, hw2]
    · intro q hq
      rcases List.mem_append.1 hq with hq | hq
      · exact hweight q (hsub2 q hq)
      · simp at hq; subst hq
        simp [e, HTree.weight, hw1, hw2]
    · intro q hq
      rcases List.mem_append.1 hq with hq | hq
      · have := hindex q (hsub2 q hq)
        exact ⟨Nat.lt_succ_of_lt this.1, this.2⟩
      · simp at hq; subst hq; exact ⟨Nat.lt_succ_self _, rfl⟩
    · simpa using hperm
    · show s.seq + 1 + (s2.pq ++ [e]).length = _
      simp; omega
    · exact ⟨Q1 ++ Q2, _, rfl, rfl⟩
  · rfl
  · show (s2.pq ++ [e]).length + 1 = _
    simp; omega
  · refine hfit.write hseqlt ⟨?_, ?_, ?_⟩
    · exact Nat.lt_trans (hindex _ hm1).1 hseqlt
    · exact Nat.lt_trans (hindex _ hm2).1 hseqlt
    · intro f hf; simp [n] at hf; omega

/-- The loop of MERGEs leaves one tree (R146). -/
theorem mergeLoop_forest {freq : Memory Nat} {syms : List Byte} {b : Nat} (hsyms : syms.length ≤ 256)
    (hb : (syms.map fun y => countAt freq y.toNat).sum ≤ b) (rounds : Nat) {s : State}
    {P : List (PqEntry × HTree)} (hF : Forest freq syms s P) (hr : s.pq.length ≤ rounds + 1) (hfit : NodesFit b s.node) :
    ∃ t q, mergeLoop rounds s = .ok () t ∧ Forest freq syms t [q] ∧ SameButTree s t ∧ NodesFit b t.node := by
  have hpos : 1 ≤ s.pq.length := by
    obtain ⟨P0, q, hq, _⟩ := hF.last
    rw [← hF.pq, hq]; simp
  induction rounds generalizing s P with
  | zero =>
    have hl : P.length = 1 := by have := hF.pq; rw [← this] at hr hpos; simp at hr hpos; omega
    obtain ⟨q, rfl⟩ := List.length_eq_one_iff.1 hl
    exact ⟨s, q, rfl, hF, .refl s, hfit⟩
  | succ rounds ih =>
    unfold mergeLoop
    by_cases h2 : 2 ≤ s.pqCount
    · rw [if_pos h2]
      rw [hF.count] at h2
      obtain ⟨t, P', hm, hF', hsame, hlen, hfit'⟩ := merge_forest hF h2 hsyms hb hfit
      rw [hm, Res.next_ok]
      obtain ⟨u, q, h1, h3, h4, h5⟩ := ih hF' (by omega) hfit' (by omega)
      exact ⟨u, q, h1, h3, hsame.trans h4, h5⟩
    · rw [if_neg h2]
      have hl : P.length = 1 := by
        have := hF.pq; have hc := hF.count; rw [← this] at hc hpos; simp at hc hpos; omega
      obtain ⟨q, rfl⟩ := List.length_eq_one_iff.1 hl
      exact ⟨s, q, rfl, hF, .refl s, hfit⟩

/-! ## PQ.INIT and BUILD -/

/-- The symbols with a count, of the given ones. -/
def occurring (freq : Memory Nat) (ys : List Nat) : List Nat := ys.filter fun y => 0 < countAt freq y

/-- PQ.INIT adds one leaf for every symbol that occurs (R144). -/
theorem pqInitFrom_forest {freq : Memory Nat} {b : Nat} {ys : List Nat} {s : State} {P : List (PqEntry × HTree)}
    (hfreq : s.freq = freq) (hread : ∀ y ∈ ys, y < 256 ∧ ∃ f, Memory.read freq y = some f ∧ f ≤ b)
    (hP : P.map Prod.fst = s.pq) (hcount : s.pqCount = s.pq.length)
    (hbuilt : ∀ q ∈ P, Built freq s.node q.1.node q.2) (hweight : ∀ q ∈ P, q.1.freq = q.2.weight freq)
    (hindex : ∀ q ∈ P, q.1.node < s.seq ∧ q.1.seq = q.1.node) (hnumber : s.seq = s.pq.length)
    (hroom : s.pq.length + (occurring freq ys).length ≤ 256) (hfit : NodesFit b s.node)
    (hlast : P ≠ [] → ∃ P0 q, P = P0 ++ [q] ∧ q.1.node + 1 = s.seq) :
    ∃ t P', pqInitFrom ys s = .ok () t ∧ SameButTree s t ∧ NodesFit b t.node ∧
      P'.map Prod.fst = t.pq ∧ t.pqCount = t.pq.length ∧
      (∀ q ∈ P', Built freq t.node q.1.node q.2) ∧ (∀ q ∈ P', q.1.freq = q.2.weight freq) ∧
      (∀ q ∈ P', q.1.node < t.seq ∧ q.1.seq = q.1.node) ∧ t.seq = t.pq.length ∧
      (P'.flatMap fun q => q.2.leaves) =
        (P.flatMap fun q => q.2.leaves) ++ (occurring freq ys).map (BitVec.ofNat 8) ∧
      (P' ≠ [] → ∃ P0 q, P' = P0 ++ [q] ∧ q.1.node + 1 = t.seq) ∧
      t.pq.length = s.pq.length + (occurring freq ys).length := by
  induction ys generalizing s P with
  | nil =>
    exact ⟨s, P, rfl, .refl s, hfit, hP, hcount, hbuilt, hweight, hindex, hnumber, by simp [occurring], hlast, rfl⟩
  | cons y ys ih =>
    obtain ⟨hy, f, hf, hfb⟩ := hread y List.mem_cons_self
    have hread' : ∀ z ∈ ys, z < 256 ∧ ∃ f, Memory.read freq z = some f ∧ f ≤ b :=
      fun z hz => hread z (List.mem_cons_of_mem _ hz)
    have hca : countAt freq y = f := by simp [countAt, hf]
    unfold pqInitFrom
    simp only [readFreq, readAt_some s (hfreq ▸ hf), Res.bind_ok]
    by_cases h0 : 0 < f
    · have hocc : occurring freq (y :: ys) = y :: occurring freq ys := by
        simp [occurring, hca, h0]
      rw [hocc] at hroom ⊢
      simp only [List.length_cons] at hroom
      rw [if_pos h0]
      have hseq : s.seq < nodeMax := by rw [hnumber]; simp [nodeMax]; omega
      let n : Node := { leaf := true, sym := BitVec.ofNat 8 y, freq := some f, left := 0, right := 0 }
      let e : PqEntry := { freq := f, seq := s.seq, node := s.seq }
      have hcy : countAt freq (BitVec.ofNat 8 y).toNat = f := by
        rw [BitVec.toNat_ofNat, Nat.mod_eq_of_lt hy, hca]
      rw [writeNode_ok n s hseq, Res.next_ok]
      have hlt : s.pq.length < pqMax := by simp [pqMax]; omega
      simp only [pqInsert, hlt, if_true, Res.next_ok]
      let s' : State := { s with node := Memory.write s.node s.seq n, pq := s.pq ++ [e], seq := s.seq + 1, pqCount := s.pqCount + 1 }
      obtain ⟨t, P', h1, h2, h3, h4, h5, h6, h7, h8, h9, h10, h11, h12⟩ :=
        ih (s := s') (P := P ++ [(e, .leaf (BitVec.ofNat 8 y))]) hfreq hread'
          (by simp [s', hP]) (by simp [s', hcount])
          (by
            intro q hq
            rcases List.mem_append.1 hq with hq | hq
            · exact (hbuilt q hq).write n (hindex q hq).1
            · simp at hq; subst hq
              exact ⟨n, by simp [s', e], rfl, rfl, by rw [hcy]⟩)
          (by
            intro q hq
            rcases List.mem_append.1 hq with hq | hq
            · exact hweight q hq
            · simp at hq; subst hq; exact hcy.symm)
          (by
            intro q hq
            rcases List.mem_append.1 hq with hq | hq
            · exact ⟨Nat.lt_succ_of_lt (hindex q hq).1, (hindex q hq).2⟩
            · simp at hq; subst hq; exact ⟨Nat.lt_succ_self _, rfl⟩)
          (by simp [s', hnumber]) (by simp [s']; omega)
          (hfit.write hseq ⟨by simp [n, nodeMax], by simp [n, nodeMax], by intro g hg; simp [n] at hg; omega⟩)
          (fun _ => ⟨P, _, rfl, rfl⟩)
      refine ⟨t, P', h1, SameButTree.trans ?_ h2, h3, h4, h5, h6, h7, h8, h9, ?_, h11, ?_⟩
      · rfl
      · rw [h10]; simp [HTree.leaves]
      · rw [h12]; simp [s']; omega
    · have hocc : occurring freq (y :: ys) = occurring freq ys := by
        simp [occurring, hca, h0]
      rw [hocc] at hroom ⊢
      rw [if_neg h0]
      exact ih hfreq hread' hP hcount hbuilt hweight hindex hnumber hroom hfit hlast

/-- A full array of counts is the list of its values. -/
theorem Covers.eq_map {n : Nat} {m : Memory Nat} (h : Covers n m) :
    m = (List.range n).map fun i => (i, countAt m i) := by
  have hp := h.pairwise
  have hread : ∀ p ∈ m, Memory.read m p.1 = some p.2 := by
    clear h
    induction m with
    | nil => simp
    | cons q m ih =>
      intro p hm
      obtain ⟨k, v⟩ := q
      simp only [List.map_cons, List.pairwise_cons] at hp
      rcases List.mem_cons.1 hm with rfl | hm
      · simp [Memory.read]
      · have := hp.1 p.1 (List.mem_map_of_mem hm)
        simp only [Memory.read]
        rw [if_neg (by omega)]
        exact ih hp.2 p hm
  have : m = m.map fun p => (p.1, countAt m p.1) := by
    conv_lhs => rw [← List.map_id m]
    apply List.map_congr_left
    intro p hm
    simp [countAt, hread p hm]
  rw [this]
  conv_rhs => rw [← this]
  rw [← h, List.map_map]
  rfl

/-- The number of symbols that occur is `nsym`, and their counts sum to `total` (40_frequency.md R135). -/
theorem Counted.occurring {s : State} (h : Counted s) :
    (Machine.occurring s.freq (List.range alpha)).length = s.nsym ∧
    (((Machine.occurring s.freq (List.range alpha)).map (BitVec.ofNat 8)).map
      fun y : Byte => countAt s.freq y.toNat).sum = s.total := by
  have hm := h.covers.eq_map
  constructor
  · rw [h.nsym]
    conv_rhs => rw [hm]
    rw [List.countP_map, List.countP_eq_length_filter]
    unfold Machine.occurring
    congr 1
    apply List.filter_congr
    intro y _
    simp [Nat.pos_iff_ne_zero]
    by_cases hz : countAt s.freq y = 0 <;> simp [hz]
  · rw [h.total]
    conv_rhs => rw [hm]
    rw [List.map_map, List.map_map]
    have hsub : ∀ L : List Nat, (∀ y ∈ L, y < 256) →
        ((Machine.occurring s.freq L).map ((fun y : Byte => countAt s.freq y.toNat) ∘ BitVec.ofNat 8)).sum =
          (L.map (Prod.snd ∘ fun i => (i, countAt s.freq i))).sum := by
      intro L hL
      induction L with
      | nil => rfl
      | cons y L ih =>
        have hy := hL y List.mem_cons_self
        have ih := ih fun z hz => hL z (List.mem_cons_of_mem _ hz)
        unfold Machine.occurring at *
        by_cases hz : 0 < countAt s.freq y
        · rw [List.filter_cons_of_pos (by simpa using hz)]
          simp only [List.map_cons, List.sum_cons, ih, Function.comp_apply, BitVec.toNat_ofNat]
          rw [Nat.mod_eq_of_lt (by omega)]
        · rw [List.filter_cons_of_neg (by simpa using hz)]
          simp only [List.map_cons, List.sum_cons, ih, Function.comp_apply]
          omega
    exact hsub _ (by simp [alpha])

theorem countAt_le {s : State} {b : Nat} (h : ∀ p ∈ s.freq, p.2 ≤ b) (y : Nat) : countAt s.freq y ≤ b := by
  unfold countAt
  cases hr : Memory.read s.freq y with
  | none => simp
  | some f => exact h _ (Memory.mem_of_read hr)

/-- BUILD makes a tree of all symbols that occur (R146, R148). -/
theorem build_ok {s : State} (hc : Counted s) (hpos : 0 < s.total) (hle : ∀ p ∈ s.freq, p.2 ≤ s.total)
    (hb : s.total ≤ s.cfg.maxCnt) (hfit : NodesFit s.cfg.maxCnt s.node) :
    ∃ m t, build s = .ok () { s with
        node := m, seq := 2 * s.nsym - 1, pq := [], pqCount := 0, root := 2 * s.nsym - 2, phase := .derive } ∧
      Built s.freq m (2 * s.nsym - 2) t ∧ t.weight s.freq = s.total ∧
      t.leaves.Perm ((Machine.occurring s.freq (List.range alpha)).map (BitVec.ofNat 8)) ∧
      NodesFit s.cfg.maxCnt m ∧ 1 ≤ s.nsym ∧ s.nsym ≤ 256 := by
  obtain ⟨hlen, hsum⟩ := hc.occurring
  have hN : s.nsym ≤ 256 := by
    rw [← hlen]
    have : (Machine.occurring s.freq (List.range alpha)).length ≤ (List.range alpha).length := List.length_filter_le _ _
    simpa [alpha] using this
  have hN1 : 1 ≤ s.nsym := by
    rw [← hlen]
    rcases Nat.eq_zero_or_pos (Machine.occurring s.freq (List.range alpha)).length with h | h
    · rw [List.eq_nil_of_length_eq_zero h] at hsum; simp at hsum; omega
    · exact h
  let s0 : State := { s with pq := [], seq := 0, pqCount := 0 }
  obtain ⟨t, P, h1, h2, h3, h4, h5, h6, h7, h8, h9, h10, h11, h12⟩ :=
    pqInitFrom_forest (freq := s.freq) (b := s.cfg.maxCnt) (ys := List.range alpha) (s := s0) (P := []) rfl
      (by
        intro y hy
        obtain ⟨f, hf, hm⟩ := hc.covers.read (by simpa using hy)
        exact ⟨by simpa [alpha] using hy, f, hf, Nat.le_trans (hle _ hm) hb⟩)
      rfl rfl (by simp) (by simp) (by simp) rfl (by simp [s0, hlen, hN]) hfit (by simp)
  have hPne : P ≠ [] := by
    intro h
    subst h
    have := congrArg List.length h10
    simp [hlen] at this
    omega
  have hF : Forest s.freq ((Machine.occurring s.freq (List.range alpha)).map (BitVec.ofNat 8)) t P := by
    refine ⟨h4, h5, h6, h7, h8, ?_, ?_, h11 hPne⟩
    · rw [h10]; simp
    · rw [h9, h12, List.length_map]; simp [s0]; omega
  have hsyms : ((Machine.occurring s.freq (List.range alpha)).map (BitVec.ofNat 8)).length ≤ 256 := by simp [hlen, hN]
  obtain ⟨u, q, g1, g2, g3, g4⟩ := mergeLoop_forest hsyms (b := s.cfg.maxCnt) (by rw [hsum]; exact hb) t.pqCount hF
    (by rw [h5]; omega) h3
  have hu : u.pq = [q.1] := by rw [← g2.pq]; rfl
  have hnum := g2.number
  rw [hu, List.length_map, hlen] at hnum
  simp at hnum
  obtain ⟨P0, q0, hq0, hlastq⟩ := g2.last
  have hqq : q0 = q := by
    have := congrArg List.getLast? hq0
    simpa using this.symm
  subst hqq
  have hnode : q0.1.node = 2 * s.nsym - 2 := by omega
  have hsu : SameButTree s u := SameButTree.trans (t := s0) rfl (h2.trans g3)
  refine ⟨u.node, q0.2, ?_, hnode ▸ g2.built q0 (by simp), ?_, by simpa using g2.leaves, g4, hN1, hN⟩
  · unfold build pqInit
    rw [h1, Res.next_ok, g1, Res.next_ok]
    have hx : pqExtractMin u = .ok q0.1 { u with pq := [], pqCount := 0 } := by
      simp [pqExtractMin, hu, pqLeast, g2.count]
    rw [hx, Res.bind_ok, hnode, hsu]
    simp
    omega
  · have hw := weight_sum g2.weight
    have hq := g2.weight q0 (by simp)
    rw [← hq, ← hsum, ← (g2.leaves.map fun y : Byte => countAt s.freq y.toNat).sum_nat, ← hw]
    simp

end Sys2Proof.Machine
end

