-- ==== Sys2Proof/Laws/Exec.lean ====
section
/-! SUPPORT. What exec answers for an operation whose reads are in their ranges (10_state.md R47): the operation's own outcome, so
that no proof unfolds the check of the ranges. -/

namespace Sys2Proof.Machine

variable {s : State}

theorem exec_freqCount (b : Byte) (h : Readable s [.counts]) :
    exec (.freqCount b) s = (freqCount b s).outcome := reading_ok h

theorem exec_scanEnd (h : Readable s [.counts]) :
    exec .scanEnd s = (scanEnd s).outcome := reading_ok h

theorem exec_build (h : Readable s [.counts]) :
    exec .build s = (build s).outcome := reading_ok h

theorem exec_pqInit (h : Readable s [.counts]) :
    exec .pqInit s = (pqInit s).outcome := reading_ok h

theorem exec_pqInsert (f k : Nat) (h : Readable s [.tree]) :
    exec (.pqInsert f k) s = (pqInsert f k s).outcome := reading_ok h

theorem exec_pqExtractMin (h : Readable s [.tree]) :
    exec .pqExtractMin s = (pqExtractMin s).outcomeRet fun e => .entry e.freq e.node := reading_ok h

theorem exec_merge (h : Readable s [.tree]) :
    exec .merge s = (merge s).outcome := reading_ok h

theorem exec_derive (h : Readable s [.counts, .tree]) :
    exec .derive s = (derive s).outcome := reading_ok h

theorem exec_codeAssign (k : Nat) (p : Bits) (h : Readable s [.tree]) :
    exec (.codeAssign k p) s = (codeAssign k p s).outcome := reading_ok h

theorem exec_codeAssign1 (h : Readable s [.tree]) :
    exec .codeAssign1 s = (codeAssign1 s).outcome := reading_ok h

theorem exec_codeLookup (b : Byte) (h : Readable s [.codebook]) :
    exec (.codeLookup b) s =
      (codeLookup b s).outcomeRet fun c => .code c.len (if c.len = 0 then none else some (c.bits.take c.len)) :=
  reading_ok h

theorem exec_padPredict (h : Readable s [.counts, .codebook]) :
    exec .padPredict s = (padPredict s).outcome := reading_ok h

theorem exec_wPutbit (x : Bool) (h : Readable s [.writer]) :
    exec (.wPutbit x) s = .next (putBit x s) := reading_ok h

theorem exec_wPutbits (c : Bits) (h : Readable s [.writer]) :
    exec (.wPutbits c) s = .next (putBits c s) := reading_ok h

theorem exec_wFlush (h : Readable s [.writer]) :
    exec .wFlush s = .next { flush s with ret := .padCount (flushCount s) } := reading_ok h

theorem exec_emitHdr (h : Readable s [.symbols, .tree, .pad, .writer]) :
    exec .emitHdr s = (emitHdr s).outcome := reading_ok h

theorem exec_hdrCount (h : Readable s [.symbols]) :
    exec .hdrCount s = .next (hdrCount s) := reading_ok h

theorem exec_hdrTree1 (h : Readable s [.tree]) :
    exec .hdrTree1 s = (hdrTree1 s).outcome := reading_ok h

theorem exec_hdrTree (h : Readable s [.tree, .writer]) :
    exec .hdrTree s = (hdrTree s).outcome := reading_ok h

theorem exec_hdrPad (h : Readable s [.pad]) :
    exec .hdrPad s = .next (hdrPad s) := reading_ok h

theorem exec_encSym (b : Byte) (h : Readable s [.codebook, .paybits, .writer]) :
    exec (.encSym b) s = (encSym b s).outcome := reading_ok h

theorem exec_encEnd (h : Readable s [.paybits, .writer]) :
    exec .encEnd s = (encEnd s).outcome := reading_ok h

theorem exec_decTree (b : Byte) (h : Readable s [.parser, .symbols, .tree]) :
    exec (.decTree b) s = (decTree b s).outcome := reading_ok h

theorem exec_decPad (b : Byte) (h : Readable s [.tree]) :
    exec (.decPad b) s = (decPad b s).outcome := reading_ok h

theorem exec_treeFlag (x : Bool) (h : Readable s [.parser, .symbols, .tree]) :
    exec (.treeFlag x) s = (treeFlag x s).outcome := reading_ok h

theorem exec_treeSymbit (x : Bool) (h : Readable s [.parser, .symbols, .tree]) :
    exec (.treeSymbit x) s = (treeSymbit x s).outcomeRet .complete := reading_ok h

theorem exec_treeAttach (k : Nat) (h : Readable s [.parser, .tree]) :
    exec (.treeAttach k) s = (treeAttach k s).outcome := reading_ok h

theorem exec_treeComplete (h : Readable s [.parser, .symbols]) :
    exec .treeComplete s = (treeComplete s).outcomeRet .complete := reading_ok h

theorem exec_walkBit (x : Bool) (h : Readable s [.reader, .tree]) :
    exec (.walkBit x) s = (walkBit x s).outcome := reading_ok h

theorem exec_walkBit1 (x : Bool) (h : Readable s [.tree]) :
    exec (.walkBit1 x) s = (walkBit1 x s).outcome := reading_ok h

theorem exec_decData (b : Byte) (h : Readable s [.reader, .symbols, .tree]) :
    exec (.decData b) s = (decData b s).outcome := reading_ok h

theorem exec_decEnd (h : Readable s [.reader, .symbols, .tree, .pad]) :
    exec .decEnd s = (decEnd s).outcome := reading_ok h

/-- An operation that reads outside a range stops there. -/
theorem reading_fault {gs : List Group} {o : Host.Outcome State Fault Refusal} (h : ¬ Readable s gs) :
    ∃ g ∈ gs, s.meaningful g = false ∧ reading gs s o = .fault (.outsideRange g) := by
  induction gs with
  | nil => exact absurd (fun g hg => absurd hg List.not_mem_nil) h
  | cons g gs ih =>
    rw [reading_cons]
    by_cases hg : s.meaningful g = true
    · rw [if_pos hg]
      obtain ⟨k, h1, h2, h3⟩ := ih fun hr => h fun k hk => by
        rcases List.mem_cons.1 hk with rfl | hk
        · exact hg
        · exact hr k hk
      exact ⟨k, List.mem_cons_of_mem _ h1, h2, h3⟩
    · rw [if_neg hg]
      exact ⟨g, List.mem_cons_self, by simpa using hg, rfl⟩

/-- In a phase of a transaction a group may be read exactly when the phase is in its range. -/
theorem readable_of_phase {gs : List Group} {ph : Phase} (h : s.phase = ph) (hi : ph ≠ .idle) (he : ph ≠ .error)
    (hg : (gs.all fun g => g.duringPhase ph) = true) : Readable s gs :=
  fun g hm => by rw [meaningful_of_phase h hi he]; exact List.all_eq_true.1 hg g hm

end Sys2Proof.Machine
end

