-- ==== Sys2Proof/Laws/Invariant.lean ====
section
/-! SUPPORT. The parts of the invariant that hold also in the middle of an event, and what error entry makes of them. -/

namespace Sys2Proof.Machine

/-- What holds of the registers at every point inside an event of a transaction (Safety.lean's `Inv` without its parts about phases
and about the error record). -/
structure Mid (s : State) : Prop where
  widths : Widths s
  cfg : s.cfg.wf
  err : s.err = .none ∧ s.errInfo = 0#4 ∧ s.errPhase = .idle ∧ s.errData = 0#8
  done : s.doneOk = true → s.phase = .idle
  bitcnt : s.bitcnt ≤ s.paybits
  pq : s.pq = [] ∧ s.pqCount = 0
  writer : ∀ i, i + s.wN < 8 → s.wAcc.getLsbD i = false

theorem Inv.mid {s : State} (h : Inv s) (hp : s.phase ≠ .error) : Mid s := by
  have he : s.err = .none := by
    cases hh : s.err with
    | none => rfl
    | _ => exact absurd (h.always.errIff.1 (by simp [hh])) hp
  refine ⟨h.widths, h.always.cfg, ⟨he, h.always.errZero he⟩, ?_, h.always.bitcnt, h.always.pq, h.always.writer⟩
  intro hd
  rcases h.always.done hd with h | ⟨h, _⟩
  · exact h
  · exact absurd h hp

theorem Mid.inv {s : State} (h : Mid s) (hp : s.phase ≠ .error)
    (ho : s.oq = [] ∨ s.phase = .idle ∨ s.phase = .encode ∨ s.phase = .dPayload) (hq : PhaseOk s) : Inv s := by
  refine ⟨h.widths, ⟨h.cfg, ?_, fun _ => h.err.2, fun hd => .inl (h.done hd), h.bitcnt, h.pq, h.writer, ?_⟩, hq⟩
  · simp [h.err.1, hp]
  · rcases ho with h | h | h | h
    · exact .inl h
    · exact .inr (.inl h)
    · exact .inr (.inr (.inl h))
    · exact .inr (.inr (.inr (.inl h)))

/-- Error entry from inside any event leaves the invariant (60_exceptions.md R290). -/
theorem Mid.raise {s : State} (h : Mid s) {e : ErrCode} (he : e ≠ .none) (i : BitVec 4) (d : Byte) :
    Inv (raise e i d s) := by
  have hw := h.widths
  refine ⟨{ hw with }, ⟨h.cfg, ?_, ?_, ?_, h.bitcnt, h.pq, h.writer, ?_⟩, ?_⟩
  · simp [Machine.raise, he]
  · intro h'; exact absurd h' he
  · intro hd; exact .inr ⟨rfl, h.done hd⟩
  · simp [Machine.raise]
  · trivial

/-- The empty writer holds no bits (10_state.md R34). -/
theorem Mid.wAcc {s : State} (h : Mid s) (hn : s.wN = 0) : s.wAcc = 0#8 := by
  apply BitVec.eq_of_getLsbD_eq
  intro i hi
  rw [h.writer i (by omega)]; simp

/-- What each phase works with does not look at `oq`, at the host's side, at `ret` or at `draws`. -/
theorem PhaseOk.host {s : State} (h : PhaseOk s) (oq : List OutBeat) (ports : List PortsIn) (taken : List OutBeat)
    (r : Ret) (n : Nat) : PhaseOk { s with oq := oq, ports := ports, taken := taken, ret := r, draws := n } := by
  have hc : Counted s → Counted { s with oq := oq, ports := ports, taken := taken, ret := r, draws := n } :=
    fun h => ⟨h.covers, h.total, h.nsym⟩
  have hk : CodeOk s → CodeOk { s with oq := oq, ports := ports, taken := taken, ret := r, draws := n } :=
    fun h => ⟨h.covers, h.len⟩
  have hp : Parsing s → Parsing { s with oq := oq, ports := ports, taken := taken, ret := r, draws := n } :=
    fun h => ⟨h.nodes, h.rootInternal, h.stack, h.count, h.fresh, h.owed, h.room, h.ints, h.symbits⟩
  have hd : ∀ k, DecoderTree s k → DecoderTree { s with oq := oq, ports := ports, taken := taken, ret := r, draws := n } k :=
    fun _ h => ⟨h.root, h.pos, h.nodes, h.kind⟩
  have key : ∀ ph, PhaseReady ph s → PhaseReady ph { s with oq := oq, ports := ports, taken := taken, ret := r, draws := n } := by
    intro ph h
    cases ph
    · trivial
    · exact ⟨hc h.1, h.2⟩
    · exact ⟨hc h.1, h.2⟩
    · exact ⟨hc h.1, h.2⟩
    · exact ⟨h.1, hk h.2.1, h.2.2⟩
    · exact ⟨hk h.1, h.2⟩
    · exact h
    · exact ⟨h.1, hp h.2⟩
    · obtain ⟨k, h1, h2⟩ := h; exact ⟨k, h1, hd k h2⟩
    · obtain ⟨k, h1, h2, h3⟩ := h; exact ⟨k, h1, hd k h2, h3⟩
    · trivial
  exact key _ h

/-- The host's side, `ret` and `draws` play no part in the invariant (10_state.md R46). -/
theorem Inv.host {s : State} (h : Inv s) (ports : List PortsIn) (taken : List OutBeat) (r : Ret) (n : Nat) :
    Inv { s with ports := ports, taken := taken, ret := r, draws := n } :=
  ⟨{ h.widths with }, { h.always with }, h.phase.host s.oq ports taken r n⟩

/-- A command that is ignored in ERROR leaves the invariant (46_codec_commands.md R258). -/
theorem Inv.ignoring {s : State} (h : Inv s) (hp : s.phase = .error) : Inv { s with rangesEnded := true } := by
  refine ⟨{ h.widths with }, { h.always with }, ?_⟩
  show PhaseReady s.phase _
  rw [hp]; trivial

/-- Taking beats away from `oq` keeps the invariant when the queue is not left fuller. -/
theorem Inv.drain {s : State} (h : Inv s) {b : OutBeat} {rest : List OutBeat} (ho : s.oq = b :: rest) :
    Inv { s with oq := rest } := by
  refine ⟨{ h.widths with }, { h.always with oq := ?_ }, h.phase.host rest s.ports s.taken s.ret s.draws⟩
  rcases h.always.oq with h | h
  · rw [ho] at h; cases h
  · exact .inr h

theorem Arrays.unspecified_fit (cfg : Config) : Arrays.unspecified.Fit cfg := by
  constructor <;> first | rfl | simp [Arrays.unspecified]

/-- What the arrays hold when a transaction ends fits, so what is left behind fits (10_state.md R20). -/
theorem Widths.arrays_fit {s : State} (h : Widths s) : s.arrays.Fit s.cfg where
  freqForm := Memory.wf_over h.freqForm h.old.freqForm
  freqElem p hp := (Memory.mem_over hp).elim (h.freqElem p) (h.old.freqElem p)
  nodeForm := Memory.wf_over h.nodeForm h.old.nodeForm
  nodeElem p hp := (Memory.mem_over hp).elim (h.nodeElem p) (h.old.nodeElem p)
  codeForm := Memory.wf_over h.codeForm h.old.codeForm
  codeElem p hp := (Memory.mem_over hp).elim (h.codeElem p) (h.old.codeElem p)
  pstackForm := Memory.wf_over h.pstackForm h.old.pstackForm
  pstackElem p hp := (Memory.mem_over hp).elim (h.pstackElem p) (h.old.pstackElem p)
  seenForm := Memory.wf_over h.seenForm h.old.seenForm

/-- Opening a transaction keeps every register and element inside its width (46_codec_commands.md R251, R252). -/
theorem Widths.openTransaction {s : State} (h : Widths s) : Widths (openTransaction s) :=
  { h with
    freqForm := rfl, freqElem := by simp, nodeForm := rfl, nodeElem := by simp, codeForm := rfl, codeElem := by simp
    pstackForm := rfl, pstackElem := by simp, seenForm := rfl, old := h.arrays_fit }

/-- The state right after reset, with any configuration and host. -/
theorem resetBlock_inv {s : State} (h : s.cfg.wf) : Inv (resetBlock s) := by
  refine ⟨?_, ?_, trivial⟩
  · constructor <;> first
      | exact Arrays.unspecified_fit _
      | simp [resetBlock, State.reset, nodeMax, Memory.wf, pqMax, pstackMax]
  · refine ⟨h, ?_, ?_, ?_, Nat.le_refl _, ⟨rfl, rfl⟩, ?_, .inl rfl⟩
    · simp [resetBlock, State.reset]
    · intro _; exact ⟨rfl, rfl, rfl⟩
    · simp [resetBlock, State.reset]
    · intro i hi; simp [resetBlock, State.reset]

end Sys2Proof.Machine
end

