-- ==== Sys2Proof/Laws/Parse.lean ====
section
/-! SUPPORT. One bit of the tree section, in a state that the parse has reached (44_framing.md R219 to R222, R226). -/

namespace Sys2Proof.Machine

/-- The parse of a tree section with N >= 2 is under way. -/
structure InTree (s : State) : Prop where
  mid : Mid s
  phase : s.phase = .dTree
  seen : Covers alpha s.seen
  parsing : Parsing s
  many : s.nsym ≠ 1

/-- The node that the next TREE.ATTACH links from, if any: an entry below `t_nodes`. -/
theorem treeAttach_ok {s : State} {k : Nat} (hk : k = s.tNodes) (hp : Parsing s) (hw : Widths s) (hlt : k < nodeMax) :
    ∃ m n, treeAttach k s = .ok () { s with node := m, psN := n } ∧
      Memory.wf nodeMax m = true ∧
      (∀ p ∈ m, p.2.left < nodeMax ∧ p.2.right < nodeMax ∧ ∀ f, p.2.freq = some f → f ≤ s.cfg.maxCnt) ∧
      (∀ j, j < k → ∃ e, Memory.read m j = some e ∧ e.left ≤ k ∧ e.right ≤ k) ∧
      (0 < k → ∃ e, Memory.read m 0 = some e ∧ e.leaf = false) ∧
      n = (if k = 0 ∨ s.tLwi = true then s.psN else s.psN - 1) := by
  subst hk
  have hnodes : ∀ j, j < s.tNodes → ∃ e, Memory.read s.node j = some e ∧ e.left ≤ s.tNodes ∧ e.right ≤ s.tNodes := by
    intro j hj
    obtain ⟨e, h1, h2, h3⟩ := hp.nodes j hj
    exact ⟨e, h1, by omega, by omega⟩
  have hwrite : ∀ (j : Nat) (e e' : Node), j < s.tNodes → Memory.read s.node j = some e → e'.leaf = e.leaf →
      e'.freq = e.freq → e'.left ≤ s.tNodes → e'.right ≤ s.tNodes →
      Memory.wf nodeMax (Memory.write s.node j e') = true ∧
      (∀ p ∈ Memory.write s.node j e',
        p.2.left < nodeMax ∧ p.2.right < nodeMax ∧ ∀ f, p.2.freq = some f → f ≤ s.cfg.maxCnt) ∧
      (∀ i, i < s.tNodes → ∃ e, Memory.read (Memory.write s.node j e') i = some e ∧ e.left ≤ s.tNodes ∧ e.right ≤ s.tNodes) ∧
      (0 < s.tNodes → ∃ e, Memory.read (Memory.write s.node j e') 0 = some e ∧ e.leaf = false) := by
    intro j e e' hj he hleaf hfreq hl hr
    refine ⟨Memory.wf_write _ hw.nodeForm (by omega), ?_, ?_, ?_⟩
    · intro p hp'
      rcases Memory.mem_write hp' with rfl | hp'
      · refine ⟨by simp; omega, by simp; omega, ?_⟩
        intro f hf
        exact (hw.nodeElem _ (Memory.mem_of_read he)).2.2 f (by simpa [hfreq] using hf)
      · exact hw.nodeElem _ hp'
    · intro i hi
      rw [Memory.read_write]
      split
      · exact ⟨e', rfl, hl, hr⟩
      · exact hnodes i hi
    · intro h0
      rw [Memory.read_write]
      obtain ⟨e0, h1, h2⟩ := hp.rootInternal h0
      split
      · rename_i hj0; subst hj0
        rw [he] at h1; cases h1
        exact ⟨e', rfl, by rw [hleaf, h2]⟩
      · exact ⟨e0, h1, h2⟩
  unfold treeAttach
  by_cases h0 : s.tNodes = 0
  · rw [if_pos h0]
    refine ⟨s.node, s.psN, rfl, hw.nodeForm, hw.nodeElem, hnodes, hp.rootInternal, ?_⟩
    rw [if_pos (.inl h0)]
  · rw [if_neg h0]
    by_cases hl : s.tLwi = true
    · rw [if_pos hl, if_pos (.inr hl)]
      obtain ⟨e, h1, h2, h3⟩ := hp.nodes (s.tNodes - 1) (by omega)
      obtain ⟨a, b, c, d⟩ := hwrite _ e { e with left := s.tNodes } (by omega) h1 rfl rfl (by simp) (by simp; omega)
      refine ⟨_, s.psN, ?_, a, b, c, d, rfl⟩
      rw [show readNode (s.tNodes - 1) s = .ok e s from readAt_some _ h1, Res.bind_ok, writeNode_ok _ _ (by omega)]
    · rw [if_neg hl, if_neg (by simp [h0, hl])]
      have hps := (hp.owed (by omega)).1
      obtain ⟨p, hp1, hp2⟩ := hp.stack (s.psN - 1) (by omega)
      obtain ⟨e, h1, h2, h3⟩ := hp.nodes p hp2
      obtain ⟨a, b, c, d⟩ := hwrite _ e { e with right := s.tNodes } hp2 h1 rfl rfl (by simp; omega) (by simp)
      refine ⟨_, s.psN - 1, ?_, a, b, c, d, rfl⟩
      unfold popStack
      rw [if_neg (by omega), readAt_some _ hp1, Res.bind_ok, Res.bind_ok]
      rw [show readNode p { s with psN := s.psN - 1 } = .ok e _ from readAt_some _ h1, Res.bind_ok,
        writeNode_ok _ _ (by omega)]

/-- A node keeps a count that fits (44_framing.md R217, R219, R220 do not write it). -/
theorem nodeAt_freq_le {s : State} (hold : s.old.Fit s.cfg)
    (helem : ∀ p ∈ s.node, p.2.left < nodeMax ∧ p.2.right < nodeMax ∧ ∀ f, p.2.freq = some f → f ≤ s.cfg.maxCnt)
    {k f : Nat} (h : (s.nodeAt k).bind Node.freq = some f) : f ≤ s.cfg.maxCnt := by
  unfold State.nodeAt at h
  cases hr : Memory.read s.node k with
  | some e =>
    rw [hr] at h
    exact (helem _ (Memory.mem_of_read hr)).2.2 f (by simpa using h)
  | none =>
    rw [hr, Option.none_or] at h
    obtain ⟨e, he, hf⟩ := Option.bind_eq_some_iff.1 h
    exact (hold.nodeElem _ (Memory.mem_of_read he)).2.2 f hf

/-- The new node, and what it means for the numbering. -/
theorem newNode_ok {s : State} {m : Memory Node} {leaf : Bool} {y : Byte} {fr : Option Nat} (hk : s.tNodes < nodeMax)
    (hform : Memory.wf nodeMax m = true)
    (helem : ∀ p ∈ m, p.2.left < nodeMax ∧ p.2.right < nodeMax ∧ ∀ f, p.2.freq = some f → f ≤ s.cfg.maxCnt)
    (hnodes : ∀ j, j < s.tNodes → ∃ e, Memory.read m j = some e ∧ e.left ≤ s.tNodes ∧ e.right ≤ s.tNodes)
    (hroot : 0 < s.tNodes → ∃ e, Memory.read m 0 = some e ∧ e.leaf = false)
    (hfr : ∀ f, fr = some f → f ≤ s.cfg.maxCnt) :
    let n : Node := { leaf := leaf, sym := y, freq := fr, left := 0, right := 0 }
    let m' := Memory.write m s.tNodes n
    Memory.wf nodeMax m' = true ∧
    (∀ p ∈ m', p.2.left < nodeMax ∧ p.2.right < nodeMax ∧ ∀ f, p.2.freq = some f → f ≤ s.cfg.maxCnt) ∧
    (∀ j, j < s.tNodes + 1 → ∃ e, Memory.read m' j = some e ∧ e.left < s.tNodes + 1 ∧ e.right < s.tNodes + 1) ∧
    ((leaf = false ∨ 0 < s.tNodes) → ∃ e, Memory.read m' 0 = some e ∧ e.leaf = false) := by
  intro n m'
  refine ⟨Memory.wf_write _ hform hk, ?_, ?_, ?_⟩
  · intro p hp
    rcases Memory.mem_write hp with rfl | hp
    · exact ⟨by simp [n, nodeMax], by simp [n, nodeMax], hfr⟩
    · exact helem p hp
  · intro j hj
    show ∃ e, Memory.read (Memory.write m s.tNodes n) j = some e ∧ _
    rw [Memory.read_write]
    split
    · exact ⟨n, rfl, by simp [n], by simp [n]⟩
    · obtain ⟨e, h1, h2, h3⟩ := hnodes j (by omega)
      exact ⟨e, h1, by omega, by omega⟩
  · intro h
    show ∃ e, Memory.read (Memory.write m s.tNodes n) 0 = some e ∧ _
    rw [Memory.read_write]
    split
    · rename_i h0
      refine ⟨n, rfl, ?_⟩
      rcases h with h | h
      · exact h
      · omega
    · exact hroot (by omega)

/-- A new internal node waits for two children, and took the place of one (R219, R226). -/
theorem Parsing.owed_internal {s : State} (hp : Parsing s) {n : Nat}
    (h : n = if s.tNodes = 0 ∨ s.tLwi = true then s.psN else s.psN - 1) :
    1 ≤ n + 1 ∧ s.tLeaves + (n + 1) + (if true = true then 1 else 0) = s.tInts + 1 + 1 := by
  rw [if_pos rfl]
  have hc := hp.count
  rcases Nat.eq_zero_or_pos s.tNodes with h0 | h0
  · have := hp.fresh h0
    rw [if_pos (.inl h0)] at h
    omega
  · have ho := hp.owed h0
    by_cases hl : s.tLwi = true
    · rw [if_pos (.inr hl)] at h; rw [if_pos hl] at ho
      omega
    · rw [if_neg (by simp [hl]; omega)] at h; rw [if_neg hl] at ho
      omega

/-- TREE.FLAG in a parse: it goes on, or BAD_TREE (R219). -/
theorem treeFlag_ok {s : State} (x : Bool) (h : InTree s) (hst : s.tState = .flag) :
    (∃ t, treeFlag x s = .ok () t ∧ InTree t) ∨
    (∃ d, treeFlag x s = .raised (raise .corruptArtifact infoBadTree d s)) := by
  obtain ⟨hm, hph, hseen, hp, hN⟩ := h
  have hw := hm.widths
  unfold treeFlag
  cases x with
  | true =>
    left
    refine ⟨_, rfl, ⟨⟨{ hw with tSymn := by simp }, hm.cfg, hm.err, hm.done, hm.bitcnt, hm.pq, hm.writer⟩, hph, hseen,
      ⟨hp.nodes, hp.rootInternal, hp.stack, hp.count, hp.fresh, hp.owed, hp.room, hp.ints, by simp⟩, hN⟩⟩
  | false =>
    simp only [Bool.false_eq_true, if_false]
    split
    · right; exact ⟨_, rfl⟩
    · left
      rename_i hne
      have hints := hp.ints
      have hns := hw.nsym
      have hcount := hp.count
      have hroom := hp.room
      have hlv : s.tLeaves ≤ s.tInts := by
        rcases Nat.eq_zero_or_pos s.tNodes with h0 | h0
        · omega
        · have := hp.owed h0; omega
      have hk : s.tNodes < nodeMax := by simp [nodeMax]; omega
      obtain ⟨m, n, h1, h2, h3, h4, h5, h6⟩ := treeAttach_ok rfl hp hw hk
      have hfr : ∀ f, (({ s with node := m, psN := n } : State).nodeAt s.tNodes).bind Node.freq = some f → f ≤ s.cfg.maxCnt :=
        fun _ => nodeAt_freq_le (s := { s with node := m, psN := n }) hw.old h3
      obtain ⟨g1, g2, g3, g4⟩ := newNode_ok (leaf := false) (y := 0#8) hk h2 h3 h4 h5 hfr
      clear hfr
      have hn : n ≤ s.psN := by rw [h6]; split <;> omega
      have hpush : n < pstackMax := by simp [pstackMax]; omega
      rw [h1, Res.next_ok]
      unfold writeTreeNode
      rw [writeNode_ok _ _ hk, Res.next_ok]
      unfold pushStack
      rw [if_pos hpush, Res.next_ok]
      refine ⟨_, rfl, ⟨⟨?_, hm.cfg, hm.err, hm.done, hm.bitcnt, hm.pq, hm.writer⟩, hph, hseen, ?_, hN⟩⟩
      · refine { hw with psN := ?_, tNodes := ?_, tInts := ?_, nodeForm := g1, nodeElem := g2, pstackForm := ?_, pstackElem := ?_ }
        · simp [pstackMax] at *; omega
        · simp [nodeMax] at hk; simp; omega
        · simp; omega
        · exact Memory.wf_write _ hw.pstackForm hpush
        · intro q hq
          rcases Memory.mem_write hq with rfl | hq
          · exact hk
          · exact hw.pstackElem q hq
      · refine ⟨g3, fun _ => g4 (.inl rfl), ?_, by simp; omega, by simp, ?_, by simp; omega, by simp; omega, by simp [hst]⟩
        · intro i hi
          simp only [Memory.read_write]
          split
          · exact ⟨_, rfl, by simp⟩
          · obtain ⟨k, hk1, hk2⟩ := hp.stack i (by simp at hi; omega)
            exact ⟨k, hk1, by simp; omega⟩
        · intro _
          exact hp.owed_internal h6

/-- What a completed tree leaves (R222, R226). -/
structure TreeDone (s : State) : Prop where
  mid : Mid s
  phase : s.phase = .dTree
  flag : s.tState = .flag
  many : s.nsym ≠ 1
  pos : 0 < s.tNodes
  leaves : s.tLeaves = s.nsym
  count : s.tNodes + 1 = 2 * s.nsym
  nodes : ∀ k, k < s.tNodes → ∃ n, Memory.read s.node k = some n ∧ n.left < s.tNodes ∧ n.right < s.tNodes
  root : ∃ n, Memory.read s.node 0 = some n ∧ n.leaf = false

/-- TREE.SYMBIT in a parse: it goes on, or completes the tree, or the artifact is corrupt (R220, R222). -/
theorem treeSymbit_ok {s : State} (x : Bool) (h : InTree s) (hst : s.tState = .sym) :
    (∃ t, treeSymbit x s = .ok false t ∧ InTree t) ∨
    (∃ t, treeSymbit x s = .ok true t ∧ TreeDone t) ∨
    (∃ i d u, treeSymbit x s = .raised (raise .corruptArtifact i d u) ∧ Mid u ∧ u.phase = .dTree) := by
  obtain ⟨hm, hph, hseen, hp, hN⟩ := h
  have hw := hm.widths
  have hsb := hp.symbits hst
  unfold treeSymbit
  dsimp only
  by_cases h8 : s.tSymn + 1 = 8
  · rw [if_pos h8]
    have hints := hp.ints
    have hns := hw.nsym
    have hcount := hp.count
    have hroom := hp.room
    have hlv : s.tLeaves ≤ s.tInts := by
      rcases Nat.eq_zero_or_pos s.tNodes with h0 | h0
      · omega
      · have := hp.owed h0; omega
    have hk : s.tNodes < nodeMax := by simp [nodeMax]; omega
    generalize hy : (s.tSym <<< 1 ||| if x = true then 1#8 else 0#8) = y
    obtain ⟨seen, hs1, hs2⟩ := hseen.read (i := y.toNat) (by have := y.isLt; simpa [alpha] using this)
    unfold treeLeaf
    simp only [readSeen]
    rw [readAt_some _ hs1, Res.bind_ok]
    cases seen with
    | true =>
      right; right
      refine ⟨_, _, _, rfl, ⟨{ hw with tSymn := by simp; omega }, hm.cfg, hm.err, hm.done, hm.bitcnt, hm.pq, hm.writer⟩, hph⟩
    | false =>
      simp only [Bool.false_eq_true, if_false]
      let s1 : State := { s with
        tSym := y, tSymn := s.tSymn + 1, tState := .flag, seen := Memory.write s.seen y.toNat true }
      have hw1 : Widths s1 := { hw with
        tSymn := by simp [s1]; omega
        seenForm := Memory.wf_write _ hw.seenForm (by have := y.isLt; simpa [alpha] using this) }
      have hp1 : Parsing s1 := ⟨hp.nodes, hp.rootInternal, hp.stack, hp.count, hp.fresh, hp.owed, hp.room, hp.ints, by simp [s1]⟩
      obtain ⟨m, n, h1, h2, h3, h4, h5, h6⟩ := treeAttach_ok (s := s1) rfl hp1 hw1 hk
      have hfr : ∀ f, (({ s1 with node := m, psN := n } : State).nodeAt s1.tNodes).bind Node.freq = some f → f ≤ s.cfg.maxCnt :=
        fun _ => nodeAt_freq_le (s := { s1 with node := m, psN := n }) hw.old h3
      obtain ⟨g1, g2, g3, g4⟩ := newNode_ok (s := s1) (leaf := true) (y := y) hk h2 h3 h4 h5 hfr
      clear hfr
      have hn : n ≤ s.psN := by rw [h6]; simp only [s1]; split <;> omega
      show (∃ t, ((treeAttach s1.tNodes s1).next _) = _ ∧ _) ∨ (∃ t, ((treeAttach s1.tNodes s1).next _) = _ ∧ _) ∨
        (∃ i d u, ((treeAttach s1.tNodes s1).next _) = _ ∧ _)
      rw [h1, Res.next_ok]
      unfold writeTreeNode
      rw [writeNode_ok _ _ hk, Res.next_ok]
      unfold treeComplete
      -- the state after the leaf
      have hmid : ∀ u : State, u = { s1 with
            node := Memory.write m s1.tNodes
              { leaf := true, sym := y, left := 0, right := 0,
                freq := (({ s1 with node := m, psN := n } : State).nodeAt s1.tNodes).bind Node.freq }
            psN := n, tLwi := false, tLeaves := s1.tLeaves + 1, tNodes := s1.tNodes + 1 } → Mid u := by
        rintro u rfl
        refine ⟨{ hw1 with psN := ?_, tNodes := ?_, tLeaves := ?_, nodeForm := g1, nodeElem := g2 }, hm.cfg, hm.err, hm.done,
          hm.bitcnt, hm.pq, hm.writer⟩
        · have := hw.psN; simp; omega
        · simp [nodeMax, s1] at hk ⊢; omega
        · simp [s1]; omega
      have howed : n = 0 → s.tLeaves = s.tInts := by
        intro h0
        rcases Nat.eq_zero_or_pos s.tNodes with hz | hz
        · omega
        · have ho := hp.owed hz
          rw [h6] at h0
          by_cases hl : s.tLwi = true
          · rw [if_pos (.inr hl)] at h0; simp only [s1] at h0; omega
          · rw [if_neg (by simp [s1, hl]; omega)] at h0; simp [hl] at ho; simp only [s1] at h0; omega
      by_cases hz : n = 0
      · rw [if_pos ⟨rfl, by simp, hz⟩]
        have hll := howed hz
        split
        · rename_i hlt
          right; right
          exact ⟨_, _, _, rfl, hmid _ rfl, hph⟩
        · rename_i hge
          right; left
          simp only [s1, Nat.not_lt] at hge
          have hk0 : 0 < s.tNodes := by omega
          refine ⟨_, rfl, hmid _ rfl, hph, rfl, hN, by simp, ?_, ?_, g3, g4 (.inr hk0)⟩
          · simp [s1]; omega
          · simp [s1]; omega
      · rw [if_neg (by simp [hz])]
        left
        have hz0 : 0 < s.tNodes := by
          rcases Nat.eq_zero_or_pos s.tNodes with h0 | h0
          · have := hp.fresh h0; omega
          · exact h0
        refine ⟨_, rfl, hmid _ rfl, hph, hseen.write _ (by have := y.isLt; simpa [alpha] using this), ?_, hN⟩
        refine ⟨g3, fun _ => g4 (.inr hz0), ?_, by simp [s1]; omega, by simp, ?_, ?_, hp.ints, by simp [s1]⟩
        · intro i hi
          obtain ⟨k, hk1, hk2⟩ := hp.stack i (by simp at hi; omega)
          exact ⟨k, hk1, by simp [s1]; omega⟩
        · intro _
          have ho := hp.owed hz0
          rw [h6]
          by_cases hl : s.tLwi = true
          · rw [hl] at ho; simp at ho
            simp [s1, hl]; omega
          · simp [hl] at ho
            rw [if_neg (by simp [s1, hl]; omega)] at h6
            simp only [s1] at h6
            rw [← h6]
            simp [s1, show s.tNodes ≠ 0 by omega, hl]; omega
        · simp [s1]; omega
  · rw [if_neg h8]
    left
    refine ⟨_, rfl, ⟨⟨{ hw with tSymn := by simp; omega }, hm.cfg, hm.err, hm.done, hm.bitcnt, hm.pq, hm.writer⟩, hph, hseen,
      ⟨hp.nodes, hp.rootInternal, hp.stack, hp.count, hp.fresh, hp.owed, hp.room, hp.ints, ?_⟩, hN⟩⟩
    intro _; simp; omega

/-- One bit of the tree section in a parse (R218). -/
theorem treeBit_ok {s : State} (x : Bool) (h : InTree s) :
    (∃ t, treeBit x s = .ok false t ∧ InTree t) ∨
    (∃ t, treeBit x s = .ok true t ∧ TreeDone t) ∨
    (∃ i d u, treeBit x s = .raised (raise .corruptArtifact i d u) ∧ Mid u ∧ u.phase = .dTree) := by
  unfold treeBit
  cases hst : s.tState with
  | flag =>
    rcases treeFlag_ok x h hst with ⟨t, h1, h2⟩ | ⟨d, h1⟩
    · left; exact ⟨t, by simp [h1], h2⟩
    · right; right; exact ⟨infoBadTree, d, s, by simp [h1], h.mid, h.phase⟩
  | sym => exact treeSymbit_ok x h hst

/-- DEC.TREE in a parse: it goes on, or the tree is complete and D_PAD is entered, or the artifact is corrupt (R218). -/
theorem treeBits_ok {s : State} (c : Bits) (h : InTree s) :
    (∃ t, treeBits c s = .ok () t ∧ InTree t) ∨
    (∃ t, treeBits c s = .ok () { t with root := 0, phase := .dPad } ∧ TreeDone t) ∨
    (∃ i d u, treeBits c s = .raised (raise .corruptArtifact i d u) ∧ Mid u ∧ u.phase = .dTree) := by
  induction c generalizing s with
  | nil => exact .inl ⟨s, rfl, h⟩
  | cons x c ih =>
    unfold treeBits
    rcases treeBit_ok x h with ⟨t, h1, h2⟩ | ⟨t, h1, h2⟩ | ⟨i, d, u, h1, h2, h3⟩
    · rw [h1]; exact ih h2
    · rw [h1]; exact .inr (.inl ⟨t, rfl, h2⟩)
    · rw [h1]; exact .inr (.inr ⟨i, d, u, rfl, h2, h3⟩)

end Sys2Proof.Machine
end

