-- ==== Sys2Proof/Laws/PerInstr.lean ====
section
/-! SUPPORT. One statement for every instruction as syntax: the word that encodes it has the format that its selector reads
(30_encoding.md R90, R114), so the decoder never rejects it as `wrongFormat`. -/

namespace Sys2Proof.Laws.EncodedForm

open Sys2Proof

/-- The format of R90 that a selector reads. -/
def reads : Selector → Word → Bool
  | .command _, .cmd _ => true
  | .input _ _, .inBeat _ => true
  | .output, .outBeat _ => true
  | .artN, .bytes bs | .artTree1, .bytes bs | .artPad, .bytes bs => bs.length == 1
  | .payload, .bytes _ => true
  | .token, .bits _ | .treePad, .bits _ | .codeBits, .bits _ => true
  | .internal _, .noBits | .reset, .noBits => true
  | _, _ => false

/-- The word of an instruction has the format its selector reads. -/
def Statement (i : Instr) : Prop := ∀ sel w, encode i = some (sel, w) → reads sel w = true

theorem of_some {i : Instr} {sel : Selector} {w : Word} (h : encode i = some (sel, w)) (hr : reads sel w = true) :
    Statement i := by
  intro sel' w' h'
  rw [h] at h'
  cases h'
  exact hr

theorem of_none {i : Instr} (h : encode i = none) : Statement i := by
  intro sel w h'
  rw [h] at h'
  cases h'

theorem cmdCompress : Statement .cmdCompress := of_some rfl rfl
theorem cmdDecompress : Statement .cmdDecompress := of_some rfl rfl
theorem cmdClear : Statement .cmdClear := of_some rfl rfl
theorem cmdReserved : Statement .cmdReserved := of_some rfl rfl
theorem cmdIgnored (op : BitVec 2) : Statement (.cmdIgnored op) := of_some rfl rfl
theorem freqCount (b : Byte) : Statement (.freqCount b) := of_some rfl rfl
theorem scanEnd : Statement .scanEnd := of_some rfl rfl
theorem scanFail : Statement .scanFail := of_some rfl rfl
theorem encSym (b : Byte) : Statement (.encSym b) := of_some rfl rfl
theorem encEnd : Statement .encEnd := of_some rfl rfl
theorem encFail : Statement .encFail := of_some rfl rfl
theorem decCount (b : Byte) : Statement (.decCount b) := of_some rfl rfl
theorem decTruncCount : Statement .decTruncCount := of_some rfl rfl
theorem decSrcfailCount : Statement .decSrcfailCount := of_some rfl rfl
theorem decTree1 (b : Byte) : Statement (.decTree1 b) := of_some rfl rfl
theorem decTree (b : Byte) : Statement (.decTree b) := of_some rfl rfl
theorem decTruncTree : Statement .decTruncTree := of_some rfl rfl
theorem decSrcfailTree : Statement .decSrcfailTree := of_some rfl rfl
theorem decPad (b : Byte) : Statement (.decPad b) := of_some rfl rfl
theorem decTruncPad : Statement .decTruncPad := of_some rfl rfl
theorem decSrcfailPad : Statement .decSrcfailPad := of_some rfl rfl
theorem decData (b : Byte) : Statement (.decData b) := of_some rfl rfl
theorem decEnd : Statement .decEnd := of_some rfl rfl
theorem decFail : Statement .decFail := of_some rfl rfl
theorem outData (b : Byte) : Statement (.outData b) := of_some rfl rfl
theorem outEnd : Statement .outEnd := of_some rfl rfl
theorem artN (n : Byte) : Statement (.artN n) := of_some rfl rfl
theorem artTree1 (y : Byte) : Statement (.artTree1 y) := of_some rfl rfl
theorem tInternal : Statement .tInternal := of_some rfl rfl
theorem tLeaf (y : Byte) : Statement (.tLeaf y) := of_some rfl rfl
theorem artTreepad (n : Nat) : Statement (.artTreepad n) := of_some rfl rfl
theorem artPad (p : BitVec 3) : Statement (.artPad p) := of_some rfl rfl
theorem artPayload (bs : List Byte) : Statement (.artPayload bs) := of_some rfl rfl
theorem code (c : Bits) : Statement (.code c) := of_some rfl rfl
theorem freqClear : Statement .freqClear := of_none rfl
theorem build : Statement .build := of_some rfl rfl
theorem pqInsert (f k : Nat) : Statement (.pqInsert f k) := of_none rfl
theorem pqExtractMin : Statement .pqExtractMin := of_none rfl
theorem pqInit : Statement .pqInit := of_none rfl
theorem merge : Statement .merge := of_none rfl
theorem derive : Statement .derive := of_some rfl rfl
theorem codeClear : Statement .codeClear := of_none rfl
theorem codeAssign (k : Nat) (p : Bits) : Statement (.codeAssign k p) := of_none rfl
theorem codeAssign1 : Statement .codeAssign1 := of_none rfl
theorem codeLookup (b : Byte) : Statement (.codeLookup b) := of_none rfl
theorem padPredict : Statement .padPredict := of_none rfl
theorem wPutbit (x : Bool) : Statement (.wPutbit x) := of_none rfl
theorem wPutbits (c : Bits) : Statement (.wPutbits c) := of_none rfl
theorem wFlush : Statement .wFlush := of_none rfl
theorem wPutbyte (v : Byte) : Statement (.wPutbyte v) := of_none rfl
theorem rBits (v : Byte) (n : Nat) : Statement (.rBits v n) := of_none rfl
theorem emitHdr : Statement .emitHdr := of_some rfl rfl
theorem hdrCount : Statement .hdrCount := of_none rfl
theorem hdrTree1 : Statement .hdrTree1 := of_none rfl
theorem hdrTree : Statement .hdrTree := of_none rfl
theorem hdrPad : Statement .hdrPad := of_none rfl
theorem treeFlag (x : Bool) : Statement (.treeFlag x) := of_none rfl
theorem treeSymbit (x : Bool) : Statement (.treeSymbit x) := of_none rfl
theorem treeAttach (k : Nat) : Statement (.treeAttach k) := of_none rfl
theorem treeComplete : Statement .treeComplete := of_none rfl
theorem walkBit (x : Bool) : Statement (.walkBit x) := of_none rfl
theorem walkBit1 (x : Bool) : Statement (.walkBit1 x) := of_none rfl
theorem errorEntry (e : ErrCode) (info : BitVec 4) (data : Byte) : Statement (.errorEntry e info data) := of_none rfl
theorem reset : Statement .reset := of_some rfl rfl

end Sys2Proof.Laws.EncodedForm
end

