-- ==== Sys2Proof/Laws/Step.lean ====
section
/-! SUPPORT. What one step can do, said once: which operation ran, in which phase, on which event. -/

namespace Sys2Proof.Machine

/-- Every way a step can answer a next state. -/
inductive Stepped (s t : State) : Prop where
  | reset (h : s.event = .reset) (e : t = resetBlock s.tick)
  | output (h : s.event = .output) (e : t = transferOutput s.tick)
  | idle (h : s.event = .idle) (e : t = s.tick)
  | build (h : s.event = .internal) (p : s.phase = .build) (e : (build s).outcome = .next t)
  | derive (h : s.event = .internal) (p : s.phase = .derive) (e : (derive s).outcome = .next t)
  | emitHdr (h : s.event = .internal) (p : s.phase = .emitHdr) (e : (emitHdr s).outcome = .next t)
  | compress (h : s.event = .command 1#2) (p : s.phase = .idle) (e : t = cmdCompress s.tick)
  | decompress (h : s.event = .command 2#2) (p : s.phase = .idle) (e : t = cmdDecompress s.tick)
  | clear (h : s.event = .command 3#2) (p : s.phase = .idle ∨ s.phase = .error) (e : t = resetBlock s.tick)
  | reserved (op : BitVec 2) (h : s.event = .command op) (h1 : op ≠ 1#2) (h2 : op ≠ 2#2) (h3 : op ≠ 3#2)
      (p : s.phase = .idle) (e : t = raise .illegalCmd infoNone 0#8 s.tick)
  | ignored (op : BitVec 2) (h : s.event = .command op) (hop : op ≠ 3#2) (p : s.phase = .error)
      (e : t = { s.tick with rangesEnded := true })
  | freqCount (w : BitVec 10) (b : Byte) (h : s.event = .input w) (k : beatKind w = .data b) (p : s.phase = .scan)
      (e : (freqCount b s.tick).outcome = .next t)
  | scanEnd (w : BitVec 10) (h : s.event = .input w) (k : beatKind w = .endOfStream) (p : s.phase = .scan)
      (e : (scanEnd s.tick).outcome = .next t)
  | encSym (w : BitVec 10) (b : Byte) (h : s.event = .input w) (k : beatKind w = .data b) (p : s.phase = .encode)
      (e : (encSym b s.tick).outcome = .next t)
  | encEnd (w : BitVec 10) (h : s.event = .input w) (k : beatKind w = .endOfStream) (p : s.phase = .encode)
      (e : (encEnd s.tick).outcome = .next t)
  | sourceFailure (w : BitVec 10) (h : s.event = .input w) (k : beatKind w = .fail)
      (p : s.phase = .scan ∨ s.phase = .encode) (e : t = raise .inputRead infoNone 0#8 s.tick)
  | decCount (w : BitVec 10) (b : Byte) (h : s.event = .input w) (k : beatKind w = .data b) (p : s.phase = .dCount)
      (e : t = decCount b s.tick)
  | decTree1 (w : BitVec 10) (b : Byte) (h : s.event = .input w) (k : beatKind w = .data b) (p : s.phase = .dTree)
      (n : s.nsym = 1) (e : (decTree1 b s.tick).outcome = .next t)
  | decTree (w : BitVec 10) (b : Byte) (h : s.event = .input w) (k : beatKind w = .data b) (p : s.phase = .dTree)
      (n : s.nsym ≠ 1) (e : (decTree b s.tick).outcome = .next t)
  | decPad (w : BitVec 10) (b : Byte) (h : s.event = .input w) (k : beatKind w = .data b) (p : s.phase = .dPad)
      (e : (decPad b s.tick).outcome = .next t)
  | truncated (w : BitVec 10) (h : s.event = .input w) (k : beatKind w = .endOfStream)
      (p : s.phase = .dCount ∨ s.phase = .dTree ∨ s.phase = .dPad) (e : t = truncated s.tick)
  | sourceFailed (w : BitVec 10) (h : s.event = .input w) (k : beatKind w = .fail)
      (p : s.phase = .dCount ∨ s.phase = .dTree ∨ s.phase = .dPad ∨ s.phase = .dPayload) (e : t = sourceFailed s.tick)
  | decData (w : BitVec 10) (b : Byte) (h : s.event = .input w) (k : beatKind w = .data b) (p : s.phase = .dPayload)
      (e : (decData b s.tick).outcome = .next t)
  | decEnd (w : BitVec 10) (h : s.event = .input w) (k : beatKind w = .endOfStream) (p : s.phase = .dPayload)
      (e : (decEnd s.tick).outcome = .next t)

theorem decodeCommand_ok {s t : State} {op : BitVec 2} (he : s.event = .command op)
    (h : runDecoded (decodeCommand s.phase op) s.tick = .next t) : Stepped s t := by
  cases hp : s.phase <;> simp only [hp, decodeCommand, runDecoded, reduceCtorEq] at h
  · by_cases h1 : op = 1#2
    · subst h1; exact .compress he hp (by simpa [runDecoded, exec, execCmdCompress] using h.symm)
    · by_cases h2 : op = 2#2
      · subst h2; exact .decompress he hp (by simpa [runDecoded, exec, execCmdDecompress] using h.symm)
      · by_cases h3 : op = 3#2
        · subst h3; exact .clear he (.inl hp) (by simpa [runDecoded, exec, execCmdClear] using h.symm)
        · refine .reserved op he h1 h2 h3 hp ?_
          simpa [h1, h2, h3, runDecoded, exec, execCmdReserved] using h.symm
  · by_cases h3 : op = 3#2
    · subst h3; exact .clear he (.inr hp) (by simpa [runDecoded, exec, execCmdClear] using h.symm)
    · exact .ignored op he h3 hp (by simpa [h3, runDecoded, exec, execCmdIgnored] using h.symm)

theorem decodeInput_ok {s t : State} {w : BitVec 10} (he : s.event = .input w)
    (h : runDecoded (decodeInput s.phase (decide (s.nsym = 1)) w) s.tick = .next t) : Stepped s t := by
  cases hp : s.phase <;> cases hk : beatKind w <;>
    simp only [hp, hk, decodeInput, runDecoded, exec, reduceCtorEq] at h
  · exact .freqCount w _ he hk hp (reading_eq_next.1 h).2
  · exact .scanEnd w he hk hp (reading_eq_next.1 h).2
  · exact .sourceFailure w he hk (.inl hp) (by simpa [execScanFail] using h.symm)
  · exact .encSym w _ he hk hp (reading_eq_next.1 h).2
  · exact .encEnd w he hk hp (reading_eq_next.1 h).2
  · exact .sourceFailure w he hk (.inr hp) (by simpa [execEncFail] using h.symm)
  · exact .decCount w _ he hk hp (by simpa [execDecCount] using h.symm)
  · exact .truncated w he hk (.inl hp) (by simpa [execDecTruncCount] using h.symm)
  · exact .sourceFailed w he hk (.inl hp) (by simpa [execDecSrcfailCount] using h.symm)
  · by_cases hn : s.nsym = 1
    · simp only [hn, decide_true, if_true] at h
      exact .decTree1 w _ he hk hp hn h
    · simp only [hn, decide_false, if_false, Bool.false_eq_true] at h
      exact .decTree w _ he hk hp hn (reading_eq_next.1 h).2
  · exact .truncated w he hk (.inr (.inl hp)) (by simpa [execDecTruncTree] using h.symm)
  · exact .sourceFailed w he hk (.inr (.inl hp)) (by simpa [execDecSrcfailTree] using h.symm)
  · exact .decPad w _ he hk hp (reading_eq_next.1 h).2
  · exact .truncated w he hk (.inr (.inr hp)) (by simpa [execDecTruncPad] using h.symm)
  · exact .sourceFailed w he hk (.inr (.inr (.inl hp))) (by simpa [execDecSrcfailPad] using h.symm)
  · exact .decData w _ he hk hp (reading_eq_next.1 h).2
  · exact .decEnd w he hk hp (reading_eq_next.1 h).2
  · exact .sourceFailed w he hk (.inr (.inr (.inr hp))) (by simpa [execDecFail] using h.symm)

/-- Every next state of a step is one of these. -/
theorem step_cases {s t : State} (h : step s = .next t) : Stepped s t := by
  unfold step at h
  cases he : s.event <;> simp only [he, decode] at h
  · exact .reset he (by simpa [runDecoded, exec, execReset] using h.symm)
  · exact .output he (by simpa using h.symm)
  · cases hp : s.phase <;> simp only [hp, decodeInternal, runDecoded, exec, reduceCtorEq] at h
    · exact .build he hp (reading_eq_next.1 h).2
    · exact .derive he hp (reading_eq_next.1 h).2
    · exact .emitHdr he hp (reading_eq_next.1 h).2
  · exact decodeCommand_ok he h
  · exact decodeInput_ok he h
  · exact .idle he (by simpa using h.symm)

/-- At a command or an input beat the output queue is empty (20_memory.md R74). -/
theorem oq_empty_of_command {s : State} {op : BitVec 2} (h : s.event = .command op) : s.oq = [] := by
  unfold State.event at h
  dsimp only at h
  repeat' split at h
  all_goals simp_all [State.cmdReady]

theorem oq_empty_of_input {s : State} {w : BitVec 10} (h : s.event = .input w) : s.oq = [] := by
  unfold State.event at h
  dsimp only at h
  repeat' split at h
  all_goals simp_all [State.inReady]

theorem rst_of_reset {s : State} (h : s.event = .reset) : s.edge.rst = true := by
  unfold State.event at h
  dsimp only at h
  repeat' split at h
  all_goals simp_all

end Sys2Proof.Machine
end

