-- ==== Sys2Proof/Laws/Walk.lean ====
section
/-! SUPPORT. The walk over the decoder's tree (45_decode.md R231 to R237): it never stops, and walking the codes of some symbols
gives these symbols back. -/

namespace Sys2Proof.Machine

theorem DecoderTree.walked {s : State} {n : Nat} (h : DecoderTree s n) (c : Nat) (oq : List OutBeat) :
    DecoderTree { s with cur := c, oq := oq } n := ⟨h.root, h.pos, h.nodes, h.kind⟩

/-- One WALK in a state that the decoder reaches (R232, R233). -/
theorem walk_ok {s : State} {n : Nat} (x : Bool) (h : DecoderTree s n) (hw : WalkOk s n) :
    ∃ c ys, walk x s = .ok () { s with cur := c, oq := s.oq ++ dataBeats ys } ∧
      WalkOk { s with cur := c, oq := s.oq ++ dataBeats ys } n ∧ ys.length ≤ 1 ∧ (s.nsym = 1 → ys.length = 1) := by
  obtain ⟨hcur, h1, h2⟩ := hw
  obtain ⟨e0, he0, hk0⟩ := h.kind
  unfold walk
  by_cases hN : s.nsym = 1
  · rw [if_pos hN]
    refine ⟨s.cur, [e0.sym], ?_, ⟨hcur, h1, h2⟩, by simp, by simp⟩
    unfold walkBit1 readSym
    rw [h.root, show readNode 0 s = .ok e0 s from readAt_some _ he0, Res.bind_ok, if_pos (hk0.2 hN)]
    simp [Res.bind_ok, emit, pushBeat, dataBeats, h.root]
  · rw [if_neg hN]
    obtain ⟨e, he, hl⟩ := h2 hN
    obtain ⟨e', he', hle, hre⟩ := h.nodes _ hcur
    rw [he] at he'; cases he'
    unfold walkBit
    rw [readChild_inner he hl, Res.bind_ok]
    dsimp only
    have hc : (if x = true then e.right else e.left) < n := by split <;> assumption
    generalize (if x = true then e.right else e.left) = c at hc
    obtain ⟨m, hm, _, _⟩ := h.nodes _ hc
    rw [show readNode c s = .ok m s from readAt_some _ hm, Res.bind_ok]
    cases hml : m.leaf with
    | true =>
      refine ⟨s.root, [m.sym], rfl, ⟨?_, fun _ => rfl, fun _ => ?_⟩, by simp, by simp⟩
      · show s.root < n; rw [h.root]; exact h.pos
      · refine ⟨e0, ?_, ?_⟩
        · show Memory.read s.node s.root = _; rw [h.root]; exact he0
        · cases hh : e0.leaf with
          | false => rfl
          | true => exact absurd (hk0.1 hh) hN
    | false =>
      refine ⟨c, [], by simp [dataBeats], ⟨hc, fun h' => absurd h' hN, fun _ => ⟨m, hm, hml⟩⟩, by simp, fun h' => absurd h' hN⟩

/-- WALK over some bits in a state that the decoder reaches. -/
theorem walkBits_ok {s : State} {n : Nat} (c : Bits) (h : DecoderTree s n) (hw : WalkOk s n) :
    ∃ k ys, walkBits c s = .ok () { s with cur := k, oq := s.oq ++ dataBeats ys } ∧
      WalkOk { s with cur := k, oq := s.oq ++ dataBeats ys } n ∧ ys.length ≤ c.length ∧
      (s.nsym = 1 → ys.length = c.length) := by
  induction c generalizing s with
  | nil => exact ⟨s.cur, [], by simp [walkBits, dataBeats], hw, by simp, by simp⟩
  | cons x c ih =>
    obtain ⟨k, ys, h1, h2, h3, h4⟩ := walk_ok x h hw
    obtain ⟨k', ys', g1, g2, g3, g4⟩ := ih (h.walked k _) h2
    refine ⟨k', ys ++ ys', ?_, g2, by simp; omega, ?_⟩
    · unfold walkBits
      rw [h1, Res.next_ok, g1]
      simp [dataBeats]
    · intro hN; have := h4 hN; have := g4 hN; simp; omega

/-- In a tree, walking a path from the node where it starts ends at the leaf, which leaves, and the walk is back at the root. -/
theorem walkBits_path {s : State} {t : HTree} {k : Nat} (h : Represents s.node k t) (hN : s.nsym ≠ 1)
    {p : Bits} {q : Byte × Bits} (hq : q ∈ t.paths p) :
    ∃ c, q.2 = p ++ c ∧ (c ≠ [] → s.cur = k →
      walkBits c s = .ok () { s with cur := s.root, oq := s.oq ++ dataBeats [q.1] }) ∧ (c = [] → t = .leaf q.1) := by
  induction t generalizing k p s with
  | leaf y =>
    simp [HTree.paths] at hq; subst hq
    exact ⟨[], by simp, by simp, by simp⟩
  | node l r ihl ihr =>
    obtain ⟨n, hn, hl, hL, hR⟩ := h
    have step : ∀ (x : Bool) (u : HTree), Represents s.node (if x then n.right else n.left) u →
        (∀ {s : State} {k : Nat} {p : Bits}, Represents s.node k u → s.nsym ≠ 1 → q ∈ u.paths p →
          ∃ c, q.2 = p ++ c ∧ (c ≠ [] → s.cur = k →
            walkBits c s = .ok () { s with cur := s.root, oq := s.oq ++ dataBeats [q.1] }) ∧ (c = [] → u = .leaf q.1)) →
        q ∈ u.paths (p ++ [x]) →
        ∃ c, q.2 = p ++ c ∧ (c ≠ [] → s.cur = k →
          walkBits c s = .ok () { s with cur := s.root, oq := s.oq ++ dataBeats [q.1] }) ∧
          (c = [] → HTree.node l r = .leaf q.1) := by
      intro x u hu ih hmem
      obtain ⟨c, h1, h2, h3⟩ := ih (s := { s with cur := if x then n.right else n.left }) hu hN hmem
      refine ⟨x :: c, by rw [h1]; simp, ?_, by simp⟩
      intro _ hcur
      unfold walkBits walk
      rw [if_neg hN]
      unfold walkBit
      rw [hcur, readChild_inner hn hl, Res.bind_ok]
      dsimp only
      have hread : ∃ m, Memory.read s.node (if x = true then n.right else n.left) = some m ∧
          (m.leaf = true ↔ c = []) ∧ (c = [] → m.sym = q.1) := by
        cases u with
        | leaf y =>
          obtain ⟨m, hm, hml, hmy⟩ := hu
          simp [HTree.paths] at hmem
          subst hmem
          simp at h1
          subst h1
          exact ⟨m, hm, by simp [hml], by simp [hmy]⟩
        | node a b =>
          obtain ⟨m, hm, hml, _⟩ := hu
          refine ⟨m, hm, ?_, ?_⟩
          · simp only [hml, Bool.false_eq_true, false_iff]; intro hc; cases h3 hc
          · intro hc; cases h3 hc
      obtain ⟨m, hm, hml, hmy⟩ := hread
      rw [show readNode (if x = true then n.right else n.left) s = .ok m s from readAt_some _ hm, Res.bind_ok]
      by_cases hc : c = []
      · rw [if_pos (hml.2 hc), Res.next_ok, hc, hmy hc]; rfl
      · rw [if_neg (by rw [hml]; exact hc), Res.next_ok, h2 hc rfl]
    simp only [HTree.paths, List.mem_append] at hq
    rcases hq with hq | hq
    · exact step false l (by simpa using hL) (fun h1 h2 h3 => ihl h1 h2 h3) hq
    · exact step true r (by simpa using hR) (fun h1 h2 h3 => ihr h1 h2 h3) hq

theorem walkBits_append (c d : Bits) (s : State) :
    walkBits (c ++ d) s = (walkBits c s).next fun s => walkBits d s := by
  induction c generalizing s with
  | nil => rfl
  | cons x c ih =>
    simp only [List.cons_append, walkBits]
    cases walk x s with
    | ok a t => exact ih t
    | raised t => rfl
    | fault f => rfl

/-- A single leaf's only code, and every code of a tree with two leaves or more is a path that is not empty. -/
theorem walkBits_code {s : State} {t : HTree} (h : Represents s.node s.root t) (hN : t.leaves.length = 1 ↔ s.nsym = 1)
    (hc : s.cur = s.root) {q : Byte × Bits} (hq : q ∈ t.codes) :
    walkBits q.2 s = .ok () { s with oq := s.oq ++ dataBeats [q.1] } := by
  cases t with
  | leaf y =>
    obtain ⟨n, hn, hl, hy⟩ := h
    simp [HTree.codes] at hq; subst hq
    have h1 : s.nsym = 1 := hN.1 (by simp [HTree.leaves])
    simp [walkBits, walk, h1, walkBit1, readSym, readNode, readAt_some _ hn, hl, hy, emit, pushBeat, dataBeats]
  | node l r =>
    have h1 : s.nsym ≠ 1 := by
      intro h1
      have := hN.2 h1
      have := l.leaves_pos
      have := r.leaves_pos
      simp [HTree.leaves] at *; omega
    obtain ⟨c, h2, h3, h4⟩ := walkBits_path h h1 hq
    simp only [List.nil_append] at h2
    by_cases hcn : c = []
    · cases h4 hcn
    · rw [h2, h3 hcn hc, hc.symm]

/-- Walking the codes of some symbols one after the other gives these symbols (R237). -/
theorem walkBits_codes {s : State} {t : HTree} (h : Represents s.node s.root t) (hN : t.leaves.length = 1 ↔ s.nsym = 1)
    (hc : s.cur = s.root) {L : List (Byte × Bits)} (hL : ∀ q ∈ L, q ∈ t.codes) :
    walkBits (L.flatMap Prod.snd) s = .ok () { s with oq := s.oq ++ dataBeats (L.map Prod.fst) } := by
  induction L generalizing s with
  | nil => simp [walkBits, dataBeats]
  | cons q L ih =>
    rw [List.flatMap_cons, walkBits_append, walkBits_code h hN hc (hL q List.mem_cons_self), Res.next_ok]
    have := ih (s := { s with oq := s.oq ++ dataBeats [q.1] }) h hN hc fun p hp => hL p (List.mem_cons_of_mem _ hp)
    rw [this]
    simp [dataBeats]

end Sys2Proof.Machine
end

