-- ==== Sys2Proof/Tests/Slice0.lean ====
section
/-! SUPPORT. Tests: ill-formed terms are refused, words written out from 30_encoding.md decode as they should, one operation each on
the vectors of 95_test_vectors.md (named in the comments), and for every statement with hypotheses a witness that meets them. -/

namespace Sys2Proof.Tests

-- one declaration after the other: the kernel checks of the tests then do not wait in parallel
set_option Elab.async false

open Sys2Proof Sys2Proof.Machine

/-! ## Helpers -/

/-- The next state, if there is one. -/
def nextOf (o : Host.Outcome State Fault Refusal) : Option State :=
  match o with
  | .next t => some t
  | .fault _ => none
  | .refused _ => none

/-- The fault, if there is one. -/
def faultOf (o : Host.Outcome State Fault Refusal) : Option Fault :=
  match o with
  | .next _ => none
  | .fault f => some f
  | .refused _ => none

/-- What `f` sees in the next state of an operation. -/
def after {α : Type} (i : Instr) (s : State) (f : State → α) : Option α := (nextOf (exec i s)).map f

/-- What a decoder answers, if it answers an operation. -/
def decoded (sel : Selector) (w : Word) : Option Instr :=
  match decode sel w with
  | .ok i => some i
  | .error _ => none

/-- The data of the beats in `oq`; an end beat shows as none. -/
def beats (s : State) : List (Option Byte) := s.oq.map fun b => if b.isEnd then none else some b.data

/-- The error record and the phase. -/
structure Record where
  err : ErrCode
  info : BitVec 4
  errPhase : Phase
  data : Byte
  phase : Phase
  deriving DecidableEq, Repr

/-- The error record and the phase of a state. -/
def record (s : State) : Record := ⟨s.err, s.errInfo, s.errPhase, s.errData, s.phase⟩

/-- A leaf. -/
def leafN (y : Byte) (f : Option Nat) : Node := { leaf := true, sym := y, freq := f, left := 0, right := 0 }

/-- An internal node. -/
def innerN (l r : Nat) (f : Option Nat) : Node := { leaf := false, sym := 0#8, freq := f, left := l, right := r }

/-- FREQ with the given counts, every other one 0. -/
def counts (l : List (Nat × Nat)) : Memory Nat :=
  l.foldl (fun m p => Memory.write m p.1 p.2) (Memory.fill alpha 0)

/-- A state in a phase. -/
def inPhase (ph : Phase) : State := { State.reset with phase := ph }

/-- The tree and the codebook of V2 ("abab"), 95_test_vectors.md. -/
def v2 : State := { State.reset with
  phase := .encode, nsym := 2, root := 2, total := 4, paybits := 4, pad := 4
  node := [(0, leafN 0x61#8 (some 2)), (1, leafN 0x62#8 (some 2)), (2, innerN 0 1 (some 4))]
  code := [(0x61, { len := 1, bits := [false] }), (0x62, { len := 1, bits := [true] }), (0x63, { len := 0, bits := [] })] }

/-- The tree of V3 ("abcc") as BUILD makes it. -/
def v3 : State := { State.reset with
  phase := .derive, nsym := 3, root := 4, total := 4
  freq := counts [(0x61, 1), (0x62, 1), (0x63, 2)]
  node := [(0, leafN 0x61#8 (some 1)), (1, leafN 0x62#8 (some 1)), (2, leafN 0x63#8 (some 2)),
    (3, innerN 0 1 (some 2)), (4, innerN 2 3 (some 4))] }

/-- ENCODE with an empty writer. -/
def w0 : State := inPhase .encode

/-- BUILD with the counts of V11: the least and the greatest symbol value. -/
def b2 : State := { State.reset with phase := .build, freq := counts [(0, 2), (0xFF, 1)], total := 3, nsym := 2 }

/-- A single-leaf tree, symbol 61. -/
def v1 : State := { State.reset with
  phase := .emitHdr, nsym := 1, root := 0, total := 4, pad := 4, paybits := 4, node := [(0, leafN 0x61#8 (some 4))] }

/-- The decoder's tree of V3, in the payload phase. -/
def x3 : State := { State.reset with
  phase := .dPayload, nsym := 3, root := 0
  node := [(0, innerN 1 2 none), (1, leafN 0x63#8 none), (2, innerN 3 4 none), (3, leafN 0x61#8 none),
    (4, leafN 0x62#8 none)] }

/-- The parser in D_TREE with a number of symbols, nothing parsed yet. -/
def d0 (n : Nat) : State := { State.reset with phase := .dTree, nsym := n, seen := Memory.fill alpha false }

/-- D5: D_TREE, nsym 2, after the byte 58. -/
def d5 (n : Nat) : State := { d0 n with
  node := [(0, innerN 0 0 none)], pstack := [(0, 0)], psN := 1, tInts := 1, tNodes := 1, tLwi := true
  tState := .sym, tSym := 0x18#8, tSymn := 6 }

/-- D6: after D5, the byte 6C. -/
def d6 (n : Nat) : State := { d5 n with
  node := [(0, innerN 1 0 none), (1, leafN 0x61#8 none)], seen := Memory.write (Memory.fill alpha false) 0x61 true
  tLeaves := 1, tNodes := 2, tLwi := false, tSym := 0x0C#8, tSymn := 5 }

/-- PQ as in T3 (V5 after two merges). -/
def t3 : State := { State.reset with
  phase := .build, seq := 7, pqCount := 3
  pq := [{ freq := 5, seq := 0, node := 0 }, { freq := 2, seq := 5, node := 5 }, { freq := 4, seq := 6, node := 6 }] }

/-! ## WellFormed: every check refuses an ill-formed term -/

theorem test_wf_cmdIgnored : (Instr.cmdIgnored 3#2).wellFormed = false := by decide
theorem test_wf_artTreepad :
    (Instr.artTreepad 0).wellFormed = false ∧ (Instr.artTreepad 8).wellFormed = false := by decide
theorem test_wf_code :
    (Instr.code []).wellFormed = false ∧ (Instr.code (List.replicate 256 true)).wellFormed = false := by decide +kernel
theorem test_wf_pqInsert : (Instr.pqInsert 1 511).wellFormed = false := by decide
theorem test_wf_codeAssign :
    (Instr.codeAssign 511 []).wellFormed = false ∧
    (Instr.codeAssign 0 (List.replicate 256 true)).wellFormed = false := by decide +kernel
theorem test_wf_wPutbits :
    (Instr.wPutbits []).wellFormed = false ∧
    (Instr.wPutbits (List.replicate 256 true)).wellFormed = false := by decide +kernel
theorem test_wf_rBits : (Instr.rBits 0#8 9).wellFormed = false := by decide
theorem test_wf_treeAttach : (Instr.treeAttach 511).wellFormed = false := by decide
theorem test_wf_errorEntry : (Instr.errorEntry .none 0#4 0#8).wellFormed = false := by decide

/-! ## Decoding: a word written out for every operation that has one (30_encoding.md) -/

theorem test_decode_commands :
    decoded (.command .idle) (.cmd 0b01#2) = some .cmdCompress ∧
    decoded (.command .idle) (.cmd 0b10#2) = some .cmdDecompress ∧
    decoded (.command .idle) (.cmd 0b11#2) = some .cmdClear ∧
    decoded (.command .idle) (.cmd 0b00#2) = some .cmdReserved ∧
    decoded (.command .error) (.cmd 0b11#2) = some .cmdClear ∧
    decoded (.command .error) (.cmd 0b10#2) = some (.cmdIgnored 0b10#2) := by decide

theorem test_decode_scan :
    decoded (.input .scan false) (.inBeat 0b0001100010#10) = some (.freqCount 0x62#8) ∧
    decoded (.input .scan false) (.inBeat 0b0111111111#10) = some .scanEnd ∧
    decoded (.input .scan false) (.inBeat 0b1101100001#10) = some .scanFail := by decide

theorem test_decode_encode :
    decoded (.input .encode false) (.inBeat 0b0010000001#10) = some (.encSym 0x81#8) ∧
    decoded (.input .encode false) (.inBeat 0b0100000000#10) = some .encEnd ∧
    decoded (.input .encode true) (.inBeat 0b1000000000#10) = some .encFail := by decide

theorem test_decode_parser :
    decoded (.input .dCount false) (.inBeat 0b0000000010#10) = some (.decCount 0x02#8) ∧
    decoded (.input .dCount false) (.inBeat 0b0100000000#10) = some .decTruncCount ∧
    decoded (.input .dCount false) (.inBeat 0b1000000000#10) = some .decSrcfailCount ∧
    decoded (.input .dTree true) (.inBeat 0b0001100001#10) = some (.decTree1 0x61#8) ∧
    decoded (.input .dTree false) (.inBeat 0b0001011000#10) = some (.decTree 0x58#8) ∧
    decoded (.input .dTree false) (.inBeat 0b0100000000#10) = some .decTruncTree ∧
    decoded (.input .dTree true) (.inBeat 0b1100000000#10) = some .decSrcfailTree ∧
    decoded (.input .dPad false) (.inBeat 0b0000000100#10) = some (.decPad 0x04#8) ∧
    decoded (.input .dPad false) (.inBeat 0b0100000000#10) = some .decTruncPad ∧
    decoded (.input .dPad false) (.inBeat 0b1000000000#10) = some .decSrcfailPad := by decide

theorem test_decode_payload :
    decoded (.input .dPayload false) (.inBeat 0b0001010000#10) = some (.decData 0x50#8) ∧
    decoded (.input .dPayload false) (.inBeat 0b0100000000#10) = some .decEnd ∧
    decoded (.input .dPayload false) (.inBeat 0b1000000000#10) = some .decFail := by decide

theorem test_decode_output :
    decoded .output (.outBeat 0b001011000#9) = some (.outData 0x58#8) ∧
    decoded .output (.outBeat 0b100000000#9) = some .outEnd := by decide

/-- The tokens and the artifact elements; V5's artifact gives the bytes. -/
theorem test_decode_artifact :
    decoded .artN (.bytes [0x05#8]) = some (.artN 0x05#8) ∧
    decoded .artTree1 (.bytes [0x61#8]) = some (.artTree1 0x61#8) ∧
    decoded .token (.bits [false]) = some .tInternal ∧
    decoded .token (.bits [true, false, true, true, false, false, false, false, true]) = some (.tLeaf 0x61#8) ∧
    decoded .treePad (.bits [false, false, false, false, false]) = some (.artTreepad 5) ∧
    decoded .treePad (.bits [true, true]) = some (.artTreepad 2) ∧
    decoded .artPad (.bytes [0x01#8]) = some (.artPad 1#3) ∧
    decoded .payload (.bytes [0x6E#8, 0x8A#8, 0xDC#8]) = some (.artPayload [0x6E#8, 0x8A#8, 0xDC#8]) ∧
    decoded .codeBits (.bits [true, true, false]) = some (.code [true, true, false]) := by decide

theorem test_decode_internal :
    decoded (.internal .build) .noBits = some .build ∧ decoded (.internal .derive) .noBits = some .derive ∧
    decoded (.internal .emitHdr) .noBits = some .emitHdr ∧ decoded .reset .noBits = some .reset := by decide

theorem test_decode_rejects :
    decoded (.command .build) (.cmd 1#2) = none ∧ decoded (.input .idle false) (.inBeat 0#10) = none ∧
    decoded (.internal .scan) .noBits = none ∧ decoded .token (.bits [true, false]) = none ∧
    decoded .artPad (.bytes [0x08#8]) = none ∧ decoded .treePad (.bits []) = none ∧
    decoded .codeBits (.bits []) = none ∧ decoded .artN (.cmd 1#2) = none := by decide

/-- R114 "not encoded": the sub-operations have no word. -/
theorem test_not_encoded :
    ([Instr.freqClear, .pqInsert 1 0, .pqExtractMin, .pqInit, .merge, .codeClear, .codeAssign 0 [], .codeAssign1,
      .codeLookup 0#8, .padPredict, .wPutbit true, .wPutbits [true], .wFlush, .wPutbyte 0#8, .rBits 0#8 1, .hdrCount,
      .hdrTree1, .hdrTree, .hdrPad, .treeFlag true, .treeSymbit true, .treeAttach 0, .treeComplete, .walkBit true,
      .walkBit1 true, .errorEntry .illegalCmd 0#4 0#8].map encode).all (· == none) = true := by decide

theorem test_table_words :
    decodeTableWord 8 1 = some .cmdCompress ∧ decodeTableWord 16 0x061 = some (.freqCount 0x61#8) ∧
    decodeTableWord 16 0x400 = none := by decide

/-! ## Commands (46_codec_commands.md; vectors M1 to M6) -/

/-- M1. -/
theorem test_cmdCompress :
    after .cmdCompress { State.reset with doneOk := true, wN := 3, total := 4 }
      (fun t => (t.phase, t.doneOk, t.inReady, t.cmdReady, t.wN, t.total)) =
      some (.scan, false, true, false, 0, 0) := by decide +kernel
/-- M2. -/
theorem test_cmdDecompress :
    after .cmdDecompress { State.reset with tNodes := 3, holdV := true }
      (fun t => (t.phase, t.tNodes, t.holdV, Memory.read t.seen 255)) = some (.dCount, 0, false, some false) := by
  decide +kernel
/-- M5. -/
theorem test_cmdClear :
    after .cmdClear { State.reset with phase := .error, err := .corruptArtifact, errInfo := 7#4, doneOk := true }
      (fun t => (record t, t.doneOk)) = some (⟨.none, 0#4, .idle, 0#8, .idle⟩, false) := by decide +kernel
/-- M3. -/
theorem test_cmdReserved :
    after .cmdReserved State.reset record = some ⟨.illegalCmd, 0#4, .idle, 0#8, .error⟩ := by decide +kernel
/-- M4. -/
theorem test_cmdIgnored :
    after (.cmdIgnored 1#2) { State.reset with phase := .error, err := .corruptArtifact, errInfo := 7#4 } record =
      some ⟨.corruptArtifact, 7#4, .idle, 0#8, .error⟩ := by decide +kernel
/-- M8. -/
theorem test_reset :
    after .reset { v2 with oq := [endOfOutput] } (fun t => (t.phase, t.oq, t.paybits, t.nsym)) = some (.idle, [], 0, 0) := by
  decide +kernel
theorem test_errorEntry :
    after (.errorEntry .corruptArtifact 7#4 0x63#8) v2 record =
      some ⟨.corruptArtifact, 7#4, .encode, 0x63#8, .error⟩ := by decide +kernel

/-! ## Frequency accounting (40_frequency.md; vectors F1 to F6) -/

theorem test_freqClear :
    after .freqClear { State.reset with total := 3, nsym := 2 }
      (fun t => (t.total, t.nsym, Memory.read t.freq 0, Memory.read t.freq 255)) = some (0, 0, some 0, some 0) := by
  decide +kernel
/-- F1, F2. -/
theorem test_freqCount_new :
    after (.freqCount 0x61#8) { inPhase .scan with freq := [(0x61, 0)] } (fun t => (t.freq, t.total, t.nsym)) =
      some ([(0x61, 1)], 1, 1) ∧
    after (.freqCount 0x61#8) { inPhase .scan with freq := [(0x61, 1)], total := 1, nsym := 1 }
      (fun t => (t.freq, t.total, t.nsym)) = some ([(0x61, 2)], 2, 1) := by decide +kernel
/-- F6. -/
theorem test_freqCount_overflow :
    after (.freqCount 0x61#8)
      { inPhase .scan with cfg := { cntW := 2 }, freq := [(0x61, 3)], total := 3, nsym := 1 }
      (fun t => (record t, t.freq, t.total)) =
      some (⟨.countOverflow, 0#4, .scan, 0x61#8, .error⟩, [(0x61, 3)], 3) := by decide +kernel
/-- F4. -/
theorem test_scanEnd :
    after .scanEnd (inPhase .scan) record = some ⟨.emptyInput, 0#4, .scan, 0#8, .error⟩ ∧
    after .scanEnd { inPhase .scan with total := 3 } State.phase = some .build := by decide +kernel
/-- F5. -/
theorem test_scanFail :
    after .scanFail { inPhase .scan with total := 3 } record = some ⟨.inputRead, 0#4, .scan, 0#8, .error⟩ := by
  decide +kernel

/-! ## Tree construction (41_tree_build.md; vectors T1 to T6) -/

theorem test_pqInsert :
    after (.pqInsert 6 7) { t3 with pq := [{ freq := 5, seq := 0, node := 0 }], pqCount := 1 }
      (fun t => (t.pq, t.seq, t.pqCount)) =
      some ([{ freq := 5, seq := 0, node := 0 }, { freq := 6, seq := 7, node := 7 }], 8, 2) := by decide +kernel
/-- T2: equal counts, the earlier entry is first, wherever it stands. -/
theorem test_pqExtractMin :
    after .pqExtractMin
      { t3 with pq := [{ freq := 2, seq := 3, node := 3 }, { freq := 2, seq := 2, node := 2 }], pqCount := 2 }
      (fun t => (t.ret, t.pqCount, t.pq)) =
      some (.entry 2 2, 1, [{ freq := 2, seq := 3, node := 3 }]) := by decide +kernel
/-- T3. -/
theorem test_merge :
    after .merge t3 (fun t => (t.node, t.pq, t.seq, t.pqCount)) =
      some ([(7, innerN 5 6 (some 6))], [{ freq := 5, seq := 0, node := 0 }, { freq := 6, seq := 7, node := 7 }], 8, 2) := by
  decide +kernel
/-- T4, T5: PQ.INIT makes the leaves in ascending symbol value, and the rarer symbol is left in their parent. -/
theorem test_build :
    after .build { inPhase .build with freq := counts [(0, 2), (0xFF, 1)], total := 3, nsym := 2 }
      (fun t => (t.node, t.root, t.seq, t.pqCount, t.phase)) =
      some ([(0, leafN 0x00#8 (some 2)), (1, leafN 0xFF#8 (some 1)), (2, innerN 1 0 (some 3))], 2, 3, 0, .derive) := by
  decide +kernel
/-- T6: one symbol, no second entry to merge with. -/
theorem test_pqInit_one :
    after .pqInit { inPhase .build with freq := Memory.fill 97 0 ++ [(0x61, 4)] ++ (List.range 158).map (fun i => (98 + i, 0)) }
      (fun t => (t.node, t.seq, t.pqCount)) = some ([(0, leafN 0x61#8 (some 4))], 1, 1) := by decide +kernel

/-! ## Codebook (42_codebook.md; vectors K1 to K5) -/

/-- K1, K3. -/
theorem test_derive :
    after .derive v3 (fun t => ([0x61, 0x62, 0x63, 0x64].map (Memory.read t.code), t.paybits, t.pad, t.bitcnt, t.phase)) =
      some ([some { len := 2, bits := [true, false] }, some { len := 2, bits := [true, true] },
        some { len := 1, bits := [false] }, some { len := 0, bits := [] }], 6, 2, 0, .emitHdr) := by decide +kernel
theorem test_codeClear :
    after .codeClear v2 (fun t => Memory.read t.code 0x61) = some (some { len := 0, bits := [] }) := by decide +kernel
theorem test_codeAssign :
    after (.codeAssign 3 [true]) v3 State.code =
      some [(0x61, { len := 2, bits := [true, false] }), (0x62, { len := 2, bits := [true, true] })] := by decide +kernel
/-- K2. -/
theorem test_codeAssign1 :
    after .codeAssign1 v1 State.code = some [(0x61, { len := 1, bits := [false] })] := by decide +kernel
/-- K5. -/
theorem test_codeLookup :
    after (.codeLookup 0x63#8) v2 State.ret = some (.code 0 none) ∧
    after (.codeLookup 0x62#8) v2 State.ret = some (.code 1 (some [true])) := by decide +kernel
/-- K3. -/
theorem test_padPredict :
    after .padPredict { v3 with
        bitcnt := 5
        code := [(0x61, 2), (0x62, 2), (0x63, 1)].foldl
          (fun m p => Memory.write m p.1 { len := p.2, bits := [] }) (Memory.fill alpha { len := 0, bits := [] }) }
      (fun t => (t.paybits, t.pad, t.bitcnt)) = some (6, 2, 0) := by decide +kernel

/-! ## Bit stream (43_bitstream.md; vectors W1 to W12) -/

/-- W1, W3. -/
theorem test_wPutbit :
    after (.wPutbit true) w0 (fun t => (t.wAcc, t.wN, t.oq)) = some (0x80#8, 1, []) ∧
    after (.wPutbit true) { w0 with wAcc := 0xFE#8, wN := 7 } (fun t => (t.wAcc, t.wN, beats t)) =
      some (0x00#8, 0, [some 0xFF#8]) := by decide +kernel
/-- W4. -/
theorem test_wPutbits :
    after (.wPutbits [false, true, false, true, true, false, false, false, false, true]) w0
      (fun t => (t.wAcc, t.wN, beats t)) = some (0x40#8, 2, [some 0x58#8]) := by decide +kernel
/-- W5, W6. -/
theorem test_wFlush :
    after .wFlush { w0 with wAcc := 0x50#8, wN := 4 } (fun t => (t.wAcc, t.wN, beats t, t.ret)) =
      some (0x00#8, 0, [some 0x50#8], .padCount 4) ∧
    after .wFlush w0 (fun t => (t.oq, t.ret)) = some ([], .padCount 0) := by decide +kernel
/-- W8. -/
theorem test_wPutbyte :
    after (.wPutbyte 0x04#8) State.reset (fun t => (beats t, t.wN)) = some ([some 0x04#8], 0) := by decide +kernel
/-- W9, W12. -/
theorem test_rBits :
    after (.rBits 0x50#8 4) State.reset State.ret = some (.bits [false, true, false, true]) ∧
    after (.rBits 0x50#8 0) State.reset State.ret = some (.bits []) := by decide +kernel
/-- W11. -/
theorem test_rBits_seven :
    after (.rBits 0xDC#8 7) State.reset State.ret = some (.bits [true, true, false, true, true, true, false]) := by
  decide +kernel

/-! ## Header writing and payload encoding (44_framing.md; vectors H1 to H11) -/

/-- H1. -/
theorem test_emitHdr :
    after .emitHdr { v2 with phase := .emitHdr } (fun t => (beats t, t.phase, t.wN)) =
      some ([0x02#8, 0x58#8, 0x6C#8, 0x40#8, 0x04#8].map some, .encode, 0) := by decide +kernel
/-- H2. -/
theorem test_emitHdr_one :
    after .emitHdr v1 (fun t => (beats t, t.phase)) = some ([0x01#8, 0x61#8, 0x04#8].map some, .encode) := by
  decide +kernel
/-- H3. -/
theorem test_hdrCount :
    after .hdrCount { v2 with nsym := 256 } beats = some [some 0x00#8] := by decide +kernel
theorem test_hdrTree1 : after .hdrTree1 v1 beats = some [some 0x61#8] := by decide +kernel
/-- V3's tree section. -/
theorem test_hdrTree :
    after .hdrTree { v3 with phase := .emitHdr } (fun t => (beats t, t.wN)) =
      some ([0x58#8, 0xD6#8, 0x1B#8, 0x10#8].map some, 0) := by decide +kernel
theorem test_hdrPad : after .hdrPad v2 beats = some [some 0x04#8] := by decide +kernel
/-- H5, H7. -/
theorem test_encSym :
    after (.encSym 0x62#8) { v2 with bitcnt := 1, wN := 1 } (fun t => (t.wAcc, t.wN, t.bitcnt)) = some (0x40#8, 2, 2) ∧
    after (.encSym 0x61#8) { v2 with bitcnt := 4, wN := 4 } record =
      some ⟨.passMismatch, 1#4, .encode, 0x61#8, .error⟩ := by decide +kernel
/-- H6. -/
theorem test_encSym_unknown :
    after (.encSym 0x63#8) { v2 with bitcnt := 4, wN := 4 } (fun t => (record t, t.bitcnt, t.wN)) =
      some (⟨.unknownSymbol, 0#4, .encode, 0x63#8, .error⟩, 4, 4) := by decide +kernel
/-- H9. -/
theorem test_encEnd :
    after .encEnd { v2 with bitcnt := 4, wAcc := 0x50#8, wN := 4 } (fun t => (beats t, t.doneOk, t.phase)) =
      some ([some 0x50#8, none], true, .idle) := by decide +kernel
/-- H8. -/
theorem test_encEnd_short :
    after .encEnd { v2 with bitcnt := 3, wAcc := 0x40#8, wN := 3 } (fun t => (record t, t.oq, t.wN)) =
      some (⟨.passMismatch, 2#4, .encode, 0#8, .error⟩, [], 3) := by decide +kernel
/-- H11. -/
theorem test_encFail :
    after .encFail v2 record = some ⟨.inputRead, 0#4, .encode, 0#8, .error⟩ := by decide +kernel

/-! ## Header parsing (44_framing.md; vectors D1 to D17) -/

/-- D1, D2. -/
theorem test_decCount :
    after (.decCount 0x02#8) (inPhase .dCount) (fun t => (t.nsym, t.phase)) = some (2, .dTree) ∧
    after (.decCount 0x00#8) (inPhase .dCount) State.nsym = some 256 := by decide +kernel
/-- D3. -/
theorem test_decTruncCount :
    after .decTruncCount (inPhase .dCount) record = some ⟨.corruptArtifact, 1#4, .dCount, 0#8, .error⟩ := by decide +kernel
/-- D17. -/
theorem test_decSrcfail :
    after .decSrcfailCount (inPhase .dCount) record = some ⟨.corruptArtifact, 2#4, .dCount, 0#8, .error⟩ ∧
    after .decSrcfailTree (d0 2) record = some ⟨.corruptArtifact, 2#4, .dTree, 0#8, .error⟩ ∧
    after .decSrcfailPad (inPhase .dPad) record = some ⟨.corruptArtifact, 2#4, .dPad, 0#8, .error⟩ := by decide +kernel
/-- D4. -/
theorem test_decTree1 :
    after (.decTree1 0x61#8) (d0 1) (fun t => (t.node, t.root, t.phase)) = some ([(0, leafN 0x61#8 none)], 0, .dPad) := by
  decide +kernel
/-- D5. -/
theorem test_decTree_first : after (.decTree 0x58#8) (d0 2) id = some (d5 2) := by decide +kernel
/-- D7, D9. -/
theorem test_decTree_last :
    after (.decTree 0x40#8) (d6 2) (fun t => (t.node, t.phase, t.psN, t.tLeaves)) =
      some ([(0, innerN 1 2 none), (1, leafN 0x61#8 none), (2, leafN 0x62#8 none)], .dPad, 0, 2) ∧
    after (.decTree 0x20#8) (d6 2) record = some ⟨.corruptArtifact, 4#4, .dTree, 0x61#8, .error⟩ := by decide +kernel
/-- D13, D16. -/
theorem test_decTrunc :
    after .decTruncTree (d5 2) record = some ⟨.corruptArtifact, 1#4, .dTree, 0#8, .error⟩ ∧
    after .decTruncPad (inPhase .dPad) record = some ⟨.corruptArtifact, 1#4, .dPad, 0#8, .error⟩ := by decide +kernel
/-- D14, D15. -/
theorem test_decPad :
    after (.decPad 0x04#8) { inPhase .dPad with holdV := true, cur := 3 } (fun t => (t.pad, t.holdV, t.cur, t.phase)) =
      some (4, false, 0, .dPayload) ∧
    after (.decPad 0x08#8) (inPhase .dPad) record = some ⟨.corruptArtifact, 5#4, .dPad, 0x08#8, .error⟩ := by decide +kernel
/-- D11: the second internal node of a two-leaf tree. -/
theorem test_treeFlag :
    after (.treeFlag false) { d5 2 with tState := .flag } record = some ⟨.corruptArtifact, 3#4, .dTree, 0#8, .error⟩ ∧
    after (.treeFlag false) (d0 2) (fun t => (t.node, t.pstack, t.psN, t.tLwi, t.tInts, t.tNodes)) =
      some ([(0, innerN 0 0 none)], [(0, 0)], 1, true, 1, 1) := by decide +kernel
/-- D5: the symbol bits shift in from the right. -/
theorem test_treeSymbit :
    after (.treeSymbit false) { d5 2 with tSym := 0x0C#8, tSymn := 5 } (fun t => (t.tSym, t.tSymn, t.tState, t.ret)) =
      some (0x18#8, 6, .sym, .complete false) := by decide +kernel
/-- D6: the eighth bit makes the leaf and links it to the left. -/
theorem test_treeSymbit_leaf :
    after (.treeSymbit true) { d5 2 with tSym := 0x30#8, tSymn := 7 }
      (fun t => (t.node, Memory.read t.seen 0x61, t.tLeaves, t.tNodes, t.tLwi, t.psN)) =
      some ([(0, innerN 1 0 none), (1, leafN 0x61#8 none)], some true, 1, 2, false, 1) := by decide +kernel
/-- D7: pop 0, NODE[0].right = 2. -/
theorem test_treeAttach :
    after (.treeAttach 2) (d6 2) (fun t => (Memory.read t.node 0, t.psN)) = some (some (innerN 1 2 none), 0) := by
  decide +kernel
/-- D10. -/
theorem test_treeComplete :
    after .treeComplete { d6 3 with tNodes := 3, tLeaves := 2, psN := 0 } record =
      some ⟨.corruptArtifact, 3#4, .dTree, 0#8, .error⟩ ∧
    after .treeComplete { d6 2 with tNodes := 3, tLeaves := 2, psN := 0 } State.ret = some (.complete true) := by
  decide +kernel

/-! ## Payload walking (45_decode.md; vectors X2, X13, X16, X19) -/

/-- Bit 1 of X13, then bit 0: symbol a. -/
theorem test_walkBit :
    after (.walkBit true) x3 (fun t => (t.cur, t.oq)) = some (2, []) ∧
    after (.walkBit false) { x3 with cur := 2 } (fun t => (t.cur, beats t)) = some (0, [some 0x61#8]) := by decide +kernel
/-- 93_implementation_defined.md V2: a child of a leaf and the symbol of an internal node are free values, and the walk goes on. -/
theorem test_walk_free :
    after (.walkBit1 true) x3 (fun t => (beats t, t.draws)) = some ([some (Config.freeSym 0)], 1) ∧
    (readChild true 1 x3).outcomeRet (fun c => .entry 0 c) =
      .next { x3 with draws := 1, ret := .entry 0 (Config.freeIndex 0).toNat } := by
  constructor <;> rfl
theorem test_walkBit1 : after (.walkBit1 true) v1 (fun t => (t.cur, beats t)) = some (0, [some 0x61#8]) := by decide +kernel
/-- X13: B0 = 10 11 0 0 0 0. -/
theorem test_decData :
    after (.decData 0xB0#8) x3 (fun t => (t.hold, t.holdV, t.oq)) = some (0xB0#8, true, []) ∧
    after (.decData 0x00#8) { x3 with hold := 0xB0#8, holdV := true } beats =
      some ([0x61#8, 0x62#8, 0x63#8, 0x63#8, 0x63#8, 0x63#8].map some) := by decide +kernel
/-- V3's last byte with pad 2, X16. -/
theorem test_decEnd :
    after .decEnd { x3 with hold := 0xB0#8, holdV := true, pad := 2 } (fun t => (beats t, t.phase, t.doneOk)) =
      some ([some 0x61#8, some 0x62#8, some 0x63#8, some 0x63#8, none], .idle, true) ∧
    after .decEnd { x3 with pad := 4 } record = some ⟨.corruptArtifact, 6#4, .dPayload, 0x04#8, .error⟩ := by decide +kernel
/-- "abcc" cut inside the code of b. -/
theorem test_decEnd_midPath :
    after .decEnd { x3 with hold := 0xB0#8, holdV := true, pad := 5 } (fun t => (record t, beats t, t.cur)) =
      some (⟨.corruptArtifact, 7#4, .dPayload, 0#8, .error⟩, [some 0x61#8], 2) := by decide +kernel
/-- X19. -/
theorem test_decFail :
    after .decFail { x3 with hold := 0x50#8, holdV := true } (fun t => (record t, t.oq)) =
      some (⟨.corruptArtifact, 2#4, .dPayload, 0#8, .error⟩, []) := by decide +kernel

/-! ## Output and artifact elements (30_encoding.md R97 to R109) -/

theorem test_outData : after (.outData 0x58#8) State.reset beats = some [some 0x58#8] := by decide +kernel
theorem test_outEnd : after .outEnd State.reset beats = some [none] := by decide +kernel
/-- D1 from the reader's side, H3 from the writer's. -/
theorem test_artN :
    after (.artN 0x00#8) (inPhase .dCount) (fun t => (t.nsym, t.phase)) = some (256, .dTree) ∧
    after (.artN 0x02#8) v2 beats = some [some 0x02#8] := by decide +kernel
theorem test_artTree1 :
    after (.artTree1 0x61#8) (d0 1) (fun t => (t.node, t.phase)) = some ([(0, leafN 0x61#8 none)], .dPad) ∧
    after (.artTree1 0x61#8) v1 beats = some [some 0x61#8] := by decide +kernel
theorem test_tInternal :
    after .tInternal (d0 2) (fun t => (t.node, t.psN)) = some ([(0, innerN 0 0 none)], 1) ∧
    after .tInternal v2 (fun t => (t.wN, t.wAcc)) = some (1, 0#8) := by decide +kernel
/-- `1 01100001`. -/
theorem test_tLeaf :
    after (.tLeaf 0x61#8) { d5 2 with tState := .flag } (fun t => (Memory.read t.node 1, t.tLeaves)) =
      some (some (leafN 0x61#8 none), 1) ∧
    after (.tLeaf 0x61#8) v2 (fun t => (beats t, t.wAcc, t.wN)) = some ([some 0xB0#8], 0x80#8, 1) := by decide +kernel
/-- V2's five pad bits complete the byte 40. -/
theorem test_artTreepad :
    after (.artTreepad 5) { v2 with wAcc := 0x40#8, wN := 3 } (fun t => (beats t, t.wN)) = some ([some 0x40#8], 0) ∧
    after (.artTreepad 5) (inPhase .dPad) id = some (inPhase .dPad) := by decide +kernel
theorem test_artPad :
    after (.artPad 4#3) (inPhase .dPad) (fun t => (t.pad, t.phase)) = some (4, .dPayload) ∧
    after (.artPad 4#3) v2 beats = some [some 0x04#8] := by decide +kernel
theorem test_artPayload :
    after (.artPayload [0xB0#8, 0x00#8]) x3 (fun t => (beats t, t.hold)) =
      some ([0x61#8, 0x62#8, 0x63#8, 0x63#8, 0x63#8, 0x63#8].map some, 0x00#8) ∧
    after (.artPayload [0xB0#8]) v2 beats = some [some 0xB0#8] := by decide +kernel
theorem test_code :
    after (.code [true, false]) x3 (fun t => (beats t, t.cur)) = some ([some 0x61#8], 0) ∧
    after (.code [true, false]) v2 (fun t => (t.wAcc, t.wN)) = some (0x80#8, 2) := by decide +kernel

/-! ## Reads that no rule performs (10_state.md R47; 70_reset_and_hazards.md R311) -/

theorem test_outside_range :
    faultOf (exec (.wPutbit true) State.reset) = some (.outsideRange .writer) ∧
    faultOf (exec .hdrPad { v3 with phase := .scan }) = some (.outsideRange .pad) ∧
    faultOf (exec (.codeLookup 0x61#8) { v2 with phase := .scan }) = some (.outsideRange .codebook) ∧
    faultOf (exec (.freqCount 0x61#8) { b2 with phase := .dCount }) = some (.outsideRange .counts) := by decide +kernel
/-- R47 in ERROR: FREQ and CODE are kept until a command comes; the writer is meaningful in EMIT_HDR and ENCODE only. -/
theorem test_ranges_in_error :
    after (.codeLookup 0x62#8) (recorded .passMismatch 1#4 0#8 v2) State.ret = some (.code 1 (some [true])) ∧
    faultOf (exec (.wPutbit true) (recorded .passMismatch 1#4 0#8 v2)) = some (.outsideRange .writer) ∧
    faultOf (exec .hdrTree1 (recorded .corruptArtifact 3#4 0#8 (d5 2))) = some (.outsideRange .tree) ∧
    (after (.cmdIgnored 1#2) (recorded .countOverflow 0#4 0#8 { b2 with phase := .scan }) fun t =>
      (faultOf (exec .scanEnd { t with rangesEnded := false }), faultOf (exec .scanEnd t))) =
      some (none, some (.outsideRange .counts)) := by decide +kernel
/-- P2: after a command FREQ, CODE and NODE still hold what the last transaction left (10_state.md R20); to read it is a fault. -/
theorem test_stale_arrays :
    after .cmdDecompress v3 (fun t => (t.freqAt 0x63, t.nodeAt 3)) = some (some 2, some (innerN 0 1 (some 2))) ∧
    after .cmdCompress v2 (fun t => (t.codeAt 0x61, t.nodeAt 1)) =
      some (some { len := 1, bits := [false] }, some (leafN 0x62#8 (some 2))) ∧
    (after .cmdDecompress v3 fun t => faultOf (exec (.walkBit1 true) { t with phase := .dPayload })) =
      some (some (.unwritten .node v3.root)) := by decide +kernel
/-- R20 over two transactions: a node that the parser writes keeps the `freq` of an earlier one, a command in between or not. -/
theorem test_stale_freq :
    ((nextOf (exec .cmdDecompress v3)).bind fun t => after (.decTree1 0x61#8) { t with phase := .dTree, nsym := 1 }
      fun u => (u.node, u.nodeAt 4)) =
      some ([(0, leafN 0x61#8 (some 1))], some (innerN 2 3 (some 4))) := by decide +kernel

/-! ## The step -/

/-- The host's first edge after reset offers COMPRESS. -/
theorem test_step_command :
    (nextOf (step (State.reset.withFetchWord 8 1))).map (fun t => (t.phase, t.ports)) = some (.scan, []) := by decide +kernel
/-- A beat offered in SCAN. -/
theorem test_step_beat :
    (nextOf (step (State.reset.withFetchWord 16 0x061))).map (fun t => (t.total, t.nsym)) = some (1, 1) := by decide +kernel
/-- M7: a command waits until the output queue is empty. -/
theorem test_step_waits :
    (nextOf (step { State.reset with
      phase := .error, err := .corruptArtifact, oq := [endOfOutput], ports := [PortsIn.offerCommand 3#2] })).map
      (fun t => (t.phase, t.oq.length, t.ports)) = some (.error, 1, []) := by decide +kernel

/-! ## States that meet the invariant, one for each phase the statements speak of -/

/-- PQ full, with the last sequence number that a run reaches. -/
def t3full : State := { t3 with
  seq := 510, pqCount := 256, pq := (List.range 256).map fun i => { freq := 1, seq := i, node := i } }

/-- The parser with three nodes, two of them leaves, and nothing left to attach. -/
def dDone (n : Nat) : State := { d6 n with tNodes := 3, tLeaves := 2, psN := 0 }

/-- The payload phase with a held byte. -/
def x3h : State := { x3 with hold := 0xB0#8, holdV := true, pad := 2, paybits := 6 }

/-- The single-leaf decoder's tree in the payload phase, with a held byte. -/
def x1h : State := { State.reset with
  phase := .dPayload, nsym := 1, node := [(0, leafN 0x61#8 none)], hold := 0xF0#8, holdV := true, pad := 7 }

/-- The command DECOMPRESS has just opened the parser. -/
def dC : State := { State.reset with phase := .dCount, seen := Memory.fill alpha false }

theorem inv_of {s : State} (w : Widths s) (hc : s.cfg = Config.standard) (he : record s = ⟨.none, 0#4, .idle, 0#8, s.phase⟩)
    (hd : s.doneOk = false) (hb : s.bitcnt = 0) (hq : s.pq = [] ∧ s.pqCount = 0) (ha : s.wAcc = 0#8) (ho : s.oq = [])
    (hp : s.phase ≠ .error) (h : PhaseOk s) : Inv s := by
  simp [record] at he
  refine Mid.inv ⟨w, by rw [hc]; decide, ⟨he.1, he.2.1, he.2.2.1, he.2.2.2⟩, by simp [hd], by omega, hq, ?_⟩ hp (.inl ho) h
  intro i _
  simp [ha]

theorem widths_of {s : State} (hs : s.total ≤ s.cfg.maxCnt ∧ s.nsym ≤ 256 ∧ s.root < nodeMax ∧ s.seq ≤ 511 ∧
      s.pqCount ≤ pqMax ∧ s.paybits < 2 ^ s.cfg.paybitsW ∧ s.bitcnt < 2 ^ s.cfg.paybitsW ∧ s.pad ≤ 7 ∧
      s.psN ≤ pstackMax ∧ s.wN ≤ 7 ∧ s.cur < nodeMax ∧ s.tSymn ≤ 8 ∧ s.tNodes ≤ 511 ∧ s.tLeaves ≤ 256 ∧ s.tInts ≤ 255)
    (hf : Memory.wf alpha s.freq = true ∧ ∀ p ∈ s.freq, p.2 ≤ s.cfg.maxCnt)
    (hn : Memory.wf nodeMax s.node = true ∧ ∀ p ∈ s.node, p.2.left < nodeMax ∧ p.2.right < nodeMax ∧ p.2.freq = none)
    (hc : s.code = []) (hp : Memory.wf pstackMax s.pstack = true ∧ ∀ p ∈ s.pstack, p.2 < nodeMax)
    (hse : Memory.wf alpha s.seen = true) (ho : s.old = Arrays.unspecified := by rfl) : Widths s := by
  obtain ⟨h1, h2, h3, h4, h5, h6, h7, h8, h9, h10, h11, h12, h13, h14, h15⟩ := hs
  refine ⟨h1, h2, h3, h4, h5, h6, h7, h8, h9, h10, h11, h12, h13, h14, h15, hf.1, hf.2, hn.1, ?_, ?_, ?_, hp.1, hp.2, hse,
    ho ▸ Arrays.unspecified_fit _⟩
  · intro p hp
    obtain ⟨a, b, c⟩ := hn.2 p hp
    exact ⟨a, b, by simp [c]⟩
  · rw [hc]; rfl
  · simp [hc]

theorem inv_b2 : Inv b2 := by
  refine inv_of (widths_of (by decide +kernel) (by decide +kernel) (by decide +kernel) rfl (by decide +kernel)
    (by decide +kernel)) rfl rfl rfl rfl ⟨rfl, rfl⟩ rfl rfl (by decide) ?_
  exact ⟨⟨by unfold Covers; decide +kernel, by decide +kernel, by decide +kernel⟩, by decide, rfl, rfl⟩

theorem inv_dC : Inv dC := by
  refine inv_of (widths_of (by decide +kernel) (by decide +kernel) (by decide +kernel) rfl (by decide +kernel)
    (by decide +kernel)) rfl rfl rfl rfl ⟨rfl, rfl⟩ rfl rfl (by decide) ?_
  exact ⟨by unfold Covers; decide +kernel, rfl, rfl, rfl, rfl, rfl, rfl⟩

theorem inv_d0 : Inv (d0 2) := by
  refine inv_of (widths_of (by decide +kernel) (by decide +kernel) (by decide +kernel) rfl (by decide +kernel)
    (by decide +kernel)) rfl rfl rfl rfl ⟨rfl, rfl⟩ rfl rfl (by decide) ?_
  refine ⟨by unfold Covers; decide +kernel, ?_⟩
  constructor <;> simp [d0, State.reset]

theorem inv_d0_one : Inv (d0 1) := by
  refine inv_of (widths_of (by decide +kernel) (by decide +kernel) (by decide +kernel) rfl (by decide +kernel)
    (by decide +kernel)) rfl rfl rfl rfl ⟨rfl, rfl⟩ rfl rfl (by decide) ?_
  refine ⟨by unfold Covers; decide +kernel, ?_⟩
  constructor <;> simp [d0, State.reset]

theorem inv_d5 : Inv (d5 2) := by
  refine inv_of (widths_of (by decide +kernel) (by decide +kernel) (by decide +kernel) rfl (by decide +kernel)
    (by decide +kernel)) rfl rfl rfl rfl ⟨rfl, rfl⟩ rfl rfl (by decide) ?_
  refine ⟨by unfold Covers; decide +kernel, ?_⟩
  constructor <;> simp [d5, d0, State.reset, innerN, Memory.read]

theorem tree_x3 : DecoderTree x3 5 := by
  refine ⟨rfl, by decide, ?_, _, rfl, by decide⟩
  intro k hk
  rcases k with _ | _ | _ | _ | _ | k
  · exact ⟨_, rfl, by decide, by decide⟩
  · exact ⟨_, rfl, by decide, by decide⟩
  · exact ⟨_, rfl, by decide, by decide⟩
  · exact ⟨_, rfl, by decide, by decide⟩
  · exact ⟨_, rfl, by decide, by decide⟩
  · omega

theorem inv_x3_pad : Inv { x3 with phase := .dPad } := by
  refine inv_of (widths_of (by decide +kernel) (by decide +kernel) (by decide +kernel) rfl (by decide +kernel)
    (by decide +kernel)) rfl rfl rfl rfl ⟨rfl, rfl⟩ rfl rfl (by decide) ?_
  exact ⟨5, by decide, rfl, by decide, tree_x3.nodes, tree_x3.kind⟩

theorem inv_x3h : Inv x3h := by
  refine inv_of (widths_of (by decide +kernel) (by decide +kernel) (by decide +kernel) rfl (by decide +kernel)
    (by decide +kernel)) rfl rfl rfl rfl ⟨rfl, rfl⟩ rfl rfl (by decide) ?_
  exact ⟨5, by decide, ⟨rfl, by decide, tree_x3.nodes, tree_x3.kind⟩, by decide, by decide, fun _ => ⟨_, rfl, rfl⟩⟩

theorem inv_x1h : Inv x1h := by
  refine inv_of (widths_of (by decide +kernel) (by decide +kernel) (by decide +kernel) rfl (by decide +kernel)
    (by decide +kernel)) rfl rfl rfl rfl ⟨rfl, rfl⟩ rfl rfl (by decide) ?_
  refine ⟨1, by decide, ⟨rfl, by decide, ?_, _, rfl, by decide⟩, by decide, fun _ => rfl, fun h => absurd rfl h⟩
  intro k hk
  obtain rfl : k = 0 := by omega
  exact ⟨_, rfl, by decide, by decide⟩

/-- The tree of V3 with the order of BUILD. -/
def tree3 : HTree := .node (.leaf 0x63#8) (.node (.leaf 0x61#8) (.leaf 0x62#8))

/-- A tree with all 256 symbols, as deep as a tree can be. -/
def comb : HTree := (List.range 255).foldr (fun i t => .node (.leaf (BitVec.ofNat 8 i)) t) (.leaf 0xFF#8)

theorem represents_v3 : Represents v3.node v3.root tree3 :=
  ⟨_, rfl, rfl, ⟨_, rfl, rfl, rfl⟩, ⟨_, rfl, rfl, ⟨_, rfl, rfl, rfl⟩, ⟨_, rfl, rfl, rfl⟩⟩⟩

/-- A tree of depth 256: node k has a leaf on the left and node k - 1 on the right. -/
def deep : State := { v3 with
  phase := .emitHdr, root := 256
  node := (0, leafN 0x61#8 none) :: (List.range 256).map fun k => (k + 1, innerN 0 k none) }

theorem represents_deep (k : Nat) (h : k ≤ 256) : ∃ T : HTree, Represents deep.node k T ∧ T.depth = k := by
  induction k with
  | zero => exact ⟨.leaf 0x61#8, ⟨_, rfl, rfl, rfl⟩, rfl⟩
  | succ k ih =>
    obtain ⟨T, h1, h2⟩ := ih (by omega)
    have hr : ∀ k, k < 256 → Memory.read deep.node (k + 1) = some (innerN 0 k none) := by decide +kernel
    exact ⟨.node (.leaf 0x61#8) T, ⟨_, hr k (by omega), rfl, ⟨_, rfl, rfl, rfl⟩, h1⟩, by simp [HTree.depth, h2]⟩

theorem represents_x3 : Represents x3.node x3.root tree3 :=
  ⟨_, rfl, rfl, ⟨_, rfl, rfl, rfl⟩, ⟨_, rfl, rfl, ⟨_, rfl, rfl, rfl⟩, ⟨_, rfl, rfl, rfl⟩⟩⟩

theorem represents_v1 : Represents v1.node v1.root (.leaf 0x61#8) := ⟨_, rfl, rfl, rfl⟩

theorem exists_next {o : Host.Outcome State Fault Refusal} {P : State → Bool} (h : (nextOf o).any P = true) :
    ∃ t, o = .next t ∧ P t = true := by
  cases o with
  | next t => exact ⟨t, rfl, by simpa [nextOf] using h⟩
  | fault f => cases h
  | refused r => cases h

/-- An edge at which the host takes output. -/
def takes : PortsIn := { PortsIn.idle with outReady := true }

/-! ## Witnesses: every statement with hypotheses has a state and operands that meet them -/

theorem witness_DecodeInvertsEncode :
    (Instr.artTreepad 1).wellFormed = true ∧ encode (.artTreepad 1) = some (.treePad, .bits [false]) ∧
    (Instr.artTreepad 7).wellFormed = true ∧ encode (.artTreepad 7) = some (.treePad, .bits (List.replicate 7 false)) ∧
    (Instr.code (List.replicate 255 true)).wellFormed = true ∧
    encode (.code (List.replicate 255 true)) = some (.codeBits, .bits (List.replicate 255 true)) ∧
    (Instr.artPad 7#3).wellFormed = true ∧ encode (.artPad 7#3) = some (.artPad, .bytes [0x07#8]) := by decide +kernel

theorem witness_DecodedOperationsHaveAWord :
    decode (.command .error) (.cmd 2#2) = .ok (.cmdIgnored 2#2) ∧ decode .artPad (.bytes [0x07#8]) = .ok (.artPad 7#3) ∧
    decode .token (.bits [false]) = .ok .tInternal := ⟨rfl, rfl, rfl⟩

theorem witness_BeatKindIsDecidedInOrder :
    (0x3FF#10).getLsbD 9 = true ∧ ((0x1FF#10).getLsbD 9 = false ∧ (0x1FF#10).getLsbD 8 = true) ∧
    ((0x0FF#10).getLsbD 9 = false ∧ (0x0FF#10).getLsbD 8 = false) := by decide

theorem witness_ReadyAndValidSignals : { v2 with oq := [endOfOutput] }.oq = endOfOutput :: [] := rfl

theorem witness_StatusPortsCopyTheRegisters : Inv State.reset ∧ Inv b2 ∧ Inv x3h :=
  ⟨resetBlock_inv (s := State.reset) (by decide), inv_b2, inv_x3h⟩

/-- The hypotheses of each clause: a reset, an output transfer, an internal step with and without output waiting, a command,
a beat, nothing, and an idle host. -/
theorem witness_StepRunsTheDecodedOperation :
    (∃ p : PortsIn, { v2 with ports := [p] }.ports = p :: [] ∧ p.rst = true) ∧
    ({ v2 with ports := [takes], oq := [endOfOutput] }.oq = endOfOutput :: [] ∧ takes.rst = false ∧
      takes.outReady = true) ∧
    ({ b2 with ports := [takes] }.oq = [] ∧ decode (.internal b2.phase) .noBits = .ok .build) ∧
    (PortsIn.idle.outReady = false ∧ decode (.internal .emitHdr) .noBits = .ok .emitHdr) ∧
    (State.reset.oq = [] ∧ (PortsIn.offerCommand 0#2).cmdValid = true ∧ (PortsIn.offerCommand 0#2).rst = false ∧
      decode (.command State.reset.phase) (.cmd (PortsIn.offerCommand 0#2).cmdOp) = .ok .cmdReserved) ∧
    ((inPhase .scan).oq = [] ∧ (PortsIn.offerBeat 0x061#10).inValid = true ∧ (PortsIn.offerBeat 0x061#10).rst = false ∧
      decode (.input (inPhase .scan).phase false) (.inBeat (BitVec.ofBool (PortsIn.offerBeat 0x061#10).inFail ++
        BitVec.ofBool (PortsIn.offerBeat 0x061#10).inEnd ++ (PortsIn.offerBeat 0x061#10).inData)) =
        .ok (.freqCount 0x61#8)) ∧
    (¬ (v2.cmdReady = true ∧ (PortsIn.offerCommand 1#2).cmdValid = true) ∧
      ¬ (v2.inReady = true ∧ (PortsIn.offerCommand 1#2).inValid = true) ∧ v2.phase ≠ .build ∧ v2.phase ≠ .derive ∧
      v2.phase ≠ .emitHdr) ∧
    (b2.ports = [] ∧ State.reset.ports = [] ∧ State.reset.phase ≠ .build) :=
  ⟨⟨{ PortsIn.idle with rst := true }, rfl, rfl⟩, ⟨rfl, rfl, rfl⟩, ⟨rfl, rfl⟩, ⟨rfl, rfl⟩, ⟨rfl, rfl, rfl, rfl⟩,
    ⟨rfl, rfl, rfl, rfl⟩, by decide, ⟨rfl, rfl, by decide⟩⟩

/-- One for each element type of the arrays. -/
theorem witness_ArraysWithEqualContentsAreEqual :
    (Memory.wf 256 v3.freq = true ∧ ∀ i, Memory.read v3.freq i = Memory.read v3.freq i) ∧
    Memory.wf 511 v3.node = true ∧ Memory.wf 256 v2.code = true ∧ Memory.wf 256 (d6 2).seen = true ∧
    Memory.wf 255 (d5 2).pstack = true :=
  ⟨⟨by decide +kernel, fun _ => rfl⟩, by decide, by decide, by decide +kernel, by decide⟩

theorem witness_OutputLeavesInTheOrderProduced :
    (∃ t, step { v2 with ports := [takes], oq := [endOfOutput] } = .next t ∧ decide (t.taken = [endOfOutput]) = true) ∧
    (∃ t, step { v2 with phase := .emitHdr } = .next t ∧ decide (t.oq.length = 5) = true) ∧
    { v2 with ports := [takes], oq := [endOfOutput] }.edge.rst = false ∧ v2.edge.rst = false :=
  ⟨exists_next (by decide +kernel), exists_next (by decide +kernel), rfl, rfl⟩

/-- Steps for the events of the table: an internal step, commands, beats, output, reset. -/
theorem witness_PhaseMovesAsTheTableSays :
    (∃ t, step v1 = .next t ∧ decide (t.phase = .encode) = true) ∧
    (∃ t, step { State.reset with ports := [PortsIn.offerCommand 2#2] } = .next t ∧ decide (t.phase = .dCount) = true) ∧
    (∃ t, step { dC with ports := [PortsIn.offerBeat 0x002#10] } = .next t ∧ decide (t.phase = .dTree) = true) ∧
    (∃ t, step { d6 2 with ports := [PortsIn.offerBeat 0x040#10] } = .next t ∧ decide (t.phase = .dPad) = true) ∧
    (∃ t, step { x3h with ports := [PortsIn.offerBeat 0x100#10] } = .next t ∧ decide (t.phase = .idle) = true) ∧
    (∃ t, step { v2 with ports := [takes], oq := [endOfOutput] } = .next t ∧ decide (t.phase = .encode) = true) ∧
    (∃ t, step { v2 with ports := [{ PortsIn.idle with rst := true }] } = .next t ∧ decide (t.phase = .idle) = true) :=
  ⟨exists_next (by decide +kernel), exists_next (by decide +kernel), exists_next (by decide +kernel),
    exists_next (by decide +kernel), exists_next (by decide +kernel), exists_next (by decide +kernel),
    exists_next (by decide +kernel)⟩

theorem witness_ErrorsComeFromTransfersOnly :
    (∃ t, step { State.reset with ports := [PortsIn.offerCommand 0#2] } = .next t ∧ decide (t.phase = .error) = true) ∧
    (∃ t, step { inPhase .scan with ports := [PortsIn.offerBeat 0x200#10] } = .next t ∧
      decide (t.phase = .error) = true) ∧ State.reset.phase ≠ .error ∧ (inPhase .scan).phase ≠ .error :=
  ⟨exists_next (by decide +kernel), exists_next (by decide +kernel), by decide, by decide⟩

theorem witness_ErrorIsLeftByClearOrReset :
    (∃ t, step { recorded .corruptArtifact 7#4 0#8 State.reset with ports := [PortsIn.offerCommand 3#2] } = .next t ∧
      decide (t.phase = .idle) = true) ∧
    (∃ t, step { recorded .corruptArtifact 7#4 0#8 State.reset with ports := [PortsIn.offerCommand 1#2] } = .next t ∧
      decide (t.phase = .error) = true) ∧
    (∃ t, step { recorded .corruptArtifact 7#4 0#8 State.reset with ports := [{ PortsIn.idle with rst := true }] } =
      .next t ∧ decide (t.phase = .idle) = true) ∧ (recorded .corruptArtifact 7#4 0#8 State.reset).phase = .error :=
  ⟨exists_next (by decide +kernel), exists_next (by decide +kernel), exists_next (by decide +kernel), rfl⟩

theorem witness_TreeAndCodebookAreNotRewritten :
    (∃ t, step v3 = .next t ∧ decide (v3.phase = .derive) = true) ∧
    (∃ t, step v1 = .next t ∧ decide (v1.phase = .emitHdr) = true) ∧
    (∃ t, step { v2 with ports := [PortsIn.offerBeat 0x061#10] } = .next t ∧ decide (t.phase = .encode) = true) ∧
    (∃ t, step { x3 with phase := .dPad, ports := [PortsIn.offerBeat 0x007#10] } = .next t ∧
      decide (t.phase = .dPayload) = true) ∧
    (∃ t, step { x3h with ports := [PortsIn.offerBeat 0x000#10] } = .next t ∧ decide (t.phase = .dPayload) = true) ∧
    v3.edge.rst = false ∧
    -- IDLE after a success: output leaves, and a reserved command
    (∃ t, step { v2 with phase := .idle, doneOk := true, ports := [takes], oq := [endOfOutput] } = .next t ∧
      decide (t.phase = .idle ∧ t.oq = []) = true) ∧
    (∃ t, step { v2 with phase := .idle, doneOk := true, ports := [PortsIn.offerCommand 0#2] } = .next t ∧
      decide (t.phase = .error) = true) ∧
    ({ v2 with ports := [takes], oq := [endOfOutput] }.event ≠ .command 1#2 ∧
      ({ v2 with phase := .idle, ports := [PortsIn.offerCommand 0#2] } : State).event = .command 0#2) ∧
    -- ERROR: a command that is ignored
    (∃ t, step { recorded .passMismatch 1#4 0#8 v2 with ports := [PortsIn.offerCommand 1#2] } = .next t ∧
      decide (t.phase = .error) = true) ∧
    ({ recorded .passMismatch 1#4 0#8 v2 with ports := [PortsIn.offerCommand 1#2] } : State).event = .command 1#2 :=
  ⟨exists_next (by decide +kernel), exists_next (by decide +kernel), exists_next (by decide +kernel),
    exists_next (by decide +kernel), exists_next (by decide +kernel), rfl, exists_next (by decide +kernel),
    exists_next (by decide +kernel), by decide, exists_next (by decide +kernel), by decide⟩

theorem witness_StepKeepsTheInvariant :
    (Inv b2 ∧ ∃ t, step b2 = .next t ∧ decide (t.phase = .derive) = true) ∧
    (Inv x3h ∧ ∃ t, step x3h = .next t ∧ decide (t.phase = .dPayload) = true) :=
  ⟨⟨inv_b2, exists_next (by decide +kernel)⟩, ⟨inv_x3h, exists_next (by decide +kernel)⟩⟩

theorem witness_StepNeverStops : Inv State.reset ∧ Inv b2 ∧ Inv (d5 2) ∧ Inv x1h :=
  ⟨resetBlock_inv (s := State.reset) (by decide), inv_b2, inv_d5, inv_x1h⟩

theorem witness_ClearAndResetGiveTheResetValues :
    Instr.cmdClear ∈ [Instr.cmdClear, Instr.reset] ∧ Instr.reset ∈ [Instr.cmdClear, Instr.reset] := by decide

theorem witness_OtherCommandsAreIgnoredInError : (0#2 : BitVec 2) ≠ 3#2 ∧ (2#2 : BitVec 2) ≠ 3#2 := by decide

/-- Each stop of the model has a state that meets the hypotheses of its clause together. -/
theorem witness_TheModelStopsWhereNoRuleApplies :
    -- reads outside the ranges
    (¬ Readable State.reset (groupsRead .wFlush State.reset) ∧ ¬ Readable x3 (groupsRead .scanEnd x3) ∧
      ¬ Readable v3 (groupsRead (.code [true]) v3)) ∧
    (∃ t, exec .cmdDecompress v3 = .next t ∧ decide (t.phase = .dCount) = true) ∧ (inPhase .scan).phase = .scan ∧
    -- in ERROR
    ((recorded .passMismatch 1#4 0#8 v2).phase = .error ∧
      ∃ t, exec (.cmdIgnored 1#2) (recorded .passMismatch 1#4 0#8 v2) = .next t ∧ decide (t.phase = .error) = true) ∧
    -- elements that nothing has written
    (Readable (inPhase .scan) [.counts] ∧ (inPhase .scan).total ≠ 2 ^ (inPhase .scan).cfg.cntW - 1 ∧
      Memory.read (inPhase .scan).freq (0xFF#8 : Byte).toNat = none) ∧
    (Memory.read v2.code (0xFF#8 : Byte).toNat = none ∧ Readable v2 [.codebook] ∧
      Readable v2 [.codebook, .paybits, .writer]) ∧
    (Readable (inPhase .build) [.tree] ∧ Memory.read (inPhase .build).node (inPhase .build).root = none) ∧
    (Readable { x3 with cur := 510 } [.reader, .tree] ∧ Memory.read x3.node 510 = none) ∧
    (Readable { d5 2 with tSymn := 7, seen := [] } [.parser, .symbols, .tree] ∧
      Memory.read { d5 2 with tSymn := 7, seen := [] }.seen (((d5 2).tSym <<< 1) ||| 1#8).toNat = none) ∧
    (Readable { d6 2 with pstack := [] } [.parser, .tree] ∧ 0 < 2 ∧ (d6 2).tLwi = false ∧ 0 < (d6 2).psN ∧
      Memory.read ({ d6 2 with pstack := [] } : State).pstack ((d6 2).psN - 1) = none) ∧
    (Readable { d5 2 with node := [] } [.parser, .tree] ∧ 0 < 1 ∧ (d5 2).tLwi = true ∧
      Memory.read ({ d5 2 with node := [] } : State).node (1 - 1) = none) ∧
    (Readable { d6 2 with node := [] } [.parser, .tree] ∧ 0 < 2 ∧ (d6 2).tLwi = false ∧ 0 < (d6 2).psN ∧
      Memory.read (d6 2).pstack ((d6 2).psN - 1) = some 0 ∧ Memory.read ({ d6 2 with node := [] } : State).node 0 = none) ∧
    -- capacities, and taking from what is empty
    (Readable t3full [.tree] ∧ 256 ≤ t3full.pq.length) ∧
    (Readable (inPhase .build) [.tree] ∧ (inPhase .build).pq = []) ∧
    (Readable (d0 2) [.parser, .tree] ∧ 0 < 1 ∧ (d0 2).tLwi = false ∧ (d0 2).psN = 0) ∧
    (Readable { t3 with seq := 511 } [.tree] ∧ 2 ≤ t3.pq.length ∧ 511 ≤ { t3 with seq := 511 }.seq) ∧
    (Readable { d5 2 with node := [(511, innerN 0 0 none)] } [.parser, .tree] ∧ 511 < 512 ∧ (d5 2).tLwi = true ∧
      Memory.read [(511, innerN 0 0 none)] (512 - 1) = some (innerN 0 0 none)) ∧
    (Readable { d5 3 with tNodes := 511, node := [(510, innerN 0 0 none)] } [.parser, .symbols, .tree] ∧
      (d5 3).tInts + 1 ≠ (d5 3).nsym ∧ (d5 3).tLwi = true ∧
      Memory.read [(510, innerN 0 0 none)] 510 = some (innerN 0 0 none)) ∧
    (Readable { d0 2 with psN := 255 } [.parser, .symbols, .tree] ∧ (d0 2).tInts + 1 ≠ (d0 2).nsym ∧ (d0 2).tNodes = 0 ∧
      255 ≤ { d0 2 with psN := 255 }.psN) := by
  refine ⟨by decide +kernel, exists_next (by decide +kernel), rfl, ⟨rfl, exists_next (by decide +kernel)⟩, ?_⟩
  decide +kernel

/-- A path of 256 bits, a tree below a path of 254 bits, and a tree of depth 256. -/
theorem witness_TheModelStopsWhereNoRuleApplies_depth :
    (Readable v3 [.tree] ∧ 255 < (List.replicate 256 true).length) ∧
    (Readable v3 [.tree] ∧ Represents v3.node 4 tree3 ∧ 255 < (List.replicate 254 true).length + tree3.depth) ∧
    ∃ T : HTree, Readable deep [.tree, .writer] ∧ Represents deep.node deep.root T ∧ 255 < T.depth := by
  refine ⟨by decide +kernel, ⟨by decide +kernel, represents_v3, by decide +kernel⟩, ?_⟩
  obtain ⟨T, h1, h2⟩ := represents_deep 256 (by omega)
  exact ⟨T, by decide +kernel, h1, by omega⟩

theorem witness_ScanBeatsCountAndClose :
    (Readable { inPhase .scan with freq := [(0x61, 3)], total := 3, cfg := { cntW := 2 } } [.counts] ∧
      Memory.read ([(0x61, 3)] : Memory Nat) (0x61#8 : Byte).toNat = some 3 ∧
      { inPhase .scan with freq := [(0x61, 3)], total := 3, cfg := { cntW := 2 } }.total = 2 ^ 2 - 1) ∧
    (Readable { inPhase .scan with freq := [(0xFF, 0)] } [.counts] ∧
      Memory.read { inPhase .scan with freq := [(0xFF, 0)] }.freq (0xFF#8 : Byte).toNat = some 0 ∧
      (inPhase .scan).total ≠ 2 ^ (inPhase .scan).cfg.cntW - 1) ∧
    (Readable (inPhase .scan) [.counts] ∧ (inPhase .scan).total = 0) ∧ Readable b2 [.counts] ∧ b2.total ≠ 0 := by
  decide +kernel

theorem witness_PassOneCountsItsInput :
    ([] : List Byte).length ≤ 2 ^ State.reset.cfg.cntW - 1 ∧
    [0x61#8].length ≤ 2 ^ { State.reset with cfg := { cntW := 1 } }.cfg.cntW - 1 ∧ [0x61#8] ≠ [] := by decide +kernel

/-- The empty queue, and the last free place. -/
theorem witness_InsertAppendsAnEntry :
    (Readable (inPhase .build) [.tree] ∧ (inPhase .build).pq.length < 256) ∧
    Readable { t3 with pq := List.replicate 255 { freq := 1, seq := 0, node := 0 } } [.tree] ∧
    { t3 with pq := List.replicate 255 { freq := 1, seq := 0, node := 0 } }.pq.length < 256 := by decide +kernel

theorem witness_ExtractMinTakesTheFirstEntry :
    Readable t3 [.tree] ∧ t3.pq ≠ [] ∧ (t3.pq.map PqEntry.seq).Nodup := by decide +kernel

theorem witness_QueueInitMakesTheLeavesInOrder :
    (Readable { inPhase .build with freq := Memory.fill 256 0 } [.counts] ∧
      ∀ y, y < 256 → Memory.read { inPhase .build with freq := Memory.fill 256 0 }.freq y = some ((fun _ => 0) y)) ∧
    Readable { inPhase .build with freq := Memory.fill 256 1 } [.counts] ∧
    ∀ y, y < 256 → Memory.read { inPhase .build with freq := Memory.fill 256 1 }.freq y = some ((fun _ => 1) y) :=
  ⟨⟨readable_of_phase rfl (by decide) (by decide) rfl, fun _ hy => Memory.read_fill 256 0 hy⟩,
    readable_of_phase rfl (by decide) (by decide) rfl, fun _ hy => Memory.read_fill 256 1 hy⟩

/-- T3, and PQ full with the last sequence number that a run reaches. -/
theorem witness_MergeJoinsTheTwoFirstEntries :
    (Readable t3 [.tree] ∧ 2 ≤ t3.pq.length ∧ t3.pq.length ≤ 256 ∧ t3.pqCount = t3.pq.length ∧
      (t3.pq.map PqEntry.seq).Nodup ∧ t3.seq < 511) ∧
    (Readable t3full [.tree] ∧ 2 ≤ t3full.pq.length ∧ t3full.pq.length ≤ 256 ∧ t3full.pqCount = t3full.pq.length ∧
      (t3full.pq.map PqEntry.seq).Nodup ∧ t3full.seq < 511) := by
  decide +kernel

theorem witness_BuildRunsItsSubOperations : Inv b2 ∧ b2.phase = .build := ⟨inv_b2, rfl⟩

theorem witness_BuildMakesTheNumberedTree :
    Inv b2 ∧ b2.phase = .build ∧ (symbolsThatOccur b2.freq)[1]? = some 255 ∧ b2.nsym ≤ 2 ∧ 2 < 2 * b2.nsym - 1 ∧
    1 < 2 * b2.nsym - 2 := ⟨inv_b2, rfl, by decide +kernel, by decide, by decide, by decide⟩

theorem witness_TreeDependsOnCountsAlone :
    Inv b2 ∧ Inv { b2 with ret := .padCount 3 } ∧ b2.phase = .build ∧ b2.freq = { b2 with ret := .padCount 3 }.freq :=
  ⟨inv_b2, ⟨{ inv_b2.widths with }, { inv_b2.always with }, inv_b2.phase.host [] [] [] _ _⟩, rfl, rfl⟩

/-- The eight bits of the byte are a prefix code. -/
theorem witness_PayloadSizeIsMinimal :
    Inv b2 ∧ b2.phase = .build ∧ (∀ a : Byte, 0 < countAt b2.freq a.toNat → bitsOfByte a ≠ []) ∧
    ∀ a b : Byte, 0 < countAt b2.freq a.toNat → 0 < countAt b2.freq b.toNat → a ≠ b →
      ¬ bitsOfByte a <+: bitsOfByte b := by
  refine ⟨inv_b2, rfl, fun a _ => by simp [bitsOfByte], fun a b _ _ hab h => hab ?_⟩
  have h' : bitsOfByte a = bitsOfByte b := h.eq_of_length rfl
  simp [bitsOfByte] at h'
  apply BitVec.eq_of_getElem_eq
  intro i hi
  have : i = 0 ∨ i = 1 ∨ i = 2 ∨ i = 3 ∨ i = 4 ∨ i = 5 ∨ i = 6 ∨ i = 7 := by omega
  rcases this with rfl | rfl | rfl | rfl | rfl | rfl | rfl | rfl <;> simp [h']

theorem witness_CodebookEntries :
    (Readable v1 [.tree] ∧ Memory.read v1.node v1.root = some (leafN 0x61#8 (some 4)) ∧
      (leafN 0x61#8 (some 4)).leaf = true) ∧
    (Readable v2 [.tree] ∧ Memory.read v2.node v2.root = some (innerN 0 1 (some 4)) ∧
      (innerN 0 1 (some 4)).leaf = false) ∧ Readable v2 [.codebook] ∧
    Memory.read v2.code (0x63#8 : Byte).toNat = some { len := 0, bits := [] } ∧
    Memory.read v2.code (0x61#8 : Byte).toNat = some { len := 1, bits := [false] } := by decide +kernel

theorem witness_CodeAssignWritesThePaths :
    Readable v3 [.tree] ∧ Represents v3.node 4 tree3 ∧ tree3.leaves.Nodup ∧
    (List.replicate 253 true).length + tree3.depth ≤ 255 :=
  ⟨by decide, represents_v3, by decide, by decide +kernel⟩

/-- In DERIVE, with every count 1 and every code of 255 bits. -/
theorem witness_PadIsPredicted :
    let s : State := { v3 with freq := Memory.fill 256 1, code := Memory.fill 256 { len := 255, bits := [] } }
    Readable s [.counts, .codebook] ∧ (∀ y, y < 256 → Memory.read s.freq y = some ((fun _ => 1) y)) ∧
    ∀ y, y < 256 → ∃ c, Memory.read s.code y = some c ∧ c.len = (fun _ => 255) y :=
  ⟨readable_of_phase rfl (by decide) (by decide) rfl, fun _ hy => Memory.read_fill 256 1 hy,
    fun _ hy => ⟨_, Memory.read_fill 256 _ hy, rfl⟩⟩

theorem witness_DeriveMakesThePrefixCode :
    Readable v3 [.counts, .tree] ∧ Represents v3.node v3.root tree3 ∧ tree3.leaves.Nodup ∧
    (∀ y, y < 256 → ∃ f, Memory.read v3.freq y = some f) ∧
    ∀ y : Byte, y ∈ tree3.leaves ↔ 0 < countAt v3.freq y.toNat := by
  have h : ∀ y, y < 256 → Memory.read v3.freq y =
      some (if y = 0x63 then 2 else if y = 0x62 then 1 else if y = 0x61 then 1 else 0) := by
    intro y hy
    simp only [v3, counts, List.foldl_cons, List.foldl_nil, Memory.read_write]
    rw [Memory.read_fill alpha 0 hy]
    split_ifs <;> rfl
  refine ⟨readable_of_phase rfl (by decide) (by decide) rfl, represents_v3, by decide, fun y hy => ⟨_, h y hy⟩, fun y => ?_⟩
  unfold countAt
  rw [h y.toNat y.isLt]
  simp only [tree3, HTree.leaves, List.cons_append, List.nil_append, List.mem_cons, List.not_mem_nil, or_false,
    ← BitVec.toNat_inj, Option.getD_some]
  simp
  split_ifs <;> omega

theorem witness_WriterOperations :
    (Readable w0 [.writer] ∧ w0.wN ≤ 7 ∧ w0.wN = 0 ∧ w0.wN ≠ 7) ∧
    Readable { w0 with wN := 7 } [.writer] ∧ { w0 with wN := 7 }.wN ≤ 7 ∧ { w0 with wN := 7 }.wN = 7 ∧
    0 < { w0 with wN := 7 }.wN := by decide

theorem witness_PutBitsPutsEachBitInOrder :
    (Readable { w0 with wN := 7 } [.writer] ∧ { w0 with wN := 7 }.wN ≤ 7) ∧ Readable w0 [.writer] ∧ w0.wN ≤ 7 := by decide

theorem witness_WriterLaw : Readable w0 [.writer] ∧ w0.wN = 0 ∧ w0.wAcc = 0#8 := by decide

theorem witness_ReaderInvertsTheWriter :
    (0 ≤ 8 ∧ 8 ≤ 8) ∧ packed [true] = [] ++ [0x80#8] ∧
    packed (List.replicate 9 true) = [0xFF#8] ++ [0x80#8] ∧ packed (List.replicate 8 true) = [] ++ [0xFF#8] := by
  decide +kernel

theorem witness_HeaderBytes :
    (Readable v1 [.symbols] ∧ Readable v1 [.pad] ∧ Readable v1 [.tree] ∧
      Memory.read v1.node v1.root = some (leafN 0x61#8 (some 4)) ∧ (leafN 0x61#8 (some 4)).leaf = true) ∧
    Readable v2 [.tree] ∧ Memory.read v2.node v2.root = some (innerN 0 1 (some 4)) ∧
    (innerN 0 1 (some 4)).leaf = false := by decide

theorem witness_TreeSectionIsThePreOrder :
    Readable { v3 with phase := .emitHdr } [.tree, .writer] ∧ Represents v3.node v3.root tree3 ∧
    tree3.leaves.length ≤ 256 ∧ v3.wN = 0 ∧ v3.wAcc = 0#8 :=
  ⟨by decide, represents_v3, by decide, rfl, rfl⟩

theorem witness_HeaderIsEmittedWhole :
    (Readable { v3 with phase := .emitHdr } [.symbols, .tree, .pad, .writer] ∧ Represents v3.node v3.root tree3 ∧
      tree3.leaves.length = v3.nsym ∧ v3.nsym ≤ 256 ∧ v3.wN = 0 ∧ v3.wAcc = 0#8) ∧
    (Readable v1 [.symbols, .tree, .pad, .writer] ∧ Represents v1.node v1.root (.leaf 0x61#8) ∧
      (HTree.leaf 0x61#8).leaves.length = v1.nsym ∧ v1.nsym ≤ 256 ∧ v1.wN = 0 ∧ v1.wAcc = 0#8) :=
  ⟨⟨by decide, represents_v3, rfl, by decide, rfl, rfl⟩, by decide, represents_v1, rfl, by decide, rfl, rfl⟩

/-- H6, H7, and the last symbol that still fits. -/
theorem witness_EncodingASymbol :
    Readable v2 [.codebook, .paybits, .writer] ∧ Readable { v2 with bitcnt := 3 } [.codebook, .paybits, .writer] ∧
    Readable { v2 with bitcnt := 4 } [.codebook, .paybits, .writer] ∧
    Memory.read v2.code (0x63#8 : Byte).toNat = some { len := 0, bits := [] } ∧
    (Memory.read v2.code (0x61#8 : Byte).toNat = some { len := 1, bits := [false] } ∧
      { v2 with bitcnt := 4 }.paybits < { v2 with bitcnt := 4 }.bitcnt + 1) ∧
    { v2 with bitcnt := 3 }.bitcnt + 1 ≤ { v2 with bitcnt := 3 }.paybits := by decide +kernel

theorem witness_EndOfPassTwo :
    Readable { v2 with bitcnt := 3 } [.paybits, .writer] ∧
    Readable { v2 with bitcnt := 4, wN := 4 } [.paybits, .writer] ∧
    { v2 with bitcnt := 3 }.bitcnt ≠ v2.paybits ∧
    ({ v2 with bitcnt := 4, wN := 4 }.bitcnt = v2.paybits ∧ { v2 with bitcnt := 4, wN := 4 }.wN = 4 % 8 ∧
      v2.pad = (8 - v2.paybits % 8) % 8) := by decide

theorem witness_HeaderBytesAreParsed :
    Readable (inPhase .dPad) [.tree] ∧ 7 < (0x08#8 : Byte).toNat ∧ (0x07#8 : Byte).toNat ≤ 7 := by decide

/-- The first and the last index that can be linked to the left, and D7's pop. -/
theorem witness_TreeAttachLinksTheParent :
    (Readable (d5 2) [.parser, .tree] ∧ 0 < 1 ∧ 1 ≤ 511 ∧ (d5 2).tLwi = true ∧
      Memory.read (d5 2).node (1 - 1) = some (innerN 0 0 none)) ∧
    (Readable { d5 2 with node := [(510, innerN 0 0 none)] } [.parser, .tree] ∧ 0 < 511 ∧ 511 ≤ 511 ∧
      { d5 2 with node := [(510, innerN 0 0 none)] }.tLwi = true ∧
      Memory.read { d5 2 with node := [(510, innerN 0 0 none)] }.node (511 - 1) = some (innerN 0 0 none)) ∧
    (Readable (d6 2) [.parser, .tree] ∧ 0 < 2 ∧ (d6 2).tLwi = false ∧ 0 < (d6 2).psN ∧
      Memory.read (d6 2).pstack ((d6 2).psN - 1) = some 0 ∧ 0 < 511 ∧
      Memory.read (d6 2).node 0 = some (innerN 1 0 none)) := by decide +kernel

/-- D11; then the root, a left child and a right child. -/
theorem witness_FlagBitsAreParsed :
    (∀ n ∈ [2, 3], Readable (d0 n) [.parser, .symbols, .tree] ∧ Readable (d5 n) [.parser, .symbols, .tree] ∧
      Readable (d6 n) [.parser, .symbols, .tree]) ∧
    (d5 2).tInts + 1 = (d5 2).nsym ∧
    ((d0 2).tInts + 1 ≠ (d0 2).nsym ∧ CanAttach (d0 2) (d0 2).tNodes ∧ (d0 2).tNodes < 511 ∧ (d0 2).psN < 255) ∧
    ((d5 3).tInts + 1 ≠ (d5 3).nsym ∧ CanAttach (d5 3) (d5 3).tNodes ∧ (d5 3).tNodes < 511 ∧ (d5 3).psN < 255) ∧
    ((d6 3).tInts + 1 ≠ (d6 3).nsym ∧ CanAttach (d6 3) (d6 3).tNodes ∧ (d6 3).tNodes < 511 ∧ (d6 3).psN < 255) :=
  ⟨by decide +kernel, rfl, ⟨by decide, .inl rfl, by decide, by decide⟩,
    ⟨by decide, .inr (.inl ⟨rfl, by decide, _, rfl⟩), by decide, by decide⟩,
    ⟨by decide, .inr (.inr ⟨rfl, by decide, _, _, rfl, by decide, rfl⟩), by decide, by decide⟩⟩

/-- A middle bit, D9's second leaf 61, D7's leaf 62; a tree that closes too early, one that is whole, one that goes on. -/
theorem witness_SymbolBitsAreParsed :
    (∀ s ∈ [d5 2, { d6 2 with tSymn := 7, tSym := 0x30#8 }, { d6 2 with tSymn := 7, tSym := 0x31#8 }, dDone 2, dDone 3, d6 2],
      Readable s [.parser, .symbols, .tree]) ∧
    (d5 2).tSymn ≠ 7 ∧
    ({ d6 2 with tSymn := 7, tSym := 0x30#8 }.tSymn = 7 ∧
      Memory.read (d6 2).seen (((0x30#8 : Byte) <<< 1) ||| 1#8).toNat = some true) ∧
    (Memory.read (d6 2).seen (((0x31#8 : Byte) <<< 1) ||| 0#8).toNat = some false ∧
      CanAttach { d6 2 with tSymn := 7, tSym := 0x31#8 } (d6 2).tNodes ∧ (d6 2).tNodes < 511) ∧
    ((dDone 3).tLwi = false ∧ 1 ≤ (dDone 3).tNodes ∧ (dDone 3).psN = 0 ∧ (dDone 3).tLeaves < (dDone 3).nsym) ∧
    ((dDone 2).tLwi = false ∧ 1 ≤ (dDone 2).tNodes ∧ (dDone 2).psN = 0 ∧ (dDone 2).nsym ≤ (dDone 2).tLeaves) ∧
    ¬ ((d6 2).tLwi = false ∧ 1 ≤ (d6 2).tNodes ∧ (d6 2).psN = 0) :=
  ⟨by decide +kernel, by decide, ⟨rfl, by decide +kernel⟩,
    ⟨by decide +kernel, .inr (.inr ⟨rfl, by decide, _, _, rfl, by decide, rfl⟩), by decide⟩,
    by decide, by decide, by decide⟩

theorem witness_TreeByteIsParsedBitByBit :
    (Inv (d0 2) ∧ (d0 2).phase = .dTree ∧ (d0 2).nsym ≠ 1) ∧ Inv (d5 2) ∧ (d5 2).phase = .dTree ∧ (d5 2).nsym ≠ 1 :=
  ⟨⟨inv_d0, rfl, by decide⟩, inv_d5, rfl, by decide⟩

/-- N = 1, N = 3 and N = 256; and bytes that end the parse: a single symbol, and D7's with some pad bits set. -/
theorem witness_ParserRebuildsTheTree :
    (HTree.leaf 0x61#8).leaves.Nodup ∧ tree3.leaves.Nodup ∧ comb.leaves.Nodup ∧ comb.leaves.length = 256 ∧
    (∃ u, onNext (exec .cmdDecompress v3) (feed ((0x01#8 :: [0x61#8]).map dataBeat)) = .next u ∧
      decide (u.phase = .dPad) = true) ∧
    ∃ u, onNext (exec .cmdDecompress v3) (feed ((0x02#8 :: [0x58#8, 0x6C#8, 0x5F#8]).map dataBeat)) = .next u ∧
      decide (u.phase = .dPad) = true := by
  have h : comb.leaves = (List.range 256).map (BitVec.ofNat 8) := by decide +kernel
  refine ⟨by decide, by decide, ?_, by rw [h]; simp, exists_next (by decide +kernel), exists_next (by decide +kernel)⟩
  rw [h]
  refine List.Nodup.map_on ?_ List.nodup_range
  intro a ha b hb hab
  have := congrArg BitVec.toNat hab
  simp at this ha hb
  omega

/-- From an internal node to a leaf and to an internal node; the single-leaf tree; a root that is no leaf. -/
theorem witness_WalkStepsDownTheTree :
    (Readable x3 [.reader, .tree] ∧ Memory.read x3.node x3.cur = some (innerN 1 2 none) ∧ (innerN 1 2 none).leaf = false ∧
      Memory.read x3.node (innerN 1 2 none).left = some (leafN 0x63#8 none) ∧
      Memory.read x3.node (innerN 1 2 none).right = some (innerN 3 4 none)) ∧
    (Readable x1h [.tree] ∧ Memory.read x1h.node x1h.root = some (leafN 0x61#8 none)) ∧
    Readable x3 [.tree] ∧ Memory.read x3.node x3.root = some (innerN 1 2 none) := by decide

/-- On a leaf, with a leaf or an internal node wherever the free index points but at `cur`. -/
theorem witness_WalkStepsDownTheTree_free (m : Node) (hm : m = leafN 0x61#8 none ∨ m = innerN 1 2 none) :
    let k := (Config.freeIndex 0).toNat
    let s : State := { x3 with cur := k + 1, node := Memory.write (Memory.write [] k m) (k + 1) (leafN 0x63#8 none) }
    Readable s [.reader, .tree] ∧ Memory.read s.node s.cur = some (leafN 0x63#8 none) ∧ (leafN 0x63#8 none).leaf = true ∧
    Memory.read s.node (Config.freeIndex s.draws).toNat = some m ∧ (m.leaf = true ∨ m.leaf = false) := by
  refine ⟨readable_of_phase (ph := .dPayload) rfl (by decide) (by decide) rfl, by simp, rfl, ?_, ?_⟩
  · show Memory.read _ (Config.freeIndex 0).toNat = some m
    simp [Memory.read_write]
  · rcases hm with rfl | rfl
    · exact .inl rfl
    · exact .inr rfl

theorem witness_PayloadByteIsHeldForOneBeat :
    (Readable x3 [.reader, .symbols, .tree] ∧ x3.holdV = false) ∧
    (x3h.holdV = true ∧ Inv x3h ∧ x3h.phase = .dPayload ∧ x3h.nsym ≠ 1) ∧
    (x1h.holdV = true ∧ Inv x1h ∧ x1h.phase = .dPayload ∧ x1h.nsym = 1) :=
  ⟨by decide, ⟨rfl, inv_x3h, rfl, by decide⟩, ⟨rfl, inv_x1h, rfl, rfl⟩⟩

/-- X16; no byte, inside and at the end of a code; a held byte that ends inside a code (V3 with pad 5) and one that does not. -/
theorem witness_EndOfPayload :
    (∀ s ∈ [{ x3 with pad := 4 }, { x3 with cur := 2 }, x3], Readable s [.reader, .symbols, .tree, .pad]) ∧
    ({ x3 with pad := 4 }.holdV = false ∧ { x3 with pad := 4 }.pad ≠ 0) ∧
    ({ x3 with cur := 2 }.holdV = false ∧ { x3 with cur := 2 }.pad = 0 ∧ { x3 with cur := 2 }.cur ≠ x3.root) ∧
    (x3.holdV = false ∧ x3.pad = 0 ∧ x3.cur = x3.root) ∧ (x3h.holdV = true ∧ Inv x3h ∧ x3h.phase = .dPayload) ∧
    (∃ u, execAll ((topBits x3h.hold (8 - x3h.pad)).map (walkOp x3h.nsym)) x3h = .next u ∧
      decide (u.cur = x3h.root) = true) ∧
    ∃ u, execAll ((topBits x3h.hold (8 - 5)).map (walkOp x3h.nsym)) x3h = .next u ∧ decide (u.cur ≠ x3h.root) = true :=
  ⟨by decide, by decide, by decide, by decide, ⟨rfl, inv_x3h, rfl⟩, exists_next (by decide +kernel), exists_next (by decide +kernel)⟩

theorem witness_WalkInvertsTheCodes :
    Readable x3 [.reader, .tree] ∧ Represents x3.node x3.root tree3 ∧ x3.cur = x3.root ∧
    ∀ q ∈ [(0x61#8, [true, false]), (0x63#8, [false])], q ∈ tree3.codes :=
  ⟨by decide, represents_x3, rfl, by decide⟩

theorem witness_ArtifactElementsAreWritten :
    (v1.phase = .emitHdr ∨ v1.phase = .encode) ∧ (v2.phase = .emitHdr ∨ v2.phase = .encode) ∧ (1 ≤ 1 ∧ 7 ≤ 7) := by decide

theorem witness_ArtifactElementsAreRead :
    (Inv dC ∧ dC.phase = .dCount) ∧ (Inv (d0 1) ∧ (d0 1).phase = .dTree ∧ (d0 1).nsym = 1) ∧
    (Inv (d0 2) ∧ (d0 2).phase = .dTree ∧ (d0 2).nsym ≠ 1 ∧ (d0 2).tState = .flag) ∧
    (Inv { x3 with phase := .dPad } ∧ { x3 with phase := .dPad }.phase = .dPad) ∧ (Inv x3h ∧ x3h.phase = .dPayload) :=
  ⟨⟨inv_dC, rfl⟩, ⟨inv_d0_one, rfl, rfl⟩, ⟨inv_d0, rfl, by decide, rfl⟩, ⟨inv_x3_pad, rfl⟩, ⟨inv_x3h, rfl⟩⟩

theorem witness_CompressWritesTheArtifact :
    [0x61#8] ≠ [] ∧ [0x61#8].length ≤ 2 ^ State.reset.cfg.cntW - 1 ∧
    [0x61#8, 0x61#8, 0x61#8].length ≤ 2 ^ { State.reset with cfg := { cntW := 2 } }.cfg.cntW - 1 := by decide

/-- H12's kind of pair: pass 2 is not pass 1; then an operation that puts a beat behind the waiting one, and one that stops. -/
theorem witness_DecompressInvertsCompress :
    (∃ t, compressRun [0x61#8, 0x62#8] [0x62#8, 0x62#8] State.reset = .next t ∧ decide (t.phase = .idle) = true) ∧
    (Instr.hdrPad ≠ .cmdClear ∧ Instr.hdrPad ≠ .reset) ∧
    (∃ t, exec .hdrPad { v2 with oq := [endOfOutput] } = .next t ∧ decide (t.oq.length = 2) = true) ∧
    exec .hdrPad { v3 with phase := .scan } = .fault (.outsideRange .pad) :=
  ⟨exists_next (by decide +kernel), by decide, exists_next (by decide +kernel), rfl⟩

end Sys2Proof.Tests
end

/-! PROOF. Every step keeps the invariant (00_scope.md R16). One lemma per operation that a step can run, each a postcondition
(`Res.Post`) that holds of the state it returns and of the state it raises in; `step_cases` then puts them together. -/

namespace Sys2Proof.Machine

/-! ## Leaving a state with the invariant -/

/-- An event that answers and raises only in states with the invariant leads to one. -/
theorem Res.Post.inv {r : Res Unit} (h : r.Post (fun _ t => Inv t) Inv) {t : State} (e : r.outcome = .next t) : Inv t :=
  (h.outcome e).elim id id

/-- What raises nothing may stand where raising would be allowed. -/
theorem Res.Post.of_noRaise {α : Type} {r : Res α} {Q : α → State → Prop} {R : State → Prop} (h : r.Post Q NoRaise) :
    r.Post Q R := h.mono (fun _ _ hq => hq) fun _ hf => hf.elim

theorem Inv.tick {s : State} (h : Inv s) : Inv s.tick := h.host s.ports.tail s.taken s.ret s.draws

theorem Inv.transferOutput {s : State} (h : Inv s) : Inv (transferOutput s) := by
  unfold Machine.transferOutput
  split
  · exact h
  · rename_i b rest ho
    exact (h.drain ho).host s.ports (s.taken ++ [b]) s.ret s.draws

/-- Error entry keeps the invariant (60_exceptions.md R290). -/
theorem Inv.raise {s : State} (h : Inv s) (hp : s.phase ≠ .error) {e : ErrCode} (he : e ≠ .none) (i : BitVec 4) (d : Byte) :
    Inv (raise e i d s) := (h.mid hp).raise he i d

/-- What the current phase has to work with, in a phase that is known. -/
theorem Inv.ready {s : State} (h : Inv s) {ph : Phase} (hp : s.phase = ph) : PhaseReady ph s := hp ▸ h.phase

/-- Outside IDLE, ENCODE, D_PAYLOAD and ERROR nothing waits in `oq`. -/
theorem Inv.oq_nil {s : State} (h : Inv s)
    (hp : s.phase ≠ .idle ∧ s.phase ≠ .encode ∧ s.phase ≠ .dPayload ∧ s.phase ≠ .error) : s.oq = [] := by
  obtain ⟨h1, h2, h3, h4⟩ := hp
  simpa [h1, h2, h3, h4] using h.always.oq

/-- `done_ok` is 0 inside a transaction (10_state.md R22). -/
theorem Mid.doneOk_false {s : State} (h : Mid s) (hp : s.phase ≠ .idle) : s.doneOk = false := by
  by_contra hd
  exact hp (h.done (by simpa using hd))

/-- Another phase keeps what holds in the middle of an event. -/
theorem Mid.enter {s : State} (h : Mid s) (ph : Phase) (hd : s.doneOk = false) : Mid { s with phase := ph } :=
  { h with widths := { h.widths with }, done := by simp [hd] }

/-- A transaction ends with the end beat, `done_ok` and IDLE (44_framing.md R208, 45_decode.md R234). -/
theorem Mid.finish {s : State} (h : Mid s) : Inv { emitEnd s with doneOk := true, phase := .idle } :=
  Mid.inv { h with widths := { h.widths with }, done := fun _ => rfl } (by simp) (.inr (.inl rfl)) trivial

/-- The invariant from its parts, in a phase that is known. -/
theorem Mid.inv_of_phase {s : State} (h : Mid s) {ph : Phase} (hp : s.phase = ph) (he : ph ≠ .error)
    (ho : s.oq = [] ∨ ph = .idle ∨ ph = .encode ∨ ph = .dPayload) (hq : PhaseReady ph s) : Inv s := by
  subst hp
  exact h.inv he ho hq

/-! ## Commands (46_codec_commands.md R251, R252) -/

/-- FREQ.CLEAR leaves counts that belong together (40_frequency.md R130, R135). -/
theorem freqClear_counted (s : State) : Counted (freqClear s) where
  covers := Memory.covers_fill alpha 0
  total := (List.sum_eq_zero fun x hx => by obtain ⟨p, hp, rfl⟩ := List.mem_map.1 hx; exact Memory.mem_fill hp).symm
  nsym := (List.countP_eq_zero.2 fun p hp => by simp [Memory.mem_fill hp]).symm

/-- CMD.COMPRESS leaves cleared counts and an empty writer (R251). -/
theorem Inv.cmdCompress {s : State} (h : Inv s) (hp : s.phase = .idle) (ho : s.oq = []) : Inv (cmdCompress s) := by
  have hm := h.mid (by simp [hp])
  have hc := freqClear_counted (openTransaction s)
  refine Mid.inv_of_phase (Mid.mk ?_ hm.cfg hm.err ?_ (Nat.zero_le _) hm.pq ?_) (ph := .scan) rfl (by simp) (.inl ho)
    ⟨⟨hc.covers, hc.total, hc.nsym⟩, rfl, rfl⟩
  · refine { hm.widths.openTransaction with
      total := Nat.zero_le _, nsym := Nat.zero_le _, bitcnt := Nat.two_pow_pos _, wN := Nat.zero_le _
      freqForm := hc.covers.wf, freqElem := fun p hp => ?_ }
    rw [Memory.mem_fill hp]; exact Nat.zero_le _
  · simp [Machine.cmdCompress]
  · simp [Machine.cmdCompress]

/-- CMD.DECOMPRESS leaves a parser at its start (R252). -/
theorem Inv.cmdDecompress {s : State} (h : Inv s) (hp : s.phase = .idle) (ho : s.oq = []) : Inv (cmdDecompress s) := by
  have hm := h.mid (by simp [hp])
  have hc : Covers alpha (Memory.fill alpha false) := Memory.covers_fill alpha false
  refine Mid.inv_of_phase (Mid.mk ?_ hm.cfg hm.err ?_ hm.bitcnt hm.pq hm.writer) (ph := .dCount) rfl (by simp)
    (.inl ho) ⟨hc, rfl, rfl, rfl, rfl, rfl, rfl⟩
  · exact { hm.widths.openTransaction with
      psN := Nat.zero_le _, tSymn := Nat.zero_le _, tNodes := Nat.zero_le _, tLeaves := Nat.zero_le _
      tInts := Nat.zero_le _, seenForm := hc.wf }
  · simp [Machine.cmdDecompress]

/-! ## Frequency accounting (40_frequency.md R132, R133, R135) -/

theorem Counted.le_total {s : State} (h : Counted s) : ∀ p ∈ s.freq, p.2 ≤ s.total := fun p hp => by
  rw [h.total]; exact List.le_sum_of_mem (List.mem_map_of_mem hp)

/-- There are at most 256 symbols (10_state.md R25). -/
theorem Counted.nsym_le {s : State} (h : Counted s) : s.nsym ≤ 256 := by
  have hl : s.freq.length = 256 := by simpa [alpha] using congrArg List.length h.covers
  rw [h.nsym, ← hl]
  exact List.countP_le_length

/-- What a write does to the number of elements with a property. -/
theorem Memory.countP_write {α : Type} (P : α → Bool) {m : Memory α} {i : Nat} (a b : α)
    (hs : (m.map Prod.fst).Pairwise (· < ·)) (hr : Memory.read m i = some b) :
    (Memory.write m i a).countP (fun p => P p.2) + (P b).toNat = m.countP (fun p => P p.2) + (P a).toNat := by
  have hsum : ∀ l : Memory α, l.countP (fun p => P p.2) = (l.map fun p => (P p.2).toNat).sum := by
    intro l
    induction l with
    | nil => rfl
    | cons p l ih => cases hp : P p.2 <;> simp [hp, ih, Nat.add_comm]
  rw [hsum, hsum]
  exact Memory.sum_write (fun p => (P p.2).toNat) a b hs hr

/-- FREQ.COUNT keeps FREQ, `total` and `nsym` together (R135). -/
theorem Counted.count {s : State} (h : Counted s) {b : Byte} {f : Nat} (hf : Memory.read s.freq b.toNat = some f) :
    Counted { s with
      nsym := if f = 0 then s.nsym + 1 else s.nsym
      freq := Memory.write s.freq b.toNat (f + 1)
      total := s.total + 1 } := by
  have hsum := Memory.sum_write Prod.snd (f + 1) f h.covers.pairwise hf
  have hcnt := Memory.countP_write (fun n : Nat => n != 0) (f + 1) f h.covers.pairwise hf
  refine ⟨h.covers.write _ (by simpa [alpha] using b.isLt), ?_, ?_⟩
  · have htotal := h.total
    dsimp only at hsum ⊢; omega
  · rw [← h.nsym] at hcnt
    by_cases h0 : f = 0
    · simpa [h0] using hcnt.symm
    · have h1 : (f != 0) = true := by simpa using h0
      simpa [h0, h1] using hcnt.symm

theorem Inv.freqCount {s : State} (h : Inv s) (hp : s.phase = .scan) (b : Byte) :
    (freqCount b s).Post (fun _ t => Inv t) Inv := by
  have hm := h.mid (by simp [hp])
  obtain ⟨hc, hw, hb⟩ := h.ready hp
  refine (freqCount_post b s).mono ?_ ?_
  · rintro _ t ⟨hmax, f, hf, rfl⟩
    have hle := hm.widths.total
    have hc' := hc.count hf
    refine Mid.inv_of_phase { hm with widths := ?_ } hp (by simp) (.inl (h.oq_nil (by simp [hp]))) ⟨hc', hw, hb⟩
    refine { hm.widths with total := ?_, nsym := hc'.nsym_le, freqForm := hc'.covers.wf, freqElem := fun p hp => ?_ }
    · dsimp only; omega
    · have := hc'.le_total p hp
      dsimp only at this ⊢; omega
  · rintro t rfl
    exact h.raise (by simp [hp]) (by simp) _ _

theorem Inv.scanEnd {s : State} (h : Inv s) (hp : s.phase = .scan) : (scanEnd s).Post (fun _ t => Inv t) Inv := by
  have hm := h.mid (by simp [hp])
  obtain ⟨hc, hw, hb⟩ := h.ready hp
  refine (scanEnd_post s).mono ?_ ?_
  · rintro _ t ⟨h0, rfl⟩
    exact (hm.enter .build (hm.doneOk_false (by simp [hp]))).inv (by simp) (.inl (h.oq_nil (by simp [hp])))
      ⟨⟨hc.covers, hc.total, hc.nsym⟩, Nat.pos_of_ne_zero h0, hw, hb⟩
  · rintro t ⟨_, rfl⟩
    exact h.raise (by simp [hp]) (by simp) _ _

/-! ## BUILD and DERIVE (41_tree_build.md R148, 42_codebook.md R160 to R166) -/

theorem Inv.build {s : State} (h : Inv s) (hp : s.phase = .build) : (build s).Post (fun _ t => Inv t) Inv := by
  have hm := h.mid (by simp [hp])
  have hdone := hm.doneOk_false (by simp [hp])
  obtain ⟨hc, h0, hw, hb⟩ := h.ready hp
  obtain ⟨m, t, he, hbuilt, -, hperm, hfit, -, hN⟩ :=
    build_ok hc h0 hc.le_total hm.widths.total ⟨hm.widths.nodeForm, hm.widths.nodeElem⟩
  rw [he]
  have hleaves : t.leaves.length = s.nsym := by rw [hperm.length_eq, List.length_map, hc.occurring.1]
  refine Mid.inv { hm with widths := ?_, done := by simp [hdone], pq := ⟨rfl, rfl⟩ } (by simp)
    (.inl (h.oq_nil (by simp [hp])))
    ⟨⟨hc.covers, hc.total, hc.nsym⟩, h0, ⟨t, hbuilt.represents, hleaves⟩, hw, hb⟩
  refine { hm.widths with
    root := ?_, seq := ?_, pqCount := Nat.zero_le _, nodeForm := hfit.1, nodeElem := hfit.2 }
  · dsimp only [nodeMax]; omega
  · dsimp only; omega

/-- A tree with at most 256 leaves is at most 255 deep (00_scope.md R8). -/
theorem Widths.depth_le {s : State} (hw : Widths s) {t : HTree} (hN : t.leaves.length = s.nsym) : t.depth ≤ codeMax := by
  have := t.depth_lt_leaves
  have := hw.nsym
  unfold codeMax; omega

/-- A code has at most 255 bits, that of a single leaf included (10_state.md R32). -/
theorem HTree.codes_length {t : HTree} (hd : t.depth ≤ codeMax) : ∀ q ∈ t.codes, q.2.length ≤ codeMax := by
  cases t with
  | leaf y => simp [HTree.codes, codeMax]
  | node l r => exact fun q hq => Nat.le_trans (HTree.paths_length hq) (by simpa using hd)

/-- An entry of the codebook holds as many bits as it says, at most 255 (10_state.md R32). -/
theorem codebook_elem {t : HTree} (hd : t.depth ≤ codeMax) {p : Nat × CodeEntry} (h : p ∈ codebook t) :
    p.2.len = p.2.bits.length ∧ p.2.len ≤ codeMax := by
  rcases mem_storeCodes h with ⟨q, hq, he⟩ | h
  · rw [he]; exact ⟨rfl, HTree.codes_length hd q hq⟩
  · rw [Memory.mem_fill h]; exact ⟨rfl, Nat.zero_le _⟩

/-- With codes of at most 255 bits the payload fits PAYBITS_W = CNT_W + 8 bits (00_scope.md R9, 10_state.md R28). -/
theorem payload_lt {s : State} (hc : Counted s) (hle : s.total ≤ s.cfg.maxCnt) {code : Memory CodeEntry}
    (hlen : ∀ p ∈ code, p.2.len ≤ codeMax) : payload s.freq code < 2 ^ s.cfg.paybitsW := by
  have htotal : ((List.range alpha).map fun y => countAt s.freq y).sum = s.total := by
    rw [hc.total]
    conv_rhs => rw [hc.covers.eq_map, List.map_map]
    rfl
  have hsum : payload s.freq code ≤ s.total * codeMax := by
    rw [← htotal, ← List.sum_map_mul_right]
    exact List.sum_le_sum fun y _ => Nat.mul_le_mul_left _ (lenAt_le hlen y)
  have hpos := Nat.two_pow_pos s.cfg.cntW
  unfold Config.maxCnt at hle
  rw [Config.paybitsW, Nat.pow_add]
  unfold codeMax at hsum
  omega

theorem Inv.derive {s : State} (h : Inv s) (hp : s.phase = .derive) : (derive s).Post (fun _ t => Inv t) Inv := by
  have hm := h.mid (by simp [hp])
  have hdone := hm.doneOk_false (by simp [hp])
  obtain ⟨hc, h0, ⟨t, ht, hN⟩, hw, hb⟩ := h.ready hp
  have hd := hm.widths.depth_le hN
  rw [derive_ok ht hd hc.covers.read_all]
  have hcov : Covers alpha (codebook t) := covers_storeCodes (Memory.covers_fill _ _)
  refine Mid.inv { hm with widths := ?_, done := by simp [hdone], bitcnt := Nat.zero_le _ } (by simp)
    (.inl (h.oq_nil (by simp [hp]))) ⟨⟨t, ht, hN⟩, ⟨hcov, fun p hp => (codebook_elem hd hp).1⟩, hw, rfl⟩
  refine { hm.widths with
    paybits := payload_lt hc hm.widths.total fun p hp => (codebook_elem hd hp).2
    bitcnt := Nat.two_pow_pos _, pad := ?_, codeForm := hcov.wf, codeElem := fun p hp => ?_ }
  · dsimp only [padOf]; omega
  · obtain ⟨h1, h2⟩ := codebook_elem hd hp
    exact ⟨h2, h1 ▸ h2⟩

/-! ## The writer (43_bitstream.md R175 to R178) -/

/-- The bits of `w_acc` that hold nothing are 0 (R175). -/
structure WriterClean (s : State) : Prop where
  count : s.wN ≤ 7
  rest : ∀ i, i + s.wN < 8 → s.wAcc.getLsbD i = false

theorem Mid.writerClean {s : State} (h : Mid s) : WriterClean s := ⟨h.widths.wN, h.writer⟩

/-- `v[j] <- x` leaves the other bits (00_scope.md R14). -/
theorem setBit_getLsbD_of_ne (v : Byte) {i j : Nat} (x : Bool) (h : i ≠ j) : (setBit v j x).getLsbD i = v.getLsbD i := by
  have h1 : (1#8 <<< j).getLsbD i = false := by
    simp only [BitVec.getLsbD_shiftLeft, BitVec.getLsbD_one]
    simp; omega
  unfold setBit
  split
  · rw [BitVec.getLsbD_or, h1, Bool.or_false]
  · rw [BitVec.getLsbD_and, BitVec.getLsbD_not, h1]
    by_cases hi : i < 8
    · simp [hi]
    · simp [BitVec.getLsbD_of_ge v i (by omega)]

/-- W.PUTBIT keeps the writer clean and counts on, modulo a byte (R176). -/
theorem WriterClean.putBit {s : State} (h : WriterClean s) (x : Bool) :
    WriterClean (putBit x s) ∧ (putBit x s).wN = (s.wN + 1) % 8 := by
  obtain ⟨hn, hr⟩ := h
  unfold Machine.putBit
  dsimp only
  split
  · rename_i h7
    exact ⟨⟨Nat.zero_le _, by simp⟩, by simp [h7]⟩
  · refine ⟨⟨by dsimp only; omega, fun i hi => ?_⟩, by dsimp only; omega⟩
    dsimp only at hi ⊢
    rw [setBit_getLsbD_of_ne _ _ (by omega)]
    exact hr i (by omega)

theorem WriterClean.putBits {s : State} (h : WriterClean s) (c : Bits) :
    WriterClean (putBits c s) ∧ (putBits c s).wN = (s.wN + c.length) % 8 := by
  induction c generalizing s with
  | nil =>
    have := h.count
    exact ⟨h, by rw [putBits_nil, List.length_nil]; omega⟩
  | cons x c ih =>
    obtain ⟨h1, h2⟩ := h.putBit x
    obtain ⟨h3, h4⟩ := ih h1
    exact ⟨h3, by rw [putBits_cons, h4, h2, List.length_cons]; omega⟩

theorem WriterClean.flush {s : State} (h : WriterClean s) : WriterClean (flush s) := by
  unfold Machine.flush
  split
  · exact ⟨Nat.zero_le _, by simp⟩
  · exact h

/-- What writes the writer only, and leaves it clean, keeps what holds in the middle of an event. -/
theorem Mid.writerOnly {s t : State} (h : Mid s) (hw : WriterOnly s t) (hc : WriterClean t) : Mid t := by
  obtain ⟨ht, -⟩ := hw
  obtain ⟨hn, hr⟩ := hc
  rw [ht]
  exact { h with widths := { h.widths with wN := hn }, writer := hr }

/-! ## Writing the artifact (44_framing.md R195, R207, R208) -/

theorem Inv.emitHdr {s : State} (h : Inv s) (hp : s.phase = .emitHdr) : (emitHdr s).Post (fun _ t => Inv t) Inv := by
  have hm := h.mid (by simp [hp])
  have hdone := hm.doneOk_false (by simp [hp])
  obtain ⟨⟨t, ht, hN⟩, hc, hw, hb⟩ := h.ready hp
  have hd := hm.widths.depth_le hN
  rw [emitHdr_ok ht hd hN hw (hm.wAcc hw)]
  refine Mid.inv { hm with widths := { hm.widths with }, done := by simp [hdone] } (by simp) (by simp)
    ⟨⟨hc.covers, hc.len⟩, ?_⟩
  dsimp only; omega

theorem Inv.encSym {s : State} (h : Inv s) (hp : s.phase = .encode) (b : Byte) :
    (encSym b s).Post (fun _ t => Inv t) Inv := by
  have hm := h.mid (by simp [hp])
  obtain ⟨hc, hw⟩ := h.ready hp
  refine (encSym_post b s).mono ?_ ?_
  · rintro _ t ⟨c, hr, -, hle, rfl⟩
    have hlen : (c.bits.take c.len).length = c.len := by
      rw [hc.len _ (Memory.mem_of_read hr), List.take_length]
    obtain ⟨hclean, hcount⟩ := hm.writerClean.putBits (c.bits.take c.len)
    have hm' := hm.writerOnly (putBits_writerOnly _ s) hclean
    rw [putBits_frame] at hm' ⊢
    refine Mid.inv_of_phase { hm' with widths := { hm'.widths with bitcnt := ?_ }, bitcnt := hle } hp (by simp) (by simp)
      ⟨⟨hc.covers, hc.len⟩, ?_⟩
    · exact Nat.lt_of_le_of_lt hle hm.widths.paybits
    · dsimp only; rw [hcount, hlen, hw]; omega
  · rintro t (rfl | rfl) <;> exact h.raise (by simp [hp]) (by simp) _ _

theorem Inv.encEnd {s : State} (h : Inv s) (hp : s.phase = .encode) : (encEnd s).Post (fun _ t => Inv t) Inv := by
  have hm := h.mid (by simp [hp])
  refine (encEnd_post s).mono ?_ ?_
  · rintro _ t ⟨-, rfl⟩
    exact (hm.writerOnly (flush_writerOnly s) hm.writerClean.flush).finish
  · rintro t rfl
    exact h.raise (by simp [hp]) (by simp) _ _

/-! ## Parsing the header (44_framing.md R215 to R226) -/

theorem countOfByte_range (b : Byte) : 0 < countOfByte b ∧ countOfByte b ≤ 256 := by
  unfold countOfByte
  split
  · decide
  · rename_i hb
    have h0 : b.toNat ≠ 0 := fun h => hb (BitVec.eq_of_toNat_eq h)
    have := b.isLt
    omega

theorem Inv.decCount {s : State} (h : Inv s) (hp : s.phase = .dCount) (b : Byte) : Inv (decCount b s) := by
  have hm := h.mid (by simp [hp])
  have hdone := hm.doneOk_false (by simp [hp])
  obtain ⟨hseen, hst, hn, hl, hi, hlwi, hps⟩ := h.ready hp
  obtain ⟨hb0, hb⟩ := countOfByte_range b
  refine Mid.inv_of_phase
    { hm with widths := { hm.widths with nsym := hb }, done := by simp [Machine.decCount, hdone] }
    (ph := .dTree) rfl (by simp) (.inl (h.oq_nil (by simp [hp]))) ⟨hseen, ?_⟩
  constructor <;> simp [Machine.decCount, hst, hn, hl, hi, hlwi, hps, hb0]

theorem Inv.decTree1 {s : State} (h : Inv s) (hp : s.phase = .dTree) (hN : s.nsym = 1) (b : Byte) :
    (decTree1 b s).Post (fun _ t => Inv t) Inv := by
  have hm := h.mid (by simp [hp])
  have hdone := hm.doneOk_false (by simp [hp])
  have hw := hm.widths
  have h0 : 0 < nodeMax := by decide
  rw [decTree1_eq]
  refine Mid.inv { hm with widths := ?_, done := by simp [hdone] } (by simp) (.inl (h.oq_nil (by simp [hp])))
    ⟨1, by decide, rfl, by decide, ?_, ?_⟩
  · refine { hw with
      root := h0, nodeForm := Memory.wf_write _ hw.nodeForm h0, nodeElem := fun p hp => ?_ }
    rcases Memory.mem_write hp with rfl | hp
    · exact ⟨h0, h0, fun f => nodeAt_freq_le hw.old hw.nodeElem⟩
    · exact hw.nodeElem p hp
  · intro k hk
    rw [Nat.lt_one_iff.1 hk]
    exact ⟨_, Memory.read_write_same _ _ _, Nat.one_pos, Nat.one_pos⟩
  · exact ⟨_, Memory.read_write_same _ _ _, by simp [hN]⟩

theorem ParserOnly.oq {s t : State} (h : ParserOnly s t) : t.oq = s.oq := by
  unfold ParserOnly at h
  rw [h]

/-- DEC.TREE does not touch `oq` (R218). -/
theorem treeBits_oq (c : Bits) (s : State) : (treeBits c s).Post (fun _ t => t.oq = s.oq) fun _ => True := by
  refine (treeBits_post c s).mono ?_ fun _ _ => trivial
  rintro _ t (h | ⟨-, -, h⟩)
  · exact h.oq
  · exact h.oq

/-- A completed tree is one that the walk can use (R222). -/
theorem TreeDone.inv {s : State} (h : TreeDone s) (ho : s.oq = []) : Inv { s with root := 0, phase := .dPad } := by
  obtain ⟨e, he, hl⟩ := h.root
  have hm := h.mid
  have hdone := hm.doneOk_false (by simp [h.phase])
  exact Mid.inv { hm with widths := { hm.widths with root := Nat.succ_pos 510 }, done := by simp [hdone] } (by simp) (.inl ho)
    ⟨s.tNodes, hm.widths.tNodes, rfl, h.pos, h.nodes, e, he, by simp [hl, h.many]⟩

theorem InTree.inv {s : State} (h : InTree s) (ho : s.oq = []) : Inv s :=
  h.mid.inv_of_phase h.phase (by simp) (.inl ho) ⟨h.seen, h.parsing⟩

theorem Inv.decTree {s : State} (h : Inv s) (hp : s.phase = .dTree) (hN : s.nsym ≠ 1) (b : Byte) :
    (decTree b s).Post (fun _ t => Inv t) Inv := by
  obtain ⟨hseen, hparsing⟩ := h.ready hp
  have hin : InTree s := ⟨h.mid (by simp [hp]), hp, hseen, hparsing, hN⟩
  have hoq := treeBits_oq (rBits b 8) s
  rw [h.oq_nil (by simp [hp])] at hoq
  unfold Machine.decTree
  rcases treeBits_ok (rBits b 8) hin with ⟨t, he, ht⟩ | ⟨t, he, ht⟩ | ⟨i, d, u, he, hu, -⟩ <;> rw [he] at hoq ⊢
  · exact ht.inv hoq
  · exact ht.inv hoq
  · exact hu.raise (by simp) i d

theorem Inv.decPad {s : State} (h : Inv s) (hp : s.phase = .dPad) (b : Byte) :
    (decPad b s).Post (fun _ t => Inv t) Inv := by
  have hm := h.mid (by simp [hp])
  have hdone := hm.doneOk_false (by simp [hp])
  obtain ⟨n, hn, ht⟩ := h.ready hp
  refine (decPad_post b s).mono ?_ ?_
  · rintro _ t ⟨rfl, hb⟩
    refine Mid.inv
      { hm with widths := { hm.widths with pad := hb, cur := hm.widths.root }, done := by simp [hdone] } (by simp) (by simp)
      ⟨n, hn, ⟨ht.root, ht.pos, ht.nodes, ht.kind⟩, ?_, fun _ => rfl, fun hN => ?_⟩
    · show s.root < n
      rw [ht.root]; exact ht.pos
    · obtain ⟨e, he, hl⟩ := ht.kind
      exact ⟨e, by show Memory.read s.node s.root = _; rw [ht.root, he], by simpa using mt hl.1 hN⟩
  · rintro t rfl
    exact h.raise (by simp [hp]) (by simp) _ _

/-! ## The payload (45_decode.md R231 to R234) -/

/-- The invariant in D_PAYLOAD. -/
structure Decoding (s : State) : Prop where
  inv : Inv s
  phase : s.phase = .dPayload

/-- The reader's byte plays no part in the invariant. -/
theorem Decoding.hold {s : State} (h : Decoding s) (b : Byte) (v : Bool) : Decoding { s with hold := b, holdV := v } := by
  have hm := h.inv.mid (by simp [h.phase])
  obtain ⟨n, hn, ht, hw⟩ := h.inv.ready h.phase
  exact ⟨Mid.inv_of_phase { hm with widths := { hm.widths with } } h.phase (by simp) (by simp)
    ⟨n, hn, ⟨ht.root, ht.pos, ht.nodes, ht.kind⟩, hw⟩, h.phase⟩

/-- The walk keeps `cur` on the tree (R232, R233). -/
theorem Decoding.walkBits {s : State} (h : Decoding s) (c : Bits) :
    (walkBits c s).Post (fun _ t => Decoding t) NoRaise := by
  have hm := h.inv.mid (by simp [h.phase])
  obtain ⟨n, hn, ht, hw⟩ := h.inv.ready h.phase
  obtain ⟨k, ys, he, hw', -⟩ := walkBits_ok c ht hw
  rw [he]
  have hcur : k < nodeMax := Nat.lt_of_lt_of_le hw'.1 hn
  exact ⟨Mid.inv_of_phase { hm with widths := { hm.widths with cur := hcur } } h.phase (by simp) (by simp)
    ⟨n, hn, ht.walked k _, hw'⟩, h.phase⟩

theorem Decoding.decData {s : State} (h : Decoding s) (b : Byte) : (decData b s).Post (fun _ t => Inv t) Inv := by
  unfold Machine.decData
  refine Res.Post.next (Q := fun _ t => Decoding t) ?_ fun t ht => (ht.hold b true).inv
  split
  · exact (h.walkBits _).of_noRaise
  · exact h

theorem Decoding.decLast {s : State} (h : Decoding s) : (decLast s).Post (fun _ t => Decoding t) Inv := by
  unfold Machine.decLast
  split
  · exact (h.walkBits _).of_noRaise.next fun t ht => ht.hold t.hold false
  · split
    · exact h.inv.raise (by simp [h.phase]) (by simp) _ _
    · exact h

theorem Decoding.decEnd {s : State} (h : Decoding s) : (decEnd s).Post (fun _ t => Inv t) Inv := by
  unfold Machine.decEnd
  refine h.decLast.next fun t ht => ?_
  split
  · exact ht.inv.raise (by simp [ht.phase]) (by simp) _ _
  · exact (ht.inv.mid (by simp [ht.phase])).finish

/-! ## The step -/

/-- Settles O15: `step_cases` names the operation that ran, and each keeps the invariant. -/
theorem stepKeepsTheInvariant : Obligations.StepKeepsTheInvariant := by
  unfold Obligations.StepKeepsTheInvariant
  intro s t h hs
  have ht := h.tick
  cases step_cases hs with
  | reset _ e => rw [e]; exact resetBlock_inv ht.always.cfg
  | output _ e => rw [e]; exact ht.transferOutput
  | idle _ e => rw [e]; exact ht
  | build _ p e => exact (h.build p).inv e
  | derive _ p e => exact (h.derive p).inv e
  | emitHdr _ p e => exact (h.emitHdr p).inv e
  | compress hc p e => rw [e]; exact ht.cmdCompress p (oq_empty_of_command (s := s) hc)
  | decompress hc p e => rw [e]; exact ht.cmdDecompress p (oq_empty_of_command (s := s) hc)
  | clear _ _ e => rw [e]; exact resetBlock_inv ht.always.cfg
  | reserved _ _ _ _ _ p e => rw [e]; exact ht.raise (by simp [p]) (by simp) _ _
  | ignored _ _ _ p e => rw [e]; exact ht.ignoring p
  | freqCount _ b _ _ p e => exact (ht.freqCount p b).inv e
  | scanEnd _ _ _ p e => exact (ht.scanEnd p).inv e
  | encSym _ b _ _ p e => exact (ht.encSym p b).inv e
  | encEnd _ _ _ p e => exact (ht.encEnd p).inv e
  | sourceFailure _ _ _ p e => rw [e]; exact ht.raise (by rcases p with p | p <;> simp [p]) (by simp) _ _
  | decCount _ b _ _ p e => rw [e]; exact ht.decCount p b
  | decTree1 _ b _ _ p n e => exact (ht.decTree1 p n b).inv e
  | decTree _ b _ _ p n e => exact (ht.decTree p n b).inv e
  | decPad _ b _ _ p e => exact (ht.decPad p b).inv e
  | truncated _ _ _ p e => rw [e]; exact ht.raise (by rcases p with p | p | p <;> simp [p]) (by simp) _ _
  | sourceFailed _ _ _ p e => rw [e]; exact ht.raise (by rcases p with p | p | p | p <;> simp [p]) (by simp) _ _
  | decData _ b _ _ p e => exact (Decoding.decData ⟨ht, p⟩ b).inv e
  | decEnd _ _ _ p e => exact (Decoding.decEnd ⟨ht, p⟩).inv e

end Sys2Proof.Machine

/-! PROOF. Output leaves in the order in which it was produced (10_state.md R38, 20_memory.md R71). Every operation that a step runs
puts its beats behind those in `oq` and leaves the host's side alone; only an output transfer moves a beat to the host. -/

namespace Sys2Proof.Machine

/-- What the host has taken stays, and `oq` changes at its end only. -/
def OutputGrows (s t : State) : Prop := t.taken = s.taken ∧ s.oq <+: t.oq

theorem OutputGrows.of_eq {s t : State} (ht : t.taken = s.taken) (ho : t.oq = s.oq) : OutputGrows s t := ⟨ht, by rw [ho]⟩

theorem OutputGrows.trans {s t u : State} (h1 : OutputGrows s t) (h2 : OutputGrows t u) : OutputGrows s u := by
  obtain ⟨ht1, ho1⟩ := h1
  obtain ⟨ht2, ho2⟩ := h2
  exact ⟨ht2.trans ht1, ho1.trans ho2⟩

/-! ## From the frames of the shared operations -/

theorem WriterOnly.outputGrows {s t : State} (h : WriterOnly s t) : OutputGrows s t := by
  obtain ⟨hf, bs, ho⟩ := h
  exact ⟨by rw [hf], bs, ho.symm⟩

theorem WalkOnly.outputGrows {s t : State} (h : WalkOnly s t) : OutputGrows s t := by
  obtain ⟨ys, hf⟩ := h
  exact ⟨by rw [hf], dataBeats ys, by rw [hf]⟩

theorem SameButTree.outputGrows {s t : State} (h : SameButTree s t) : OutputGrows s t := .of_eq (by rw [h]) (by rw [h])

theorem ParserOnly.outputGrows {s t : State} (h : ParserOnly s t) : OutputGrows s t := .of_eq (by rw [h]) (by rw [h])

/-- A transaction ends with the end beat (44_framing.md R208, 45_decode.md R234). -/
theorem finish_outputGrows (s : State) : OutputGrows s { emitEnd s with doneOk := true, phase := .idle } := ⟨rfl, _, rfl⟩

/-- Error entry emits nothing (60_exceptions.md R290). -/
theorem raise_outputGrows (e : ErrCode) (i : BitVec 4) (d : Byte) (s : State) : OutputGrows s (raise e i d s) := .of_eq rfl rfl

theorem ParserRaised.outputGrows {s t : State} (h : ParserRaised s t) : OutputGrows s t := by
  obtain ⟨u, i, d, hu, _, rfl⟩ := h
  exact hu.outputGrows.trans (raise_outputGrows _ _ _ _)

/-- A reset with nothing waiting in `oq` drops nothing (10_state.md R45). -/
theorem resetBlock_outputGrows {s : State} (ho : s.oq = []) : OutputGrows s (resetBlock s) := ⟨rfl, by rw [ho]; exact List.nil_prefix⟩

/-! ## The operations that a step runs -/

/-- Whether it returns or raises an error, it emits behind what waits. -/
abbrev Res.Emits (s : State) (r : Res Unit) : Prop := r.Post (fun _ t => OutputGrows s t) (OutputGrows s)

theorem Res.Post.emits {s t : State} {r : Res Unit} (h : r.Emits s) (e : r.outcome = .next t) : OutputGrows s t :=
  (h.outcome e).elim id id

theorem build_emits (s : State) : (build s).Emits s :=
  (build_post s).mono (fun _ _ h => h.2.outputGrows) fun _ h => h.elim

theorem derive_emits (s : State) : (derive s).Emits s :=
  (derive_post s).mono (fun _ t (h : t = _) => .of_eq (by rw [h]) (by rw [h])) fun _ h => h.elim

theorem emitHdr_emits (s : State) : (emitHdr s).Emits s :=
  (emitHdr_post s).mono (fun _ _ h => h.2.outputGrows) fun _ h => h.elim

theorem freqCount_emits (b : Byte) (s : State) : (freqCount b s).Emits s := by
  refine (freqCount_post b s).mono ?_ ?_
  · rintro _ _ ⟨_, _, _, rfl⟩; exact .of_eq rfl rfl
  · rintro _ rfl; exact raise_outputGrows _ _ _ _

theorem scanEnd_emits (s : State) : (scanEnd s).Emits s := by
  refine (scanEnd_post s).mono ?_ ?_
  · rintro _ _ ⟨_, rfl⟩; exact .of_eq rfl rfl
  · rintro _ ⟨_, rfl⟩; exact raise_outputGrows _ _ _ _

theorem encSym_emits (b : Byte) (s : State) : (encSym b s).Emits s := by
  refine (encSym_post b s).mono ?_ ?_
  · rintro _ _ ⟨c, _, _, _, rfl⟩; exact (putBits_writerOnly (c.bits.take c.len) s).outputGrows
  · rintro _ (rfl | rfl) <;> exact raise_outputGrows _ _ _ _

theorem encEnd_emits (s : State) : (encEnd s).Emits s := by
  refine (encEnd_post s).mono ?_ ?_
  · rintro _ _ ⟨_, rfl⟩; exact (flush_writerOnly s).outputGrows.trans (finish_outputGrows _)
  · rintro _ rfl; exact raise_outputGrows _ _ _ _

theorem decTree1_emits (b : Byte) (s : State) : (decTree1 b s).Emits s := by
  rw [decTree1_eq]; exact .of_eq rfl rfl

theorem decTree_emits (b : Byte) (s : State) : (decTree b s).Emits s := by
  refine (treeBits_post (rBits b 8) s).mono ?_ fun _ h => h.outputGrows
  rintro _ _ (h | ⟨_, _, h⟩) <;> exact h.outputGrows

theorem decPad_emits (b : Byte) (s : State) : (decPad b s).Emits s := by
  refine (decPad_post b s).mono ?_ ?_
  · rintro _ _ ⟨rfl, _⟩; exact .of_eq rfl rfl
  · rintro _ rfl; exact raise_outputGrows _ _ _ _

theorem decData_emits (b : Byte) (s : State) : (decData b s).Emits s := by
  refine (decData_post b s).mono ?_ fun _ h => h.elim
  rintro _ _ ⟨u, hu, rfl⟩; exact hu.outputGrows

theorem decEnd_emits (s : State) : (decEnd s).Emits s := by
  refine (decEnd_post s).mono ?_ ?_
  · rintro _ _ ⟨u, v, hu, _, rfl⟩; exact hu.outputGrows.trans (finish_outputGrows { u with holdV := v })
  · rintro _ ⟨u, v, i, d, hu, rfl⟩; exact hu.outputGrows.trans (raise_outputGrows _ i d { u with holdV := v })

/-! ## The step -/

/-- Every step without reset is an output transfer or emits behind what waits. -/
theorem step_outputGrows {s t : State} (hs : step s = .next t) (hr : s.edge.rst = false) :
    t = transferOutput s.tick ∨ OutputGrows s t := by
  have hraise : ∀ e i d, OutputGrows s (raise e i d s.tick) := fun e i d => raise_outputGrows e i d s.tick
  cases step_cases hs with
  | reset h _ => rw [rst_of_reset h] at hr; cases hr
  | output _ e => exact .inl e
  | idle _ e => rw [e]; exact .inr (.of_eq rfl rfl)
  | build _ _ e => exact .inr ((build_emits s).emits e)
  | derive _ _ e => exact .inr ((derive_emits s).emits e)
  | emitHdr _ _ e => exact .inr ((emitHdr_emits s).emits e)
  | compress _ _ e => rw [e]; exact .inr (.of_eq rfl rfl)
  | decompress _ _ e => rw [e]; exact .inr (.of_eq rfl rfl)
  | clear h _ e => rw [e]; exact .inr (resetBlock_outputGrows (s := s.tick) (oq_empty_of_command (s := s) h))
  | reserved _ _ _ _ _ _ e => rw [e]; exact .inr (hraise _ _ _)
  | ignored _ _ _ _ e => rw [e]; exact .inr (.of_eq rfl rfl)
  | freqCount _ b _ _ _ e => exact .inr ((freqCount_emits b s.tick).emits e)
  | scanEnd _ _ _ _ e => exact .inr ((scanEnd_emits s.tick).emits e)
  | encSym _ b _ _ _ e => exact .inr ((encSym_emits b s.tick).emits e)
  | encEnd _ _ _ _ e => exact .inr ((encEnd_emits s.tick).emits e)
  | sourceFailure _ _ _ _ e => rw [e]; exact .inr (hraise _ _ _)
  | decCount _ _ _ _ _ e => rw [e]; exact .inr (.of_eq rfl rfl)
  | decTree1 _ b _ _ _ _ e => exact .inr ((decTree1_emits b s.tick).emits e)
  | decTree _ b _ _ _ _ e => exact .inr ((decTree_emits b s.tick).emits e)
  | decPad _ b _ _ _ e => exact .inr ((decPad_emits b s.tick).emits e)
  | truncated _ _ _ _ e => rw [e]; exact .inr (hraise _ _ _)
  | sourceFailed _ _ _ _ e => rw [e]; exact .inr (hraise _ _ _)
  | decData _ b _ _ _ e => exact .inr ((decData_emits b s.tick).emits e)
  | decEnd _ _ _ _ e => exact .inr ((decEnd_emits s.tick).emits e)

/-- An output transfer moves one beat from the head of `oq` to the end of what was taken, or nothing (20_memory.md R71). -/
theorem transferOutput_moves (s : State) :
    (transferOutput s).taken ++ (transferOutput s).oq = s.taken ++ s.oq ∧
      ∃ more, (transferOutput s).taken = s.taken ++ more ∧ more.length ≤ 1 := by
  unfold transferOutput
  cases ho : s.oq with
  | nil => exact ⟨by rw [ho], [], by simp, by simp⟩
  | cons b rest => exact ⟨by simp, [b], rfl, by simp⟩

/-- Settles O9: a transfer moves the head of `oq` behind what was taken, and every other step without reset emits at the end. -/
theorem outputLeavesInTheOrderProduced : Obligations.OutputLeavesInTheOrderProduced := by
  unfold Obligations.OutputLeavesInTheOrderProduced
  intro s t hs hr
  rcases step_outputGrows hs hr with rfl | ⟨ht, bs, ho⟩
  · obtain ⟨hsame, hmore⟩ := transferOutput_moves s.tick
    exact ⟨⟨[], by simpa using hsame⟩, hmore⟩
  · exact ⟨⟨bs, by rw [ht, ← ho, List.append_assoc]⟩, [], by simp [ht]⟩

end Sys2Proof.Machine

/-! PROOF. The values right after reset (10_state.md R45) and what the status ports show (R44). -/

namespace Sys2Proof.Machine

/-! ## Reset -/

/-- Whatever the state was, a reset gives the table of 10_state.md R45. -/
theorem resetBlock_atReset (s : State) : AtReset (resetBlock s) where
  phase := rfl
  doneOk := rfl
  err := ⟨rfl, rfl, rfl, rfl⟩
  counters := ⟨rfl, rfl, rfl, rfl, rfl⟩
  payload := ⟨rfl, rfl, rfl⟩
  writer := ⟨rfl, rfl⟩
  reader := ⟨rfl, rfl, rfl⟩
  parser := ⟨rfl, rfl, rfl, rfl, rfl, rfl, rfl, rfl⟩
  queues := ⟨rfl, rfl⟩
  arrays _ := ⟨rfl, rfl, rfl, rfl, rfl⟩
  outputs := ⟨rfl, rfl, rfl, rfl⟩

/-- Settles O14: `State.reset` is the state that a reset leaves, with the spec's default CNT_W, which is at least 1. -/
theorem invariantHoldsAtReset : Obligations.InvariantHoldsAtReset := by
  unfold Obligations.InvariantHoldsAtReset
  have hcfg : State.reset.cfg.wf := by decide
  exact ⟨resetBlock_inv hcfg, resetBlock_atReset State.reset⟩

/-- Settles O17: both operations are `resetBlock`. -/
theorem clearAndResetGiveTheResetValues : Obligations.ClearAndResetGiveTheResetValues := by
  unfold Obligations.ClearAndResetGiveTheResetValues
  intro s i hi
  have hexec : exec i s = .next (resetBlock s) := by
    simp only [List.mem_cons, List.not_mem_nil, or_false] at hi
    rcases hi with rfl | rfl <;> rfl
  exact ⟨resetBlock s, hexec, resetBlock_atReset s, rfl, rfl, rfl, rfl⟩

/-! ## Status ports -/

/-- `busy` is 1 exactly in the phases that accept no command (10_state.md R44). -/
theorem busy_iff (s : State) : s.busy = true ↔ s.phase ≠ .idle ∧ s.phase ≠ .error := by
  unfold State.busy
  cases s.phase <;> decide

/-- MAXCNT is the greatest value of CNT_W bits (00_scope.md R9). -/
theorem Widths.total_lt {s : State} (h : Widths s) : s.total < 2 ^ s.cfg.cntW :=
  lt_of_le_of_lt h.total (Nat.sub_lt (Nat.two_pow_pos _) Nat.one_pos)

/-- Settles O6: the two numberings are the tables of R21 and R281, and a register inside its width is not cut by its port. -/
theorem statusPortsCopyTheRegisters : Obligations.StatusPortsCopyTheRegisters := by
  unfold Obligations.StatusPortsCopyTheRegisters
  refine ⟨fun s => ⟨fun p hp => ?_, fun p hp => ?_⟩, fun s hs => ?_⟩
  · have hcode : phaseCode p.1 = p.2 := by revert p; decide
    exact ⟨fun h => (congrArg phaseCode h).trans hcode, fun h => (congrArg phaseCode h).trans hcode⟩
  · have hcode : errCode p.1 = p.2 := by revert p; decide
    exact fun h => (congrArg errCode h).trans hcode
  · have hw := hs.widths
    have hbusy : s.status.busy = 1#1 ↔ s.busy = true := by
      show BitVec.ofBool s.busy = 1#1 ↔ _
      cases s.busy <;> decide
    have hfit : ∀ {w n : Nat}, n < 2 ^ w → (BitVec.ofNat w n).toNat = n := fun h =>
      (BitVec.toNat_ofNat _ _).trans (Nat.mod_eq_of_lt h)
    exact ⟨rfl, BitVec.toNat_ofBool _, rfl, rfl, rfl, rfl, hfit (lt_of_le_of_lt hw.nsym (by decide)),
      hfit (lt_of_le_of_lt hw.pad (by decide)), hfit hw.total_lt, hfit hw.paybits, hbusy.trans (busy_iff s)⟩

end Sys2Proof.Machine

/-! PROOF. The stops of the model (10_state.md R47, 70_reset_and_hazards.md R311; log 4, 13, 15, 23, 24, 27). First the ranges: each
operation checks exactly the groups its rule reads, before anything else. Then one lemma per shared operation that says where it stops. -/

namespace Sys2Proof.Machine

/-! ## Reads outside the ranges -/

/-- An artifact element checks one list of groups where it is written and another where it is read (log 9). -/
theorem reading_by_direction (c : Bool) (gs gs' : List Group) (s : State) (o o' : Host.Outcome State Fault Refusal) :
    ∃ r, (if c then reading gs s o else reading gs' s o') = reading (if c then gs else gs') s r := by
  cases c with
  | true => exact ⟨o, rfl⟩
  | false => exact ⟨o', rfl⟩

/-- Every operation checks the groups that its rule reads, and nothing comes before the check. -/
theorem exec_eq_reading (i : Instr) (s : State) : ∃ o, exec i s = reading (groupsRead i s) s o := by
  cases i with
  | tInternal | tLeaf _ => exact reading_by_direction _ [.writer] [.parser, .symbols, .tree] s _ _
  | artPayload _ | code _ => exact reading_by_direction _ [.writer] [.reader, .symbols, .tree] s _ _
  | artTreepad _ => exact reading_by_direction _ [.writer] [] s _ (.next s)
  | artPad p => exact reading_by_direction _ [] [.tree] s (.next (putByte (0#5 ++ p) s)) _
  | _ => exact ⟨_, rfl⟩

/-- The check goes through the groups in order. -/
theorem reading_outside {g : Group} {gs : List Group} {s : State} {o : Host.Outcome State Fault Refusal}
    (h : s.meaningful g = false) : reading (g :: gs) s o = .fault (.outsideRange g) := by
  rw [reading_cons, h]; rfl

/-- In ERROR the ranges are those carried on from the phase of the error, until a command is ignored (log 24). -/
theorem meaningful_in_error {s : State} (h : s.phase = .error) (g : Group) :
    s.meaningful g = (!s.rangesEnded && g.inError s.errPhase) := by
  simp [State.meaningful, h]

/-- CMD.DECOMPRESS leaves a state in D_COUNT, and the counts are not meaningful there. -/
theorem counts_outside_after_decompress {s t : State} (h : exec .cmdDecompress s = .next t) : t.meaningful .counts = false := by
  cases h; rfl

/-- After an ignored command no group is meaningful (46_codec_commands.md R258; log 23, 24). -/
theorem outside_after_ignored {s t : State} {op : BitVec 2} (hp : s.phase = .error) (h : exec (.cmdIgnored op) s = .next t)
    (g : Group) : t.meaningful g = false := by
  cases h
  rw [meaningful_in_error (by exact hp)]; rfl

/-- In ERROR the groups that belong to one phase are not meaningful. -/
theorem outside_in_error {s : State} (hp : s.phase = .error) {g : Group} (hg : g.inError s.errPhase = false) :
    s.meaningful g = false := by
  rw [meaningful_in_error hp, hg, Bool.and_false]

/-! ## Elements that the transaction has not written -/

theorem readAt_none {α : Type} {sp : Space} {m : Memory α} {i : Nat} (s : State) (h : Memory.read m i = none) :
    readAt sp m i s = .fault (.unwritten sp i) := by simp [readAt, h]

theorem readNode_some {k : Nat} {n : Node} {s : State} (h : Memory.read s.node k = some n) : readNode k s = .ok n s :=
  readAt_some s h

theorem readNode_none {k : Nat} {s : State} (h : Memory.read s.node k = none) :
    readNode k s = .fault (.unwritten .node k) := readAt_none s h

theorem readSym_none {k : Nat} {s : State} (h : Memory.read s.node k = none) :
    readSym k s = .fault (.unwritten .node k) := by
  unfold readSym; rw [readNode_none h, Res.bind_fault]

theorem readChild_none {x : Bool} {k : Nat} {s : State} (h : Memory.read s.node k = none) :
    readChild x k s = .fault (.unwritten .node k) := by
  unfold readChild; rw [readNode_none h, Res.bind_fault]

theorem freqCount_unwritten {b : Byte} {s : State} (ht : s.total ≠ s.cfg.maxCnt) (h : Memory.read s.freq b.toNat = none) :
    freqCount b s = .fault (.unwritten .freq b.toNat) := by
  unfold freqCount readFreq; rw [if_neg ht, readAt_none s h, Res.bind_fault]

theorem codeLookup_unwritten {b : Byte} {s : State} (h : Memory.read s.code b.toNat = none) :
    codeLookup b s = .fault (.unwritten .code b.toNat) := readAt_none s h

theorem encSym_unwritten {b : Byte} {s : State} (h : Memory.read s.code b.toNat = none) :
    encSym b s = .fault (.unwritten .code b.toNat) := by
  unfold encSym; rw [codeLookup_unwritten h, Res.bind_fault]

theorem codeAssign1_unwritten {s : State} (h : Memory.read s.node s.root = none) :
    codeAssign1 s = .fault (.unwritten .node s.root) := by
  unfold codeAssign1; rw [readSym_none h, Res.bind_fault]

theorem hdrTree1_unwritten {s : State} (h : Memory.read s.node s.root = none) :
    hdrTree1 s = .fault (.unwritten .node s.root) := by
  unfold hdrTree1; rw [readSym_none h, Res.bind_fault]

theorem walkBit1_unwritten {x : Bool} {s : State} (h : Memory.read s.node s.root = none) :
    walkBit1 x s = .fault (.unwritten .node s.root) := by
  unfold walkBit1; rw [readSym_none h, Res.bind_fault]

theorem walkBit_unwritten {x : Bool} {s : State} (h : Memory.read s.node s.cur = none) :
    walkBit x s = .fault (.unwritten .node s.cur) := by
  unfold walkBit; rw [readChild_none h, Res.bind_fault]

theorem treeSymbit_unwritten {x : Bool} {s : State} (hn : s.tSymn = 7)
    (h : Memory.read s.seen ((s.tSym <<< 1) ||| (if x then 1#8 else 0#8)).toNat = none) :
    treeSymbit x s = .fault (.unwritten .seen ((s.tSym <<< 1) ||| (if x then 1#8 else 0#8)).toNat) := by
  unfold treeSymbit
  dsimp only
  rw [if_pos (by rw [hn])]
  unfold treeLeaf readSeen
  rw [readAt_none _ h, Res.bind_fault]

/-! ## TREE.ATTACH (44_framing.md R221; log 27) -/

/-- The root has no parent. -/
theorem treeAttach_zero (s : State) : treeAttach 0 s = .ok () s := rfl

/-- After an internal node the parent is the node before. -/
theorem treeAttach_left {k : Nat} {s : State} (hk : 0 < k) (hl : s.tLwi = true) :
    treeAttach k s = (readNode (k - 1) s).bind fun n s => writeNode (k - 1) { n with left := k } s := by
  unfold treeAttach; rw [if_neg (by omega), if_pos hl]

/-- After a leaf the parent is the top of PSTACK. -/
theorem treeAttach_right {k : Nat} {s : State} (hk : 0 < k) (hl : s.tLwi = false) :
    treeAttach k s = (popStack s).bind fun p s => (readNode p s).bind fun n s => writeNode p { n with right := k } s := by
  unfold treeAttach; rw [if_neg (by omega), if_neg (by simp [hl])]

theorem popStack_empty {s : State} (h : s.psN = 0) : popStack s = .fault .stackEmpty := by
  unfold popStack; rw [if_pos h]

theorem popStack_unwritten {s : State} (hp : 0 < s.psN) (h : Memory.read s.pstack (s.psN - 1) = none) :
    popStack s = .fault (.unwritten .pstack (s.psN - 1)) := by
  unfold popStack; rw [if_neg (by omega), readAt_none s h, Res.bind_fault]

theorem popStack_some {s : State} {p : Nat} (hp : 0 < s.psN) (h : Memory.read s.pstack (s.psN - 1) = some p) :
    popStack s = .ok p { s with psN := s.psN - 1 } := by
  unfold popStack; rw [if_neg (by omega), readAt_some s h, Res.bind_ok]

/-! ## Capacities (10_state.md R31, R33, R37; log 15) -/

/-- NODE has no element above 510. -/
theorem writeNode_full {k : Nat} (n : Node) (s : State) (h : nodeMax ≤ k) : writeNode k n s = .fault (.noSuchElement .node k) := by
  unfold writeNode; rw [if_neg (by omega)]

theorem pushStack_full {k : Nat} {s : State} (h : pstackMax ≤ s.psN) : pushStack k s = .fault (.noSuchElement .pstack s.psN) := by
  unfold pushStack; rw [if_neg (by omega)]

theorem pqInsert_full {f k : Nat} {s : State} (h : pqMax ≤ s.pq.length) : pqInsert f k s = .fault .queueFull := by
  unfold pqInsert; rw [if_neg (by omega)]

theorem pqExtractMin_empty {s : State} (h : s.pq = []) : pqExtractMin s = .fault .queueEmpty := by
  unfold pqExtractMin; rw [h]

/-- MERGE takes two entries out and then has no node to write. -/
theorem merge_full {s : State} (hq : 2 ≤ s.pq.length) (hs : nodeMax ≤ s.seq) : merge s = .fault (.noSuchElement .node s.seq) := by
  obtain ⟨e1, hmem, _, he1⟩ := pqExtractMin_eq (s := s) (List.ne_nil_of_length_pos (by omega))
  have hrest : 0 < (s.pq.erase e1).length := by rw [List.length_erase_of_mem hmem]; omega
  obtain ⟨e2, _, _, he2⟩ := pqExtractMin_eq (s := { s with pq := s.pq.erase e1, pqCount := s.pqCount - 1 })
    (List.ne_nil_of_length_pos hrest)
  unfold merge
  rw [he1, Res.bind_ok, he2, Res.bind_ok, writeNode_full _ _ hs, Res.next_fault]

/-- The parent of a node above 511 would be above 510. -/
theorem treeAttach_full {k : Nat} {n : Node} {s : State} (hk : nodeMax < k) (hl : s.tLwi = true)
    (h : Memory.read s.node (k - 1) = some n) : treeAttach k s = .fault (.noSuchElement .node (k - 1)) := by
  rw [treeAttach_left (by omega) hl, readNode_some h, Res.bind_ok, writeNode_full _ _ (by omega)]

/-- TREE.FLAG(0), where it does not raise BAD_TREE, attaches the new node, writes it and pushes it (R219). -/
theorem treeFlag_internal {s : State} (h : s.tInts + 1 ≠ s.nsym) :
    treeFlag false s =
      (treeAttach s.tNodes s).next fun u =>
        (writeTreeNode s.tNodes false 0#8 u).next fun u =>
          (pushStack s.tNodes u).next fun u =>
            .ok () { u with tLwi := true, tInts := u.tInts + 1, tNodes := u.tNodes + 1 } := by
  unfold treeFlag; rw [if_neg Bool.false_ne_true, if_neg h]

/-- The 512th node can be attached but not written. -/
theorem treeFlag_nodes_full {s : State} {n : Node} (hi : s.tInts + 1 ≠ s.nsym) (ht : s.tNodes = 511) (hl : s.tLwi = true)
    (h : Memory.read s.node 510 = some n) : treeFlag false s = .fault (.noSuchElement .node 511) := by
  rw [treeFlag_internal hi, ht, treeAttach_left (by decide) hl, readNode_some h, Res.bind_ok, writeNode_ok _ _ (by decide),
    Res.next_ok]
  unfold writeTreeNode
  rw [writeNode_full _ _ (by decide), Res.next_fault]

/-- The root can be written but not pushed on a full PSTACK. -/
theorem treeFlag_stack_full {s : State} (hi : s.tInts + 1 ≠ s.nsym) (ht : s.tNodes = 0) (hp : pstackMax ≤ s.psN) :
    treeFlag false s = .fault (.noSuchElement .pstack s.psN) := by
  have hpush : ∀ m : Memory Node, pushStack 0 { s with node := m } = .fault (.noSuchElement .pstack s.psN) := fun m =>
    pushStack_full (s := { s with node := m }) hp
  rw [treeFlag_internal hi, ht, treeAttach_zero, Res.next_ok]
  unfold writeTreeNode
  rw [writeNode_ok _ _ (by decide), Res.next_ok, hpush, Res.next_fault]

/-! ## Depth (10_state.md R39; log 13) -/

/-- CODE.ASSIGN stops on a tree at least as deep as the room it has: in the left subtree, or in the right one after the left one. -/
theorem codeAssignFrom_too_deep {t : HTree} {room k : Nat} {p : Bits} {s : State} (h : Represents s.node k t)
    (hd : room ≤ t.depth) : codeAssignFrom room k p s = .fault .traversalTooDeep := by
  induction t generalizing room k p s with
  | leaf y =>
    obtain rfl : room = 0 := Nat.le_zero.1 hd
    rfl
  | node l r ihl ihr =>
    cases room with
    | zero => rfl
    | succ room =>
      obtain ⟨n, hn, hl, hL, hR⟩ := h
      have hd : room ≤ max l.depth r.depth := Nat.le_of_succ_le_succ hd
      unfold codeAssignFrom
      rw [readNode_some hn, Res.bind_ok, if_neg (by simp [hl])]
      by_cases hlr : room ≤ l.depth
      · rw [ihl hL hlr, Res.next_fault]
      · have hr : room ≤ r.depth := by omega
        rw [codeAssignFrom_of_represents hL (by omega), Res.next_ok]
        exact ihr hR hr

/-- SER stops on a tree at least as deep as the room it has, for the same reason. -/
theorem serFrom_too_deep {t : HTree} {room k : Nat} {s : State} (h : Represents s.node k t) (hd : room ≤ t.depth) :
    serFrom room k s = .fault .traversalTooDeep := by
  induction t generalizing room k s with
  | leaf y =>
    obtain rfl : room = 0 := Nat.le_zero.1 hd
    rfl
  | node l r ihl ihr =>
    cases room with
    | zero => rfl
    | succ room =>
      obtain ⟨n, hn, hl, hL, hR⟩ := h
      have hd : room ≤ max l.depth r.depth := Nat.le_of_succ_le_succ hd
      have hL : Represents (putBit false s).node n.left l := by rw [putBit_frame]; exact hL
      have hR : Represents (putBits l.ser (putBit false s)).node n.right r := by rw [putBits_frame, putBit_frame]; exact hR
      unfold serFrom
      rw [readNode_some hn, Res.bind_ok, if_neg (by simp [hl])]
      by_cases hlr : room ≤ l.depth
      · rw [ihl hL hlr, Res.next_fault]
      · have hr : room ≤ r.depth := by omega
        rw [serFrom_of_represents hL (by omega), Res.next_ok, ihr hR hr]

/-- CODE.ASSIGN's path and tree together have at most 255 levels. -/
theorem codeAssign_too_deep {t : HTree} {k : Nat} {p : Bits} {s : State} (h : Represents s.node k t)
    (hd : codeMax < p.length + t.depth) : codeAssign k p s = .fault .traversalTooDeep :=
  codeAssignFrom_too_deep h (by omega)

/-- With a path of more than 255 bits CODE.ASSIGN does not look at the node. -/
theorem codeAssign_path_too_long {k : Nat} {p : Bits} {s : State} (hp : codeMax < p.length) :
    codeAssign k p s = .fault .traversalTooDeep := by
  unfold codeAssign; rw [show codeMax + 1 - p.length = 0 by omega]; rfl

theorem hdrTree_too_deep {t : HTree} {s : State} (h : Represents s.node s.root t) (hd : codeMax < t.depth) :
    hdrTree s = .fault .traversalTooDeep := by
  unfold hdrTree; rw [serFrom_too_deep h hd, Res.next_fault]

/-! ## The statement -/

/-- Settles O22: the check of the ranges comes first, and inside them each stop is the one of the shared operation that meets it. -/
theorem theModelStopsWhereNoRuleApplies : Obligations.TheModelStopsWhereNoRuleApplies := by
  unfold Obligations.TheModelStopsWhereNoRuleApplies
  refine ⟨fun i s h => ?_, fun s t b h => ?_, fun s b x hp => ?_, fun s x hp => ?_, fun s t op b hp h => ?_, fun s => ?_⟩
  · obtain ⟨o, ho⟩ := exec_eq_reading i s
    rw [ho]
    exact reading_fault h
  · have hout := counts_outside_after_decompress h
    exact ⟨reading_outside hout, reading_outside hout⟩
  · have hout : ∀ g : Group, g.duringPhase .scan = false → s.meaningful g = false := fun g hg =>
      (meaningful_of_phase hp (by decide) (by decide) g).trans hg
    exact ⟨reading_outside (hout _ rfl), reading_outside (hout _ rfl), reading_outside (hout _ rfl), reading_outside (hout _ rfl),
      reading_outside (hout _ rfl), reading_outside (hout _ rfl)⟩
  · exact ⟨reading_outside (outside_in_error hp rfl), reading_outside (outside_in_error hp rfl),
      reading_outside (outside_in_error hp rfl)⟩
  · have hout := outside_after_ignored hp h
    exact ⟨reading_outside (hout _), reading_outside (hout _), reading_outside (hout _), reading_outside (hout _),
      reading_outside (hout _), reading_outside (hout _)⟩
  · refine ⟨?freq, ?code, ?root, ?cur, ?seen, ?pstack, ?left, ?right, ?pqFull, ?pqEmpty, ?stackEmpty, ?merge, ?attach, ?nodes,
      ?stack, ?path, ?assign, ?hdrTree⟩
    case freq =>
      intro b hr ht h
      rw [exec_freqCount b hr, freqCount_unwritten ht h, Res.outcome_fault]
    case code =>
      intro b h
      refine ⟨fun hr => ?_, fun hr => ?_⟩
      · rw [exec_codeLookup b hr, codeLookup_unwritten h, Res.outcomeRet_fault]
      · rw [exec_encSym b hr, encSym_unwritten h, Res.outcome_fault]
    case root =>
      intro x hr h
      rw [exec_codeAssign1 hr, codeAssign1_unwritten h, exec_hdrTree1 hr, hdrTree1_unwritten h, exec_walkBit1 x hr,
        walkBit1_unwritten h]
      exact ⟨rfl, rfl, rfl⟩
    case cur =>
      intro x hr h
      rw [exec_walkBit x hr, walkBit_unwritten h, Res.outcome_fault]
    case seen =>
      intro x hr hn h
      rw [exec_treeSymbit x hr, treeSymbit_unwritten hn h, Res.outcomeRet_fault]
    case pstack =>
      intro k hr hk hl hp h
      rw [exec_treeAttach k hr, treeAttach_right hk hl, popStack_unwritten hp h, Res.bind_fault, Res.outcome_fault]
    case left =>
      intro k hr hk hl h
      rw [exec_treeAttach k hr, treeAttach_left hk hl, readNode_none h, Res.bind_fault, Res.outcome_fault]
    case right =>
      intro k p hr hk hl hp hs h
      have hnode : readNode p { s with psN := s.psN - 1 } = .fault (.unwritten .node p) := readNode_none h
      rw [exec_treeAttach k hr, treeAttach_right hk hl, popStack_some hp hs, Res.bind_ok, hnode, Res.bind_fault,
        Res.outcome_fault]
    case pqFull =>
      intro f k hr hq
      rw [exec_pqInsert f k hr, pqInsert_full hq, Res.outcome_fault]
    case pqEmpty =>
      intro hr hq
      rw [exec_pqExtractMin hr, pqExtractMin_empty hq, Res.outcomeRet_fault]
    case stackEmpty =>
      intro k hr hk hl hp
      rw [exec_treeAttach k hr, treeAttach_right hk hl, popStack_empty hp, Res.bind_fault, Res.outcome_fault]
    case merge =>
      intro hr hq hs
      rw [exec_merge hr, merge_full hq hs, Res.outcome_fault]
    case attach =>
      intro k n hr hk hl h
      rw [exec_treeAttach k hr, treeAttach_full hk hl h, Res.outcome_fault]
    case nodes =>
      intro n hr hi ht hl h
      rw [exec_treeFlag false hr, treeFlag_nodes_full hi ht hl h, Res.outcome_fault]
    case stack =>
      intro hr hi ht hp
      rw [exec_treeFlag false hr, treeFlag_stack_full hi ht hp, Res.outcome_fault]
    case path =>
      intro k p hr hp
      rw [exec_codeAssign k p hr, codeAssign_path_too_long hp, Res.outcome_fault]
    case assign =>
      intro k p T hr h hd
      rw [exec_codeAssign k p hr, codeAssign_too_deep h hd, Res.outcome_fault]
    case hdrTree =>
      intro T hr h hd
      rw [exec_hdrTree hr, hdrTree_too_deep h hd, Res.outcome_fault]

end Sys2Proof.Machine

/-! PROOF. The internal arrays (20_memory.md R61): an array in canonical form is determined by what it reads as, since the
elements that can be read are exactly its pairs. -/

namespace Sys2Proof.Machine

/-- With rising indices a pair of the list is never hidden by an earlier one. -/
theorem Memory.read_eq_some_iff {α : Type} {m : Memory α} (h : (m.map Prod.fst).Pairwise (· < ·)) {i : Nat} {a : α} :
    Memory.read m i = some a ↔ (i, a) ∈ m := by
  refine ⟨Memory.mem_of_read, fun hm => ?_⟩
  induction m with
  | nil => cases hm
  | cons p rest ih =>
    obtain ⟨j, b⟩ := p
    obtain ⟨hj, hrest⟩ := List.pairwise_cons.1 h
    unfold Memory.read
    rcases List.mem_cons.1 hm with he | hm
    · cases he; rw [if_pos rfl]
    · have hlt : j < i := hj i (List.mem_map_of_mem hm)
      rw [if_neg (by omega), ih hrest hm]

/-- Settles O8: both arrays hold the same pairs, in the order of the indices. -/
theorem arraysWithEqualContentsAreEqual : Obligations.ArraysWithEqualContentsAreEqual := by
  unfold Obligations.ArraysWithEqualContentsAreEqual
  intro α size m m' h h' heq
  obtain ⟨hs, _⟩ := (Memory.wf_iff size m).1 h
  obtain ⟨hs', _⟩ := (Memory.wf_iff size m').1 h'
  have hmem : ∀ p, p ∈ m ↔ p ∈ m' := fun p => by
    rw [← Memory.read_eq_some_iff hs, heq, Memory.read_eq_some_iff hs']
  have hperm : m.Perm m' := (List.perm_ext_iff_of_nodup hs.nodup.of_map hs'.nodup.of_map).2 hmem
  have hrises : m.Pairwise fun p q => p.1 < q.1 := List.pairwise_map.1 hs
  have hrises' : m'.Pairwise fun p q => p.1 < q.1 := List.pairwise_map.1 hs'
  exact hperm.eq_of_pairwise (fun _ _ _ _ hlt hgt => absurd hlt (Nat.lt_asymm hgt)) hrises hrises'

end Sys2Proof.Machine

/-! PROOF. What an edge does (20_memory.md R75; log 3): the tests of `State.event` in their order, each as a lemma about the phase and
the ports, and what `step` runs on each event. -/

namespace Sys2Proof.Machine

/-! ## The phases of the channels -/

/-- Only BUILD, DERIVE and EMIT_HDR run an internal step (46_codec_commands.md R259). -/
theorem not_isInternal {ph : Phase} (hb : ph ≠ .build) (hd : ph ≠ .derive) (he : ph ≠ .emitHdr) :
    Phase.isInternal ph = false := by
  cases ph <;> simp_all [Phase.isInternal]

/-- A phase that accepts commands runs no internal step (46_codec_commands.md R259). -/
theorem not_isInternal_of_takesCommand {ph : Phase} (h : Phase.takesCommand ph = true) : Phase.isInternal ph = false := by
  cases ph <;> simp_all [Phase.takesCommand, Phase.isInternal]

/-- A phase that accepts input beats runs no internal step and accepts no command (20_memory.md R74). -/
theorem not_isInternal_of_takesInput {ph : Phase} (h : Phase.takesInput ph = true) :
    Phase.isInternal ph = false ∧ Phase.takesCommand ph = false := by
  cases ph <;> simp_all [Phase.takesInput, Phase.isInternal, Phase.takesCommand]

theorem isInternal_of_decodeInternal {ph : Phase} {i : Instr} (h : decodeInternal ph = .ok i) : Phase.isInternal ph = true := by
  cases ph <;> simp_all [decodeInternal, Phase.isInternal]

theorem takesCommand_of_decodeCommand {ph : Phase} {op : BitVec 2} {i : Instr} (h : decodeCommand ph op = .ok i) :
    Phase.takesCommand ph = true := by
  cases ph <;> simp_all [decodeCommand, Phase.takesCommand]

theorem takesInput_of_decodeInput {ph : Phase} {one : Bool} {w : BitVec 10} {i : Instr} (h : decodeInput ph one w = .ok i) :
    Phase.takesInput ph = true := by
  cases ph <;> simp_all [decodeInput, Phase.takesInput]

/-! ## The event of the coming edge -/

theorem event_of_rst {s : State} (h : s.edge.rst = true) : s.event = .reset := by simp [State.event, h]

theorem event_of_outReady {s : State} (hr : s.edge.rst = false) (ho : s.oq ≠ []) (h : s.edge.outReady = true) :
    s.event = .output := by simp [State.event, State.outValid, hr, ho, h]

theorem no_output {s : State} (ho : s.oq = [] ∨ s.edge.outReady = false) : (s.outValid && s.edge.outReady) = false := by
  rcases ho with ho | ho <;> simp [State.outValid, ho]

section NoOutput
variable {s : State} (hr : s.edge.rst = false) (ho : s.oq = [] ∨ s.edge.outReady = false)
include hr ho

theorem event_of_isInternal (hp : Phase.isInternal s.phase = true) : s.event = .internal := by
  simp [State.event, hr, no_output ho, hp]

theorem event_of_noTransfer (hp : Phase.isInternal s.phase = false) (hc : ¬ (s.cmdReady = true ∧ s.edge.cmdValid = true))
    (hi : ¬ (s.inReady = true ∧ s.edge.inValid = true)) : s.event = .idle := by
  simp only [State.event, hr, no_output ho, hp, Bool.and_eq_true, Bool.false_eq_true, if_false, if_neg hc, if_neg hi]

end NoOutput

theorem event_of_cmdValid {s : State} (hr : s.edge.rst = false) (ho : s.oq = []) (hp : Phase.takesCommand s.phase = true)
    (h : s.edge.cmdValid = true) : s.event = .command s.edge.cmdOp := by
  simp [State.event, State.cmdReady, hr, no_output (.inl ho), ho, hp, h, not_isInternal_of_takesCommand hp]

theorem event_of_inValid {s : State} (hr : s.edge.rst = false) (ho : s.oq = []) (hp : Phase.takesInput s.phase = true)
    (h : s.edge.inValid = true) : s.event = .input s.edge.beat := by
  obtain ⟨hn, hc⟩ := not_isInternal_of_takesInput hp
  simp [State.event, State.cmdReady, State.inReady, hr, no_output (.inl ho), ho, hp, h, hn, hc]

/-! ## What the event runs -/

theorem step_of_reset {s : State} (h : s.event = .reset) : step s = exec .reset s.tick := by unfold step; rw [h]; rfl

theorem step_of_output {s : State} (h : s.event = .output) : step s = .next (transferOutput s.tick) := by unfold step; rw [h]

theorem step_of_idle {s : State} (h : s.event = .idle) : step s = .next s.tick := by unfold step; rw [h]

theorem step_of_internal {s : State} {i : Instr} (h : s.event = .internal) (hd : decode (.internal s.phase) .noBits = .ok i) :
    step s = exec i s := by
  unfold step; rw [h]; dsimp only; rw [hd]; rfl

theorem step_of_command {s : State} {op : BitVec 2} {i : Instr} (h : s.event = .command op)
    (hd : decode (.command s.phase) (.cmd op) = .ok i) : step s = exec i s.tick := by
  unfold step; rw [h]; dsimp only; rw [hd]; rfl

theorem step_of_input {s : State} {w : BitVec 10} {i : Instr} (h : s.event = .input w)
    (hd : decode (.input s.phase (decide (s.nsym = 1))) (.inBeat w) = .ok i) : step s = exec i s.tick := by
  unfold step; rw [h]; dsimp only; rw [hd]; rfl

/-! ## The host's list of edges -/

theorem edge_of_ports {s : State} {p : PortsIn} {rest : List PortsIn} (h : s.ports = p :: rest) : s.edge = p := by
  simp [State.edge, h]

theorem tick_of_ports {s : State} {p : PortsIn} {rest : List PortsIn} (h : s.ports = p :: rest) :
    s.tick = { s with ports := rest } := by simp [State.tick, h]

/-- After the last of its edges the host is idle, and no edge is used up. -/
theorem edge_of_no_ports {s : State} (h : s.ports = []) : s.edge = .idle := by simp [State.edge, h]

theorem tick_of_no_ports {s : State} (h : s.ports = []) : s.tick = s := by
  unfold State.tick; rw [h, List.tail_nil, ← h]

theorem transferOutput_cons {s : State} {b : OutBeat} {more : List OutBeat} (h : s.oq = b :: more) :
    transferOutput s = { s with oq := more, taken := s.taken ++ [b] } := by simp [transferOutput, h]

/-! ## The statement -/

/-- Settles O7: the tests of `State.event`, in their order, then what `step` runs on the event they give. -/
theorem stepRunsTheDecodedOperation : Obligations.StepRunsTheDecodedOperation := by
  unfold Obligations.StepRunsTheDecodedOperation
  refine ⟨fun s p rest hs => ?_, fun s hs => ?_⟩
  · rw [← tick_of_ports hs]
    obtain rfl := edge_of_ports hs
    refine ⟨fun hr => step_of_reset (event_of_rst hr), fun hr => ⟨fun b more hb ho => ?_, fun ho => ⟨fun i hi => ?_,
      fun hq hv i hi => ?_, fun hq hv i hi => ?_, fun hb hd he hc hi => ?_⟩⟩⟩
    · rw [step_of_output (event_of_outReady hr (by simp [hb]) ho), transferOutput_cons (s := s.tick) hb, tick_of_ports hs]
    · exact step_of_internal (event_of_isInternal hr ho (isInternal_of_decodeInternal hi)) hi
    · exact step_of_command (event_of_cmdValid hr hq (takesCommand_of_decodeCommand hi) hv) hi
    · exact step_of_input (event_of_inValid hr hq (takesInput_of_decodeInput hi) hv) hi
    · exact step_of_idle (event_of_noTransfer hr ho (not_isInternal hb hd he) hc hi)
  · have hidle := edge_of_no_ports hs
    have hr : s.edge.rst = false := by rw [hidle]; rfl
    have ho : s.oq = [] ∨ s.edge.outReady = false := by rw [hidle]; exact .inr rfl
    refine ⟨fun i hi => step_of_internal (event_of_isInternal hr ho (isInternal_of_decodeInternal hi)) hi, fun hb hd he => ?_⟩
    rw [step_of_idle (event_of_noTransfer hr ho (not_isInternal hb hd he) ?_ ?_), tick_of_no_ports hs]
    all_goals simp [hidle, PortsIn.idle]

end Sys2Proof.Machine

/-! PROOF. The finished tree and codebook are not written again (20_memory.md R73, 41_tree_build.md R148, 42_codebook.md R167). -/

namespace Sys2Proof.Machine

/-- The tree: NODE with what earlier transactions left in the arrays, and `root`. -/
def State.treePart (s : State) : Memory Node × Arrays × Nat := (s.node, s.old, s.root)

/-- The codebook: CODE with what earlier transactions left in the arrays, `paybits` and `pad`. -/
def State.codePart (s : State) : Memory CodeEntry × Arrays × Nat × Nat := (s.code, s.old, s.paybits, s.pad)

/-- Tree and codebook stay. -/
def TreeAndCodeKept (s t : State) : Prop := t.treePart = s.treePart ∧ t.codePart = s.codePart

theorem treePart_eq_iff {s t : State} :
    t.treePart = s.treePart ↔ t.node = s.node ∧ t.old = s.old ∧ t.root = s.root := by
  simp [State.treePart]

theorem codePart_eq_iff {s t : State} :
    t.codePart = s.codePart ↔ t.code = s.code ∧ t.old = s.old ∧ t.paybits = s.paybits ∧ t.pad = s.pad := by
  simp [State.codePart]

/-! ## From the frames of the shared operations -/

theorem WriterOnly.treeAndCodeKept {s t : State} (h : WriterOnly s t) : TreeAndCodeKept s t := by
  obtain ⟨hf, _⟩ := h
  rw [hf]; exact ⟨rfl, rfl⟩

theorem WalkOnly.treeAndCodeKept {s t : State} (h : WalkOnly s t) : TreeAndCodeKept s t := by
  obtain ⟨_, hf⟩ := h
  rw [hf]; exact ⟨rfl, rfl⟩

theorem transferOutput_treeAndCodeKept (s : State) : TreeAndCodeKept s (transferOutput s) := by
  unfold transferOutput
  split <;> exact ⟨rfl, rfl⟩

/-! ## The operations that a step runs -/

theorem derive_treePart (s : State) : (derive s).Post (fun _ t => t.treePart = s.treePart) NoRaise :=
  (derive_post s).mono (fun _ t (h : t = _) => by rw [h]; rfl) fun _ h => h

theorem decPad_treePart (b : Byte) (s : State) :
    (decPad b s).Post (fun _ t => t.treePart = s.treePart) fun t => t.treePart = s.treePart := by
  refine (decPad_post b s).mono ?_ ?_
  · rintro _ _ ⟨rfl, _⟩; rfl
  · rintro _ rfl; rfl

/-- Whether it returns or raises an error, it keeps tree and codebook. -/
abbrev Res.KeepsTreeAndCode (s : State) (r : Res Unit) : Prop :=
  r.Post (fun _ t => TreeAndCodeKept s t) (TreeAndCodeKept s)

theorem Res.Post.treeAndCodeKept {s t : State} {r : Res Unit} (h : r.KeepsTreeAndCode s) (e : r.outcome = .next t) :
    TreeAndCodeKept s t := (h.outcome e).elim id id

theorem emitHdr_keeps (s : State) : (emitHdr s).KeepsTreeAndCode s :=
  (emitHdr_post s).mono (fun _ _ h => h.2.treeAndCodeKept) fun _ h => h.elim

theorem encSym_keeps (b : Byte) (s : State) : (encSym b s).KeepsTreeAndCode s := by
  refine (encSym_post b s).mono ?_ ?_
  · rintro _ _ ⟨c, _, _, _, rfl⟩; exact (putBits_writerOnly (c.bits.take c.len) s).treeAndCodeKept
  · rintro _ (rfl | rfl) <;> exact ⟨rfl, rfl⟩

theorem encEnd_keeps (s : State) : (encEnd s).KeepsTreeAndCode s := by
  refine (encEnd_post s).mono ?_ ?_
  · rintro _ _ ⟨_, rfl⟩; exact (flush_writerOnly s).treeAndCodeKept
  · rintro _ rfl; exact ⟨rfl, rfl⟩

theorem decData_keeps (b : Byte) (s : State) : (decData b s).KeepsTreeAndCode s := by
  refine (decData_post b s).mono ?_ fun _ h => h.elim
  rintro _ _ ⟨u, hu, rfl⟩; exact hu.treeAndCodeKept

theorem decEnd_keeps (s : State) : (decEnd s).KeepsTreeAndCode s := by
  refine (decEnd_post s).mono ?_ ?_
  · rintro _ _ ⟨u, v, hu, _, rfl⟩; exact hu.treeAndCodeKept
  · rintro _ ⟨u, v, i, d, hu, rfl⟩; exact hu.treeAndCodeKept

/-! ## The step -/

/-- Where a step may write tree or codebook anew: in a phase before the tree is finished, or by a command that opens a transaction
or clears the block. -/
def MayRewrite (s : State) : Prop :=
  s.phase = .scan ∨ s.phase = .build ∨ s.phase = .dCount ∨ s.phase = .dTree ∨
  (s.phase = .idle ∧ (s.event = .command 1#2 ∨ s.event = .command 2#2)) ∨
  ((s.phase = .idle ∨ s.phase = .error) ∧ s.event = .command 3#2)

/-- Every other step without reset keeps the tree, and the codebook outside DERIVE and D_PAD. -/
theorem step_treeAndCodeKept {s t : State} (hs : step s = .next t) (hr : s.edge.rst = false) :
    TreeAndCodeKept s t ∨ (t.treePart = s.treePart ∧ (s.phase = .derive ∨ s.phase = .dPad)) ∨ MayRewrite s := by
  cases step_cases hs with
  | reset h _ => rw [rst_of_reset h] at hr; cases hr
  | output _ e => rw [e]; exact .inl (transferOutput_treeAndCodeKept s.tick)
  | idle _ e => rw [e]; exact .inl ⟨rfl, rfl⟩
  | build _ p _ => exact .inr (.inr (by simp [MayRewrite, p]))
  | derive _ p e => exact .inr (.inl ⟨((derive_treePart s).outcome e).elim id False.elim, .inl p⟩)
  | emitHdr _ _ e => exact .inl ((emitHdr_keeps s).treeAndCodeKept e)
  | compress h p _ => exact .inr (.inr (by simp [MayRewrite, p, h]))
  | decompress h p _ => exact .inr (.inr (by simp [MayRewrite, p, h]))
  | clear h p _ => exact .inr (.inr (by simp [MayRewrite, p, h]))
  | reserved _ _ _ _ _ _ e => rw [e]; exact .inl ⟨rfl, rfl⟩
  | ignored _ _ _ _ e => rw [e]; exact .inl ⟨rfl, rfl⟩
  | freqCount _ _ _ _ p _ => exact .inr (.inr (by simp [MayRewrite, p]))
  | scanEnd _ _ _ p _ => exact .inr (.inr (by simp [MayRewrite, p]))
  | encSym _ b _ _ _ e => exact .inl ((encSym_keeps b s.tick).treeAndCodeKept e)
  | encEnd _ _ _ _ e => exact .inl ((encEnd_keeps s.tick).treeAndCodeKept e)
  | sourceFailure _ _ _ _ e => rw [e]; exact .inl ⟨rfl, rfl⟩
  | decCount _ _ _ _ p _ => exact .inr (.inr (by simp [MayRewrite, p]))
  | decTree1 _ _ _ _ p _ _ => exact .inr (.inr (by simp [MayRewrite, p]))
  | decTree _ _ _ _ p _ _ => exact .inr (.inr (by simp [MayRewrite, p]))
  | decPad _ b _ _ p e => exact .inr (.inl ⟨((decPad_treePart b s.tick).outcome e).elim id id, .inr p⟩)
  | truncated _ _ _ _ e => rw [e]; exact .inl ⟨rfl, rfl⟩
  | sourceFailed _ _ _ _ e => rw [e]; exact .inl ⟨rfl, rfl⟩
  | decData _ b _ _ _ e => exact .inl ((decData_keeps b s.tick).treeAndCodeKept e)
  | decEnd _ _ _ _ e => exact .inl ((decEnd_keeps s.tick).treeAndCodeKept e)

/-- Settles O13: the steps that may write the tree or the codebook anew are in other phases or have other events. -/
theorem treeAndCodebookAreNotRewritten : Obligations.TreeAndCodebookAreNotRewritten := by
  unfold Obligations.TreeAndCodebookAreNotRewritten
  intro s t hs hr
  rcases step_treeAndCodeKept hs hr with ⟨ht, hc⟩ | ⟨ht, hp⟩ | h
  · obtain ⟨hnode, hold, hroot⟩ := treePart_eq_iff.1 ht
    obtain ⟨hcode, _, hpaybits, hpad⟩ := codePart_eq_iff.1 hc
    exact ⟨fun _ => ⟨hnode, hold, hroot⟩, fun _ => ⟨hcode, hold, hpaybits, hpad⟩,
      fun _ => ⟨hnode, hold, hroot, hcode, hpaybits, hpad⟩⟩
  · refine ⟨fun _ => treePart_eq_iff.1 ht, ?_⟩
    rcases hp with hp | hp <;> simp [hp]
  · unfold MayRewrite at h
    rcases h with h | h | h | h | ⟨hp, h | h⟩ | ⟨hp | hp, h⟩ <;> simp_all

end Sys2Proof.Machine

/-! PROOF. Decoding and encoding (30_encoding.md R91 to R109, R114): what the decoder reads back from each kind of word that the encoder
writes, and that each part of the decoder answers only well-formed operations with a word. -/

namespace Sys2Proof

/-! ## Reading back the words of the encoder -/

/-- Zeros put in front of a word are read above its bits. -/
theorem getLsbD_zero_append {m n i : Nat} (b : BitVec m) (h : m ≤ i) : (0#n ++ b).getLsbD i = false := by
  rw [BitVec.getLsbD_append, if_neg (Nat.not_lt.2 h), BitVec.getLsbD_zero]

@[simp] theorem beatKind_dataBeat (b : Byte) : beatKind (dataBeat b) = .data b := by
  have hfail : (dataBeat b).getLsbD 9 = false := getLsbD_zero_append b (by decide)
  have hend : (dataBeat b).getLsbD 8 = false := getLsbD_zero_append b (by decide)
  have hdata : (dataBeat b).setWidth 8 = b := BitVec.setWidth_append_eq_right
  rw [beatKind, hfail, hend, hdata]; rfl

@[simp] theorem beatKind_endBeat : beatKind endBeat = .endOfStream := rfl

@[simp] theorem beatKind_failBeat : beatKind failBeat = .fail := rfl

/-- A data beat of the output stream is read as its byte (30_encoding.md R97). -/
theorem decodeOutput_data (b : Byte) : decodeOutput (0#1 ++ b) = .outData b := by
  have hend : (0#1 ++ b).getLsbD 8 = false := getLsbD_zero_append b (Nat.le_refl 8)
  have hdata : (0#1 ++ b).setWidth 8 = b := BitVec.setWidth_append_eq_right
  rw [decodeOutput, hend, hdata]; rfl

/-- Shifting the bits of a byte in from the right gives the byte (30_encoding.md R105). -/
theorem byteOfBits_bitsOfByte (y : Byte) : byteOfBits (bitsOfByte y) = y := by revert y; decide +kernel

/-- The nine bits of a leaf token are read as its symbol (30_encoding.md R104). -/
theorem decodeToken_leaf (y : Byte) : decodeToken (true :: bitsOfByte y) = .ok (.tLeaf y) := by
  have hlen : (bitsOfByte y).length = 8 := rfl
  simp [decodeToken, hlen, byteOfBits_bitsOfByte]

/-- The pad byte holds the count (30_encoding.md R107). -/
theorem padByte_eq (p : BitVec 3) : 0#5 ++ p = BitVec.ofNat 8 p.toNat := by revert p; decide

theorem padByte_le (p : BitVec 3) : (BitVec.ofNat 8 p.toNat).toNat ≤ 7 := by
  have := p.isLt
  rw [BitVec.toNat_ofNat]; omega

/-- The pad byte of a 3-bit count (30_encoding.md R107). -/
theorem decode_artPad (p : BitVec 3) : decode .artPad (.bytes [0#5 ++ p]) = .ok (.artPad p) := by
  have hle : (0#5 ++ p).toNat ≤ 7 := padByte_eq p ▸ padByte_le p
  have hp : (0#5 ++ p).setWidth 3 = p := BitVec.setWidth_append_eq_right
  simp only [decode, if_pos hle, hp]

/-- Settles O1: one case per operation that has a word; a sub-operation has none. -/
theorem decodeInvertsEncode : Obligations.DecodeInvertsEncode := by
  unfold Obligations.DecodeInvertsEncode
  intro i hwf sel w h
  cases i <;> cases h
  case cmdIgnored op =>
    have hop : op ≠ 3#2 := by simpa [Instr.wellFormed] using hwf
    simp only [decode, decodeCommand, if_neg hop]
  case outData b => exact congrArg _ (decodeOutput_data b)
  case tLeaf y => exact decodeToken_leaf y
  case artTreepad n =>
    have hn : 1 ≤ n ∧ n ≤ 7 := of_decide_eq_true hwf
    simp only [decode, List.length_replicate, if_pos hn]
  case artPad p => exact decode_artPad p
  case code c =>
    have hc : 1 ≤ c.length ∧ c.length ≤ codeMax := of_decide_eq_true hwf
    simp only [decode, if_pos hc]
  case freqCount b | encSym b | decCount b | decTree1 b | decTree b | decPad b | decData b =>
    simp [decode, decodeInput]
  all_goals rfl

/-! ## What the decoder answers -/

/-- Well-formed, and the encoder gives it a word. -/
def Instr.HasWord (i : Instr) : Prop := i.wellFormed = true ∧ ∃ sel w, encode i = some (sel, w)

theorem hasWord_of_decodeCommand {ph : Phase} {op : BitVec 2} {i : Instr} (h : decodeCommand ph op = .ok i) : i.HasWord := by
  unfold decodeCommand at h
  split at h
  · split_ifs at h <;> cases h <;> exact ⟨rfl, _, _, rfl⟩
  · split_ifs at h with hop <;> cases h
    · exact ⟨rfl, _, _, rfl⟩
    · exact ⟨by simpa [Instr.wellFormed] using hop, _, _, rfl⟩
  · cases h

theorem hasWord_of_decodeInput {ph : Phase} {one : Bool} {w : BitVec 10} {i : Instr} (h : decodeInput ph one w = .ok i) :
    i.HasWord := by
  unfold decodeInput at h
  cases one <;> split at h <;> cases h <;> exact ⟨rfl, _, _, rfl⟩

theorem hasWord_decodeOutput (w : BitVec 9) : (decodeOutput w).HasWord := by
  unfold decodeOutput
  split <;> exact ⟨rfl, _, _, rfl⟩

theorem hasWord_of_decodeToken {c : Bits} {i : Instr} (h : decodeToken c = .ok i) : i.HasWord := by
  unfold decodeToken at h
  split at h
  · cases h; exact ⟨rfl, _, _, rfl⟩
  · split_ifs at h; cases h; exact ⟨rfl, _, _, rfl⟩
  · cases h

theorem hasWord_of_decodeInternal {ph : Phase} {i : Instr} (h : decodeInternal ph = .ok i) : i.HasWord := by
  unfold decodeInternal at h
  split at h <;> cases h <;> exact ⟨rfl, _, _, rfl⟩

/-- Settles O2, along the rows of the decoder. -/
theorem decodedOperationsHaveAWord : Obligations.DecodedOperationsHaveAWord := by
  unfold Obligations.DecodedOperationsHaveAWord
  intro sel w i h
  unfold decode at h
  split at h
  · exact hasWord_of_decodeCommand h
  · exact hasWord_of_decodeInput h
  · cases h; exact hasWord_decodeOutput _
  · cases h; exact ⟨rfl, _, _, rfl⟩
  · cases h; exact ⟨rfl, _, _, rfl⟩
  · exact hasWord_of_decodeToken h
  · split_ifs at h with hn; cases h; exact ⟨decide_eq_true hn, _, _, rfl⟩
  · split_ifs at h; cases h; exact ⟨rfl, _, _, rfl⟩
  · cases h; exact ⟨rfl, _, _, rfl⟩
  · split_ifs at h with hc; cases h; exact ⟨decide_eq_true hc, _, _, rfl⟩
  · exact hasWord_of_decodeInternal h
  · cases h; exact ⟨rfl, _, _, rfl⟩
  · cases h

/-! ## Words written out, and the kind of a beat -/

/-- Settles O3: the decoder evaluated on the words. -/
theorem wordsDecodeAsWrittenOut : Obligations.WordsDecodeAsWrittenOut := by
  unfold Obligations.WordsDecodeAsWrittenOut
  decide

/-- Settles O4: the tests of `beatKind` in their order. -/
theorem beatKindIsDecidedInOrder : Obligations.BeatKindIsDecidedInOrder := by
  unfold Obligations.BeatKindIsDecidedInOrder beatKind
  intro w
  refine ⟨fun hf => ?_, fun hf he => ?_, fun hf he => ?_⟩
  · rw [hf]; rfl
  · rw [hf, he]; rfl
  · rw [hf, he]; rfl

end Sys2Proof

/-! PROOF. The output beats, the ready and valid outputs, and the artifact elements in both directions (30_encoding.md R94 to R109): an
element runs a list of bits or bytes through an operation, which is the same as running the operations one after the other. -/

namespace Sys2Proof.Machine

/-! ## The output beats and the handshake -/

/-- Settles O56. -/
theorem outputBeatsAreAppended : Obligations.OutputBeatsAreAppended := by
  unfold Obligations.OutputBeatsAreAppended
  exact fun b s => ⟨rfl, rfl⟩

theorem takesCommand_iff (ph : Phase) : Phase.takesCommand ph = true ↔ ph = .idle ∨ ph = .error := by
  cases ph <;> decide

theorem takesInput_iff (ph : Phase) :
    Phase.takesInput ph = true ↔
      ph = .scan ∨ ph = .encode ∨ ph = .dCount ∨ ph = .dTree ∨ ph = .dPad ∨ ph = .dPayload := by
  cases ph <;> decide

/-- Settles O5: each output is a test of the phase and of `oq`. -/
theorem readyAndValidSignals : Obligations.ReadyAndValidSignals := by
  unfold Obligations.ReadyAndValidSignals
  intro s
  refine ⟨?_, ?_, ?_, ?_⟩
  · rw [State.cmdReady, Bool.and_eq_true, takesCommand_iff, List.isEmpty_iff]
  · rw [State.inReady, Bool.and_eq_true, takesInput_iff, List.isEmpty_iff, and_comm]
  · rw [State.outValid, Bool.not_eq_true', List.isEmpty_eq_false_iff]
  · intro b rest h
    rw [State.outBeat, h, List.head?_cons]

/-! ## Operations one after the other -/

@[simp] theorem onNext_next (s : State) (k : State → Host.Outcome State Fault Refusal) : onNext (.next s) k = k s := rfl
@[simp] theorem onNext_fault (f : Fault) (k : State → Host.Outcome State Fault Refusal) : onNext (.fault f) k = .fault f := rfl

theorem execAll_cons {i : Instr} {rest : List Instr} {s : State} :
    execAll (i :: rest) s = onNext (exec i s) (execAll rest) := rfl

/-- An operation that raises no error, then the rest from where it ends. -/
theorem execAll_cons_of_noRaise {i : Instr} {rest : List Instr} {s : State} {r : Res Unit} {Q : Unit → State → Prop}
    {k : State → Res Unit} (he : exec i s = r.outcome) (hr : r.Post Q NoRaise)
    (hk : ∀ t, Q () t → execAll rest t = (k t).outcome) : execAll (i :: rest) s = (r.next k).outcome := by
  rw [execAll_cons, he]
  cases r with
  | ok a t => exact hk t hr
  | raised t => exact hr.elim
  | fault f => rfl

/-! ## Bits and bytes through the writer (43_bitstream.md R176, R177) -/

theorem topBits_eight (v : Byte) : topBits v 8 = bitsOfByte v := rfl

/-- The payload bytes go through the writer bit by bit (30_encoding.md R108). -/
theorem writePayload_eq (bs : List Byte) (s : State) : writePayload bs s = putBits (bs.flatMap bitsOfByte) s := by
  induction bs generalizing s with
  | nil => rfl
  | cons b bs ih => rw [List.flatMap_cons, putBits_append, ← ih]; rfl

/-- The phases that write an artifact (43_bitstream.md R175). -/
def Writing (s : State) : Prop := s.phase = .emitHdr ∨ s.phase = .encode

theorem writesArtifact_iff {s : State} : s.writesArtifact = true ↔ Writing s := by
  unfold State.writesArtifact Writing
  cases s.phase <;> simp

theorem Writing.writesArtifact {s : State} (h : Writing s) : s.writesArtifact = true := writesArtifact_iff.2 h

theorem Writing.readable {s : State} (h : Writing s) : Readable s [.writer] :=
  h.elim (fun hp => readable_of_phase hp (by simp) (by simp) rfl) fun hp => readable_of_phase hp (by simp) (by simp) rfl

theorem Writing.putBit {s : State} (h : Writing s) (x : Bool) : Writing (putBit x s) := by
  unfold Writing; rw [putBit_frame]; exact h

/-- W.PUTBIT for each bit is W.PUTBITS (43_bitstream.md R177). -/
theorem Writing.execAll_wPutbit {s : State} (h : Writing s) (c : Bits) :
    execAll (c.map .wPutbit) s = .next (putBits c s) := by
  induction c generalizing s with
  | nil => rfl
  | cons x c ih => rw [List.map_cons, execAll_cons, exec_wPutbit x h.readable]; exact ih (h.putBit x)

section WrittenElements
variable {s : State} (h : Writing s)
include h

theorem Writing.exec_artN (n : Byte) : exec (.artN n) s = .next (emit n s) := if_pos h.writesArtifact

theorem Writing.exec_artTree1 (y : Byte) : exec (.artTree1 y) s = .next (emit y s) := if_pos h.writesArtifact

theorem Writing.exec_artPad (p : BitVec 3) : exec (.artPad p) s = .next (emit (BitVec.ofNat 8 p.toNat) s) :=
  padByte_eq p ▸ if_pos h.writesArtifact

theorem Writing.exec_tInternal : exec .tInternal s = .next (Machine.putBit false s) :=
  (if_pos h.writesArtifact).trans (reading_ok h.readable)

theorem Writing.exec_tLeaf (y : Byte) : exec (.tLeaf y) s = .next (putBits (true :: bitsOfByte y) s) :=
  (if_pos h.writesArtifact).trans (reading_ok h.readable)

theorem Writing.exec_artTreepad (n : Nat) : exec (.artTreepad n) s = .next (putBits (List.replicate n false) s) :=
  (if_pos h.writesArtifact).trans (reading_ok h.readable)

theorem Writing.exec_artPayload (bs : List Byte) : exec (.artPayload bs) s = .next (putBits (bs.flatMap bitsOfByte) s) :=
  writePayload_eq bs s ▸ (if_pos h.writesArtifact).trans (reading_ok h.readable)

theorem Writing.exec_code (c : Bits) : exec (.code c) s = .next (putBits c s) :=
  (if_pos h.writesArtifact).trans (reading_ok h.readable)

end WrittenElements

/-- Settles O57: a whole byte is emitted; every other element is W.PUTBITS of its bits. -/
theorem artifactElementsAreWritten : Obligations.ArtifactElementsAreWritten := by
  unfold Obligations.ArtifactElementsAreWritten
  intro s hp
  have h : Writing s := hp
  simp only [topBits_eight]
  exact ⟨h.exec_artN, h.exec_artTree1,
    ⟨_, h.exec_tInternal, exec_wPutbit false h.readable⟩,
    fun y => ⟨_, h.exec_tLeaf y, h.execAll_wPutbit _⟩,
    fun n _ _ => ⟨_, h.exec_artTreepad n, h.execAll_wPutbit _⟩,
    h.exec_artPad,
    fun bs => ⟨_, h.exec_artPayload bs, h.execAll_wPutbit _⟩,
    fun c => ⟨_, h.exec_code c, h.execAll_wPutbit _⟩⟩

/-! ## The bits of the tree section through the parser (44_framing.md R218)

`ret` is the model's own, and no operation of the parser reads it (log 7): run on its own an operation leaves its value there, inside
DEC.TREE or a token it does not. So both are compared with `ret` replaced by one value. -/

/-- The state with `ret` replaced. -/
def State.setRet (s : State) (v : Ret) : State := { s with ret := v }

/-- The same result with `ret` replaced. -/
def Res.setRet {α : Type} (r : Res α) (v : Ret) : Res α :=
  match r with
  | .ok a s => .ok a (s.setRet v)
  | .raised s => .raised (s.setRet v)
  | .fault f => .fault f

@[simp] theorem State.setRet_phase (s : State) (v : Ret) : (s.setRet v).phase = s.phase := rfl
@[simp] theorem State.setRet_ret (s : State) (v : Ret) : (s.setRet v).ret = v := rfl
@[simp] theorem State.setRet_setRet (s : State) (v w : Ret) : (s.setRet v).setRet w = s.setRet w := rfl
@[simp] theorem Res.setRet_ok {α : Type} (a : α) (s : State) (v : Ret) : (Res.ok a s).setRet v = .ok a (s.setRet v) := rfl
@[simp] theorem Res.setRet_raised {α : Type} (s : State) (v : Ret) :
    (Res.raised s : Res α).setRet v = .raised (s.setRet v) := rfl
@[simp] theorem Res.setRet_fault {α : Type} (f : Fault) (v : Ret) : (Res.fault f : Res α).setRet v = .fault f := rfl

/-- An operation run on its own leaves its value in `ret` (log 7). -/
theorem Res.outcomeRet_eq_setRet {α : Type} (a : α) (s : State) (f : α → Ret) :
    (Res.ok a s).outcomeRet f = .next (s.setRet (f a)) := rfl

/-- The operation does not look at `ret`. -/
def IgnoresRet {α : Type} (k : State → Res α) : Prop := ∀ s v, k (s.setRet v) = (k s).setRet v

theorem Res.setRet_bind {α β : Type} {r : Res α} {k : α → State → Res β} {v : Ret} (hk : ∀ a, IgnoresRet (k a)) :
    (r.setRet v).bind k = (r.bind k).setRet v := by
  cases r with
  | ok a s => exact hk a s v
  | raised s => rfl
  | fault f => rfl

theorem IgnoresRet.bind {α β : Type} {f : State → Res α} {k : α → State → Res β} (hf : IgnoresRet f)
    (hk : ∀ a, IgnoresRet (k a)) : IgnoresRet fun s => (f s).bind k := fun s v => by
  show (f (s.setRet v)).bind k = _
  rw [hf s v, Res.setRet_bind hk]

theorem IgnoresRet.next {β : Type} {f : State → Res Unit} {k : State → Res β} (hf : IgnoresRet f) (hk : IgnoresRet k) :
    IgnoresRet fun s => (f s).next k := hf.bind fun _ => hk

/-- Writing other fields first. -/
theorem IgnoresRet.comp {α : Type} {k : State → Res α} (hk : IgnoresRet k) (f : State → State)
    (hf : ∀ s v, f (s.setRet v) = (f s).setRet v) : IgnoresRet fun s => k (f s) := fun s v => by
  show k (f (s.setRet v)) = _
  rw [hf, hk]

theorem ignoresRet_readAt {α : Type} (sp : Space) (m : Memory α) (i : Nat) : IgnoresRet (readAt sp m i) := fun s v => by
  unfold readAt; cases Memory.read m i <;> rfl

theorem ignoresRet_readNode (k : Nat) : IgnoresRet (readNode k) := fun s => ignoresRet_readAt .node s.node k s

theorem ignoresRet_readSeen (i : Nat) : IgnoresRet (readSeen i) := fun s => ignoresRet_readAt .seen s.seen i s

theorem ignoresRet_writeNode (k : Nat) (n : Node) : IgnoresRet (writeNode k n) := fun s v => by
  unfold writeNode; split <;> rfl

theorem ignoresRet_writeTreeNode (k : Nat) (leaf : Bool) (y : Byte) : IgnoresRet (writeTreeNode k leaf y) := fun s =>
  ignoresRet_writeNode k { leaf := leaf, sym := y, freq := (s.nodeAt k).bind Node.freq, left := 0, right := 0 } s

theorem ignoresRet_popStack : IgnoresRet popStack := fun s v => by
  dsimp only [popStack, State.setRet]
  split
  · rfl
  · exact (ignoresRet_readAt .pstack s.pstack (s.psN - 1)).bind (fun p _ _ => rfl) s v

theorem ignoresRet_pushStack (k : Nat) : IgnoresRet (pushStack k) := fun s v => by
  dsimp only [pushStack, State.setRet]
  split <;> rfl

theorem ignoresRet_treeAttach (k : Nat) : IgnoresRet (treeAttach k) := fun s v => by
  dsimp only [treeAttach, State.setRet]
  split
  · rfl
  · split
    · exact (ignoresRet_readNode (k - 1)).bind (fun n => ignoresRet_writeNode (k - 1) { n with left := k }) s v
    · exact ignoresRet_popStack.bind
        (fun p => (ignoresRet_readNode p).bind fun n => ignoresRet_writeNode p { n with right := k }) s v

theorem ignoresRet_treeFlag (x : Bool) : IgnoresRet (treeFlag x) := fun s v => by
  dsimp only [treeFlag, State.setRet]
  split
  · rfl
  · split
    · rfl
    · exact (ignoresRet_treeAttach s.tNodes).next ((ignoresRet_writeTreeNode s.tNodes false 0#8).next
        ((ignoresRet_pushStack s.tNodes).next fun _ _ => rfl)) s v

theorem ignoresRet_treeComplete : IgnoresRet treeComplete := fun s v => by
  dsimp only [treeComplete, State.setRet]
  split
  · split <;> rfl
  · rfl

theorem ignoresRet_treeLeaf (y : Byte) : IgnoresRet (treeLeaf y) := by
  refine (ignoresRet_readSeen y.toNat).bind fun seen s v => ?_
  cases seen with
  | true => rfl
  | false =>
    have hattach := (ignoresRet_treeAttach s.tNodes).comp (fun s => { s with seen := Memory.write s.seen y.toNat true })
      fun _ _ => rfl
    exact hattach.next ((ignoresRet_writeTreeNode s.tNodes true y).next (ignoresRet_treeComplete.comp
        (fun s => { s with tLwi := false, tLeaves := s.tLeaves + 1, tNodes := s.tNodes + 1 }) fun _ _ => rfl)) s v

theorem ignoresRet_treeSymbit (x : Bool) : IgnoresRet (treeSymbit x) := fun s v => by
  dsimp only [treeSymbit, State.setRet]
  split
  · exact (ignoresRet_treeLeaf _).comp (fun t => { t with
      tSym := s.tSym <<< 1 ||| if x then 1#8 else 0#8, tSymn := t.tSymn + 1, tState := .flag }) (fun _ _ => rfl) s v
  · rfl

theorem ignoresRet_treeBit (x : Bool) : IgnoresRet (treeBit x) := fun s v => by
  dsimp only [treeBit, State.setRet]
  split
  · exact (ignoresRet_treeFlag x).next (fun _ _ => rfl) s v
  · exact ignoresRet_treeSymbit x s v

theorem ParserOnly.phase_eq {s t : State} (h : ParserOnly s t) : t.phase = s.phase := by rw [h]

theorem ParserRaised.phase_eq {s t : State} (h : ParserRaised s t) : t.phase = .error := by
  obtain ⟨_, _, _, _, _, rfl⟩ := h; rfl

theorem readable_parser {s : State} (hp : s.phase = .dTree) : Readable s [.parser, .symbols, .tree] :=
  readable_of_phase hp (by simp) (by simp) rfl

/-- In D_TREE the bits of a sequence through TREE.FLAG and TREE.SYMBIT have the effect of the parser's loop, but for `ret`. -/
theorem parseBits_eq_treeBits {s : State} (hp : s.phase = .dTree) (c : Bits) (v : Ret) :
    onNext (parseBits c s) (fun t => .next (t.setRet v)) = (treeBits c (s.setRet v)).outcome := by
  induction c generalizing s with
  | nil => rfl
  | cons x c ih =>
    have hpost := treeBit_post x s
    rw [treeBits, ignoresRet_treeBit, parseBits]
    unfold treeBit at hpost ⊢
    cases hst : s.tState with
    | flag =>
      simp only [hst, if_true] at hpost ⊢
      rw [exec_treeFlag x (readable_parser hp)]
      cases hr : treeFlag x s with
      | ok a t =>
        obtain ⟨⟩ := a
        rw [hr] at hpost
        have ht : t.phase = .dTree := (ParserOnly.phase_eq hpost).trans hp
        simp [ht, ih]
      | raised t =>
        rw [hr] at hpost
        simp [ParserRaised.phase_eq hpost]
      | fault f => rfl
    | sym =>
      simp only [hst, reduceCtorEq, if_false] at hpost ⊢
      rw [exec_treeSymbit x (readable_parser hp)]
      cases hr : treeSymbit x s with
      | ok complete t =>
        rw [hr] at hpost
        have ht : t.phase = .dTree := (ParserOnly.phase_eq hpost).trans hp
        cases complete with
        | true => simp [Res.outcomeRet_eq_setRet, -Res.outcomeRet_ok, ht, State.setRet]
        | false => simp [Res.outcomeRet_eq_setRet, -Res.outcomeRet_ok, ht, ih]
      | raised t =>
        rw [hr] at hpost
        simp [ParserRaised.phase_eq hpost]
      | fault f => rfl

theorem onNext_eq_next {o : Host.Outcome State Fault Refusal} {k : State → Host.Outcome State Fault Refusal} {u : State} :
    onNext o k = .next u ↔ ∃ t, o = .next t ∧ k t = .next u := by
  cases o <;> simp [onNext]

/-- Where the parser's loop goes on, TREE.FLAG and TREE.SYMBIT go on to the same state, but for `ret`. -/
theorem parseBits_of_treeBits {s u : State} (hp : s.phase = .dTree) {c : Bits} (h : (treeBits c s).outcome = .next u) :
    ∃ t, parseBits c s = .next t ∧ u = t.setRet s.ret := by
  have heq := (parseBits_eq_treeBits hp c s.ret).trans h
  obtain ⟨t, ht, hu⟩ := onNext_eq_next.1 heq
  cases hu
  exact ⟨t, ht, rfl⟩

/-- A single bit that begins a token is read by TREE.FLAG (R218). -/
theorem treeBits_flag {s : State} (x : Bool) (hst : s.tState = .flag) : treeBits [x] s = treeFlag x s := by
  unfold treeBits treeBit
  rw [hst]
  cases treeFlag x s <;> rfl

theorem Inv.inTree {s : State} (h : Inv s) (hp : s.phase = .dTree) (hN : s.nsym ≠ 1) : InTree s := by
  obtain ⟨hseen, hparsing⟩ := h.ready hp
  exact ⟨h.mid (by simp [hp]), hp, hseen, hparsing, hN⟩

theorem InTree.treeBits_next {s : State} (h : InTree s) (c : Bits) : ∃ u, (treeBits c s).outcome = .next u := by
  rcases treeBits_ok c h with ⟨t, he, -⟩ | ⟨t, he, -⟩ | ⟨i, d, u, he, -⟩
  all_goals rw [he]; exact ⟨_, rfl⟩

/-! ## Bits and bytes through the walk (45_decode.md R231) -/

theorem readable_walk {s : State} (hp : s.phase = .dPayload) : Readable s [.reader, .symbols, .tree] :=
  readable_of_phase hp (by simp) (by simp) rfl

/-- WALK.BIT1 and WALK.BIT run as operations are the two branches of WALK. -/
theorem exec_walkOp {s : State} (hp : s.phase = .dPayload) (x : Bool) :
    exec (walkOp s.nsym x) s = (walk x s).outcome := by
  unfold walkOp walk
  split
  · exact exec_walkBit1 x (readable_of_phase hp (by simp) (by simp) rfl)
  · exact exec_walkBit x (readable_of_phase hp (by simp) (by simp) rfl)

/-- WALK for each bit in order (R231). -/
theorem execAll_walkOp {s : State} (hp : s.phase = .dPayload) (c : Bits) :
    execAll (c.map (walkOp s.nsym)) s = (walkBits c s).outcome := by
  induction c generalizing s with
  | nil => rfl
  | cons x c ih =>
    refine execAll_cons_of_noRaise (exec_walkOp hp x) (walk_post x s) ?_
    rintro t ⟨ys, ht⟩
    have hphase : t.phase = .dPayload := by rw [ht]; exact hp
    have hnsym : t.nsym = s.nsym := by rw [ht]
    rw [← hnsym]
    exact ih hphase

/-- DEC.DATA for each byte in order (30_encoding.md R108). -/
theorem execAll_decData {s : State} (hp : s.phase = .dPayload) (bs : List Byte) :
    execAll (bs.map .decData) s = (readPayload bs s).outcome := by
  induction bs generalizing s with
  | nil => rfl
  | cons b bs ih =>
    refine execAll_cons_of_noRaise (exec_decData b (readable_walk hp)) (decData_post b s) ?_
    rintro t ⟨u, ⟨ys, hu⟩, rfl⟩
    exact ih (by show u.phase = _; rw [hu]; exact hp)

theorem Decoding.walkBits_ok {s : State} (h : Decoding s) (c : Bits) : ∃ t, Machine.walkBits c s = .ok () t ∧ Decoding t := by
  obtain ⟨n, -, ht, hw⟩ := h.inv.ready h.phase
  obtain ⟨k, ys, he, -⟩ := Machine.walkBits_ok c ht hw
  have hpost := h.walkBits c
  rw [he] at hpost
  exact ⟨_, he, hpost⟩

theorem Decoding.decData_ok {s : State} (h : Decoding s) (b : Byte) : ∃ t, Machine.decData b s = .ok () t ∧ Decoding t := by
  unfold Machine.decData
  cases s.holdV with
  | true =>
    obtain ⟨t, he, ht⟩ := h.walkBits_ok (rBits s.hold 8)
    exact ⟨_, by rw [if_pos rfl, he]; rfl, ht.hold b true⟩
  | false => exact ⟨_, rfl, h.hold b true⟩

theorem Decoding.readPayload_ok {s : State} (h : Decoding s) (bs : List Byte) : ∃ t, readPayload bs s = .ok () t := by
  induction bs generalizing s with
  | nil => exact ⟨s, rfl⟩
  | cons b bs ih =>
    obtain ⟨t, he, ht⟩ := h.decData_ok b
    rw [readPayload, he]
    exact ih ht

/-! ## The elements read -/

theorem not_writesArtifact {s : State} {ph : Phase} (hp : s.phase = ph) (he : ph ≠ .emitHdr) (hc : ph ≠ .encode) :
    ¬ s.writesArtifact = true := by
  rw [writesArtifact_iff, Writing, hp]
  exact not_or.2 ⟨he, hc⟩

section ReadElements
variable {s : State}

theorem exec_artN_read (hp : s.phase = .dCount) (n : Byte) : exec (.artN n) s = exec (.decCount n) s :=
  if_neg (not_writesArtifact hp (by simp) (by simp))

theorem exec_artTree1_read (hp : s.phase = .dTree) (y : Byte) : exec (.artTree1 y) s = (decTree1 y s).outcome :=
  if_neg (not_writesArtifact hp (by simp) (by simp))

theorem exec_tInternal_read (hp : s.phase = .dTree) : exec .tInternal s = (treeBits [false] s).outcome :=
  (if_neg (not_writesArtifact hp (by simp) (by simp))).trans (reading_ok (readable_parser hp))

theorem exec_tLeaf_read (hp : s.phase = .dTree) (y : Byte) : exec (.tLeaf y) s = (treeBits (true :: bitsOfByte y) s).outcome :=
  (if_neg (not_writesArtifact hp (by simp) (by simp))).trans (reading_ok (readable_parser hp))

theorem exec_artTreepad_read (hp : s.phase = .dPad) (n : Nat) : exec (.artTreepad n) s = .next s :=
  if_neg (not_writesArtifact hp (by simp) (by simp))

theorem exec_artPad_read (hp : s.phase = .dPad) (p : BitVec 3) :
    exec (.artPad p) s = exec (.decPad (BitVec.ofNat 8 p.toNat)) s :=
  padByte_eq p ▸ if_neg (not_writesArtifact hp (by simp) (by simp))

theorem exec_artPayload_read (hp : s.phase = .dPayload) (bs : List Byte) :
    exec (.artPayload bs) s = (readPayload bs s).outcome :=
  (if_neg (not_writesArtifact hp (by simp) (by simp))).trans (reading_ok (readable_walk hp))

theorem exec_code_read (hp : s.phase = .dPayload) (c : Bits) : exec (.code c) s = (walkBits c s).outcome :=
  (if_neg (not_writesArtifact hp (by simp) (by simp))).trans (reading_ok (readable_walk hp))

end ReadElements

/-- DEC.PAD of a pad byte opens the payload (44_framing.md R224). -/
theorem exec_decPad_of_le {s : State} (hp : s.phase = .dPad) {b : Byte} (hb : b.toNat ≤ 7) :
    exec (.decPad b) s = .next { s with pad := b.toNat % 8, holdV := false, cur := s.root, phase := .dPayload } := by
  rw [exec_decPad b (readable_of_phase hp (by simp) (by simp) rfl), decPad, if_neg (Nat.not_lt.2 hb), Res.outcome_ok]

/-- Settles O58: an element runs the parser's or the walk's loop over its bits or bytes, which stops nowhere in a state with the
invariant. -/
theorem artifactElementsAreRead : Obligations.ArtifactElementsAreRead := by
  unfold Obligations.ArtifactElementsAreRead
  intro s h
  simp only [topBits_eight]
  refine ⟨fun hp n => ?_, fun hp _ y => ?_, fun hp hN hst => ⟨?_, fun y => ?_⟩, fun hp n => exec_artTreepad_read hp n,
    fun hp p => ?_, fun hp bs => ?_, fun hp c => ?_⟩
  · exact ⟨decCount n s, exec_artN_read hp n, rfl⟩
  · exact ⟨_, exec_artTree1_read hp y, rfl⟩
  · obtain ⟨u, hu⟩ := (h.inTree hp hN).treeBits_next [false]
    refine ⟨u, (exec_tInternal_read hp).trans hu, ?_⟩
    rw [exec_treeFlag false (readable_parser hp), ← treeBits_flag false hst, hu]
  · obtain ⟨u, hu⟩ := (h.inTree hp hN).treeBits_next (true :: bitsOfByte y)
    obtain ⟨t, ht, rfl⟩ := parseBits_of_treeBits hp hu
    exact ⟨t, (exec_tLeaf_read hp y).trans hu, ht⟩
  · have hpad := exec_decPad_of_le hp (padByte_le p)
    exact ⟨_, (exec_artPad_read hp p).trans hpad, hpad, rfl⟩
  · obtain ⟨t, ht⟩ := (Decoding.mk h hp).readPayload_ok bs
    exact ⟨t, by rw [exec_artPayload_read hp, ht, Res.outcome_ok], by rw [execAll_decData hp, ht, Res.outcome_ok]⟩
  · obtain ⟨t, ht, -⟩ := (Decoding.mk h hp).walkBits_ok c
    exact ⟨t, by rw [exec_code_read hp, ht, Res.outcome_ok], by rw [execAll_walkOp hp, ht, Res.outcome_ok]⟩

end Sys2Proof.Machine

/-! PROOF. Frequency accounting (40_frequency.md R130 to R135): what CMD.COMPRESS leaves, what one beat of SCAN does, and by induction
over the beats what pass 1 has counted. -/

namespace Sys2Proof.Machine

/-! ## CMD.COMPRESS and FREQ.CLEAR (46_codec_commands.md R251, 40_frequency.md R130) -/

theorem Memory.read_fill_of_le {α : Type} {n : Nat} (v : α) {i : Nat} (hi : n ≤ i) : Memory.read (Memory.fill n v) i = none := by
  rw [Memory.read_none_iff, Memory.covers_fill, List.mem_range]; exact Nat.not_lt.2 hi

/-- The arrays that a compress has yet to write keep what they hold (10_state.md R20). -/
theorem cmdCompress_keepsArrays (s : State) (i : Nat) :
    (cmdCompress s).nodeAt i = s.nodeAt i ∧ (cmdCompress s).codeAt i = s.codeAt i ∧
    (cmdCompress s).pstackAt i = s.pstackAt i ∧ (cmdCompress s).seenAt i = s.seenAt i :=
  ⟨openTransaction_nodeAt s i, openTransaction_codeAt s i, openTransaction_pstackAt s i, openTransaction_seenAt s i⟩

theorem cmdCompress_counted (s : State) : Counted (cmdCompress s) :=
  have h := freqClear_counted (openTransaction s)
  ⟨h.covers, h.total, h.nsym⟩

/-- Settles O18: FREQ is filled with zeros, and what the other arrays held goes over to what earlier transactions have left. -/
theorem compressOpensPassOne : Obligations.CompressOpensPassOne := by
  unfold Obligations.CompressOpensPassOne
  intro s
  exact ⟨Memory.fill 256 0, cmdCompress s, fun y hy => Memory.read_fill 256 0 hy, fun y hy => Memory.read_fill_of_le 0 hy,
    rfl, rfl, rfl, cmdCompress_keepsArrays s⟩

/-! ## The beats of SCAN (40_frequency.md R132, R133) -/

/-- The state after a beat with byte `b` has been counted, where FREQ[b] was `f` (R132). -/
def State.countBeat (b : Byte) (f : Nat) (s : State) : State :=
  { s with
    nsym := if f = 0 then s.nsym + 1 else s.nsym
    freq := Memory.write s.freq b.toNat (f + 1)
    total := s.total + 1 }

@[simp] theorem countBeat_total (b : Byte) (f : Nat) (s : State) : (s.countBeat b f).total = s.total + 1 := rfl
@[simp] theorem countBeat_freq (b : Byte) (f : Nat) (s : State) :
    (s.countBeat b f).freq = Memory.write s.freq b.toNat (f + 1) := rfl

theorem freqCount_overflow {b : Byte} {s : State} (h : s.total = s.cfg.maxCnt) :
    freqCount b s = .raised (raise .countOverflow infoNone b s) := by
  unfold freqCount; rw [if_pos h]; rfl

theorem freqCount_ok {b : Byte} {f : Nat} {s : State} (h : s.total ≠ s.cfg.maxCnt) (hf : Memory.read s.freq b.toNat = some f) :
    freqCount b s = .ok () (s.countBeat b f) := by
  unfold freqCount readFreq; rw [if_neg h, readAt_some s hf]; rfl

theorem scanEnd_empty {s : State} (h : s.total = 0) : scanEnd s = .raised (raise .emptyInput infoNone 0#8 s) := by
  unfold scanEnd; rw [if_pos h]; rfl

theorem scanEnd_ok {s : State} (h : s.total ≠ 0) : scanEnd s = .ok () { s with phase := .build } := by
  unfold scanEnd; rw [if_neg h]

/-- Settles O23, by the two sides of each rule's test. At the end of a range (`nsym` = 256 with FREQ[b] = 0, FREQ[b] = MAXCNT) it says what
the model chooses (log 26). -/
theorem scanBeatsCountAndClose : Obligations.ScanBeatsCountAndClose := by
  unfold Obligations.ScanBeatsCountAndClose
  refine ⟨fun b s f hr hf => ⟨fun h => ?_, fun h => ⟨Memory.write s.freq b.toNat (f + 1), ?_, fun y => ?_⟩⟩,
    fun s hr => ⟨fun h => ?_, fun h => ?_⟩⟩
  · rw [exec_freqCount b hr, freqCount_overflow h]; rfl
  · rw [exec_freqCount b hr, freqCount_ok h hf]; rfl
  · exact Memory.read_write s.freq b.toNat y (f + 1)
  · rw [exec_scanEnd hr, scanEnd_empty h]; rfl
  · rw [exec_scanEnd hr, scanEnd_ok h, Res.outcome_ok]

/-! ## What the counts say (40_frequency.md R135) -/

theorem Counted.countBeat {s : State} (h : Counted s) {b : Byte} {f : Nat} (hf : Memory.read s.freq b.toNat = some f) :
    Counted (s.countBeat b f) := h.count hf

theorem Counted.total_eq_sum_countAt {s : State} (h : Counted s) :
    s.total = ((List.range alpha).map fun y => countAt s.freq y).sum := by
  rw [h.total]
  conv_lhs => rw [h.covers.eq_map]
  rw [List.map_map]
  rfl

/-- A symbol that occurs is one of the `nsym`. -/
theorem Counted.nsym_pos {s : State} (h : Counted s) {b : Byte} {f : Nat} (hf : Memory.read s.freq b.toNat = some f)
    (hpos : 0 < f) : 0 < s.nsym := by
  rw [← h.occurring.1]
  refine List.length_pos_of_mem (a := b.toNat) (List.mem_filter.2 ⟨List.mem_range.2 b.isLt, ?_⟩)
  simpa [countAt, hf] using hpos

/-- Every symbol that occurs adds at least one to the sum of the counts. -/
theorem Counted.nsym_le_total {s : State} (h : Counted s) : s.nsym ≤ s.total := by
  rw [h.nsym, h.total]
  induction s.freq with
  | nil => simp
  | cons p m ih =>
    rw [List.countP_cons, List.map_cons, List.sum_cons]
    split
    · rename_i hp
      have : p.2 ≠ 0 := by simpa using hp
      omega
    · omega

/-! ## Pass 1 (40_frequency.md R135) -/

/-- `t` stands in SCAN after CMD.COMPRESS in `s` and the DATA beats `S`. -/
structure PassOne (s : State) (S : List Byte) (t : State) : Prop where
  frame : t = { cmdCompress s with freq := t.freq, total := t.total, nsym := t.nsym }
  counted : Counted t
  total : t.total = S.length
  count : ∀ y : Byte, Memory.read t.freq y.toNat = some (S.count y)

theorem PassOne.phase {s t : State} {S : List Byte} (h : PassOne s S t) : t.phase = .scan := congrArg State.phase h.frame
theorem PassOne.cfg {s t : State} {S : List Byte} (h : PassOne s S t) : t.cfg = s.cfg := by rw [h.frame]; rfl
theorem PassOne.old {s t : State} {S : List Byte} (h : PassOne s S t) : t.old = s.arrays := congrArg State.old h.frame

theorem PassOne.readable {s t : State} {S : List Byte} (h : PassOne s S t) : Readable t [.counts] :=
  readable_of_phase h.phase (by simp) (by simp) rfl

theorem passOne_cmdCompress (s : State) : PassOne s [] (cmdCompress s) where
  frame := rfl
  counted := cmdCompress_counted s
  total := rfl
  count y := Memory.read_fill alpha 0 y.isLt

theorem PassOne.countBeat {s t : State} {S : List Byte} (h : PassOne s S t) (b : Byte) :
    PassOne s (S ++ [b]) (t.countBeat b (S.count b)) where
  frame := by rw [h.frame]; rfl
  counted := h.counted.countBeat (h.count b)
  total := by simp [h.total]
  count y := by
    rw [countBeat_freq, Memory.read_write, List.count_append]
    by_cases hy : y = b
    · simp [hy]
    · have hn : y.toNat ≠ b.toNat := fun he => hy (BitVec.eq_of_toNat_eq he)
      simp [hn, h.count y, Ne.symm hy]

theorem PassOne.exec_freqCount {s t : State} {S : List Byte} (h : PassOne s S t) (b : Byte) (hlt : S.length < s.cfg.maxCnt) :
    exec (.freqCount b) t = .next (t.countBeat b (S.count b)) := by
  have hne : t.total ≠ t.cfg.maxCnt := by rw [h.total, h.cfg]; exact Nat.ne_of_lt hlt
  rw [Machine.exec_freqCount b h.readable, freqCount_ok hne (h.count b), Res.outcome_ok]

/-- Any further beats up to MAXCNT are counted. -/
theorem PassOne.beats {s t : State} {S : List Byte} (h : PassOne s S t) (S' : List Byte)
    (hle : (S ++ S').length ≤ s.cfg.maxCnt) : ∃ u, execAll (S'.map .freqCount) t = .next u ∧ PassOne s (S ++ S') u := by
  induction S' generalizing S t with
  | nil => exact ⟨t, rfl, by rwa [List.append_nil]⟩
  | cons b S' ih =>
    have hlt : S.length < s.cfg.maxCnt := by rw [List.length_append, List.length_cons] at hle; omega
    rw [List.append_cons] at hle ⊢
    rw [List.map_cons, execAll_cons, h.exec_freqCount b hlt]
    exact ih (h.countBeat b) hle

/-- SCAN.END closes a pass 1 that had a beat, with the bounds of R135. -/
theorem PassOne.scanEnd {s t : State} {S : List Byte} (h : PassOne s S t) (hS : S ≠ []) :
    exec .scanEnd t = .next { t with phase := .build } ∧ 1 ≤ t.nsym ∧ t.nsym ≤ min 256 t.total ∧ 1 ≤ t.total := by
  have hpos : 0 < t.total := by rw [h.total]; exact List.length_pos_iff.2 hS
  obtain ⟨b, hb⟩ := List.exists_mem_of_ne_nil S hS
  refine ⟨?_, h.counted.nsym_pos (h.count b) (List.count_pos_iff.2 hb), ?_, hpos⟩
  · rw [exec_scanEnd h.readable, scanEnd_ok (Nat.ne_of_gt hpos), Res.outcome_ok]
  · exact Nat.le_min.2 ⟨h.counted.nsym_le, h.counted.nsym_le_total⟩

/-- Settles O24, by induction over the beats with `PassOne` as the invariant. -/
theorem passOneCountsItsInput : Obligations.PassOneCountsItsInput := by
  unfold Obligations.PassOneCountsItsInput
  intro S s hle
  obtain ⟨t, hrun, ht⟩ := (passOne_cmdCompress s).beats S hle
  refine ⟨t, hrun, ?_, fun i => ?_, ht.total, ht.counted.total_eq_sum_countAt, ht.counted.occurring.1.symm, ht.count,
    fun hS => ?_⟩
  · rw [ht.old]; exact ht.frame
  · rw [ht.frame]; exact cmdCompress_keepsArrays s i
  · obtain ⟨hend, hn, hmin, hpos⟩ := ht.scanEnd hS
    exact ⟨hend, hn, hmin, hpos, ht.total ▸ hle⟩

end Sys2Proof.Machine

/-! PROOF. The operations of the priority queue (41_tree_build.md R141 to R145): which entry is first in the order of R141, and the exact
effect of PQ.INSERT, PQ.EXTRACT_MIN, PQ.INIT and MERGE. -/

namespace Sys2Proof.Machine

/-! ## The first entry (R141, R143) -/

/-- The entry that PQ.EXTRACT_MIN takes, if there is one (R143). -/
def pqFirst (l : List PqEntry) : Option PqEntry :=
  match l with
  | [] => none
  | e :: rest => some (pqLeast e rest)

theorem exists_pqFirst {l : List PqEntry} (h : l ≠ []) : ∃ m, pqFirst l = some m := by
  cases l with
  | nil => exact absurd rfl h
  | cons e rest => exact ⟨_, rfl⟩

theorem pqFirst_mem {l : List PqEntry} {m : PqEntry} (h : pqFirst l = some m) : m ∈ l := by
  cases l with
  | nil => cases h
  | cons e rest => cases h; exact pqLeast_mem e rest

theorem pqFirst_least {l : List PqEntry} {m : PqEntry} (h : pqFirst l = some m) : ∀ f ∈ l, f.before m = false := by
  cases l with
  | nil => cases h
  | cons e rest => cases h; exact pqLeast_le e rest

theorem pqFirst_freq_le {l : List PqEntry} {m : PqEntry} (h : pqFirst l = some m) : ∀ f ∈ l, m.freq ≤ f.freq := by
  intro f hf
  have hb := pqFirst_least h f hf
  rw [Bool.eq_false_iff, ne_eq, PqEntry.before_iff] at hb
  omega

/-- Where no two entries share a `seq` the order is total (R141). -/
theorem pqFirst_strict {l : List PqEntry} {m : PqEntry} (h : pqFirst l = some m) (hn : (l.map PqEntry.seq).Nodup) :
    ∀ e ∈ l, e ≠ m → m.freq < e.freq ∨ (m.freq = e.freq ∧ m.seq < e.seq) := by
  intro e he hne
  have hb := pqFirst_least h e he
  have hs : e.seq ≠ m.seq := fun hs => hne (List.inj_on_of_nodup_map hn he (pqFirst_mem h) hs)
  rw [Bool.eq_false_iff, ne_eq, PqEntry.before_iff] at hb
  omega

/-! ## PQ.INSERT and PQ.EXTRACT_MIN (R142, R143) -/

/-- A state with other contents of what BUILD works on. -/
def State.setQueue (node : Memory Node) (pq : List PqEntry) (seq pqCount : Nat) (s : State) : State :=
  { s with node := node, pq := pq, seq := seq, pqCount := pqCount }

section SetQueue

variable (m m' : Memory Node) (q q' : List PqEntry) (k k' c c' : Nat) (s : State)

@[simp] theorem setQueue_node : (s.setQueue m q k c).node = m := rfl
@[simp] theorem setQueue_pq : (s.setQueue m q k c).pq = q := rfl
@[simp] theorem setQueue_seq : (s.setQueue m q k c).seq = k := rfl
@[simp] theorem setQueue_pqCount : (s.setQueue m q k c).pqCount = c := rfl
@[simp] theorem setQueue_freq : (s.setQueue m q k c).freq = s.freq := rfl
@[simp] theorem setQueue_setQueue : (s.setQueue m q k c).setQueue m' q' k' c' = s.setQueue m' q' k' c' := rfl

end SetQueue

theorem pqInsert_ok (f k : Nat) {s : State} (h : s.pq.length < pqMax) :
    pqInsert f k s =
      .ok () (s.setQueue s.node (s.pq ++ [{ freq := f, seq := s.seq, node := k }]) (s.seq + 1) (s.pqCount + 1)) := by
  unfold pqInsert; rw [if_pos h]; rfl

theorem pqExtractMin_ok {s : State} {m : PqEntry} (h : pqFirst s.pq = some m) :
    pqExtractMin s = .ok m (s.setQueue s.node (s.pq.erase m) s.seq (s.pqCount - 1)) := by
  unfold pqExtractMin
  cases hp : s.pq with
  | nil => rw [hp] at h; cases h
  | cons e rest => rw [hp] at h; cases h; rfl

theorem writeNode_setQueue {k : Nat} (n : Node) (s : State) (h : k < nodeMax) :
    writeNode k n s = .ok () (s.setQueue (Memory.write s.node k n) s.pq s.seq s.pqCount) := writeNode_ok n s h

/-- Settles O25. Where `seq` is 511 or the count wider than CNT_W it says what the model chooses (log 26). -/
theorem insertAppendsAnEntry : Obligations.InsertAppendsAnEntry := by
  unfold Obligations.InsertAppendsAnEntry
  intro f k s hr hroom
  rw [exec_pqInsert f k hr, pqInsert_ok f k hroom, Res.outcome_ok]; rfl

/-- Settles O26: distinct sequence numbers make the least entry strictly first. -/
theorem extractMinTakesTheFirstEntry : Obligations.ExtractMinTakesTheFirstEntry := by
  unfold Obligations.ExtractMinTakesTheFirstEntry
  intro s hr hne hn
  obtain ⟨m, hm⟩ := exists_pqFirst hne
  refine ⟨m, pqFirst_mem hm, pqFirst_strict hm hn, ?_⟩
  rw [exec_pqExtractMin hr, pqExtractMin_ok hm, Res.outcomeRet_ok]; rfl

/-! ## MERGE (R145) -/

/-- The entries that MERGE takes, in the order in which it takes them. -/
structure FirstTwo (l : List PqEntry) (e1 e2 : PqEntry) : Prop where
  first : pqFirst l = some e1
  second : pqFirst (l.erase e1) = some e2

/-- The entries that MERGE leaves. -/
def withoutTwo (l : List PqEntry) (e1 e2 : PqEntry) : List PqEntry := (l.erase e1).erase e2

theorem exists_firstTwo {l : List PqEntry} (h : 2 ≤ l.length) : ∃ e1 e2, FirstTwo l e1 e2 := by
  obtain ⟨e1, h1⟩ := exists_pqFirst (l := l) (List.ne_nil_of_length_pos (by omega))
  have hl := List.length_erase_of_mem (pqFirst_mem h1)
  obtain ⟨e2, h2⟩ := exists_pqFirst (l := l.erase e1) (List.ne_nil_of_length_pos (by omega))
  exact ⟨e1, e2, h1, h2⟩

section FirstTwo

variable {l : List PqEntry} {e1 e2 : PqEntry} (h : FirstTwo l e1 e2)
include h

theorem FirstTwo.perm : l.Perm (e1 :: e2 :: withoutTwo l e1 e2) :=
  (List.perm_cons_erase (pqFirst_mem h.first)).trans ((List.perm_cons_erase (pqFirst_mem h.second)).cons e1)

theorem FirstTwo.length : l.length = (withoutTwo l e1 e2).length + 2 := h.perm.length_eq

theorem FirstTwo.mem_first : e1 ∈ l := pqFirst_mem h.first

theorem FirstTwo.mem_second : e2 ∈ l := List.mem_of_mem_erase (pqFirst_mem h.second)

omit h in
theorem mem_of_mem_withoutTwo {e : PqEntry} (he : e ∈ withoutTwo l e1 e2) : e ∈ l :=
  List.mem_of_mem_erase (List.mem_of_mem_erase he)

theorem FirstTwo.freq_le : e1.freq ≤ e2.freq := pqFirst_freq_le h.first e2 h.mem_second

theorem FirstTwo.freq_le_rest : ∀ e ∈ withoutTwo l e1 e2, e2.freq ≤ e.freq :=
  fun e he => pqFirst_freq_le h.second e (List.mem_of_mem_erase he)

end FirstTwo

/-- The node that joins two entries. -/
def joinNode (e1 e2 : PqEntry) : Node where
  leaf := false
  sym := 0#8
  freq := some (e1.freq + e2.freq)
  left := e1.node
  right := e2.node

/-- The entry of a node that has just been made. -/
def newEntry (f k : Nat) : PqEntry := { freq := f, seq := k, node := k }

/-- The state after MERGE has taken `e1` and `e2`. -/
def State.merged (e1 e2 : PqEntry) (s : State) : State :=
  s.setQueue (Memory.write s.node s.seq (joinNode e1 e2))
    (withoutTwo s.pq e1 e2 ++ [newEntry (e1.freq + e2.freq) s.seq]) (s.seq + 1) (s.pqCount - 1)

section Merged

variable (e1 e2 : PqEntry) (s : State)

@[simp] theorem merged_node : (s.merged e1 e2).node = Memory.write s.node s.seq (joinNode e1 e2) := rfl
@[simp] theorem merged_pq : (s.merged e1 e2).pq = withoutTwo s.pq e1 e2 ++ [newEntry (e1.freq + e2.freq) s.seq] := rfl
@[simp] theorem merged_seq : (s.merged e1 e2).seq = s.seq + 1 := rfl
@[simp] theorem merged_pqCount : (s.merged e1 e2).pqCount = s.pqCount - 1 := rfl

end Merged

theorem FirstTwo.length_merged {s : State} {e1 e2 : PqEntry} (h : FirstTwo s.pq e1 e2) :
    (s.merged e1 e2).pq.length + 1 = s.pq.length := by
  have := h.length
  simp
  omega

theorem merge_ok {s : State} {e1 e2 : PqEntry} (h : FirstTwo s.pq e1 e2) (hmax : s.pq.length ≤ 256)
    (hcount : s.pqCount = s.pq.length) (hseq : s.seq < 511) : merge s = .ok () (s.merged e1 e2) := by
  have hlen := h.length
  have hroom : (withoutTwo s.pq e1 e2).length < pqMax := by unfold pqMax; omega
  have hback : s.pqCount - 1 - 1 + 1 = s.pqCount - 1 := by omega
  unfold merge
  rw [pqExtractMin_ok h.first, Res.bind_ok, pqExtractMin_ok (s := s.setQueue _ _ _ _) h.second, Res.bind_ok]
  simp only [setQueue_setQueue, setQueue_node, setQueue_pq, setQueue_seq, setQueue_pqCount]
  rw [writeNode_setQueue _ _ hseq, Res.next_ok, pqInsert_ok _ _ hroom]
  simp only [setQueue_setQueue, setQueue_node, setQueue_pq, setQueue_seq, setQueue_pqCount, hback]
  rfl

/-- Settles O28: the first entry is strictly before every other one, and the second before the rest. Where the sum passes MAXCNT it says
what the model chooses (log 26). -/
theorem mergeJoinsTheTwoFirstEntries : Obligations.MergeJoinsTheTwoFirstEntries := by
  unfold Obligations.MergeJoinsTheTwoFirstEntries
  intro s hr h2 hmax hcount hn hseq
  obtain ⟨e1, e2, h⟩ := exists_firstTwo h2
  have hnd : s.pq.Nodup := hn.of_map
  have hne : e1 ≠ e2 := fun he => (hnd.mem_erase_iff.1 (pqFirst_mem h.second)).1 he.symm
  have hn' : ((s.pq.erase e1).map PqEntry.seq).Nodup := hn.sublist (List.erase_sublist.map _)
  refine ⟨e1, h.mem_first, e2, h.mem_second, hne, h.freq_le, pqFirst_strict h.first hn,
    fun e he h1 h2 => pqFirst_strict h.second hn' e (hnd.mem_erase_iff.2 ⟨h1, he⟩) h2, (s.merged e1 e2).node, ?_, fun k => ?_⟩
  · rw [exec_merge hr, merge_ok h hmax hcount hseq, Res.outcome_ok]; rfl
  · exact Memory.read_write s.node s.seq k (joinNode e1 e2)

/-! ## PQ.INIT (R144) -/

/-- The leaf that PQ.INIT makes for a symbol value. -/
def leafNode (freq : Memory Nat) (y : Nat) : Node where
  leaf := true
  sym := BitVec.ofNat 8 y
  freq := some (countAt freq y)
  left := 0
  right := 0

/-- NODE with leaves for the symbol values `ys` from index `k` on. -/
def writeLeaves (freq : Memory Nat) (ys : List Nat) (k : Nat) (m : Memory Node) : Memory Node :=
  match ys with
  | [] => m
  | y :: rest => writeLeaves freq rest (k + 1) (Memory.write m k (leafNode freq y))

/-- The entries of the leaves for `ys`, numbered from `k` on. -/
def leafEntries (freq : Memory Nat) (ys : List Nat) (k : Nat) : List PqEntry :=
  (ys.zipIdx k).map fun q => newEntry (countAt freq q.1) q.2

theorem leafEntries_cons (freq : Memory Nat) (y : Nat) (ys : List Nat) (k : Nat) :
    leafEntries freq (y :: ys) k = newEntry (countAt freq y) k :: leafEntries freq ys (k + 1) := rfl

@[simp] theorem length_leafEntries (freq : Memory Nat) (ys : List Nat) (k : Nat) :
    (leafEntries freq ys k).length = ys.length := by simp [leafEntries]

theorem read_writeLeaves_of_lt {freq : Memory Nat} {ys : List Nat} {k j : Nat} {m : Memory Node} (h : j < k) :
    Memory.read (writeLeaves freq ys k m) j = Memory.read m j := by
  induction ys generalizing k m with
  | nil => rfl
  | cons y ys ih => rw [writeLeaves, ih (Nat.lt_succ_of_lt h), Memory.read_write_other _ _ (Nat.ne_of_lt h)]

theorem read_writeLeaves_of_le {freq : Memory Nat} {ys : List Nat} {k j : Nat} {m : Memory Node} (h : k + ys.length ≤ j) :
    Memory.read (writeLeaves freq ys k m) j = Memory.read m j := by
  induction ys generalizing k m with
  | nil => rfl
  | cons y ys ih =>
    rw [List.length_cons] at h
    rw [writeLeaves, ih (by omega), Memory.read_write_other _ _ (by omega)]

theorem read_writeLeaves {freq : Memory Nat} {ys : List Nat} {k i y : Nat} {m : Memory Node} (h : ys[i]? = some y) :
    Memory.read (writeLeaves freq ys k m) (k + i) = some (leafNode freq y) := by
  induction ys generalizing k i m with
  | nil => simp at h
  | cons z ys ih =>
    rw [writeLeaves]
    cases i with
    | zero =>
      obtain rfl : z = y := by simpa using h
      exact (read_writeLeaves_of_lt (Nat.lt_add_one k)).trans (Memory.read_write_same m k _)
    | succ i =>
      rw [← Nat.add_assoc, Nat.add_right_comm]
      exact ih (by simpa using h)

/-- The state after the leaves for `ys` have been made and inserted. -/
def State.addLeaves (ys : List Nat) (s : State) : State :=
  s.setQueue (writeLeaves s.freq ys s.seq s.node) (s.pq ++ leafEntries s.freq ys s.seq) (s.seq + ys.length)
    (s.pqCount + ys.length)

/-- The state after one leaf has been made and inserted. -/
def State.addLeaf (y : Nat) (s : State) : State :=
  s.setQueue (Memory.write s.node s.seq (leafNode s.freq y)) (s.pq ++ [newEntry (countAt s.freq y) s.seq]) (s.seq + 1)
    (s.pqCount + 1)

@[simp] theorem addLeaves_nil (s : State) : s.addLeaves [] = s := by
  unfold State.addLeaves; rw [leafEntries, List.zipIdx_nil, List.map_nil, List.append_nil]; rfl

theorem addLeaves_cons (y : Nat) (ys : List Nat) (s : State) : s.addLeaves (y :: ys) = (s.addLeaf y).addLeaves ys := by
  unfold State.addLeaves State.addLeaf
  simp [leafEntries_cons, writeLeaves, Nat.add_assoc, Nat.add_comm 1]

theorem pqInitFrom_ok {ys : List Nat} {s : State} (hread : ∀ y ∈ ys, ∃ f, Memory.read s.freq y = some f)
    (hroom : s.pq.length + (occurring s.freq ys).length ≤ 256) (hseq : s.seq + (occurring s.freq ys).length ≤ 511) :
    pqInitFrom ys s = .ok () (s.addLeaves (occurring s.freq ys)) := by
  induction ys generalizing s with
  | nil => exact congrArg (Res.ok ()) (addLeaves_nil s).symm
  | cons y ys ih =>
    obtain ⟨f, hf⟩ := hread y List.mem_cons_self
    have hread' := fun z hz => hread z (List.mem_cons_of_mem y hz)
    obtain rfl : countAt s.freq y = f := by simp [countAt, hf]
    unfold pqInitFrom
    rw [readFreq, readAt_some s hf, Res.bind_ok]
    by_cases h0 : 0 < countAt s.freq y
    · have hocc : occurring s.freq (y :: ys) = y :: occurring s.freq ys := List.filter_cons_of_pos (by simpa using h0)
      rw [hocc, List.length_cons] at hroom hseq
      have hpq : s.pq.length < pqMax := by unfold pqMax; omega
      rw [if_pos h0]
      change (writeNode s.seq (leafNode s.freq y) s).next _ = _
      rw [writeNode_setQueue _ s (by unfold nodeMax; omega), Res.next_ok,
        pqInsert_ok (s := s.setQueue (Memory.write s.node s.seq (leafNode s.freq y)) s.pq s.seq s.pqCount) _ _ hpq, Res.next_ok,
        hocc, addLeaves_cons]
      exact ih (s := s.addLeaf y) hread' (by simp [State.addLeaf]; omega) (by simp [State.addLeaf]; omega)
    · have hocc : occurring s.freq (y :: ys) = occurring s.freq ys := List.filter_cons_of_neg (by simpa using h0)
      rw [hocc] at hroom hseq ⊢
      rw [if_neg h0]
      exact ih hread' hroom hseq

/-- The state that PQ.INIT leaves. -/
def State.queued (s : State) : State := (s.setQueue s.node [] 0 0).addLeaves (occurring s.freq (List.range alpha))

section Queued

variable (s : State)

@[simp] theorem queued_node : s.queued.node = writeLeaves s.freq (occurring s.freq (List.range alpha)) 0 s.node := rfl
@[simp] theorem queued_pq : s.queued.pq = leafEntries s.freq (occurring s.freq (List.range alpha)) 0 := rfl
@[simp] theorem queued_seq : s.queued.seq = (occurring s.freq (List.range alpha)).length := Nat.zero_add _
@[simp] theorem queued_pqCount : s.queued.pqCount = (occurring s.freq (List.range alpha)).length := Nat.zero_add _

end Queued

theorem mem_occurring {freq : Memory Nat} {y : Nat} :
    y ∈ occurring freq (List.range alpha) ↔ y < 256 ∧ 0 < countAt freq y := by
  simp [occurring, alpha]

theorem length_occurring_le (freq : Memory Nat) : (occurring freq (List.range alpha)).length ≤ 256 :=
  (List.length_filter_le _ _).trans (Nat.le_of_eq List.length_range)

theorem pqInit_ok {s : State} (hread : ∀ y ∈ List.range alpha, ∃ f, Memory.read s.freq y = some f) :
    pqInit s = .ok () s.queued := by
  have hlen := length_occurring_le s.freq
  exact pqInitFrom_ok (s := s.setQueue s.node [] 0 0) hread (by simpa using hlen) (by simp; omega)

/-- Settles O27, by induction over the symbol values. -/
theorem queueInitMakesTheLeavesInOrder : Obligations.QueueInitMakesTheLeavesInOrder := by
  unfold Obligations.QueueInitMakesTheLeavesInOrder
  intro s f hr hf
  have hcount : ∀ y < 256, countAt s.freq y = f y := fun y hy => by simp [countAt, hf y hy]
  have hys : (List.range 256).filter (fun y => decide (0 < f y)) = occurring s.freq (List.range alpha) :=
    List.filter_congr fun y hy => by rw [hcount y (List.mem_range.1 hy)]
  have hcount' : ∀ y ∈ occurring s.freq (List.range alpha), countAt s.freq y = f y :=
    fun y hy => hcount y (mem_occurring.1 hy).1
  have hpq : leafEntries s.freq (occurring s.freq (List.range alpha)) 0 =
      (occurring s.freq (List.range alpha)).zipIdx.map fun q => { freq := f q.1, seq := q.2, node := q.2 } :=
    List.map_congr_left fun q hq => by rw [hcount' q.1 (List.fst_mem_of_mem_zipIdx hq)]; rfl
  rw [hys]
  refine ⟨s.queued.node, ?_, fun k y hk => ?_, fun k hk => ?_⟩
  · rw [exec_pqInit hr, pqInit_ok fun y hy => ⟨f y, hf y (List.mem_range.1 hy)⟩, Res.outcome_ok]
    rw [← hpq, ← queued_pq, ← queued_seq]
    rfl
  · have := read_writeLeaves (freq := s.freq) (k := 0) (m := s.node) hk
    rw [Nat.zero_add, leafNode, hcount' y (List.mem_of_getElem? hk)] at this
    exact this
  · exact read_writeLeaves_of_le ((Nat.zero_add _).trans_le hk)

end Sys2Proof.Machine

/-! PROOF. What BUILD runs (41_tree_build.md R146 to R149): the MERGEs one after the other, what each of them keeps, the tree that is left
and its numbering. -/

namespace Sys2Proof.Machine

/-! ## Runs of MERGE (R146) -/

theorem readable_counts_of_build {s : State} (hp : s.phase = .build) : Readable s [.counts] :=
  readable_of_phase hp (by decide) (by decide) rfl

theorem readable_tree_of_build {s : State} (hp : s.phase = .build) : Readable s [.tree] :=
  readable_of_phase hp (by decide) (by decide) rfl

/-- `n` MERGEs lead from one state to another; `c` is the sum of the counts of the nodes they make. -/
inductive Merges : Nat → Nat → State → State → Prop where
  | done (s : State) : Merges 0 0 s s
  | more {n c : Nat} {s t : State} {e1 e2 : PqEntry} (h : FirstTwo s.pq e1 e2) (rest : Merges n c (s.merged e1 e2) t) :
      Merges (n + 1) (e1.freq + e2.freq + c) s t

/-- What every MERGE keeps, a run keeps. -/
theorem Merges.keeps {I : State → Prop} (step : ∀ s e1 e2, FirstTwo s.pq e1 e2 → I s → I (s.merged e1 e2)) {n c : Nat}
    {s t : State} (h : Merges n c s t) (hs : I s) : I t := by
  induction h with
  | done => exact hs
  | more h _ ih => exact ih (step _ _ _ h hs)

theorem exists_merges (n : Nat) {s : State} (hlen : s.pq.length = n + 1) : ∃ c t, Merges n c s t := by
  induction n generalizing s with
  | zero => exact ⟨0, s, .done s⟩
  | succ n ih =>
    obtain ⟨e1, e2, h⟩ := exists_firstTwo (l := s.pq) (by omega)
    obtain ⟨c, t, ht⟩ := ih (s := s.merged e1 e2) (by have := h.length_merged; omega)
    exact ⟨_, t, .more h ht⟩

theorem Merges.length {n c : Nat} {s t : State} (h : Merges n c s t) : t.pq.length + n = s.pq.length := by
  induction h with
  | done => rfl
  | more h _ ih => have := h.length_merged; omega

theorem Merges.seq {n c : Nat} {s t : State} (h : Merges n c s t) : t.seq = s.seq + n := by
  induction h with
  | done => rfl
  | more h _ ih => rw [ih, merged_seq]; omega

theorem Merges.sameButTree {n c : Nat} {s t : State} (h : Merges n c s t) : SameButTree s t :=
  h.keeps (I := SameButTree s) (fun _ _ _ _ hI => hI.trans rfl) (.refl s)

/-- A run writes NODE from `seq` on, once each. -/
theorem Merges.read_node {n c : Nat} {s t : State} (h : Merges n c s t) {k : Nat} (hk : k < s.seq ∨ s.seq + n ≤ k) :
    Memory.read t.node k = Memory.read s.node k := by
  induction h with
  | done => rfl
  | more h _ ih =>
    rw [ih (by rw [merged_seq]; omega), merged_node, Memory.read_write_other _ _ (by omega)]

/-- The counts of the entries always have the same sum. -/
theorem Merges.sum_freq {n c : Nat} {s t : State} (h : Merges n c s t) :
    (t.pq.map PqEntry.freq).sum = (s.pq.map PqEntry.freq).sum := by
  refine h.keeps (I := fun u => (u.pq.map PqEntry.freq).sum = (s.pq.map PqEntry.freq).sum) (fun u e1 e2 h2 hI => ?_) rfl
  rw [← hI, (h2.perm.map PqEntry.freq).sum_nat]
  simp [newEntry]
  omega

/-! ## The queue inside BUILD -/

/-- What PQ, `seq` and `pq_count` are inside BUILD of a tree with `N` leaves, once the leaves are made. -/
structure Merging (N : Nat) (s : State) : Prop where
  count : s.pqCount = s.pq.length
  number : s.seq + s.pq.length = 2 * N
  leaves : N ≤ s.seq
  index : ∀ e ∈ s.pq, e.seq = e.node
  newest : ∃ e ∈ s.pq, e.node + 1 = s.seq

theorem Merging.merged {N : Nat} {s : State} {e1 e2 : PqEntry} (h : FirstTwo s.pq e1 e2) (hs : Merging N s) :
    Merging N (s.merged e1 e2) where
  count := by have := h.length_merged; rw [merged_pqCount, hs.count]; omega
  number := by have := h.length_merged; rw [merged_seq, ← hs.number]; omega
  leaves := Nat.le_succ_of_le hs.leaves
  index e he := by
    rcases List.mem_append.1 he with he | he
    · exact hs.index e (mem_of_mem_withoutTwo he)
    · rw [List.mem_singleton.1 he]; rfl
  newest := ⟨newEntry (e1.freq + e2.freq) s.seq, List.mem_append_right _ (List.mem_singleton_self _), rfl⟩

theorem Merging.merge {N : Nat} {s : State} {e1 e2 : PqEntry} (hs : Merging N s) (hN : N ≤ 256) (h : FirstTwo s.pq e1 e2) :
    merge s = .ok () (s.merged e1 e2) := by
  have hlen := h.length
  have hnum := hs.number
  have hle := hs.leaves
  exact merge_ok h (by omega) hs.count (by omega)

/-- The loop of BUILD is a run that leaves one entry. -/
theorem Merges.mergeLoop {n c N rounds : Nat} {s t : State} (h : Merges n c s t) (hs : Merging N s) (hN : N ≤ 256)
    (hlen : s.pq.length = n + 1) (hr : n ≤ rounds) : mergeLoop rounds s = .ok () t := by
  induction h generalizing rounds with
  | done s =>
    cases rounds with
    | zero => rfl
    | succ r => unfold Machine.mergeLoop; rw [if_neg (by rw [hs.count, hlen]; omega)]
  | more h _ ih =>
    cases rounds with
    | zero => exact absurd hr (Nat.not_succ_le_zero _)
    | succ r =>
      unfold Machine.mergeLoop
      rw [if_pos (by rw [hs.count, hlen]; omega), hs.merge hN h, Res.next_ok]
      exact ih (hs.merged h) (by have := h.length_merged; omega) (Nat.le_of_succ_le_succ hr)

/-- A run is the operation MERGE, `n` times. -/
theorem Merges.execAll {n c N : Nat} {s t : State} (h : Merges n c s t) (hs : Merging N s) (hN : N ≤ 256)
    (hp : s.phase = .build) (rest : List Instr) :
    execAll (List.replicate n .merge ++ rest) s = execAll rest t := by
  induction h with
  | done => rfl
  | more h _ ih =>
    rw [List.replicate_succ, List.cons_append, execAll_cons,
      exec_merge (readable_tree_of_build hp), hs.merge hN h, Res.outcome_ok, onNext_next]
    exact ih (hs.merged h) hp

/-- The only entry that is left is the root's. -/
theorem Merging.last {N : Nat} {t : State} (h : Merging N t) (hlen : t.pq.length = 1) :
    t.pq = [newEntry (t.pq.map PqEntry.freq).sum (2 * N - 2)] := by
  obtain ⟨e, he⟩ := List.length_eq_one_iff.1 hlen
  obtain ⟨e', hmem, hnode⟩ := h.newest
  have hnum := h.number
  obtain rfl : e' = e := by rwa [he, List.mem_singleton] at hmem
  have hk : e'.node = 2 * N - 2 := by omega
  have hseq := h.index e' hmem
  have heta : e' = newEntry e'.freq e'.node := by cases e' with | mk f q k => obtain rfl : q = k := hseq; rfl
  rw [he, ← hk, List.map_singleton, List.sum_singleton, ← heta]

/-! ## The run of BUILD (R146) -/

theorem toNat_ofNat_of_mem_occurring {freq : Memory Nat} {y : Nat} (h : y ∈ occurring freq (List.range alpha)) :
    (BitVec.ofNat 8 y).toNat = y := by
  rw [BitVec.toNat_ofNat, Nat.mod_eq_of_lt (mem_occurring.1 h).1]

theorem leafEntries_map_node (freq : Memory Nat) (ys : List Nat) (k : Nat) :
    (leafEntries freq ys k).map PqEntry.node = List.range' k ys.length := by
  rw [leafEntries, List.map_map]
  exact List.zipIdx_map_snd k ys

theorem leafEntries_map_freq (freq : Memory Nat) (ys : List Nat) (k : Nat) :
    (leafEntries freq ys k).map PqEntry.freq = ys.map (countAt freq) := by
  rw [leafEntries, List.map_map]
  conv_rhs => rw [← List.zipIdx_map_fst k ys, List.map_map]
  rfl

theorem Counted.sum_occurring {s : State} (h : Counted s) :
    ((Machine.occurring s.freq (List.range alpha)).map (countAt s.freq)).sum = s.total := by
  rw [← h.occurring.2, List.map_map]
  exact congrArg List.sum (List.map_congr_left fun y hy =>
    congrArg (countAt s.freq) (toNat_ofNat_of_mem_occurring hy).symm)

theorem Counted.one_le_nsym {s : State} (h : Counted s) (hpos : 0 < s.total) : 1 ≤ s.nsym := by
  rw [← h.occurring.1, Nat.one_le_iff_ne_zero, ne_eq, List.length_eq_zero_iff]
  intro hnil
  have := h.sum_occurring
  rw [hnil] at this
  exact absurd this (Nat.ne_of_lt hpos)

theorem Counted.merging {s : State} (h : Counted s) (hpos : 0 < s.total) : Merging s.nsym s.queued where
  count := by simp
  number := by simp [h.occurring.1]; omega
  leaves := by simp [h.occurring.1]
  index e he := by
    obtain ⟨q, -, rfl⟩ := List.mem_map.1 he
    rfl
  newest := by
    have hN := h.one_le_nsym hpos
    have hmem : s.nsym - 1 ∈ s.queued.pq.map PqEntry.node := by
      rw [queued_pq, leafEntries_map_node, h.occurring.1, List.mem_range'_1]; omega
    obtain ⟨e, he, hk⟩ := List.mem_map.1 hmem
    exact ⟨e, he, by rw [hk, queued_seq, h.occurring.1]; omega⟩

/-- BUILD in `s` up to its last PQ.EXTRACT_MIN, which it runs in `t`; the nodes that it makes have the counts `c` together. -/
structure BuildRun (s : State) (c : Nat) (t : State) : Prop where
  init : pqInit s = .ok () s.queued
  start : Merging s.nsym s.queued
  small : s.nsym ≤ 256
  merges : Merges (s.nsym - 1) c s.queued t
  last : t.pq = [newEntry s.total (2 * s.nsym - 2)]
  seq : t.seq = 2 * s.nsym - 1

theorem Counted.exists_buildRun {s : State} (h : Counted s) (hpos : 0 < s.total) : ∃ c t, BuildRun s c t := by
  have hN := h.one_le_nsym hpos
  have hstart := h.merging hpos
  have hlen : s.queued.pq.length = s.nsym := by rw [queued_pq, length_leafEntries, h.occurring.1]
  obtain ⟨c, t, hrun⟩ := exists_merges (s.nsym - 1) (s := s.queued) (by omega)
  have htlen := hrun.length
  have hlast := (hrun.keeps (fun _ _ _ h2 => Merging.merged h2) hstart).last (by omega)
  rw [hrun.sum_freq, queued_pq, leafEntries_map_freq, h.sum_occurring] at hlast
  refine ⟨c, t, pqInit_ok h.covers.read_all, hstart, h.nsym_le, hrun, hlast, ?_⟩
  rw [hrun.seq, queued_seq, h.occurring.1]
  omega

/-- The state that BUILD leaves when it has made the nodes `m`. -/
def State.built (m : Memory Node) (s : State) : State :=
  { s with
    node := m, seq := 2 * s.nsym - 1, pq := [], pqCount := 0, root := 2 * s.nsym - 2, phase := .derive }

section BuildRun

variable {s t : State} {c : Nat} (h : BuildRun s c t)
include h

theorem BuildRun.sameButTree : SameButTree s t := SameButTree.trans (t := s.queued) rfl h.merges.sameButTree

theorem BuildRun.pqCount : t.pqCount = 1 := by
  rw [(h.merges.keeps (fun _ _ _ h2 => Merging.merged h2) h.start).count, h.last]; rfl

theorem BuildRun.pqExtractMin : pqExtractMin t =
    .ok (newEntry s.total (2 * s.nsym - 2)) (t.setQueue t.node [] (2 * s.nsym - 1) 0) := by
  rw [pqExtractMin_ok (m := newEntry s.total (2 * s.nsym - 2)) (by rw [h.last]; rfl), h.last, h.pqCount, h.seq,
    List.erase_cons_head]

theorem BuildRun.build : build s = .ok () (s.built t.node) := by
  have hlen := h.start.count
  have hnum := h.start.number
  have hle := h.start.leaves
  have htlen := h.merges.length
  rw [h.last, List.length_singleton] at htlen
  unfold Machine.build
  rw [h.init, Res.next_ok, h.merges.mergeLoop h.start h.small (by omega) (by omega), Res.next_ok, h.pqExtractMin,
    Res.bind_ok, h.sameButTree]
  rfl

theorem BuildRun.exec_build (hp : s.phase = .build) : exec .build s = .next (s.built t.node) := by
  rw [Machine.exec_build (readable_counts_of_build hp), h.build, Res.outcome_ok]

end BuildRun

theorem Inv.exists_buildRun {s : State} (h : Inv s) (hp : s.phase = .build) : ∃ c t, BuildRun s c t := by
  obtain ⟨hc, hpos, -⟩ := h.ready hp
  exact hc.exists_buildRun hpos

/-- Settles O29: the run of MERGEs is `nsym - 1` long because each takes one entry off the `nsym` of the leaves. -/
theorem buildRunsItsSubOperations : Obligations.BuildRunsItsSubOperations := by
  unfold Obligations.BuildRunsItsSubOperations
  intro s h hp
  obtain ⟨c, t, hrun⟩ := h.exists_buildRun hp
  have htp : t.phase = .build := by rw [hrun.sameButTree]; exact hp
  refine ⟨{ t.setQueue t.node [] (2 * s.nsym - 1) 0 with ret := .entry s.total (2 * s.nsym - 2) }, ?_, rfl, rfl, rfl, rfl, ?_⟩
  · rw [execAll_cons, exec_pqInit (readable_counts_of_build hp), hrun.init, Res.outcome_ok, onNext_next,
      hrun.merges.execAll hrun.start hrun.small hp, execAll_cons,
      exec_pqExtractMin (readable_tree_of_build htp), hrun.pqExtractMin]
    rfl
  · rw [hrun.exec_build hp, hrun.sameButTree]; rfl

/-! ## Determinism (R149) -/

/-- Two states with the same entries in PQ and the same nodes below `seq`. -/
structure SameQueue (s s' : State) : Prop where
  pq : s.pq = s'.pq
  seq : s.seq = s'.seq
  node : ∀ k, k < s.seq → Memory.read s.node k = Memory.read s'.node k

theorem FirstTwo.unique {l : List PqEntry} {e1 e2 f1 f2 : PqEntry} (h : FirstTwo l e1 e2) (h' : FirstTwo l f1 f2) :
    e1 = f1 ∧ e2 = f2 := by
  obtain rfl : e1 = f1 := Option.some.inj (h.first.symm.trans h'.first)
  exact ⟨rfl, Option.some.inj (h.second.symm.trans h'.second)⟩

theorem SameQueue.merged {s s' : State} (h : SameQueue s s') (e1 e2 : PqEntry) :
    SameQueue (s.merged e1 e2) (s'.merged e1 e2) where
  pq := by rw [merged_pq, merged_pq, h.pq, h.seq]
  seq := congrArg (· + 1) h.seq
  node k hk := by
    rw [merged_node, merged_node, Memory.read_write, Memory.read_write, ← h.seq]
    split
    · rfl
    · rw [merged_seq] at hk; exact h.node k (by omega)

theorem Merges.sameQueue {n c c' : Nat} {s s' t t' : State} (h : Merges n c s t) (h' : Merges n c' s' t')
    (hs : SameQueue s s') : SameQueue t t' := by
  induction h generalizing c' s' with
  | done => cases h'; exact hs
  | more h2 _ ih =>
    cases h' with
    | more h2' rest' =>
      rw [← hs.pq] at h2'
      obtain ⟨rfl, rfl⟩ := h2.unique h2'
      exact ih rest' (hs.merged _ _)

theorem sameQueue_queued {s s' : State} (h : s.freq = s'.freq) : SameQueue s.queued s'.queued where
  pq := by rw [queued_pq, queued_pq, h]
  seq := by rw [queued_seq, queued_seq, h]
  node k hk := by
    rw [queued_seq] at hk
    have hy := List.getElem?_eq_getElem hk
    have hleaf : ∀ m, Memory.read (writeLeaves s.freq (occurring s.freq (List.range alpha)) 0 m) k = some (leafNode s.freq _) :=
      fun m => by rw [← Nat.zero_add k]; exact read_writeLeaves hy
    rw [queued_node, queued_node, ← h, hleaf, hleaf]

/-- Settles O31: the entries of PQ and the nodes below `seq` depend on FREQ alone after PQ.INIT, and each MERGE keeps that. -/
theorem treeDependsOnCountsAlone : Obligations.TreeDependsOnCountsAlone := by
  unfold Obligations.TreeDependsOnCountsAlone
  intro s s' h h' hp hp' hf
  obtain ⟨c, t, hrun⟩ := h.exists_buildRun hp
  obtain ⟨c', t', hrun'⟩ := h'.exists_buildRun hp'
  have hN : s'.nsym = s.nsym := by rw [(h'.ready hp').1.nsym, ← hf, (h.ready hp).1.nsym]
  have hsame := hrun.merges.sameQueue (hN ▸ hrun'.merges) (sameQueue_queued hf)
  refine ⟨_, _, hrun.exec_build hp, hrun'.exec_build hp', ?_, fun k hk => hsame.node k (hrun.seq ▸ hk)⟩
  show 2 * s.nsym - 2 = 2 * s'.nsym - 2
  rw [hN]

end Sys2Proof.Machine

/-! PROOF. The numbered tree that BUILD leaves (41_tree_build.md R147, R148 (a) to (e)): which nodes have a parent, an invariant of the
MERGEs over NODE and PQ. -/

namespace Sys2Proof.Machine

/-! ## Internal nodes and parents (R148 b, c) -/

/-- An internal node with two different earlier children and the sum of their counts (R148 b, c). -/
def Joined (m : Memory Node) (k : Nat) : Prop :=
  ∃ n l r f g, Memory.read m k = some n ∧ n.leaf = false ∧ n.left < k ∧ n.right < k ∧ n.left ≠ n.right ∧
    Memory.read m n.left = some l ∧ Memory.read m n.right = some r ∧ l.freq = some f ∧ r.freq = some g ∧
    n.freq = some (f + g)

/-- `j` is a child of the node `k`, which is one of those from `N` up to `M`. -/
def IsChildOf (m : Memory Node) (N M j k : Nat) : Prop :=
  N ≤ k ∧ k < M ∧ ∃ n, Memory.read m k = some n ∧ (n.left = j ∨ n.right = j)

theorem Joined.write {m : Memory Node} {k i : Nat} (h : Joined m k) (a : Node) (hk : k < i) :
    Joined (Memory.write m i a) k := by
  obtain ⟨n, l, r, f, g, hn, hleaf, hl, hr, hne, hnl, hnr, hfreq⟩ := h
  refine ⟨n, l, r, f, g, ?_, hleaf, hl, hr, hne, ?_, ?_, hfreq⟩
  · rwa [Memory.read_write_other _ _ (by omega)]
  · rwa [Memory.read_write_other _ _ (by omega)]
  · rwa [Memory.read_write_other _ _ (by omega)]

/-- The children of an internal node come before it. -/
theorem Joined.child_lt {m : Memory Node} {N M j k : Nat} (h : Joined m k) (hc : IsChildOf m N M j k) : j < k := by
  obtain ⟨n, l, r, f, g, hn, -, hl, hr, -⟩ := h
  obtain ⟨-, -, n', hn', hj⟩ := hc
  obtain rfl : n' = n := Option.some.inj (hn'.symm.trans hn)
  omega

/-- A new node is the parent of its own children, and every other parent stays. -/
theorem isChildOf_write {m : Memory Node} {N M j k : Nat} (a : Node) (hN : N ≤ M) :
    IsChildOf (Memory.write m M a) N (M + 1) j k ↔ IsChildOf m N M j k ∨ (k = M ∧ (a.left = j ∨ a.right = j)) := by
  unfold IsChildOf
  rw [Memory.read_write]
  by_cases hk : k = M
  · subst hk; simp [hN]
  · simp only [hk, false_and, or_false]
    constructor
    · rintro ⟨h1, h2, h3⟩; exact ⟨h1, by omega, h3⟩
    · rintro ⟨h1, h2, h3⟩; exact ⟨h1, by omega, h3⟩

/-! ## What a MERGE keeps -/

/-- The entries of PQ are the nodes without a parent; every other node made so far has exactly one. -/
structure Numbered (N : Nat) (s : State) : Prop where
  leaves : N ≤ s.seq
  nodup : (s.pq.map PqEntry.node).Nodup
  entry : ∀ e ∈ s.pq, e.node < s.seq ∧ ∃ n, Memory.read s.node e.node = some n ∧ n.freq = some e.freq
  joined : ∀ k, N ≤ k → k < s.seq → Joined s.node k
  root : ∀ e ∈ s.pq, ∀ k, ¬ IsChildOf s.node N s.seq e.node k
  child : ∀ j, j < s.seq → j ∉ s.pq.map PqEntry.node → ∃! k, IsChildOf s.node N s.seq j k

section Numbered

variable {N : Nat} {s : State} {e1 e2 : PqEntry} (h : Numbered N s) (h2 : FirstTwo s.pq e1 e2)
include h h2

/-- The nodes of the two entries taken and of those left are all different. -/
theorem Numbered.nodup_taken : (e1.node :: e2.node :: (withoutTwo s.pq e1 e2).map PqEntry.node).Nodup :=
  (h2.perm.map PqEntry.node).nodup_iff.1 h.nodup

theorem Numbered.joined_new : Joined (Memory.write s.node s.seq (joinNode e1 e2)) s.seq := by
  obtain ⟨hlt1, n1, hn1, hf1⟩ := h.entry e1 h2.mem_first
  obtain ⟨hlt2, n2, hn2, hf2⟩ := h.entry e2 h2.mem_second
  have hne : e1.node ≠ e2.node := fun he => (List.nodup_cons.1 (h.nodup_taken h2)).1 (he ▸ List.mem_cons_self)
  refine ⟨joinNode e1 e2, n1, n2, e1.freq, e2.freq, Memory.read_write_same _ _ _, rfl, hlt1, hlt2, hne, ?_, ?_, hf1, hf2, rfl⟩
  · exact (Memory.read_write_other _ _ (Nat.ne_of_lt hlt1)).trans hn1
  · exact (Memory.read_write_other _ _ (Nat.ne_of_lt hlt2)).trans hn2

/-- A node that has not been taken gets no parent. -/
theorem Numbered.not_child_of_new {e : PqEntry} (he : e ∈ withoutTwo s.pq e1 e2) : e1.node ≠ e.node ∧ e2.node ≠ e.node := by
  have hmem : e.node ∈ (withoutTwo s.pq e1 e2).map PqEntry.node := List.mem_map_of_mem he
  have hnd := h.nodup_taken h2
  rw [List.nodup_cons, List.nodup_cons] at hnd
  exact ⟨fun heq => hnd.1 (List.mem_cons_of_mem _ (heq ▸ hmem)), fun heq => hnd.2.1 (heq ▸ hmem)⟩

theorem Numbered.root_merged : ∀ e ∈ (s.merged e1 e2).pq, ∀ k,
    ¬ IsChildOf (s.merged e1 e2).node N (s.merged e1 e2).seq e.node k := by
  intro e he k hc
  rw [merged_node, merged_seq, isChildOf_write _ h.leaves] at hc
  rcases List.mem_append.1 he with he | he
  · obtain ⟨hne1, hne2⟩ := h.not_child_of_new h2 he
    rcases hc with hc | ⟨-, hc | hc⟩
    · exact h.root e (mem_of_mem_withoutTwo he) k hc
    · exact hne1 hc
    · exact hne2 hc
  · obtain rfl := List.mem_singleton.1 he
    have hlt1 := (h.entry e1 h2.mem_first).1
    have hlt2 := (h.entry e2 h2.mem_second).1
    rcases hc with hc | ⟨-, hc | hc⟩
    · exact absurd ((h.joined k hc.1 hc.2.1).child_lt hc) (Nat.not_lt.2 (Nat.le_of_lt hc.2.1))
    · exact Nat.ne_of_lt hlt1 hc
    · exact Nat.ne_of_lt hlt2 hc

theorem Numbered.child_merged : ∀ j, j < (s.merged e1 e2).seq → j ∉ (s.merged e1 e2).pq.map PqEntry.node →
    ∃! k, IsChildOf (s.merged e1 e2).node N (s.merged e1 e2).seq j k := by
  intro j hj hnot
  rw [merged_pq, List.map_append, List.mem_append, not_or] at hnot
  obtain ⟨hrest, hnew⟩ := hnot
  have hjne : j ≠ s.seq := fun he => hnew (he ▸ List.mem_singleton_self _)
  rw [merged_seq] at hj
  simp only [merged_node, merged_seq, isChildOf_write _ h.leaves]
  by_cases htaken : e1.node = j ∨ e2.node = j
  · refine ⟨s.seq, .inr ⟨rfl, htaken⟩, fun k hk => ?_⟩
    rcases hk with hk | ⟨hk, -⟩
    · rcases htaken with rfl | rfl
      · exact absurd hk (h.root e1 h2.mem_first k)
      · exact absurd hk (h.root e2 h2.mem_second k)
    · exact hk
  · have hmem : j ∉ s.pq.map PqEntry.node := by
      rw [(h2.perm.map PqEntry.node).mem_iff, List.map_cons, List.map_cons, List.mem_cons, List.mem_cons]
      rintro (he | he | he)
      · exact htaken (.inl he.symm)
      · exact htaken (.inr he.symm)
      · exact hrest he
    obtain ⟨k, hk, huniq⟩ := h.child j (by omega) hmem
    refine ⟨k, .inl hk, fun i hi => huniq i ?_⟩
    rcases hi with hi | ⟨-, hi⟩
    · exact hi
    · exact absurd hi htaken

theorem Numbered.merged : Numbered N (s.merged e1 e2) where
  leaves := Nat.le_succ_of_le h.leaves
  nodup := by
    have hnd := (List.nodup_cons.1 (List.nodup_cons.1 (h.nodup_taken h2)).2).2
    rw [merged_pq, List.map_append, List.nodup_append]
    refine ⟨hnd, List.nodup_singleton _, fun a ha b hb => ?_⟩
    obtain ⟨e, he, rfl⟩ := List.mem_map.1 ha
    rw [List.mem_singleton.1 hb]
    exact Nat.ne_of_lt (h.entry e (mem_of_mem_withoutTwo he)).1
  entry e he := by
    rcases List.mem_append.1 he with he | he
    · obtain ⟨hlt, n, hn, hf⟩ := h.entry e (mem_of_mem_withoutTwo he)
      exact ⟨Nat.lt_succ_of_lt hlt, n, (Memory.read_write_other _ _ (Nat.ne_of_lt hlt)).trans hn, hf⟩
    · rw [List.mem_singleton.1 he]
      exact ⟨Nat.lt_succ_self _, joinNode e1 e2, Memory.read_write_same _ _ _, rfl⟩
  joined k hN hk := by
    rcases Nat.lt_succ_iff_lt_or_eq.1 hk with hk | rfl
    · exact (h.joined k hN hk).write _ hk
    · exact h.joined_new h2
  root := h.root_merged h2
  child := h.child_merged h2

end Numbered

/-- The leaves that PQ.INIT makes (R144, R148 a). -/
theorem read_queued_leaf {s : State} {k y : Nat} (h : (occurring s.freq (List.range alpha))[k]? = some y) :
    Memory.read s.queued.node k = some (leafNode s.freq y) := by
  have := read_writeLeaves (freq := s.freq) (k := 0) (m := s.node) h
  rwa [Nat.zero_add] at this

/-- After PQ.INIT no node has a child, and every node is in PQ. -/
theorem numbered_queued (s : State) : Numbered (occurring s.freq (List.range alpha)).length s.queued where
  leaves := Nat.le_of_eq (queued_seq s).symm
  nodup := by rw [queued_pq, leafEntries_map_node]; exact List.nodup_range'
  entry e he := by
    obtain ⟨⟨y, k⟩, hq, rfl⟩ := List.mem_map.1 he
    replace hq := List.mem_zipIdx_iff_getElem?.1 hq
    obtain ⟨hlt, -⟩ := List.getElem?_eq_some_iff.1 hq
    exact ⟨by rw [queued_seq]; exact hlt, _, read_queued_leaf hq, rfl⟩
  joined k hN hk := absurd hk (by rw [queued_seq]; omega)
  root e he k hc := absurd hc.2.1 (by rw [queued_seq]; have := hc.1; omega)
  child j hj hnot := by
    rw [queued_seq] at hj
    rw [queued_pq, leafEntries_map_node, List.mem_range'_1] at hnot
    omega

/-! ## The tree of BUILD -/

section BuildRun

variable {s t : State} {c : Nat} (h : BuildRun s c t)
include h

theorem BuildRun.numbered (hN : (occurring s.freq (List.range alpha)).length = s.nsym) : Numbered s.nsym t :=
  h.merges.keeps (fun _ _ _ h2 hI => hI.merged h2) (hN ▸ numbered_queued s)

/-- The leaves stay as PQ.INIT has made them. -/
theorem BuildRun.read_leaf {k y : Nat} (hy : (occurring s.freq (List.range alpha))[k]? = some y) :
    Memory.read t.node k = some (leafNode s.freq y) := by
  obtain ⟨hlt, -⟩ := List.getElem?_eq_some_iff.1 hy
  rw [h.merges.read_node (.inl (by rw [queued_seq]; exact hlt)), read_queued_leaf hy]

/-- Nothing is written above the root. -/
theorem BuildRun.read_above (hN : (occurring s.freq (List.range alpha)).length = s.nsym) {k : Nat} (hk : 2 * s.nsym - 1 ≤ k) :
    Memory.read t.node k = Memory.read s.node k := by
  have hseq := h.merges.seq
  rw [h.seq] at hseq
  rw [h.merges.read_node (.inr (hseq ▸ hk)), queued_node]
  exact read_writeLeaves_of_le (by omega)

theorem BuildRun.read_root (hN : (occurring s.freq (List.range alpha)).length = s.nsym) (hpos : 1 ≤ s.nsym) :
    ∃ n, Memory.read t.node (2 * s.nsym - 2) = some n ∧ n.freq = some s.total ∧ (n.leaf = true ↔ s.nsym = 1) := by
  have hnum := h.numbered hN
  obtain ⟨-, n, hn, hf⟩ := hnum.entry (newEntry s.total (2 * s.nsym - 2)) (by rw [h.last]; exact List.mem_singleton_self _)
  refine ⟨n, hn, hf, ?_⟩
  by_cases h1 : s.nsym = 1
  · have hy := List.getElem?_eq_getElem (l := occurring s.freq (List.range alpha)) (i := 0) (by omega)
    have hleaf := h.read_leaf hy
    change Memory.read t.node (2 * s.nsym - 2) = some n at hn
    rw [show 2 * s.nsym - 2 = 0 by omega, hleaf] at hn
    simp [← Option.some.inj hn, leafNode, h1]
  · obtain ⟨n', l, r, f, g, hn', hl, -⟩ := hnum.joined (2 * s.nsym - 2) (by omega) (by rw [h.seq]; omega)
    obtain rfl : n' = n := Option.some.inj (hn'.symm.trans hn)
    simp [hl, h1]

end BuildRun

theorem nodup_occurring (freq : Memory Nat) : ((occurring freq (List.range alpha)).map (BitVec.ofNat 8)).Nodup := by
  refine (List.nodup_range.filter _).map_on fun a ha b hb hab => ?_
  rw [← toNat_ofNat_of_mem_occurring (freq := freq) ha, ← toNat_ofNat_of_mem_occurring (freq := freq) hb, hab]

/-- The tree that BUILD makes, by what the invariant says of NODE. -/
theorem Inv.exists_built {s : State} (h : Inv s) (hp : s.phase = .build) :
    ∃ c t T, BuildRun s c t ∧ Built s.freq t.node (2 * s.nsym - 2) T ∧
      T.leaves.Perm ((occurring s.freq (List.range alpha)).map (BitVec.ofNat 8)) := by
  obtain ⟨c, t, hrun⟩ := h.exists_buildRun hp
  obtain ⟨hc, hpos, -⟩ := h.ready hp
  obtain ⟨m, T, hb, hbuilt, -, hperm, -⟩ :=
    build_ok hc hpos hc.le_total h.widths.total ⟨h.widths.nodeForm, h.widths.nodeElem⟩
  obtain rfl : t.node = m := by
    have := hrun.build.symm.trans hb
    injection this with _ hst
    exact congrArg State.node hst
  exact ⟨c, t, T, hrun, hbuilt, hperm⟩

/-- Settles O30: `Numbered` holds after PQ.INIT, every MERGE keeps it, and at the end PQ holds the root alone. -/
theorem buildMakesTheNumberedTree : Obligations.BuildMakesTheNumberedTree := by
  unfold Obligations.BuildMakesTheNumberedTree
  intro s h hp
  obtain ⟨c, t, T, hrun, hbuilt, hperm⟩ := h.exists_built hp
  obtain ⟨hc, hpos, -⟩ := h.ready hp
  have hN := hc.occurring.1
  have hnum := hrun.numbered hN
  have hseq := hrun.seq
  refine ⟨s.built t.node, T, hrun.exec_build hp, ?_, hbuilt.represents, hperm.nodup_iff.2 (nodup_occurring s.freq), hperm, hN,
    fun k y hy => hrun.read_leaf hy, fun k hk hlt => hnum.joined k hk (hseq ▸ hlt), fun j hj => ?_,
    hrun.read_root hN (hc.one_le_nsym hpos), fun k hk => hrun.read_above hN hk⟩
  · obtain ⟨hq, hcount⟩ := h.always.pq
    unfold State.built
    rw [← hq, ← hcount]
  · rw [← hseq]
    refine hnum.child j (by omega) ?_
    rw [hrun.last, List.map_singleton, List.mem_singleton]
    exact Nat.ne_of_lt hj

end Sys2Proof.Machine

/-! PROOF. Kraft sums (41_tree_build.md R150): the lengths of code words that do not start each other have a Kraft sum of at most 1, and
code lengths for the counts in PQ become, at no higher cost, code lengths for the counts in PQ after a MERGE. -/

namespace Sys2Proof.Machine

/-! ## Codes in which no word starts another -/

/-- The Kraft sum of code lengths is at most 1. -/
def Kraft (ls : List Nat) : Prop := (ls.map fun l => (1 / 2 : ℝ) ^ l).sum ≤ 1

theorem Kraft.perm {ls ls' : List Nat} (h : Kraft ls) (hp : ls'.Perm ls) : Kraft ls' :=
  ((hp.map _).sum_eq).trans_le h

/-- Words that do not start each other can be told apart when they are written one behind the other. -/
theorem uniquelyDecodable_of_prefix {S : Set Bits} (hne : [] ∉ S) (hpre : ∀ a ∈ S, ∀ b ∈ S, a <+: b → a = b) :
    InformationTheory.UniquelyDecodable S := by
  intro L1 L2 h1 h2 he
  induction L1 generalizing L2 with
  | nil =>
    cases L2 with
    | nil => rfl
    | cons b L2 =>
      have hb : b = [] := (List.append_eq_nil_iff.1 he.symm).1
      exact absurd (hb ▸ h2 b List.mem_cons_self) hne
  | cons a L1 ih =>
    cases L2 with
    | nil =>
      have ha : a = [] := (List.append_eq_nil_iff.1 he).1
      exact absurd (ha ▸ h1 a List.mem_cons_self) hne
    | cons b L2 =>
      have ha := h1 a List.mem_cons_self
      have hb := h2 b List.mem_cons_self
      rw [List.flatten_cons, List.flatten_cons] at he
      obtain rfl : a = b := by
        rcases List.prefix_or_prefix_of_prefix (List.prefix_append a L1.flatten) (he ▸ List.prefix_append b L2.flatten)
          with hab | hba
        · exact hpre a ha b hb hab
        · exact (hpre b hb a ha hba).symm
      rw [ih L2 (fun w hw => h1 w (List.mem_cons_of_mem _ hw)) (fun w hw => h2 w (List.mem_cons_of_mem _ hw))
        (List.append_cancel_left he)]

/-- The lengths of words that do not start each other keep to Kraft's inequality. -/
theorem kraft_of_prefix {ws : List Bits} (hnd : ws.Nodup) (hne : [] ∉ ws) (hpre : ∀ a ∈ ws, ∀ b ∈ ws, a <+: b → a = b) :
    Kraft (ws.map List.length) := by
  have hk := InformationTheory.kraft_mcmillan_inequality (S := ws.toFinset)
    (uniquelyDecodable_of_prefix (by simpa using hne) (by simpa using hpre))
  rw [List.sum_toFinset _ hnd, Fintype.card_bool] at hk
  unfold Kraft
  rw [List.map_map]
  exact_mod_cast hk

/-- Lengths of at most `m` bits, in units of a word of `m` bits. -/
theorem kraftSum_mul_two_pow {ls : List Nat} {m : Nat} (h : ∀ l ∈ ls, l ≤ m) :
    (ls.map fun l => (1 / 2 : ℝ) ^ l).sum * 2 ^ m = ((ls.map fun l => 2 ^ (m - l)).sum : ℕ) := by
  induction ls with
  | nil => simp
  | cons l ls ih =>
    have hl := h l List.mem_cons_self
    have hm : (2 : ℝ) ^ m = 2 ^ l * 2 ^ (m - l) := by rw [← pow_add, Nat.add_sub_cancel' hl]
    have hone : (1 / 2 : ℝ) ^ l * 2 ^ l = 1 := by rw [← mul_pow]; norm_num
    rw [List.map_cons, List.map_cons, List.sum_cons, List.sum_cons, add_mul, ih fun k hk => h k (List.mem_cons_of_mem _ hk)]
    rw [hm, ← mul_assoc, hone]
    push_cast
    ring

/-- The two longest words of a code can be replaced by one that is a bit shorter than both: in units of the second longest word the sum
of the rest is a whole number, so what the longest of all adds leaves room for a word of the second length. -/
theorem Kraft.join {m1 m2 : Nat} {ls : List Nat} (h : Kraft (m1 :: m2 :: ls)) (hls : ∀ l ∈ ls, l ≤ m2) :
    1 ≤ m2 ∧ Kraft ((m2 - 1) :: ls) := by
  have hscale := kraftSum_mul_two_pow hls
  unfold Kraft at h ⊢
  rw [List.map_cons, List.map_cons, List.sum_cons, List.sum_cons] at h
  rw [List.map_cons, List.sum_cons]
  generalize (ls.map fun l => (1 / 2 : ℝ) ^ l).sum = x at h hscale ⊢
  generalize (ls.map fun l => 2 ^ (m2 - l)).sum = S at hscale
  have hpos : (0 : ℝ) < (1 / 2) ^ m1 := by positivity
  have hunit : (1 / 2 : ℝ) ^ m2 * 2 ^ m2 = 1 := by rw [← mul_pow]; norm_num
  have hpow : (0 : ℝ) < 2 ^ m2 := by positivity
  have hlt : S + 1 < 2 ^ m2 := by
    have : ((S : ℝ) + 1) < 2 ^ m2 := by rw [← hscale, ← hunit]; nlinarith
    exact_mod_cast this
  cases m2 with
  | zero => simp at hlt
  | succ k =>
    refine ⟨by omega, ?_⟩
    have hle : ((S : ℝ) + 2) ≤ 2 ^ (k + 1) := by exact_mod_cast hlt
    have hk : (1 / 2 : ℝ) ^ k * 2 ^ (k + 1) = 2 := by rw [pow_succ, ← mul_assoc, ← mul_pow]; norm_num
    rw [Nat.add_sub_cancel]
    refine le_of_mul_le_mul_right ?_ hpow
    rw [add_mul, hk, hscale]
    linarith

/-! ## Code lengths for weights -/

/-- The total length of an encoding: each pair is a weight and the length of its code word. -/
def codeCost (C : List (Nat × Nat)) : Nat := (C.map fun q => q.1 * q.2).sum

@[simp] theorem codeCost_cons (q : Nat × Nat) (C : List (Nat × Nat)) : codeCost (q :: C) = q.1 * q.2 + codeCost C := rfl

theorem codeCost_perm {C C' : List (Nat × Nat)} (h : C.Perm C') : codeCost C = codeCost C' := (h.map _).sum_nat

/-- Exchange: the smallest weight can have the longest word, at no higher cost. -/
theorem exists_longest_for_least (w l : Nat) (R : List (Nat × Nat)) (hw : ∀ q ∈ R, w ≤ q.1) :
    ∃ m R', R'.map Prod.fst = R.map Prod.fst ∧ (m :: R'.map Prod.snd).Perm (l :: R.map Prod.snd) ∧
      (∀ k ∈ R'.map Prod.snd, k ≤ m) ∧ w * m + codeCost R' ≤ w * l + codeCost R := by
  induction R with
  | nil => exact ⟨l, [], rfl, .refl _, by simp, Nat.le_refl _⟩
  | cons q R ih =>
    obtain ⟨v, k⟩ := q
    obtain ⟨m, R', hfst, hperm, hmax, hcost⟩ := ih fun q hq => hw q (List.mem_cons_of_mem _ hq)
    have hvw : w ≤ v := hw (v, k) List.mem_cons_self
    by_cases hk : k ≤ m
    · refine ⟨m, (v, k) :: R', by simp [hfst], ?_, ?_, by simp; omega⟩
      · exact (List.Perm.swap k m _).trans ((hperm.cons k).trans (.swap l k _))
      · exact List.forall_mem_cons.2 ⟨hk, hmax⟩
    · have hmk : m ≤ k := by omega
      have hex := mul_add_mul_le_mul_add_mul hvw hmk
      refine ⟨k, (v, m) :: R', by simp [hfst], ?_, ?_, by simp; omega⟩
      · exact (hperm.cons k).trans (.swap l k _)
      · exact List.forall_mem_cons.2 ⟨hmk, fun i hi => (hmax i hi).trans hmk⟩

/-- Code lengths for weights become code lengths for the weights with the two smallest joined; the cost falls by their sum or more. -/
theorem exists_joined_lengths {w1 w2 l1 l2 : Nat} {R : List (Nat × Nat)} (h12 : w1 ≤ w2) (hR : ∀ q ∈ R, w2 ≤ q.1)
    (hK : Kraft (l1 :: l2 :: R.map Prod.snd)) :
    ∃ l R', R'.map Prod.fst = R.map Prod.fst ∧ Kraft (l :: R'.map Prod.snd) ∧
      w1 + w2 + ((w1 + w2) * l + codeCost R') ≤ w1 * l1 + (w2 * l2 + codeCost R) := by
  obtain ⟨m1, R1, hfst1, hperm1, hmax1, hcost1⟩ := exists_longest_for_least w1 l1 ((w2, l2) :: R)
    (List.forall_mem_cons.2 ⟨h12, fun q hq => h12.trans (hR q hq)⟩)
  obtain ⟨⟨v, k⟩, R2, rfl, rfl, hfst2⟩ := List.map_eq_cons_iff.1 hfst1
  have hR2 : ∀ q ∈ R2, v ≤ q.1 := by
    intro q hq
    have hmem : q.1 ∈ R.map Prod.fst := hfst2 ▸ List.mem_map_of_mem hq
    obtain ⟨q', hq', he⟩ := List.mem_map.1 hmem
    exact he ▸ hR q' hq'
  obtain ⟨m2, R3, hfst3, hperm3, hmax3, hcost3⟩ := exists_longest_for_least v k R2 hR2
  have hle : m2 ≤ m1 := hmax1 m2 (hperm3.subset List.mem_cons_self)
  obtain ⟨hpos, hK'⟩ := (hK.perm ((hperm3.cons m1).trans hperm1)).join hmax3
  obtain ⟨m, rfl⟩ := Nat.exists_eq_add_of_le' hpos
  refine ⟨m, R3, hfst3.trans hfst2, hK', ?_⟩
  have hw1 : w1 * (m + 1) ≤ w1 * m1 := Nat.mul_le_mul_left w1 hle
  simp only [codeCost_cons] at hcost1
  rw [Nat.mul_add_one] at hcost3 hw1
  rw [Nat.add_mul]
  dsimp only
  omega

theorem exists_perm_cons_of_map {α β : Type} {f : α → β} {C : List α} {b : β} {l : List β} (h : (C.map f).Perm (b :: l)) :
    ∃ a C', f a = b ∧ C.Perm (a :: C') ∧ (C'.map f).Perm l := by
  obtain ⟨a, ha, rfl⟩ := List.mem_map.1 (h.mem_iff.2 List.mem_cons_self)
  obtain ⟨C1, C2, rfl⟩ := List.append_of_mem ha
  have hC : (C1 ++ a :: C2).Perm (a :: (C1 ++ C2)) := List.perm_middle
  exact ⟨a, C1 ++ C2, rfl, hC, ((hC.map f).symm.trans h).cons_inv⟩

/-- No code for the weights in PQ costs less than the sum of the nodes that the MERGEs make. -/
theorem Merges.le_codeCost {n c : Nat} {s t : State} (h : Merges n c s t) {C : List (Nat × Nat)}
    (hC : (C.map Prod.fst).Perm (s.pq.map PqEntry.freq)) (hK : Kraft (C.map Prod.snd)) : c ≤ codeCost C := by
  induction h generalizing C with
  | done => exact Nat.zero_le _
  | @more n c s t e1 e2 h2 _ ih =>
    obtain ⟨⟨w1, l1⟩, C1, rfl, hp1, hC1⟩ := exists_perm_cons_of_map (hC.trans (h2.perm.map PqEntry.freq))
    obtain ⟨⟨w2, l2⟩, R, rfl, hp2, hR⟩ := exists_perm_cons_of_map hC1
    have hperm : C.Perm ((e1.freq, l1) :: (e2.freq, l2) :: R) := hp1.trans (hp2.cons _)
    have hle : ∀ q ∈ R, e2.freq ≤ q.1 := by
      intro q hq
      obtain ⟨e, he, hqe⟩ := List.mem_map.1 (hR.subset (List.mem_map_of_mem hq))
      exact hqe ▸ h2.freq_le_rest e he
    obtain ⟨l, R', hfst, hK', hcost⟩ := exists_joined_lengths (l1 := l1) (l2 := l2) h2.freq_le hle (hK.perm (hperm.map Prod.snd).symm)
    have hC' : (((e1.freq + e2.freq, l) :: R').map Prod.fst).Perm ((s.merged e1 e2).pq.map PqEntry.freq) := by
      rw [List.map_cons, hfst, merged_pq, List.map_append]
      exact (hR.cons _).trans (List.perm_append_singleton _ _).symm
    have := ih hC' hK'
    rw [codeCost_perm hperm]
    simp only [codeCost_cons] at this ⊢
    omega

end Sys2Proof.Machine

/-! PROOF. The payload size that DERIVE predicts is minimal (41_tree_build.md R150, 42_codebook.md R166): it is the sum of the counts
of the nodes that the MERGEs make. -/

namespace Sys2Proof.Machine

/-! ## The cost of a tree -/

/-- The counts of the internal nodes together: what the paths of the tree cost. -/
def HTree.cost (freq : Memory Nat) : HTree → Nat
  | .leaf _ => 0
  | .node l r => l.cost freq + r.cost freq + (l.weight freq + r.weight freq)

/-- Every leaf pays its count for each edge of its path. -/
theorem HTree.sum_paths (freq : Memory Nat) (T : HTree) (p : Bits) :
    ((T.paths p).map fun q => countAt freq q.1.toNat * q.2.length).sum = T.cost freq + T.weight freq * p.length := by
  induction T generalizing p with
  | leaf y => simp [paths, cost, weight]
  | node l r ihl ihr =>
    simp only [paths, cost, weight, List.map_append, List.sum_append, ihl, ihr, List.length_append, List.length_singleton]
    ring

theorem HTree.codes_leaves (T : HTree) : T.codes.map Prod.fst = T.leaves := by
  cases T with
  | leaf y => rfl
  | node l r => exact HTree.paths_leaves _ _

/-- The tree at an index is determined by NODE. -/
theorem Represents.unique {m : Memory Node} {k : Nat} {T T' : HTree} (h : Represents m k T) (h' : Represents m k T') : T = T' := by
  induction T generalizing k T' with
  | leaf y =>
    obtain ⟨n, hn, hl, hy⟩ := h
    cases T' with
    | leaf y' =>
      obtain ⟨n', hn', -, hy'⟩ := h'
      obtain rfl : n' = n := Option.some.inj (hn'.symm.trans hn)
      rw [← hy, hy']
    | node l r =>
      obtain ⟨n', hn', hl', -⟩ := h'
      obtain rfl : n' = n := Option.some.inj (hn'.symm.trans hn)
      exact absurd (hl.symm.trans hl') (by decide)
  | node l r ihl ihr =>
    obtain ⟨n, hn, hl, hL, hR⟩ := h
    cases T' with
    | leaf y' =>
      obtain ⟨n', hn', hl', -⟩ := h'
      obtain rfl : n' = n := Option.some.inj (hn'.symm.trans hn)
      exact absurd (hl'.symm.trans hl) (by decide)
    | node l' r' =>
      obtain ⟨n', hn', -, hL', hR'⟩ := h'
      obtain rfl : n' = n := Option.some.inj (hn'.symm.trans hn)
      rw [ihl hL hL', ihr hR hR']

/-! ## The cost of the trees under construction -/

/-- `tr` gives the tree of every entry in PQ. -/
structure Grove (freq : Memory Nat) (s : State) (tr : Nat → HTree) : Prop where
  index : ∀ e ∈ s.pq, e.node < s.seq
  weight : ∀ e ∈ s.pq, e.freq = (tr e.node).weight freq
  built : ∀ e ∈ s.pq, Built freq s.node e.node (tr e.node)

/-- The costs of the trees in PQ together. -/
def groveCost (freq : Memory Nat) (l : List PqEntry) (tr : Nat → HTree) : Nat := (l.map fun e => (tr e.node).cost freq).sum

/-- The trees after a MERGE: the new node is the root of the two trees taken. -/
def joinTrees (e1 e2 : PqEntry) (k : Nat) (tr : Nat → HTree) : Nat → HTree :=
  Function.update tr k (.node (tr e1.node) (tr e2.node))

section Grove

variable {freq : Memory Nat} {s : State} {tr : Nat → HTree} {e1 e2 : PqEntry} (h : Grove freq s tr) (h2 : FirstTwo s.pq e1 e2)
include h

theorem Grove.joinTrees_of_mem {e : PqEntry} (he : e ∈ s.pq) : joinTrees e1 e2 s.seq tr e.node = tr e.node :=
  Function.update_of_ne (Nat.ne_of_lt (h.index e he)) _ _

include h2

theorem Grove.merged : Grove freq (s.merged e1 e2) (joinTrees e1 e2 s.seq tr) where
  index e he := by
    rcases List.mem_append.1 he with he | he
    · exact Nat.lt_succ_of_lt (h.index e (mem_of_mem_withoutTwo he))
    · rw [List.mem_singleton.1 he]; exact Nat.lt_succ_self _
  weight e he := by
    rcases List.mem_append.1 he with he | he
    · have hmem := mem_of_mem_withoutTwo he
      rw [h.joinTrees_of_mem hmem]; exact h.weight e hmem
    · rw [List.mem_singleton.1 he, joinTrees]
      simp [newEntry, HTree.weight, h.weight e1 h2.mem_first, h.weight e2 h2.mem_second]
  built e he := by
    rcases List.mem_append.1 he with he | he
    · have hmem := mem_of_mem_withoutTwo he
      rw [h.joinTrees_of_mem hmem]; exact (h.built e hmem).write _ (h.index e hmem)
    · have hlt1 := h.index e1 h2.mem_first
      have hlt2 := h.index e2 h2.mem_second
      have htr : joinTrees e1 e2 s.seq tr s.seq = .node (tr e1.node) (tr e2.node) := Function.update_self _ _ _
      rw [List.mem_singleton.1 he]
      change Built freq _ s.seq (joinTrees e1 e2 s.seq tr s.seq)
      rw [htr]
      refine ⟨joinNode e1 e2, Memory.read_write_same _ _ _, rfl, ?_, hlt1, hlt2,
        (h.built e1 h2.mem_first).write _ hlt1, (h.built e2 h2.mem_second).write _ hlt2⟩
      rw [joinNode, h.weight e1 h2.mem_first, h.weight e2 h2.mem_second]

theorem Grove.cost_merged : groveCost freq (s.merged e1 e2).pq (joinTrees e1 e2 s.seq tr) =
    groveCost freq s.pq tr + (e1.freq + e2.freq) := by
  have hrest : ∀ e ∈ withoutTwo s.pq e1 e2, joinTrees e1 e2 s.seq tr e.node = tr e.node :=
    fun e he => h.joinTrees_of_mem (mem_of_mem_withoutTwo he)
  have hmap : (withoutTwo s.pq e1 e2).map (fun e => (joinTrees e1 e2 s.seq tr e.node).cost freq) =
      (withoutTwo s.pq e1 e2).map fun e => (tr e.node).cost freq :=
    List.map_congr_left fun e he => by rw [hrest e he]
  have htr : joinTrees e1 e2 s.seq tr s.seq = .node (tr e1.node) (tr e2.node) := Function.update_self _ _ _
  have hw1 := h.weight e1 h2.mem_first
  have hw2 := h.weight e2 h2.mem_second
  unfold groveCost
  rw [(h2.perm.map fun e => (tr e.node).cost freq).sum_nat, merged_pq, List.map_append, hmap]
  simp [newEntry, htr, HTree.cost, hw1, hw2]
  omega

end Grove

/-- A run of MERGEs adds the counts of the nodes it makes to the cost of the trees. -/
theorem Merges.grove {freq : Memory Nat} {n c : Nat} {s t : State} (h : Merges n c s t) {tr : Nat → HTree} (hs : Grove freq s tr) :
    ∃ tr', Grove freq t tr' ∧ groveCost freq t.pq tr' = groveCost freq s.pq tr + c := by
  induction h generalizing tr with
  | done => exact ⟨tr, hs, rfl⟩
  | more h2 _ ih =>
    obtain ⟨tr', ht, hcost⟩ := ih (hs.merged h2)
    exact ⟨tr', ht, by rw [hcost, hs.cost_merged h2, Nat.add_assoc]⟩

/-- The trees after PQ.INIT: single leaves. -/
def leafTrees (ys : List Nat) (k : Nat) : HTree := .leaf (BitVec.ofNat 8 (ys.getD k 0))

theorem grove_queued (s : State) : Grove s.freq s.queued (leafTrees (occurring s.freq (List.range alpha))) := by
  have hentry : ∀ e ∈ s.queued.pq, ∃ y, (occurring s.freq (List.range alpha))[e.node]? = some y ∧ e.freq = countAt s.freq y := by
    intro e he
    obtain ⟨⟨y, k⟩, hq, rfl⟩ := List.mem_map.1 he
    exact ⟨y, List.mem_zipIdx_iff_getElem?.1 hq, rfl⟩
  have hleaf : ∀ {k y : Nat}, (occurring s.freq (List.range alpha))[k]? = some y →
      leafTrees (occurring s.freq (List.range alpha)) k = .leaf (BitVec.ofNat 8 y) ∧ (BitVec.ofNat 8 y).toNat = y :=
    fun hy => ⟨by rw [leafTrees, List.getD_eq_getElem?_getD, hy]; rfl, toNat_ofNat_of_mem_occurring (List.mem_of_getElem? hy)⟩
  constructor
  · intro e he
    obtain ⟨y, hy, -⟩ := hentry e he
    rw [queued_seq]
    exact (List.getElem?_eq_some_iff.1 hy).1
  · intro e he
    obtain ⟨y, hy, hf⟩ := hentry e he
    rw [(hleaf hy).1, HTree.weight, (hleaf hy).2, hf]
  · intro e he
    obtain ⟨y, hy, hf⟩ := hentry e he
    rw [(hleaf hy).1]
    refine ⟨_, read_queued_leaf hy, rfl, rfl, ?_⟩
    rw [(hleaf hy).2]; rfl

theorem groveCost_queued (s : State) :
    groveCost s.freq s.queued.pq (leafTrees (occurring s.freq (List.range alpha))) = 0 :=
  List.sum_eq_zero fun n hn => by
    obtain ⟨e, -, rfl⟩ := List.mem_map.1 hn
    rfl

/-- The tree of BUILD costs what its MERGEs add up to. -/
theorem BuildRun.cost {s t : State} {c : Nat} (h : BuildRun s c t) {T : HTree} (hT : Represents t.node (2 * s.nsym - 2) T) :
    T.cost s.freq = c := by
  obtain ⟨tr, hgrove, hcost⟩ := h.merges.grove (grove_queued s)
  have hbuilt := hgrove.built (newEntry s.total (2 * s.nsym - 2)) (by rw [h.last]; exact List.mem_singleton_self _)
  obtain rfl : tr (2 * s.nsym - 2) = T := hbuilt.represents.unique hT
  rw [groveCost_queued, h.last, Nat.zero_add] at hcost
  simpa [groveCost, newEntry] using hcost

/-! ## The payload -/

/-- Symbols without a count add nothing. -/
theorem sum_range_eq_sum_occurring (freq : Memory Nat) (g : Nat → Nat) :
    ((List.range alpha).map fun y => countAt freq y * g y).sum =
      ((occurring freq (List.range alpha)).map fun y => countAt freq y * g y).sum := by
  rw [← List.sum_map_filter_add_sum_map_filter_not (fun y => 0 < countAt freq y) _ (List.range alpha)]
  refine Nat.add_eq_left.2 (List.sum_eq_zero fun n hn => ?_)
  obtain ⟨y, hy, rfl⟩ := List.mem_map.1 hn
  have hzero : countAt freq y = 0 := by simpa using (List.mem_filter.1 hy).2
  rw [hzero, Nat.zero_mul]

/-- A sum over the symbols, by the leaves of a tree that has one for each symbol that occurs. -/
theorem sum_range_eq_sum_leaves {freq : Memory Nat} {T : HTree}
    (hT : T.leaves.Perm ((occurring freq (List.range alpha)).map (BitVec.ofNat 8))) (g : Nat → Nat) :
    ((List.range alpha).map fun y => countAt freq y * g y).sum =
      (T.leaves.map fun b => countAt freq b.toNat * g b.toNat).sum := by
  rw [sum_range_eq_sum_occurring, (hT.map _).sum_nat, List.map_map]
  refine congrArg List.sum (List.map_congr_left fun y hy => ?_)
  rw [Function.comp_apply, toNat_ofNat_of_mem_occurring hy]

theorem lenAt_codebook {T : HTree} (hn : T.leaves.Nodup) {q : Byte × Bits} (hq : q ∈ T.codes) :
    lenAt (codebook T) q.1.toNat = q.2.length := by
  rw [lenAt, codebook, read_storeCodes (by rwa [HTree.codes_leaves]) hq]
  rfl

/-- The payload is as long as the codes of the tree make it. -/
theorem payload_codebook {freq : Memory Nat} {T : HTree}
    (hT : T.leaves.Perm ((occurring freq (List.range alpha)).map (BitVec.ofNat 8))) :
    payload freq (codebook T) = (T.codes.map fun q => countAt freq q.1.toNat * q.2.length).sum := by
  rw [payload, sum_range_eq_sum_leaves hT, ← HTree.codes_leaves, List.map_map]
  refine congrArg List.sum (List.map_congr_left fun q hq => ?_)
  rw [Function.comp_apply, lenAt_codebook (hT.nodup_iff.2 (nodup_occurring freq)) hq]

/-! ## No other code is shorter (R150) -/

/-- The counts of the symbols that occur, with the lengths of their words in a code. -/
def weightedLengths (freq : Memory Nat) (w : Byte → Bits) : List (Nat × Nat) :=
  (occurring freq (List.range alpha)).map fun y => (countAt freq y, (w (BitVec.ofNat 8 y)).length)

section PrefixCode

variable {freq : Memory Nat} {w : Byte → Bits}

theorem codeCost_weightedLengths : codeCost (weightedLengths freq w) =
    ((List.range alpha).map fun y => countAt freq y * (w (BitVec.ofNat 8 y)).length).sum := by
  rw [sum_range_eq_sum_occurring, codeCost, weightedLengths, List.map_map]
  rfl

theorem kraft_weightedLengths (hne : ∀ a, 0 < countAt freq a.toNat → w a ≠ [])
    (hpre : ∀ a b, 0 < countAt freq a.toNat → 0 < countAt freq b.toNat → a ≠ b → ¬ w a <+: w b) :
    Kraft ((weightedLengths freq w).map Prod.snd) := by
  have hpos : ∀ a ∈ (occurring freq (List.range alpha)).map (BitVec.ofNat 8), 0 < countAt freq a.toNat := by
    intro a ha
    obtain ⟨y, hy, rfl⟩ := List.mem_map.1 ha
    rw [toNat_ofNat_of_mem_occurring hy]
    exact (mem_occurring.1 hy).2
  have hinj : ∀ a ∈ (occurring freq (List.range alpha)).map (BitVec.ofNat 8),
      ∀ b ∈ (occurring freq (List.range alpha)).map (BitVec.ofNat 8), w a <+: w b → a = b :=
    fun a ha b hb hab => by_contra fun hab' => hpre a b (hpos a ha) (hpos b hb) hab' hab
  have hmap : (weightedLengths freq w).map Prod.snd =
      (((occurring freq (List.range alpha)).map (BitVec.ofNat 8)).map w).map List.length := by
    simp only [weightedLengths, List.map_map]
    rfl
  rw [hmap]
  refine kraft_of_prefix ((nodup_occurring freq).map_on fun a ha b hb he => hinj a ha b hb (he ▸ List.prefix_refl _)) ?_ ?_
  · intro hmem
    obtain ⟨a, ha, he⟩ := List.mem_map.1 hmem
    exact hne a (hpos a ha) he
  · intro u hu v hv huv
    obtain ⟨a, ha, rfl⟩ := List.mem_map.1 hu
    obtain ⟨b, hb, rfl⟩ := List.mem_map.1 hv
    rw [hinj a ha b hb huv]

end PrefixCode

/-- The code of the tree of BUILD costs no more than any other in which no word starts another: for a single leaf it has one bit for each
byte, and else it costs what the MERGEs add up to. -/
theorem BuildRun.payload_le {s t : State} {c : Nat} (h : BuildRun s c t) {T : HTree}
    (hT : Represents t.node (2 * s.nsym - 2) T)
    (hperm : T.leaves.Perm ((occurring s.freq (List.range alpha)).map (BitVec.ofNat 8))) {w : Byte → Bits}
    (hne : ∀ a, 0 < countAt s.freq a.toNat → w a ≠ [])
    (hpre : ∀ a b, 0 < countAt s.freq a.toNat → 0 < countAt s.freq b.toNat → a ≠ b → ¬ w a <+: w b) :
    payload s.freq (codebook T) ≤ ((List.range alpha).map fun y => countAt s.freq y * (w (BitVec.ofNat 8 y)).length).sum := by
  rw [payload_codebook hperm]
  cases hcase : T with
  | leaf b =>
    rw [hcase] at hperm
    rw [sum_range_eq_sum_leaves hperm fun y => (w (BitVec.ofNat 8 y)).length]
    have hw : countAt s.freq b.toNat * 1 ≤ countAt s.freq b.toNat * (w b).length := by
      rcases Nat.eq_zero_or_pos (countAt s.freq b.toNat) with h0 | h0
      · rw [h0, Nat.zero_mul, Nat.zero_mul]
      · exact Nat.mul_le_mul_left _ (List.length_pos_iff.2 (hne b h0))
    simpa [HTree.codes, HTree.leaves] using hw
  | node l r =>
    have hw : ((weightedLengths s.freq w).map Prod.fst).Perm (s.queued.pq.map PqEntry.freq) := by
      rw [queued_pq, leafEntries_map_freq, weightedLengths, List.map_map]
      rfl
    rw [← codeCost_weightedLengths, HTree.codes, HTree.sum_paths, List.length_nil, Nat.mul_zero, Nat.add_zero, ← hcase, h.cost hT]
    exact h.merges.le_codeCost hw (kraft_weightedLengths hne hpre)

/-- Settles O32: a MERGE joins the two smallest counts, which by an exchange argument on Kraft sums is the first step of a best code. -/
theorem payloadSizeIsMinimal : Obligations.PayloadSizeIsMinimal := by
  unfold Obligations.PayloadSizeIsMinimal
  intro s h hp
  obtain ⟨c, t, T, hrun, hbuilt, hperm⟩ := h.exists_built hp
  obtain ⟨hc, -⟩ := h.ready hp
  have hT := hbuilt.represents
  have hd : T.depth ≤ codeMax := h.widths.depth_le (by rw [hperm.length_eq, List.length_map, hc.occurring.1])
  have hderive := derive_ok (s := s.built t.node) hT hd hc.covers.read_all
  have hexec := exec_derive (readable_of_phase (s := s.built t.node) (ph := .derive) rfl (by decide) (by decide) rfl)
  rw [execAll_cons, hrun.exec_build hp, onNext_next, execAll_cons, hexec, hderive, Res.outcome_ok, onNext_next]
  exact ⟨_, rfl, fun w hne hpre => hrun.payload_le hT hperm hne hpre⟩

end Sys2Proof.Machine

/-! PROOF. The codebook (42_codebook.md R160 to R166): the paths of a tree lead to words that do not start each other, the codebook holds
the words of the leaves and no others, and PAD.PREDICT adds up what they cost. -/

namespace Sys2Proof.Machine

/-! ## Paths that do not start each other (R164 d) -/

theorem HTree.prefix_of_mem_paths {T : HTree} {p : Bits} {q : Byte × Bits} (h : q ∈ T.paths p) : p <+: q.2 := by
  induction T generalizing p with
  | leaf y =>
    obtain rfl : q = (y, p) := List.mem_singleton.1 h
    exact List.prefix_refl p
  | node l r ihl ihr =>
    rcases List.mem_append.1 h with h | h
    · exact (List.prefix_append p [false]).trans (ihl h)
    · exact (List.prefix_append p [true]).trans (ihr h)

/-- Words that differ in their first bit behind `p` do not start each other. -/
theorem not_prefix_of_branches {p c d : Bits} {x y : Bool} (hxy : x ≠ y) (hc : p ++ [x] <+: c) (hd : p ++ [y] <+: d) :
    ¬ c <+: d := by
  intro hcd
  have he : p ++ [x] = p ++ [y] :=
    (List.prefix_of_prefix_length_le (hc.trans hcd) hd (by simp)).eq_of_length (by simp)
  exact hxy (List.singleton_injective (List.append_cancel_left he))

theorem HTree.eq_of_paths_prefix {T : HTree} {p : Bits} {a b : Byte × Bits} (ha : a ∈ T.paths p) (hb : b ∈ T.paths p)
    (hab : a.2 <+: b.2) : a = b := by
  induction T generalizing p with
  | leaf y => exact (List.mem_singleton.1 ha).trans (List.mem_singleton.1 hb).symm
  | node l r ihl ihr =>
    rcases List.mem_append.1 ha with ha | ha <;> rcases List.mem_append.1 hb with hb | hb
    · exact ihl ha hb
    · exact absurd hab (not_prefix_of_branches (by decide) (prefix_of_mem_paths ha) (prefix_of_mem_paths hb))
    · exact absurd hab (not_prefix_of_branches (by decide) (prefix_of_mem_paths ha) (prefix_of_mem_paths hb))
    · exact ihr ha hb

theorem HTree.eq_of_codes_prefix {T : HTree} {a b : Byte × Bits} (ha : a ∈ T.codes) (hb : b ∈ T.codes)
    (hab : a.2 <+: b.2) : a = b := by
  cases T with
  | leaf y => exact (List.mem_singleton.1 ha).trans (List.mem_singleton.1 hb).symm
  | node l r => exact HTree.eq_of_paths_prefix ha hb hab

/-! ## The lengths of the codes (R164 a, b) -/

/-- Every code has a bit: "0" at a single leaf, else the first edge (R163, R164). -/
theorem HTree.one_le_codes_length {T : HTree} {q : Byte × Bits} (h : q ∈ T.codes) : 1 ≤ q.2.length := by
  cases T with
  | leaf y =>
    obtain rfl : q = (y, [false]) := List.mem_singleton.1 h
    exact Nat.le_refl 1
  | node l r =>
    rcases List.mem_append.1 h with h | h <;> exact (HTree.prefix_of_mem_paths h).length_le

/-- There are 256 symbols (00_scope.md R7, R8). -/
theorem HTree.depth_le_of_nodup {T : HTree} (h : T.leaves.Nodup) : T.depth ≤ codeMax := by
  have hlen : T.leaves.length ≤ 256 := by simpa using (h.map (BitVec.equivFin (m := 8)).injective).length_le_card
  have hdepth := T.depth_lt_leaves
  unfold codeMax; omega

theorem HTree.exists_code_of_mem_leaves {T : HTree} {y : Byte} (h : y ∈ T.leaves) : ∃ q ∈ T.codes, q.1 = y := by
  rw [← HTree.codes_leaves] at h
  exact List.mem_map.1 h

/-! ## What the codebook holds -/

/-- An entry that is of no symbol in the list stays. -/
theorem read_storeCodes_other {l : List (Byte × Bits)} {m : Memory CodeEntry} {y : Nat}
    (h : ∀ z ∈ l.map Prod.fst, y ≠ z.toNat) : Memory.read (storeCodes l m) y = Memory.read m y := by
  induction l generalizing m with
  | nil => rfl
  | cons q l ih =>
    obtain ⟨hq, hl⟩ := List.forall_mem_cons.1 h
    exact (ih hl).trans (Memory.read_write_other m _ hq)

theorem read_codebook {T : HTree} (hn : T.leaves.Nodup) {q : Byte × Bits} (hq : q ∈ T.codes) :
    Memory.read (codebook T) q.1.toNat = some { len := q.2.length, bits := q.2 } :=
  read_storeCodes (by rwa [HTree.codes_leaves]) hq

theorem covers_codebook (T : HTree) : Covers alpha (codebook T) := covers_storeCodes (Memory.covers_fill _ _)

theorem lenAt_codebook_of_not_mem {T : HTree} {y : Byte} (h : y ∉ T.leaves) : lenAt (codebook T) y.toNat = 0 := by
  rw [lenAt, codebook, read_storeCodes_of_not_mem (by rwa [HTree.codes_leaves]), Memory.read_fill alpha _ y.isLt]
  rfl

theorem one_le_lenAt_codebook_iff {T : HTree} (hn : T.leaves.Nodup) (y : Byte) :
    1 ≤ lenAt (codebook T) y.toNat ↔ y ∈ T.leaves := by
  constructor
  · intro h
    by_contra hy
    rw [lenAt_codebook_of_not_mem hy] at h
    omega
  · intro hy
    obtain ⟨q, hq, rfl⟩ := HTree.exists_code_of_mem_leaves hy
    rw [lenAt_codebook hn hq]
    exact HTree.one_le_codes_length hq

/-! ## DERIVE (R160) -/

/-- Settles O36: CODE is the codebook of the tree, whose words are the paths. Without a bound on FREQ the sum in `paybits` may be wider
than the register (log 26). -/
theorem deriveMakesThePrefixCode : Obligations.DeriveMakesThePrefixCode := by
  unfold Obligations.DeriveMakesThePrefixCode
  intro s T hr hT hn hf hocc
  have hd : T.depth ≤ codeMax := HTree.depth_le_of_nodup hn
  have hderive := derive_ok hT hd fun y hy => hf y (List.mem_range.1 hy)
  rw [exec_derive hr, hderive, Res.outcome_ok]
  refine ⟨_, rfl, rfl, rfl, rfl, fun q hq => read_codebook hn hq, HTree.codes_leaves T, fun y => ⟨?_, ?_⟩, ?_, ?_⟩
  · exact (one_le_lenAt_codebook_iff hn y).trans (hocc y)
  · exact lenAt_le (fun p hp => (codebook_elem hd hp).2) y.toNat
  · exact fun y hy => (covers_codebook T).read_all y (List.mem_range.2 hy)
  · exact fun a ha b hb hne hab => hne (congrArg Prod.fst (HTree.eq_of_codes_prefix ha hb hab))

/-! ## CODE.ASSIGN and PAD.PREDICT (R162, R166) -/

/-- Settles O34. -/
theorem codeAssignWritesThePaths : Obligations.CodeAssignWritesThePaths := by
  unfold Obligations.CodeAssignWritesThePaths
  intro s k p T hr hT hn hroom
  have hassign : codeAssign k p s = .ok () { s with code := storeCodes (T.paths p) s.code } :=
    codeAssignFrom_of_represents hT (by unfold codeMax; omega)
  rw [exec_codeAssign k p hr, hassign, Res.outcome_ok]
  refine ⟨_, rfl, fun q hq => ?_, fun y hy => ?_⟩
  · exact read_storeCodes (by rwa [HTree.paths_leaves]) hq
  · exact read_storeCodes_other (by rwa [HTree.paths_leaves])

/-- Settles O35: what FREQ and CODE hold is what the sum takes. Without a bound on them the sum in `paybits` may be wider than the
register (log 26). -/
theorem padIsPredicted : Obligations.PadIsPredicted := by
  unfold Obligations.PadIsPredicted
  intro s f l hr hf hl
  have hpad := padPredict_ok (fun y hy => ⟨_, hf y (List.mem_range.1 hy)⟩)
    (fun y hy => (hl y (List.mem_range.1 hy)).imp fun _ h => h.1)
  have hterms : ((List.range alpha).map fun y => countAt s.freq y * lenAt s.code y) =
      (List.range 256).map fun y => f y * l y := by
    refine List.map_congr_left fun y hy => ?_
    obtain ⟨c, hc, hlen⟩ := hl y (List.mem_range.1 hy)
    simp [countAt, lenAt, hf y (List.mem_range.1 hy), hc, hlen]
  rw [exec_padPredict hr, hpad, hterms, Res.outcome_ok]; rfl

/-! ## CODE.CLEAR, CODE.ASSIGN1 and CODE.LOOKUP (R161, R163, R165) -/

theorem exec_codeClear (s : State) : exec .codeClear s = .next (codeClear s) := rfl

/-- At a single leaf its symbol gets the code "0" (R163). -/
theorem codeAssign1_leaf {s : State} {n : Node} (hn : Memory.read s.node s.root = some n) (hl : n.leaf = true) :
    codeAssign1 s = .ok () (writeCode n.sym [false] s) := by
  rw [codeAssign1, readSym_leaf hn hl, Res.bind_ok]

/-- At an internal node a free value is the symbol (93_implementation_defined.md V2). -/
theorem codeAssign1_inner {s : State} {n : Node} (hn : Memory.read s.node s.root = some n) (hl : n.leaf = false) :
    codeAssign1 s = .ok () (writeCode (Config.freeSym s.draws) [false] { s with draws := s.draws + 1 }) := by
  rw [codeAssign1, readSym_inner hn hl, Res.bind_ok]

theorem codeLookup_ok {s : State} {b : Byte} {c : CodeEntry} (h : Memory.read s.code b.toNat = some c) :
    codeLookup b s = .ok c s := readAt_some s h

/-- Settles O33. -/
theorem codebookEntries : Obligations.CodebookEntries := by
  unfold Obligations.CodebookEntries
  intro s b
  refine ⟨⟨_, exec_codeClear s, fun y hy => ⟨_, Memory.read_fill alpha _ hy, rfl⟩⟩,
    fun n hr hn => ⟨fun hl => ?_, fun hl => ?_⟩, fun c hr hc => ?_⟩
  · rw [exec_codeAssign1 hr, codeAssign1_leaf hn hl, Res.outcome_ok]
    exact ⟨_, rfl, fun y => Memory.read_write _ _ _ _⟩
  · rw [exec_codeAssign1 hr, codeAssign1_inner hn hl, Res.outcome_ok]
    exact ⟨_, rfl, fun y => Memory.read_write _ _ _ _⟩
  · rw [exec_codeLookup b hr, codeLookup_ok hc, Res.outcomeRet_ok]
    exact ⟨fun h0 => by rw [if_pos h0, h0], fun h0 => by rw [if_neg h0]⟩

end Sys2Proof.Machine

/-! PROOF. The bit stream (43_bitstream.md R175 to R182): what one put and one flush do, that a run of puts and a flush leaves the packed
bytes, and that the reader takes the bits out of them again. -/

namespace Sys2Proof.Machine

/-! ## One put and one flush (R176, R178) -/

theorem setBit_getLsbD_same (v : Byte) {j : Nat} (x : Bool) (hj : j < 8) : (setBit v j x).getLsbD j = x := by
  have h1 : (1#8 <<< j).getLsbD j = true := by
    rw [BitVec.getLsbD_shiftLeft]
    simp [hj]
  unfold setBit
  cases x with
  | true => rw [if_pos rfl, BitVec.getLsbD_or, h1, Bool.or_true]
  | false => rw [if_neg Bool.false_ne_true, BitVec.getLsbD_and, BitVec.getLsbD_not, h1]; simp

/-- `v[j] <- x` bit by bit (00_scope.md R14). -/
theorem setBit_getLsbD (v : Byte) (i : Nat) {j : Nat} (x : Bool) (hj : j < 8) :
    (setBit v j x).getLsbD i = if i = j then x else v.getLsbD i := by
  split
  · rename_i h; rw [h, setBit_getLsbD_same v x hj]
  · rename_i h; exact setBit_getLsbD_of_ne v x h

/-- The eighth bit completes a byte, which leaves. -/
theorem putBit_last {s : State} (x : Bool) (h : s.wN = 7) :
    putBit x s = { s with
      wAcc := 0#8, wN := 0, oq := s.oq ++ [{ isEnd := false, data := setBit s.wAcc (7 - s.wN) x }] } := if_pos h

/-- Any other bit waits. -/
theorem putBit_wait {s : State} (x : Bool) (h : s.wN ≠ 7) :
    putBit x s = { s with wAcc := setBit s.wAcc (7 - s.wN) x, wN := s.wN + 1 } := if_neg h

theorem flush_of_pos {s : State} (h : 0 < s.wN) :
    flush s = { s with wAcc := 0#8, wN := 0, oq := s.oq ++ [{ isEnd := false, data := s.wAcc }] } := if_pos h

/-- On a byte boundary there is nothing to flush. -/
theorem flush_of_zero {s : State} (h : s.wN = 0) : flush s = s := if_neg (by omega)

theorem flushCount_of_zero {s : State} (h : s.wN = 0) : flushCount s = 0 := by rw [flushCount, h]

/-- Settles O37. That W.PUTBYTE does the same where `w_n` is not 0 is the model's choice (log 25). -/
theorem writerOperations : Obligations.WriterOperations := by
  unfold Obligations.WriterOperations
  intro s x v
  refine ⟨fun hr hn => ⟨setBit s.wAcc (7 - s.wN) x, fun i _ => setBit_getLsbD s.wAcc i x (by omega), fun h7 => ?_, fun h7 => ?_⟩,
    fun hr h0 => ?_, fun hr h0 => ?_, rfl⟩
  · rw [exec_wPutbit x hr, putBit_last x h7]
  · rw [exec_wPutbit x hr, putBit_wait x h7]
  · rw [exec_wFlush hr, flush_of_zero h0, flushCount_of_zero h0]
  · rw [exec_wFlush hr, flush_of_pos h0, flushCount]

/-! ## Puts one after the other (R177) -/

/-- The writer may be read in the phases that write an artifact and in no other (10_state.md R47). -/
theorem writing_of_readable {s : State} (h : Readable s [.writer]) : Writing s := by
  have hw : s.meaningful .writer = true := h _ List.mem_cons_self
  unfold State.meaningful at hw
  unfold Writing
  cases hp : s.phase <;> simp [hp, Group.afterSuccess, Group.inError, Group.duringPhase] at hw ⊢

theorem Writing.putBits {s : State} (h : Writing s) (c : Bits) : Writing (putBits c s) := by
  unfold Writing; rw [putBits_frame]; exact h

/-- The bytes that a run of puts emits, and what then waits, whatever the accumulator holds. -/
theorem putBits_emits {s : State} (c : Bits) (h : s.wN ≤ 7) :
    ∃ bs, (putBits c s).oq = s.oq ++ dataBeats bs ∧ (putBits c s).wN = (s.wN + c.length) % 8 ∧
      bs.length = (s.wN + c.length) / 8 := by
  induction c generalizing s with
  | nil => exact ⟨[], by simp [dataBeats], by rw [putBits_nil, List.length_nil]; omega, by rw [List.length_nil, List.length_nil]; omega⟩
  | cons x c ih =>
    rw [putBits_cons, List.length_cons]
    by_cases h7 : s.wN = 7
    · obtain ⟨bs, ho, hn, hl⟩ := ih (s := putBit x s) (by rw [putBit_last x h7]; exact Nat.zero_le 7)
      rw [putBit_last x h7] at ho hn hl ⊢
      refine ⟨setBit s.wAcc (7 - s.wN) x :: bs, ?_, ?_, ?_⟩
      · rw [ho, List.append_assoc]; rfl
      · rw [hn]; dsimp only; omega
      · rw [List.length_cons, hl]; dsimp only; omega
    · obtain ⟨bs, ho, hn, hl⟩ := ih (s := putBit x s) (by rw [putBit_wait x h7]; dsimp only; omega)
      rw [putBit_wait x h7] at ho hn hl ⊢
      exact ⟨bs, ho, by rw [hn]; dsimp only; omega, by rw [hl]; dsimp only; omega⟩

/-- Settles O38: where the writer may be read, W.PUTBITS and the puts one by one leave the same state. -/
theorem putBitsPutsEachBitInOrder : Obligations.PutBitsPutsEachBitInOrder := by
  unfold Obligations.PutBitsPutsEachBitInOrder
  intro c s hr hn
  obtain ⟨bs, ho, hw, hl⟩ := putBits_emits c hn
  refine ⟨putBits c s, bs, exec_wPutbits c hr, (writing_of_readable hr).execAll_wPutbit c, ?_, hl⟩
  rw [← ho, ← hw]
  exact putBits_frame c s

/-! ## The bits of packed bytes (R180, R182) -/

/-- The byte of eight bits has these bits. -/
theorem bitsOfByte_byteOfBits {a : Bits} (h : a.length = 8) : bitsOfByte (byteOfBits a) = a := by
  match a, h with
  | [b7, b6, b5, b4, b3, b2, b1, b0], _ => revert b7 b6 b5 b4 b3 b2 b1 b0; decide

theorem topBits_length (v : Byte) (n : Nat) : (topBits v n).length = n := by simp [topBits]

theorem topBits_getD (v : Byte) {n j : Nat} (h : j < n) : (topBits v n).getD j false = v.getLsbD (7 - j) := by
  simp [topBits, h]

/-- Fewer bits of a byte are the first of its eight (R182). -/
theorem topBits_eq_take (v : Byte) {n : Nat} (h : n ≤ 8) : topBits v n = (bitsOfByte v).take n := by
  rw [← topBits_eight, topBits, topBits, ← List.map_take, List.take_range, Nat.min_eq_left h]

theorem packed_length (c : Bits) : (packed c).length = (c.length + 7) / 8 := by simp [packed]

/-- Byte `i` of packed bits holds the bits from `8 i` on. -/
theorem bitsOfByte_packed_getD (c : Bits) {i : Nat} (h : i < (packed c).length) :
    bitsOfByte ((packed c).getD i 0#8) = (List.range 8).map fun j => c.getD (8 * i + j) false := by
  rw [packed_length] at h
  rw [List.getD_eq_getElem _ _ (by rwa [packed_length])]
  simp only [packed, List.getElem_map, List.getElem_range]
  exact bitsOfByte_byteOfBits (by simp)

theorem packed_getLsbD (c : Bits) {i j : Nat} (hi : i < (packed c).length) (hj : j < 8) :
    ((packed c).getD i 0#8).getLsbD (7 - j) = c.getD (8 * i + j) false := by
  rw [← topBits_getD _ hj, topBits_eight, bitsOfByte_packed_getD c hi]
  simp [hj]

/-- Rows of eight, one behind the other. -/
theorem flatMap_range_eight (f : Nat → Bool) (n : Nat) :
    ((List.range n).flatMap fun i => (List.range 8).map fun j => f (8 * i + j)) = (List.range (8 * n)).map f := by
  induction n with
  | zero => rfl
  | succ n ih =>
    rw [List.range_succ (n := n), List.flatMap_append, ih, List.flatMap_singleton, Nat.mul_succ, List.range_add, List.map_append,
      List.map_map]
    rfl

/-- All the bits of packed bytes: the bits that were packed, with zeros behind them. -/
theorem flatMap_bitsOfByte_packed (c : Bits) :
    (packed c).flatMap bitsOfByte = (List.range (8 * (packed c).length)).map fun k => c.getD k false := by
  rw [packed_length, ← flatMap_range_eight, packed, List.flatMap_map]
  exact List.flatMap_congr fun i _ => bitsOfByte_byteOfBits (by simp)

/-- The first bits of packed bytes are the bits that were packed. -/
theorem take_flatMap_bitsOfByte_packed (c : Bits) : ((packed c).flatMap bitsOfByte).take c.length = c := by
  rw [flatMap_bitsOfByte_packed, ← List.map_take, List.take_range, packed_length,
    Nat.min_eq_left (show c.length ≤ 8 * ((c.length + 7) / 8) by omega)]
  exact List.ext_getElem (by simp) fun k _ h => by simp [h]

/-! ## The writer law (R180) -/

theorem execAll_append (is js : List Instr) (s : State) :
    execAll (is ++ js) s = onNext (execAll is s) (execAll js) := by
  induction is generalizing s with
  | nil => rfl
  | cons i is ih =>
    rw [List.cons_append, execAll_cons, execAll_cons]
    cases exec i s with
    | next t => exact ih t
    | fault f => rfl
    | refused r => rfl

/-- Settles O39: the bytes are the packed bits. -/
theorem writerLaw : Obligations.WriterLaw := by
  unfold Obligations.WriterLaw
  intro c s hr hn ha
  have hw : Writing s := writing_of_readable hr
  have hflush := flush_putBits c (pending_nil hn ha)
  have hcount : flushCount (putBits c s) = (8 - c.length % 8) % 8 := by
    obtain ⟨_, _, hwn, _⟩ := putBits_emits c (show s.wN ≤ 7 by omega)
    rw [flushCount, hwn, hn, Nat.zero_add]
  refine ⟨packed c, packed_length c, fun i j hi hj => packed_getLsbD c hi hj, ?_⟩
  rw [execAll_append, hw.execAll_wPutbit, onNext_next, execAll_cons, exec_wFlush (hw.putBits c).readable, hflush, hcount,
    List.nil_append, ← ha, ← hn]
  rfl

/-! ## The reader (R182) -/

/-- Settles O40: the bits of the packed bytes, cut off where the packed sequence ends. -/
theorem readerInvertsTheWriter : Obligations.ReaderInvertsTheWriter := by
  unfold Obligations.ReaderInvertsTheWriter
  refine ⟨fun v n s hn => ⟨topBits v n, ?_, topBits_length v n, fun j hj => topBits_getD v hj⟩, fun c bs v h => ?_⟩
  · rw [topBits_eq_take v hn]; rfl
  · have hlen : bs.length + 1 = (c.length + 7) / 8 := by rw [← packed_length, h, List.length_append]; rfl
    have hbits : (bs.flatMap bitsOfByte).length = 8 * bs.length := by simp [bitsOfByte, List.length_flatMap, Nat.mul_comm]
    have hc : c.length = (bs.flatMap bitsOfByte).length + (8 - (8 - c.length % 8) % 8) := by omega
    calc (bs.flatMap fun w => topBits w 8) ++ topBits v (8 - (8 - c.length % 8) % 8)
        = bs.flatMap bitsOfByte ++ (bitsOfByte v).take (8 - (8 - c.length % 8) % 8) := by
          rw [topBits_eq_take v (Nat.sub_le _ _)]; rfl
      _ = ((packed c).flatMap bitsOfByte).take c.length := by
          rw [h, List.flatMap_append, List.flatMap_singleton]
          conv_rhs => rw [hc]
          rw [List.take_length_add_append]
      _ = c := take_flatMap_bitsOfByte_packed c

end Sys2Proof.Machine

/-! PROOF. Writing the header and the payload (44_framing.md R195 to R208): the header bytes, the tree section as the packed tokens of the
tree, and what a payload symbol and the end of pass 2 leave. -/

namespace Sys2Proof.Machine

/-! ## The header bytes (R196, R197, R199) -/

/-- At a single leaf its symbol is the tree section (R197). -/
theorem hdrTree1_leaf {s : State} {n : Node} (hn : Memory.read s.node s.root = some n) (hl : n.leaf = true) :
    hdrTree1 s = .ok () (emit n.sym s) := by
  rw [hdrTree1, readSym_leaf hn hl, Res.bind_ok]; rfl

/-- At an internal node a free value is emitted (93_implementation_defined.md V2). -/
theorem hdrTree1_inner {s : State} {n : Node} (hn : Memory.read s.node s.root = some n) (hl : n.leaf = false) :
    hdrTree1 s = .ok () (emit (Config.freeSym s.draws) { s with draws := s.draws + 1 }) := by
  rw [hdrTree1, readSym_inner hn hl, Res.bind_ok]; rfl

/-- Settles O41. That the three bytes go out also where `w_n` is not 0 is the model's choice (log 25). -/
theorem headerBytes : Obligations.HeaderBytes := by
  unfold Obligations.HeaderBytes
  intro s
  refine ⟨fun hr => ?_, fun n hr hn => ⟨fun hl => ?_, fun hl => ?_⟩, fun hr => ?_⟩
  · rw [exec_hdrCount hr]; rfl
  · rw [exec_hdrTree1 hr, hdrTree1_leaf hn hl]; rfl
  · rw [exec_hdrTree1 hr, hdrTree1_inner hn hl]; rfl
  · rw [exec_hdrPad hr]; rfl

/-! ## The tree section and the whole header (R195, R198) -/

/-- A tree with N leaves has N - 1 internal nodes, so its tokens have 9 N + (N - 1) bits (30_encoding.md R102, R104). -/
theorem HTree.ser_length (T : HTree) : T.ser.length + 1 = 10 * T.leaves.length := by
  induction T with
  | leaf y => rfl
  | node l r ihl ihr => simp only [ser, leaves, List.length_cons, List.length_append]; omega

theorem HTree.depth_le_of_leaves {T : HTree} (h : T.leaves.length ≤ 256) : T.depth ≤ codeMax := by
  have hd := T.depth_lt_leaves
  unfold codeMax; omega

/-- Settles O42: SER puts the tokens, and the flush leaves their packed bytes. -/
theorem treeSectionIsThePreOrder : Obligations.TreeSectionIsThePreOrder := by
  unfold Obligations.TreeSectionIsThePreOrder
  intro s T hr hT hN hn ha
  have hlen : T.ser.length = 10 * T.leaves.length - 1 := by have := T.ser_length; omega
  refine ⟨?_, hlen, ?_⟩
  · rw [exec_hdrTree hr, hdrTree_ok hT (HTree.depth_le_of_leaves hN) hn ha, Res.outcome_ok]
  · rw [packed_length, hlen]

/-- The tree section has one byte when N = 1, else ceil((10 N - 1) / 8) bytes (30_encoding.md R102, R103). -/
theorem HTree.packed_sectionBits_length (T : HTree) :
    (packed T.sectionBits).length =
      if T.leaves.length = 1 then 1 else (10 * T.leaves.length - 1 + 7) / 8 := by
  cases T with
  | leaf y => rw [sectionBits, packed_byte]; rfl
  | node l r =>
    have hser := (HTree.node l r).ser_length
    have hl := l.leaves_pos
    have hr := r.leaves_pos
    have hmany : (HTree.node l r).leaves.length ≠ 1 := by rw [leaves, List.length_append]; omega
    rw [if_neg hmany, packed_length, sectionBits, ← hser, Nat.add_sub_cancel]

/-- Settles O43. -/
theorem headerIsEmittedWhole : Obligations.HeaderIsEmittedWhole := by
  unfold Obligations.HeaderIsEmittedWhole
  intro s T hr hT hN hle hn ha
  refine ⟨?_, ?_⟩
  · rw [exec_emitHdr hr, emitHdr_ok hT (HTree.depth_le_of_leaves (hN ▸ hle)) hN hn ha, Res.outcome_ok]; rfl
  · rw [← hN]; exact T.packed_sectionBits_length

/-! ## The payload (R207, R208) -/

section EncSym
variable {b : Byte} {s : State} {c : CodeEntry} (hc : Memory.read s.code b.toNat = some c)
include hc

theorem encSym_unknown (h0 : c.len = 0) : encSym b s = .raised (raise .unknownSymbol infoNone b s) := by
  rw [encSym, codeLookup_ok hc, Res.bind_ok, if_pos h0]; rfl

theorem encSym_tooLong (h0 : c.len ≠ 0) (hp : s.paybits < s.bitcnt + c.len) :
    encSym b s = .raised (raise .passMismatch infoTooLong b s) := by
  rw [encSym, codeLookup_ok hc, Res.bind_ok, if_neg h0, if_pos hp]; rfl

theorem encSym_ok (h0 : c.len ≠ 0) (hp : s.bitcnt + c.len ≤ s.paybits) :
    encSym b s = .ok () { putBits (c.bits.take c.len) s with bitcnt := s.bitcnt + c.len } := by
  have hcnt : (putBits (c.bits.take c.len) s).bitcnt = s.bitcnt := by rw [putBits_frame]
  rw [encSym, codeLookup_ok hc, Res.bind_ok, if_neg h0, if_neg (Nat.not_lt.2 hp)]
  dsimp only
  rw [hcnt]

end EncSym

/-- Settles O44. -/
theorem encodingASymbol : Obligations.EncodingASymbol := by
  unfold Obligations.EncodingASymbol
  intro b s c hr hc
  have hw : Readable s [.writer] := fun g hg => hr g (by rw [List.mem_singleton.1 hg]; decide)
  refine ⟨fun h0 => ?_, fun h0 hp => ?_, fun h0 hp => ⟨_, exec_wPutbits _ hw, ?_, ?_⟩⟩
  · rw [exec_encSym b hr, encSym_unknown hc h0]; rfl
  · rw [exec_encSym b hr, encSym_tooLong hc h0 hp]; rfl
  · rw [putBits_frame]
  · rw [exec_encSym b hr, encSym_ok hc h0 hp, Res.outcome_ok]

theorem encEnd_tooShort {s : State} (h : s.bitcnt ≠ s.paybits) :
    encEnd s = .raised (raise .passMismatch infoTooShort 0#8 s) := by
  rw [encEnd, if_pos h]; rfl

theorem encEnd_ok {s : State} (h : s.bitcnt = s.paybits) :
    encEnd s = .ok () { emitEnd (flush s) with doneOk := true, phase := .idle } := by
  rw [encEnd, if_neg (not_not.2 h)]

/-- Settles O45: `w_n` counts the bits of the last byte, so the flush pads with as many as DERIVE predicted. -/
theorem endOfPassTwo : Obligations.EndOfPassTwo := by
  unfold Obligations.EndOfPassTwo
  intro s hr
  have hw : Readable s [.writer] := fun g hg => hr g (by rw [List.mem_singleton.1 hg]; decide)
  refine ⟨fun h => ?_, fun h => ⟨_, exec_wFlush hw, ?_, fun hn hp => ?_⟩⟩
  · rw [exec_encEnd hr, encEnd_tooShort h]; rfl
  · have hret : (flush s).ret = s.ret := by rw [flush_frame]
    rw [exec_encEnd hr, encEnd_ok h, Res.outcome_ok, ← hret]; rfl
  · rw [flushCount, hn, h, ← hp]

end Sys2Proof.Machine

/-! PROOF. The operations of the tree parser (44_framing.md R215 to R224), one equation per branch, and what DEC.TREE makes of a byte in
a state with the invariant. -/

namespace Sys2Proof.Machine

/-! ## The count, the single leaf and the pad byte (R215, R217, R224) -/

theorem decPad_bad {b : Byte} {s : State} (h : 7 < b.toNat) :
    decPad b s = .raised (raise .corruptArtifact infoBadPad b s) := if_pos h

theorem decPad_ok {b : Byte} {s : State} (h : b.toNat ≤ 7) :
    decPad b s = .ok () { s with pad := b.toNat, holdV := false, cur := s.root, phase := .dPayload } := by
  rw [decPad, if_neg (Nat.not_lt.2 h), Nat.mod_eq_of_lt (by omega)]

/-- Settles O46. -/
theorem headerBytesAreParsed : Obligations.HeaderBytesAreParsed := by
  unfold Obligations.HeaderBytesAreParsed
  intro b s
  refine ⟨rfl, ⟨_, rfl, ⟨_, Memory.read_write_same _ _ _, rfl, rfl, rfl, rfl, rfl⟩, fun k hk => ?_⟩, fun hr h => ?_,
    fun hr h => ?_⟩
  · exact Memory.read_write_other _ _ hk
  · rw [exec_decPad b hr, decPad_bad h]; rfl
  · rw [exec_decPad b hr, decPad_ok h, Res.outcome_ok]

/-! ## TREE.ATTACH (R221) -/

/-- After an internal node the new node becomes its left child. -/
theorem treeAttach_left_ok {k : Nat} {n : Node} {s : State} (hk : 0 < k) (hmax : k ≤ nodeMax) (hl : s.tLwi = true)
    (hn : Memory.read s.node (k - 1) = some n) :
    treeAttach k s = .ok () { s with node := Memory.write s.node (k - 1) { n with left := k } } := by
  rw [treeAttach_left hk hl, readNode_some hn, Res.bind_ok, writeNode_ok _ _ (by omega)]

/-- After a leaf it becomes the right child of the node on top of PSTACK. -/
theorem treeAttach_right_ok {k p : Nat} {n : Node} {s : State} (hk : 0 < k) (hl : s.tLwi = false) (hpos : 0 < s.psN)
    (hp : Memory.read s.pstack (s.psN - 1) = some p) (hmax : p < nodeMax) (hn : Memory.read s.node p = some n) :
    treeAttach k s =
      .ok () { s with node := Memory.write s.node p { n with right := k }, psN := s.psN - 1 } := by
  have hread : readNode p { s with psN := s.psN - 1 } = .ok n { s with psN := s.psN - 1 } := readNode_some hn
  rw [treeAttach_right hk hl, popStack_some hpos hp, Res.bind_ok, hread, Res.bind_ok, writeNode_ok _ _ hmax]

/-- Settles O47. -/
theorem treeAttachLinksTheParent : Obligations.TreeAttachLinksTheParent := by
  unfold Obligations.TreeAttachLinksTheParent
  intro s k n hr
  refine ⟨?_, fun hk hmax hl hn => ⟨_, ?_, fun j => Memory.read_write _ _ _ _⟩,
    fun p hk hl hpos hp hmax hn => ⟨_, ?_, fun j => Memory.read_write _ _ _ _⟩⟩
  · rw [exec_treeAttach 0 hr, treeAttach_zero, Res.outcome_ok]
  · rw [exec_treeAttach k hr, treeAttach_left_ok hk hmax hl hn, Res.outcome_ok]
  · rw [exec_treeAttach k hr, treeAttach_right_ok hk hl hpos hp hmax hn, Res.outcome_ok]

/-- What TREE.ATTACH(k) leaves: the root has no parent, a node after an internal node is its left child, a node after a leaf the right
child of the node on top of PSTACK. -/
inductive Attached (k : Nat) (s : State) : State → Prop where
  | root (hk : k = 0) : Attached k s s
  | left (n : Node) (hk : 0 < k) (hl : s.tLwi = true) (hn : Memory.read s.node (k - 1) = some n) :
    Attached k s { s with node := Memory.write s.node (k - 1) { n with left := k } }
  | right (p : Nat) (n : Node) (hk : 0 < k) (hl : s.tLwi = false) (hpos : 0 < s.psN)
      (hp : Memory.read s.pstack (s.psN - 1) = some p) (hn : Memory.read s.node p = some n) :
    Attached k s { s with node := Memory.write s.node p { n with right := k }, psN := s.psN - 1 }

/-- It writes NODE and at most takes one entry from PSTACK. -/
theorem Attached.frame {k : Nat} {s u : State} (h : Attached k s u) : u = { s with node := u.node, psN := u.psN } := by
  cases h <;> rfl

theorem Attached.psN_le {k : Nat} {s u : State} (h : Attached k s u) : u.psN ≤ s.psN := by
  cases h with
  | right => exact Nat.sub_le _ _
  | _ => exact Nat.le_refl _

/-- Where the parent exists, TREE.ATTACH goes through. -/
theorem CanAttach.attached {k : Nat} {s : State} (h : CanAttach s k) : ∃ u, treeAttach k s = .ok () u ∧ Attached k s u := by
  rcases Nat.eq_zero_or_pos k with rfl | hk
  · exact ⟨s, rfl, .root rfl⟩
  rcases h with h0 | ⟨hl, hmax, n, hn⟩ | ⟨hl, hpos, p, n, hp, hmax, hn⟩
  · omega
  · exact ⟨_, treeAttach_left_ok hk hmax hl hn, .left n hk hl hn⟩
  · exact ⟨_, treeAttach_right_ok hk hl hpos hp hmax hn, .right p n hk hl hpos hp hn⟩

/-! ## TREE.FLAG (R219) -/

/-- A 1 bit starts a symbol. -/
theorem treeFlag_leaf (s : State) : treeFlag true s = .ok () { s with tState := .sym, tSym := 0#8, tSymn := 0 } := rfl

theorem treeFlag_badTree {s : State} (h : s.tInts + 1 = s.nsym) :
    treeFlag false s = .raised (raise .corruptArtifact infoBadTree 0#8 s) := by
  rw [treeFlag, if_neg Bool.false_ne_true, if_pos h]; rfl

/-- NODE with the new entry of the parser, `freq` not written (log 17). -/
def State.nodeWith (s : State) (k : Nat) (leaf : Bool) (y : Byte) : Memory Node :=
  Memory.write s.node k { leaf := leaf, sym := y, freq := (s.nodeAt k).bind Node.freq, left := 0, right := 0 }

theorem writeTreeNode_ok {k : Nat} (leaf : Bool) (y : Byte) (s : State) (h : k < nodeMax) :
    writeTreeNode k leaf y s = .ok () { s with node := s.nodeWith k leaf y } := writeNode_ok _ s h

theorem pushStack_ok {k : Nat} {s : State} (h : s.psN < pstackMax) :
    pushStack k s = .ok () { s with pstack := Memory.write s.pstack s.psN k, psN := s.psN + 1 } := if_pos h

/-- The state after the internal node `t_nodes` of `s`, attached in `u`, has been made. -/
def State.withInternal (u : State) (k : Nat) : State :=
  { u with
    node := u.nodeWith k false 0#8, pstack := Memory.write u.pstack u.psN k, psN := u.psN + 1, tLwi := true
    tInts := u.tInts + 1, tNodes := u.tNodes + 1 }

theorem treeFlag_internal_ok {s u : State} (hi : s.tInts + 1 ≠ s.nsym) (hu : treeAttach s.tNodes s = .ok () u)
    (hn : s.tNodes < nodeMax) (hp : u.psN < pstackMax) : treeFlag false s = .ok () (u.withInternal s.tNodes) := by
  have hpush := pushStack_ok (k := s.tNodes) (s := { u with node := u.nodeWith s.tNodes false 0#8 }) hp
  rw [treeFlag_internal hi, hu, Res.next_ok, writeTreeNode_ok false 0#8 u hn, Res.next_ok, hpush, Res.next_ok]
  rfl

/-- Settles O48. Where `t_ints` is 255 and `nsym` is not 256 it says what the model chooses (log 26). -/
theorem flagBitsAreParsed : Obligations.FlagBitsAreParsed := by
  unfold Obligations.FlagBitsAreParsed
  intro s hr
  have hattach : Readable s [.parser, .tree] := fun g hg => hr g (by revert g; decide)
  refine ⟨?_, fun hi => ?_, fun hi hc hn hp => ?_⟩
  · rw [exec_treeFlag true hr, treeFlag_leaf, Res.outcome_ok]
  · rw [exec_treeFlag false hr, treeFlag_badTree hi]; rfl
  · obtain ⟨u, hu, ha⟩ := hc.attached
    refine ⟨u, by rw [exec_treeAttach _ hattach, hu, Res.outcome_ok], _, _, ?_, fun j => Memory.read_write _ _ _ _,
      fun i => Memory.read_write _ _ _ _⟩
    rw [exec_treeFlag false hr, treeFlag_internal_ok hi hu hn (Nat.lt_of_le_of_lt ha.psN_le hp), Res.outcome_ok]
    rw [ha.frame]; rfl

/-! ## TREE.SYMBIT and TREE.COMPLETE (R220, R222) -/

/-- `t_sym` with the next bit shifted in from the right. -/
def shiftIn (y : Byte) (x : Bool) : Byte := (y <<< 1) ||| (if x then 1#8 else 0#8)

/-- The state in which the eighth bit of the symbol `y` is in. -/
def State.withSymbol (s : State) (y : Byte) : State := { s with tSym := y, tSymn := 8, tState := .flag }

/-- The state in which `y` is marked as seen. -/
def State.marked (s : State) (y : Byte) : State := { s with seen := Memory.write s.seen y.toNat true }

/-- The state after the leaf `k` with symbol `y`, attached in `u`, has been made. -/
def State.withLeaf (u : State) (k : Nat) (y : Byte) : State :=
  { u with node := u.nodeWith k true y, tLwi := false, tLeaves := u.tLeaves + 1, tNodes := u.tNodes + 1 }

theorem treeSymbit_wait {s : State} (x : Bool) (h : s.tSymn ≠ 7) :
    treeSymbit x s = .ok false { s with tSym := shiftIn s.tSym x, tSymn := s.tSymn + 1 } := by
  have hne : s.tSymn + 1 ≠ 8 := by omega
  exact if_neg hne

theorem treeSymbit_last {s : State} (x : Bool) (h : s.tSymn = 7) :
    treeSymbit x s = treeLeaf (shiftIn s.tSym x) (s.withSymbol (shiftIn s.tSym x)) := by
  have h8 : s.tSymn + 1 = 8 := by omega
  unfold State.withSymbol
  rw [← h8]
  exact if_pos h8

theorem treeLeaf_seen {y : Byte} {s : State} (h : Memory.read s.seen y.toNat = some true) :
    treeLeaf y s = .raised (raise .corruptArtifact infoDupSymbol y s) := by
  rw [treeLeaf, readSeen, readAt_some s h, Res.bind_ok, if_pos rfl]; rfl

theorem treeLeaf_new {y : Byte} {s u : State} (h : Memory.read s.seen y.toNat = some false)
    (hu : treeAttach s.tNodes (s.marked y) = .ok () u) (hn : s.tNodes < nodeMax) :
    treeLeaf y s = treeComplete (u.withLeaf s.tNodes y) := by
  rw [treeLeaf, readSeen, readAt_some s h, Res.bind_ok, if_neg Bool.false_ne_true]
  unfold State.marked at hu
  dsimp only
  rw [hu, Res.next_ok, writeTreeNode_ok true y u hn, Res.next_ok]
  rfl

/-- A leaf has just been parsed and no internal node waits for its right child (R222). -/
abbrev TreeClosed (s : State) : Prop := s.tLwi = false ∧ 1 ≤ s.tNodes ∧ s.psN = 0

theorem treeComplete_open {s : State} (h : ¬ TreeClosed s) : treeComplete s = .ok false s := if_neg h

theorem treeComplete_short {s : State} (h : TreeClosed s) (hl : s.tLeaves < s.nsym) :
    treeComplete s = .raised (raise .corruptArtifact infoBadTree 0#8 s) := by
  rw [treeComplete, if_pos h, if_pos hl]; rfl

theorem treeComplete_whole {s : State} (h : TreeClosed s) (hl : s.nsym ≤ s.tLeaves) : treeComplete s = .ok true s := by
  rw [treeComplete, if_pos h, if_neg (Nat.not_lt.2 hl)]

/-- Settles O49. Where `t_symn` is 8 or `t_leaves` 256 it says what the model chooses (log 26). -/
theorem symbolBitsAreParsed : Obligations.SymbolBitsAreParsed := by
  unfold Obligations.SymbolBitsAreParsed
  intro s x hr
  dsimp only
  have hattach : Readable s [.parser, .tree] := fun g hg => hr g (by revert g; decide)
  have hcomplete : Readable s [.parser, .symbols] := fun g hg => hr g (by revert g; decide)
  refine ⟨fun h => ?wait, fun h hd => ?seen, fun h hnew hc hn => ?new, fun h hl => ?short, fun h hl => ?whole, fun h => ?more⟩
  case wait => rw [exec_treeSymbit x hr, treeSymbit_wait x h]; rfl
  case seen =>
    have hdup := treeLeaf_seen (s := s.withSymbol (shiftIn s.tSym x)) (y := shiftIn s.tSym x) hd
    rw [exec_treeSymbit x hr, treeSymbit_last x h, hdup]; rfl
  case new =>
    have hc' : CanAttach ((s.withSymbol (shiftIn s.tSym x)).marked (shiftIn s.tSym x)) s.tNodes := hc
    obtain ⟨u, hu, ha⟩ := hc'.attached
    have hsymbit : treeSymbit x s = treeComplete (u.withLeaf s.tNodes (shiftIn s.tSym x)) :=
      (treeSymbit_last x h).trans (treeLeaf_new (s := s.withSymbol (shiftIn s.tSym x)) hnew hu hn)
    have hread : Readable (u.withLeaf s.tNodes (shiftIn s.tSym x)) [.parser, .symbols] := by rw [ha.frame]; exact hcomplete
    have hstate : u.withLeaf s.tNodes (shiftIn s.tSym x) = { u with
        node := u.nodeWith s.tNodes true (shiftIn s.tSym x), tLwi := false, tLeaves := s.tLeaves + 1
        tNodes := s.tNodes + 1 } := by rw [ha.frame]; rfl
    refine ⟨_, u, _, fun i => Memory.read_write _ _ _ _, ?_, fun j => Memory.read_write _ _ _ _, ?_⟩
    · exact (reading_ok hattach).trans (congrArg Res.outcome hu)
    · rw [exec_treeSymbit x hr, hsymbit, ← exec_treeComplete hread, hstate]; rfl
  case short => rw [exec_treeComplete hcomplete, treeComplete_short h hl]; rfl
  case whole => rw [exec_treeComplete hcomplete, treeComplete_whole h hl]; rfl
  case more => rw [exec_treeComplete hcomplete, treeComplete_open h]; rfl

/-! ## DEC.TREE in a state with the invariant (R218) -/

/-- Only `phase`, `root`, the error record, NODE and the parser's registers and arrays change. -/
def TreeSectionOnly (s t : State) : Prop :=
  t = { s with
    phase := t.phase, root := t.root, node := t.node, pstack := t.pstack, psN := t.psN, seen := t.seen, tState := t.tState
    tSym := t.tSym, tSymn := t.tSymn, tNodes := t.tNodes, tLeaves := t.tLeaves, tInts := t.tInts, tLwi := t.tLwi
    err := t.err, errInfo := t.errInfo, errPhase := t.errPhase, errData := t.errData }

theorem ParserOnly.treeSectionOnly {s t : State} (h : ParserOnly s t) : TreeSectionOnly s t := by
  unfold TreeSectionOnly; rw [h]

theorem ParserRaised.treeSectionOnly {s t : State} (h : ParserRaised s t) : TreeSectionOnly s t := by
  obtain ⟨u, info, data, hu, -, rfl⟩ := h
  unfold TreeSectionOnly; rw [hu]; rfl

theorem treeBits_only (c : Bits) (s : State) :
    (treeBits c s).Post (fun _ t => TreeSectionOnly s t) (TreeSectionOnly s) := by
  refine (treeBits_post c s).mono ?_ fun _ h => h.treeSectionOnly
  rintro _ t (h | ⟨-, -, h⟩)
  · exact h.treeSectionOnly
  · unfold TreeSectionOnly
    exact congrArg (fun u : State => { u with root := t.root, phase := t.phase }) h.treeSectionOnly

/-- What a byte of the tree section leads to (R218). -/
def TreeByteEnd (s t : State) : Prop :=
  (t.phase = .dTree ∧ t.err = .none ∧ t.root = s.root) ∨
  (t.phase = .dPad ∧ t.err = .none ∧ t.root = 0 ∧ t.tState = .flag) ∨
  (t.phase = .error ∧ t.err = .corruptArtifact ∧ t.errPhase = .dTree ∧ (t.errInfo = 3#4 ∨ t.errInfo = 4#4))

theorem InTree.treeByteEnd {s t : State} (h : InTree s) {c : Bits} (ht : (treeBits c s).outcome = .next t) :
    TreeByteEnd s t := by
  have hpost := treeBits_post c s
  rcases treeBits_ok c h with ⟨t', he, hin⟩ | ⟨t', he, hdone⟩ | ⟨i, d, u, he, -⟩
  all_goals
    rw [he] at hpost ht
    obtain ⟨⟩ := ht
  · obtain ⟨herr, -⟩ := hin.mid.err
    rcases hpost with hpost | ⟨hpad, -⟩
    · exact .inl ⟨hin.phase, herr, by rw [hpost]⟩
    · rw [hin.phase] at hpad; cases hpad
  · obtain ⟨herr, -⟩ := hdone.mid.err
    exact .inr (.inl ⟨rfl, herr, rfl, hdone.flag⟩)
  · obtain ⟨v, info, data, hv, hinfo, heq⟩ := hpost
    rw [heq]
    exact .inr (.inr ⟨rfl, rfl, hv.phase_eq.trans h.phase, hinfo⟩)

/-- Settles O50: the loop completes in a parse, and TREE.FLAG and TREE.SYMBIT run one by one end in the same state but for `ret`. -/
theorem treeByteIsParsedBitByBit : Obligations.TreeByteIsParsedBitByBit := by
  unfold Obligations.TreeByteIsParsedBitByBit
  intro b s h hp hN
  have hin := h.inTree hp hN
  obtain ⟨w, hw⟩ := hin.treeBits_next (topBits b 8)
  obtain ⟨u, hu, rfl⟩ := parseBits_of_treeBits hp hw
  have honly : TreeSectionOnly s (u.setRet s.ret) := ((treeBits_only (topBits b 8) s).outcome hw).elim id id
  have hend : TreeByteEnd s (u.setRet s.ret) := hin.treeByteEnd hw
  exact ⟨u, hu, (exec_decTree b (readable_parser hp)).trans hw, congrArg (fun t : State => t.setRet u.ret) honly, hend⟩

end Sys2Proof.Machine

/-! PROOF. Reading a tree section (44_framing.md R218 to R222, R226): the parser numbers the nodes in pre-order and writes each link when it
makes the child. What one token does is said once for each kind of token (`InternalRead`, `TreeRead` of a leaf); reading a whole subtree
is put together from its tokens, by induction over the tree where the tree is given and over the bits where they are. -/

namespace Sys2Proof.Machine

/-! ## Trees numbered in pre-order (30_encoding.md R102) -/

/-- The number of nodes. -/
def HTree.size : HTree → Nat
  | .leaf _ => 1
  | .node l r => l.size + r.size + 1

theorem HTree.size_add_one (T : HTree) : T.size + 1 = 2 * T.leaves.length := by
  induction T with
  | leaf y => rfl
  | node l r ihl ihr => rw [size, leaves, List.length_append]; omega

/-- NODE holds the tree from index `k` on, its nodes in pre-order. -/
def PreOrderAt (m : Memory Node) (k : Nat) : HTree → Prop
  | .leaf y => ∃ n, Memory.read m k = some n ∧ n.leaf = true ∧ n.sym = y
  | .node l r => ∃ n, Memory.read m k = some n ∧ n.leaf = false ∧ n.left = k + 1 ∧ n.right = k + 1 + l.size ∧
      PreOrderAt m (k + 1) l ∧ PreOrderAt m (k + 1 + l.size) r

theorem PreOrderAt.represents {m : Memory Node} {k : Nat} {T : HTree} (h : PreOrderAt m k T) : Represents m k T := by
  induction T generalizing k with
  | leaf y => exact h
  | node l r ihl ihr =>
    obtain ⟨n, hn, hleaf, hleft, hright, hl, hr⟩ := h
    exact ⟨n, hn, hleaf, hleft ▸ ihl hl, hright ▸ ihr hr⟩

/-- Only the entries from `k` on, as many as the tree has nodes, matter. -/
theorem PreOrderAt.congr {m m' : Memory Node} {k : Nat} {T : HTree} (h : PreOrderAt m k T)
    (hm : ∀ j, k ≤ j → j < k + T.size → Memory.read m' j = Memory.read m j) : PreOrderAt m' k T := by
  induction T generalizing k with
  | leaf y =>
    obtain ⟨n, hn, hleaf⟩ := h
    exact ⟨n, (hm k (Nat.le_refl k) (by rw [HTree.size]; omega)).trans hn, hleaf⟩
  | node l r ihl ihr =>
    obtain ⟨n, hn, hleaf, hleft, hright, hl, hr⟩ := h
    rw [HTree.size] at hm
    exact ⟨n, (hm k (Nat.le_refl k) (by omega)).trans hn, hleaf, hleft, hright,
      ihl hl fun j h1 h2 => hm j (by omega) (by omega), ihr hr fun j h1 h2 => hm j (by omega) (by omega)⟩

/-! ## The loop of DEC.TREE (R218) -/

/-- What the loop does after a bit: it stops at the complete tree, else the rest of the bits follows. -/
def afterBit (rest : Bits) (complete : Bool) (s : State) : Res Unit :=
  if complete then .ok () { s with root := 0, phase := .dPad } else treeBits rest s

/-- What the loop does after a leaf: TREE.COMPLETE, then as after any bit. -/
def afterLeaf (rest : Bits) (s : State) : Res Unit := (treeComplete s).bind (afterBit rest)

theorem treeBits_cons (x : Bool) (rest : Bits) (s : State) : treeBits (x :: rest) s = (treeBit x s).bind (afterBit rest) := rfl

theorem afterLeaf_open {s : State} (h : ¬ TreeClosed s) (rest : Bits) : afterLeaf rest s = treeBits rest s := by
  rw [afterLeaf, treeComplete_open h]; rfl

/-- A 0 bit in front of a token is TREE.FLAG(0). -/
theorem treeBits_false {s : State} (hf : s.tState = .flag) (rest : Bits) :
    treeBits (false :: rest) s = (treeFlag false s).next (treeBits rest) := by
  rw [treeBits_cons, treeBit, hf]
  cases treeFlag false s <;> rfl

/-- A 1 bit in front of a token starts a symbol. -/
theorem treeBits_true {s : State} (hf : s.tState = .flag) (rest : Bits) :
    treeBits (true :: rest) s = treeBits rest { s with tState := .sym, tSym := 0#8, tSymn := 0 } := by
  rw [treeBits_cons, treeBit, hf]; rfl

theorem treeBits_sym {s : State} (hs : s.tState = .sym) (x : Bool) (rest : Bits) :
    treeBits (x :: rest) s = (treeSymbit x s).bind (afterBit rest) := by
  rw [treeBits_cons, treeBit, hs]

/-- The bits of a symbol wait in `t_sym` as long as there are fewer than eight. -/
theorem treeBits_waiting {c : Bits} {s : State} (hs : s.tState = .sym) (hc : s.tSymn + c.length < 8) :
    treeBits c s = .ok () { s with tSym := c.foldl shiftIn s.tSym, tSymn := s.tSymn + c.length } := by
  induction c generalizing s with
  | nil => rfl
  | cons x c ih =>
    rw [List.length_cons] at hc
    rw [treeBits_sym hs, treeSymbit_wait x (by omega)]
    refine (ih (s := { s with tSym := shiftIn s.tSym x, tSymn := s.tSymn + 1 }) hs (by dsimp only; omega)).trans ?_
    rw [List.length_cons, List.foldl_cons, Nat.add_comm c.length, Nat.add_assoc]

/-- The eighth makes the leaf. -/
theorem treeBits_symbol_bits {c : Bits} {s : State} (hs : s.tState = .sym) (hlt : s.tSymn < 8) (hc : s.tSymn + c.length = 8)
    (rest : Bits) :
    treeBits (c ++ rest) s =
      (treeLeaf (c.foldl shiftIn s.tSym) (s.withSymbol (c.foldl shiftIn s.tSym))).bind (afterBit rest) := by
  induction c generalizing s with
  | nil => rw [List.length_nil] at hc; omega
  | cons x c ih =>
    rw [List.length_cons] at hc
    rw [List.cons_append, treeBits_sym hs, List.foldl_cons]
    by_cases h7 : s.tSymn = 7
    · obtain rfl : c = [] := List.eq_nil_of_length_eq_zero (by omega)
      rw [treeSymbit_last x h7]; rfl
    · rw [treeSymbit_wait x h7]
      exact ih (s := { s with tSym := shiftIn s.tSym x, tSymn := s.tSymn + 1 }) hs (by dsimp only; omega) (by dsimp only; omega)

/-- A leaf token (30_encoding.md R104). -/
theorem treeBits_leaf {s : State} (hf : s.tState = .flag) (y : Byte) (rest : Bits) :
    treeBits ((HTree.leaf y).ser ++ rest) s = (treeLeaf y (s.withSymbol y)).bind (afterBit rest) := by
  have h := treeBits_symbol_bits (c := bitsOfByte y) (s := { s with tState := .sym, tSym := 0#8, tSymn := 0 }) rfl
    (show 0 < 8 by decide) rfl rest
  have hy : (bitsOfByte y).foldl shiftIn 0#8 = y := byteOfBits_bitsOfByte y
  rw [hy] at h
  exact (treeBits_true hf _).trans h

/-! ## What the parser has to work with in front of a token -/

/-- The parser stands in front of a token, or behind the last one: its nodes are numbered from 0 on without a gap, and its counters
belong together (R219 to R222, R226). -/
structure Parsed (s : State) : Prop where
  flag : s.tState = .flag
  nodes : ∀ k, k < s.tNodes → ∃ n, Memory.read s.node k = some n
  above : ∀ k, s.tNodes ≤ k → Memory.read s.node k = none
  stack : ∀ i, i < s.psN → ∃ k, Memory.read s.pstack i = some k ∧ k < s.tNodes
  seen : ∀ y : Byte, ∃ b, Memory.read s.seen y.toNat = some b
  count : s.tNodes = s.tInts + s.tLeaves
  fresh : s.tNodes = 0 → s.psN = 0 ∧ s.tLwi = false
  owed : 0 < s.tNodes → s.tLeaves + s.psN + (if s.tLwi then 1 else 0) = s.tInts + 1
  pushed : s.tLwi = true → 1 ≤ s.psN
  room : s.psN ≤ s.tInts
  ints : s.tInts < s.nsym
  small : s.nsym ≤ 256

/-- The entries of PSTACK that are left once the next node has been attached (R221). -/
def State.stackLeft (s : State) : Nat := if s.tLwi then s.psN else s.psN - 1

/-- NODE[j] once the next node, `t_nodes`, has been linked to its parent (R221). -/
def State.linkedNode (s : State) (j : Nat) : Option Node :=
  if s.tLwi = true ∧ j + 1 = s.tNodes then (Memory.read s.node j).map fun n => { n with left := s.tNodes }
  else if s.tLwi = false ∧ 0 < s.psN ∧ Memory.read s.pstack (s.psN - 1) = some j then
    (Memory.read s.node j).map fun n => { n with right := s.tNodes }
  else Memory.read s.node j

theorem linkedNode_left {s : State} {j : Nat} {n : Node} (hl : s.tLwi = true) (hj : j + 1 = s.tNodes)
    (hn : Memory.read s.node j = some n) : s.linkedNode j = some { n with left := s.tNodes } := by
  rw [State.linkedNode, if_pos ⟨hl, hj⟩, hn]; rfl

theorem linkedNode_right {s : State} {j : Nat} {n : Node} (hl : s.tLwi = false) (hp : 0 < s.psN)
    (hj : Memory.read s.pstack (s.psN - 1) = some j) (hn : Memory.read s.node j = some n) :
    s.linkedNode j = some { n with right := s.tNodes } := by
  rw [State.linkedNode, if_neg (by simp [hl]), if_pos ⟨hl, hp, hj⟩, hn]; rfl

/-- Every node but the parent stays. -/
theorem linkedNode_other {s : State} {j : Nat} (hl : s.tLwi = true → j + 1 ≠ s.tNodes)
    (hr : s.tLwi = false → 0 < s.psN → Memory.read s.pstack (s.psN - 1) ≠ some j) :
    s.linkedNode j = Memory.read s.node j := by
  rw [State.linkedNode, if_neg fun h => hl h.1 h.2, if_neg fun h => hr h.1 h.2.1 h.2.2]

theorem Attached.read_node {s u : State} (h : Attached s.tNodes s u) (hf : s.tNodes = 0 → s.psN = 0 ∧ s.tLwi = false) (j : Nat) :
    Memory.read u.node j = s.linkedNode j := by
  cases h with
  | root hk =>
    obtain ⟨hp, hl⟩ := hf hk
    exact (linkedNode_other (by simp [hl]) (by simp [hp])).symm
  | left n hk hl hn =>
    rw [Memory.read_write]
    split
    · rename_i hj; subst hj
      exact (linkedNode_left hl (by omega) hn).symm
    · exact (linkedNode_other (by omega) (by simp [hl])).symm
  | right p n hk hl hpos hp hn =>
    rw [Memory.read_write]
    split
    · rename_i hj; subst hj
      exact (linkedNode_right hl hpos hp hn).symm
    · rename_i hj
      exact (linkedNode_other (by simp [hl]) fun _ _ => by rw [hp]; simpa using Ne.symm hj).symm

theorem Attached.stackLeft {s u : State} (h : Attached s.tNodes s u) (hf : s.tNodes = 0 → s.psN = 0 ∧ s.tLwi = false) :
    u.psN = s.stackLeft := by
  unfold State.stackLeft
  cases h with
  | root hk => obtain ⟨hp, hl⟩ := hf hk; simp [hp]
  | left n hk hl hn => rw [if_pos hl]
  | right p n hk hl hpos hp hn => simp [hl]

section Parsed
variable {s : State} (h : Parsed s) (ho : ¬ TreeClosed s)
include h ho

/-- The children owed, beside the one whose place comes next, make up for the internal nodes. -/
theorem Parsed.leaves_add_stackLeft : s.tLeaves + s.stackLeft = s.tInts := by
  have hcount := h.count
  unfold State.stackLeft
  rcases Nat.eq_zero_or_pos s.tNodes with h0 | h0
  · obtain ⟨hp, hl⟩ := h.fresh h0
    rw [hp, hl, if_neg Bool.false_ne_true]; omega
  · have howed := h.owed h0
    cases hl : s.tLwi with
    | true => rw [hl, if_pos rfl] at howed; rw [if_pos rfl]; omega
    | false =>
      have hp : s.psN ≠ 0 := fun hp => ho ⟨hl, h0, hp⟩
      rw [hl, if_neg Bool.false_ne_true] at howed
      rw [if_neg Bool.false_ne_true]; omega

theorem Parsed.tNodes_lt : s.tNodes < nodeMax := by
  have hle := h.leaves_add_stackLeft ho
  have hcount := h.count
  have hints := h.ints
  have hsmall := h.small
  unfold nodeMax; omega

theorem Parsed.canAttach : CanAttach s s.tNodes := by
  have hlt := h.tNodes_lt ho
  rcases Nat.eq_zero_or_pos s.tNodes with h0 | h0
  · exact .inl h0
  cases hl : s.tLwi with
  | true => exact .inr (.inl ⟨hl, Nat.le_of_lt hlt, h.nodes _ (by omega)⟩)
  | false =>
    have hp : s.psN ≠ 0 := fun hp => ho ⟨hl, h0, hp⟩
    obtain ⟨k, hk, hkn⟩ := h.stack (s.psN - 1) (by omega)
    obtain ⟨n, hn⟩ := h.nodes k hkn
    exact .inr (.inr ⟨hl, by omega, k, n, hk, by omega, hn⟩)

/-- TREE.ATTACH of the next node: NODE and the depth of PSTACK after it. -/
theorem Parsed.attach : ∃ m, treeAttach s.tNodes s = .ok () { s with node := m, psN := s.stackLeft } ∧
    ∀ j, Memory.read m j = s.linkedNode j := by
  obtain ⟨u, hu, ha⟩ := (h.canAttach ho).attached
  refine ⟨u.node, ?_, ha.read_node h.fresh⟩
  rw [hu, ← ha.stackLeft h.fresh, ← ha.frame]

omit ho in
theorem Parsed.linkedNode_exists (j : Nat) (hj : j < s.tNodes) : ∃ n, s.linkedNode j = some n := by
  obtain ⟨n, hn⟩ := h.nodes j hj
  unfold State.linkedNode
  rw [hn]
  split
  · exact ⟨_, rfl⟩
  · split <;> exact ⟨_, rfl⟩

omit ho in
theorem Parsed.linkedNode_above (j : Nat) (hj : s.tNodes ≤ j) : s.linkedNode j = none := by
  unfold State.linkedNode
  rw [h.above j hj]
  split
  · rfl
  · split <;> rfl

end Parsed

/-! ## One internal node (R219) -/

/-- What the token of an internal node leaves: the node, on top of PSTACK, linked to its parent. -/
structure InternalRead (s t : State) : Prop where
  only : ParserOnly s t
  parsed : Parsed t
  tNodes : t.tNodes = s.tNodes + 1
  tLeaves : t.tLeaves = s.tLeaves
  tInts : t.tInts = s.tInts + 1
  tLwi : t.tLwi = true
  psN : t.psN = s.stackLeft + 1
  top : Memory.read t.pstack s.stackLeft = some s.tNodes
  stack : ∀ i, i < s.stackLeft → Memory.read t.pstack i = Memory.read s.pstack i
  seen : t.seen = s.seen
  new : ∃ n, Memory.read t.node s.tNodes = some n ∧ n.leaf = false
  below : ∀ j, j < s.tNodes → Memory.read t.node j = s.linkedNode j

theorem State.stackLeft_le (s : State) : s.stackLeft ≤ s.psN := by
  unfold stackLeft; split
  · exact Nat.le_refl _
  · exact Nat.sub_le _ _

/-- NODE after the next node has been attached and written. -/
theorem read_nodeWith (u : State) (k : Nat) (leaf : Bool) (y : Byte) (j : Nat) :
    Memory.read (u.nodeWith k leaf y) j = if j = k then
      some { leaf := leaf, sym := y, freq := (u.nodeAt k).bind Node.freq, left := 0, right := 0 }
    else Memory.read u.node j := Memory.read_write _ _ _ _

/-- The nodes are again numbered without a gap. -/
theorem Parsed.nodeWith {s u : State} (h : Parsed s) (hu : ∀ j, Memory.read u.node j = s.linkedNode j) (leaf : Bool) (y : Byte) :
    (∀ j, j < s.tNodes + 1 → ∃ n, Memory.read (u.nodeWith s.tNodes leaf y) j = some n) ∧
    (∀ j, s.tNodes + 1 ≤ j → Memory.read (u.nodeWith s.tNodes leaf y) j = none) ∧
    ∀ j, j < s.tNodes → Memory.read (u.nodeWith s.tNodes leaf y) j = s.linkedNode j := by
  simp only [read_nodeWith, hu]
  refine ⟨fun j hj => ?_, fun j hj => ?_, fun j hj => if_neg (by omega)⟩
  · split
    · exact ⟨_, rfl⟩
    · exact h.linkedNode_exists j (by omega)
  · rw [if_neg (by omega)]
    exact h.linkedNode_above j (by omega)

/-- The token of an internal node, where a place is open and there are not yet N - 1 internal nodes. -/
theorem Parsed.internalRead {s : State} (h : Parsed s) (ho : ¬ TreeClosed s) (hi : s.tInts + 1 ≠ s.nsym) :
    ∃ t, treeFlag false s = .ok () t ∧ InternalRead s t := by
  obtain ⟨m, hm, hread⟩ := h.attach ho
  obtain ⟨hnodes, habove, hbelow⟩ := h.nodeWith (u := { s with node := m, psN := s.stackLeft }) hread false 0#8
  have hcount := h.count
  have howed := h.leaves_add_stackLeft ho
  have hints : s.tInts + 1 < s.nsym := Nat.lt_of_le_of_ne h.ints hi
  have hfull : s.stackLeft < pstackMax := by have hsmall := h.small; unfold pstackMax; omega
  refine ⟨_, treeFlag_internal_ok hi hm (h.tNodes_lt ho) hfull, ?_⟩
  have hparsed : Parsed (State.withInternal { s with node := m, psN := s.stackLeft } s.tNodes) := {
    flag := h.flag
    nodes := hnodes
    above := habove
    stack := fun i (hi : i < s.stackLeft + 1) => by
      have hread := Memory.read_write s.pstack s.stackLeft i s.tNodes
      by_cases htop : i = s.stackLeft
      · exact ⟨_, hread.trans (if_pos htop), Nat.lt_succ_self _⟩
      · obtain ⟨k, hk, hlt⟩ := h.stack i (Nat.lt_of_lt_of_le (by omega) s.stackLeft_le)
        exact ⟨k, (hread.trans (if_neg htop)).trans hk, Nat.lt_succ_of_lt hlt⟩
    seen := h.seen
    count := show s.tNodes + 1 = s.tInts + 1 + s.tLeaves by omega
    fresh := fun h0 => absurd h0 (Nat.succ_ne_zero _)
    owed := fun _ => show s.tLeaves + (s.stackLeft + 1) + 1 = s.tInts + 1 + 1 by omega
    pushed := fun _ => Nat.succ_pos _
    room := show s.stackLeft + 1 ≤ s.tInts + 1 by omega
    ints := hints
    small := h.small }
  exact {
    only := rfl, parsed := hparsed, tNodes := rfl, tLeaves := rfl, tInts := rfl, tLwi := rfl, psN := rfl, seen := rfl
    top := Memory.read_write_same _ _ _
    stack := fun i hi => Memory.read_write_other _ _ (Nat.ne_of_lt hi)
    new := ⟨_, (read_nodeWith _ _ _ _ _).trans (if_pos rfl), rfl⟩
    below := hbelow }

/-! ## A whole subtree -/

/-- What the tokens of a tree leave where a place was open for it: the tree, numbered in pre-order from the next node on and linked to its
parent. -/
structure TreeRead (T : HTree) (s t : State) : Prop where
  only : ParserOnly s t
  parsed : Parsed t
  tNodes : t.tNodes = s.tNodes + T.size
  tLeaves : t.tLeaves = s.tLeaves + T.leaves.length
  tInts : t.tInts + 1 = s.tInts + T.leaves.length
  tLwi : t.tLwi = false
  psN : t.psN = s.stackLeft
  stack : ∀ i, i < s.stackLeft → Memory.read t.pstack i = Memory.read s.pstack i
  nodup : T.leaves.Nodup
  new : ∀ y ∈ T.leaves, Memory.read s.seen y.toNat = some false
  seen : ∀ y : Byte, Memory.read t.seen y.toNat = if y ∈ T.leaves then some true else Memory.read s.seen y.toNat
  tree : PreOrderAt t.node s.tNodes T
  below : ∀ j, j < s.tNodes → Memory.read t.node j = s.linkedNode j

/-- One leaf, whose symbol is new (R220). -/
theorem Parsed.leafRead {s : State} (h : Parsed s) (ho : ¬ TreeClosed s) {y : Byte}
    (hnew : Memory.read s.seen y.toNat = some false) :
    ∃ t, (∀ rest, treeBits ((HTree.leaf y).ser ++ rest) s = afterLeaf rest t) ∧ TreeRead (.leaf y) s t := by
  have hmarked : Parsed ((s.withSymbol y).marked y) := { h with
    flag := rfl
    seen := fun z => by
      rw [State.marked, Memory.read_write]
      split
      · exact ⟨true, rfl⟩
      · exact h.seen z }
  have ho' : ¬ TreeClosed ((s.withSymbol y).marked y) := ho
  obtain ⟨m, hm, hread⟩ := hmarked.attach ho'
  obtain ⟨hnodes, habove, hbelow⟩ := h.nodeWith (u := { (s.withSymbol y).marked y with node := m, psN := s.stackLeft })
    hread true y
  have hcount := h.count
  have howed := h.leaves_add_stackLeft ho
  have hleaf := treeLeaf_new (s := s.withSymbol y) hnew hm (h.tNodes_lt ho)
  refine ⟨_, fun rest => by rw [treeBits_leaf h.flag, hleaf]; rfl, ?_⟩
  have hparsed : Parsed (State.withLeaf { (s.withSymbol y).marked y with node := m, psN := s.stackLeft } s.tNodes y) := {
    flag := rfl
    nodes := hnodes
    above := habove
    stack := fun i hi => by
      obtain ⟨k, hk, hlt⟩ := h.stack i (Nat.lt_of_lt_of_le hi s.stackLeft_le)
      exact ⟨k, hk, Nat.lt_succ_of_lt hlt⟩
    seen := hmarked.seen
    count := show s.tNodes + 1 = s.tInts + (s.tLeaves + 1) by omega
    fresh := fun h0 => absurd h0 (Nat.succ_ne_zero _)
    owed := fun _ => show s.tLeaves + 1 + s.stackLeft + 0 = s.tInts + 1 by omega
    pushed := fun hl => absurd hl Bool.false_ne_true
    room := show s.stackLeft ≤ s.tInts by omega
    ints := h.ints
    small := h.small }
  exact {
    only := rfl, parsed := hparsed, tNodes := rfl, tLeaves := rfl, tInts := rfl, tLwi := rfl, psN := rfl
    stack := fun _ _ => rfl
    nodup := List.nodup_singleton y
    new := fun z hz => by rw [List.mem_singleton.1 hz, hnew]
    seen := fun z => by
      have hz : z.toNat = y.toNat ↔ z ∈ (HTree.leaf y).leaves := by
        rw [HTree.leaves, List.mem_singleton, BitVec.toNat_inj]
      exact (Memory.read_write _ _ _ _).trans (if_congr hz rfl rfl)
    tree := ⟨_, (read_nodeWith _ _ _ _ _).trans (if_pos rfl), rfl, rfl⟩
    below := hbelow }

theorem TreeRead.not_closed {T : HTree} {s t u : State} (hi : InternalRead s t) (h : TreeRead T t u) : ¬ TreeClosed u := by
  rintro ⟨-, -, hp⟩
  rw [h.psN, State.stackLeft, if_pos hi.tLwi, hi.psN] at hp
  exact Nat.succ_ne_zero _ hp

/-- Below the node that waits for its right child nothing changes when that child is made. -/
theorem TreeRead.node {l r : HTree} {s t u v : State} (hi : InternalRead s t) (hl : TreeRead l t u) (hr : TreeRead r u v) :
    TreeRead (.node l r) s v := by
  have hleft : t.stackLeft = s.stackLeft + 1 := by rw [State.stackLeft, if_pos hi.tLwi, hi.psN]
  have hright : u.stackLeft = s.stackLeft := by
    rw [State.stackLeft, if_neg (by simp [hl.tLwi]), hl.psN, hleft, Nat.add_sub_cancel]
  have hk : t.tNodes = s.tNodes + 1 := hi.tNodes
  have hk' : u.tNodes = s.tNodes + 1 + l.size := by rw [hl.tNodes, hk]
  -- the node on top of PSTACK in `u`
  have hpos : 0 < u.psN := by rw [hl.psN, hleft]; exact Nat.succ_pos _
  have htop : Memory.read u.pstack (u.psN - 1) = some s.tNodes := by
    rw [hl.psN, hleft, Nat.add_sub_cancel, hl.stack _ (by omega), hi.top]
  have hother : ∀ j, j < u.tNodes → j ≠ s.tNodes → Memory.read v.node j = Memory.read u.node j := fun j hj hne => by
    rw [hr.below j hj, linkedNode_other (by simp [hl.tLwi]) fun _ _ => by rw [htop]; simpa using Ne.symm hne]
  have hnode : ∃ n, Memory.read v.node s.tNodes = some n ∧ n.leaf = false ∧ n.left = s.tNodes + 1 ∧ n.right = u.tNodes := by
    obtain ⟨n, hn, hleaf⟩ := hi.new
    have h1 := (hl.below s.tNodes (by omega)).trans (linkedNode_left hi.tLwi hk.symm hn)
    have h2 := (hr.below s.tNodes (by omega)).trans (linkedNode_right hl.tLwi hpos htop h1)
    exact ⟨_, h2, hleaf, hk, rfl⟩
  obtain ⟨n, hn, hleaf, hnl, hnr⟩ := hnode
  have hseen : ∀ y ∈ r.leaves, y ∉ l.leaves ∧ Memory.read s.seen y.toNat = some false := fun y hy => by
    have hnew := hr.new y hy
    rw [hl.seen] at hnew
    split at hnew
    · cases hnew
    · rename_i hnot; exact ⟨hnot, hi.seen ▸ hnew⟩
  exact {
    only := (hi.only.trans hl.only).trans hr.only
    parsed := hr.parsed
    tNodes := by rw [hr.tNodes, hk', HTree.size]; omega
    tLeaves := by rw [hr.tLeaves, hl.tLeaves, hi.tLeaves, HTree.leaves, List.length_append]; omega
    tInts := by
      have h1 := hl.tInts
      have h2 := hr.tInts
      have h3 := hi.tInts
      rw [HTree.leaves, List.length_append]; omega
    tLwi := hr.tLwi
    psN := hr.psN.trans hright
    stack := fun i hlt => by
      rw [hr.stack i (by omega), hl.stack i (by omega), hi.stack i hlt]
    nodup := List.nodup_append.2 ⟨hl.nodup, hr.nodup, fun a ha b hb hab => (hseen b hb).1 (hab ▸ ha)⟩
    new := fun y hy => (List.mem_append.1 hy).elim (fun hy => hi.seen ▸ hl.new y hy) fun hy => (hseen y hy).2
    seen := fun y => by
      rw [hr.seen, hl.seen, hi.seen, HTree.leaves]
      by_cases h1 : y ∈ r.leaves <;> by_cases h2 : y ∈ l.leaves <;> simp [h1, h2]
    tree := ⟨n, hn, hleaf, hnl, hnr.trans hk',
      (hk ▸ hl.tree).congr fun j h1 h2 => hother j (by omega) (by omega), hk' ▸ hr.tree⟩
    below := fun j hj => by
      rw [hother j (by omega) (by omega), hl.below j (by omega), linkedNode_other (by omega) (by simp [hi.tLwi]),
        hi.below j hj] }

end Sys2Proof.Machine

/-! PROOF. The tree section as a whole (44_framing.md R226): from the start of D_TREE the bits that complete the tree are those of a tree
with N distinct symbols and any bits behind them; then the same byte by byte, and for N = 1. -/

namespace Sys2Proof.Machine

/-! ## The tokens of a tree determine it (30_encoding.md R102) -/

theorem bitsOfByte_injective {y z : Byte} (h : bitsOfByte y = bitsOfByte z) : y = z := by
  rw [← byteOfBits_bitsOfByte y, h, byteOfBits_bitsOfByte]

/-- No serialised tree begins another one. -/
theorem HTree.ser_append_inj {T U : HTree} {c d : Bits} (h : T.ser ++ c = U.ser ++ d) : T = U ∧ c = d := by
  induction T generalizing U c d with
  | leaf y =>
    cases U with
    | leaf z =>
      obtain ⟨hbits, hrest⟩ := List.append_inj (List.cons.inj h).2 rfl
      exact ⟨congrArg _ (bitsOfByte_injective hbits), hrest⟩
    | node l r => cases h
  | node l r ihl ihr =>
    cases U with
    | leaf z => cases h
    | node l' r' =>
      have h' : l.ser ++ (r.ser ++ c) = l'.ser ++ (r'.ser ++ d) := by simpa [ser] using h
      obtain ⟨rfl, hr⟩ := ihl h'
      obtain ⟨rfl, hrest⟩ := ihr hr
      exact ⟨rfl, hrest⟩

/-! ## Reading a given tree -/

/-- The tokens of a tree whose symbols are new and distinct, and which has no more leaves than are left, are read one after the other. -/
theorem Parsed.reads {T : HTree} {s : State} (h : Parsed s) (ho : ¬ TreeClosed s) (hnd : T.leaves.Nodup)
    (hnew : ∀ y ∈ T.leaves, Memory.read s.seen y.toNat = some false) (hfit : s.tInts + T.leaves.length ≤ s.nsym) :
    ∃ t, TreeRead T s t ∧ ∀ rest, treeBits (T.ser ++ rest) s = afterLeaf rest t := by
  induction T generalizing s with
  | leaf y =>
    obtain ⟨t, hrun, ht⟩ := h.leafRead ho (hnew y List.mem_cons_self)
    exact ⟨t, ht, hrun⟩
  | node l r ihl ihr =>
    have hl0 := l.leaves_pos
    have hr0 := r.leaves_pos
    obtain ⟨hndl, hndr, hdisj⟩ := List.nodup_append.1 hnd
    rw [HTree.leaves, List.length_append] at hfit
    obtain ⟨t, htok, hi⟩ := h.internalRead ho (by omega)
    have hnsym : t.nsym = s.nsym := by rw [hi.only]
    have hints := hi.tInts
    obtain ⟨u, hu, hrunl⟩ := ihl hi.parsed (by simp [TreeClosed, hi.tLwi]) hndl
      (fun y hy => hi.seen ▸ hnew y (List.mem_append_left _ hy)) (by omega)
    have hopen := hu.not_closed hi
    have hnsym' : u.nsym = s.nsym := by rw [hu.only, hnsym]
    have hints' := hu.tInts
    obtain ⟨v, hv, hrunr⟩ := ihr hu.parsed hopen hndr
      (fun y hy => by
        rw [hu.seen, if_neg fun hyl => hdisj y hyl y hy rfl, hi.seen]
        exact hnew y (List.mem_append_right _ hy))
      (by omega)
    refine ⟨v, .node hi hu hv, fun rest => ?_⟩
    calc treeBits ((HTree.node l r).ser ++ rest) s
        = treeBits (l.ser ++ (r.ser ++ rest)) t := by
          rw [HTree.ser, List.cons_append, List.append_assoc, treeBits_false h.flag, htok, Res.next_ok]
      _ = treeBits (r.ser ++ rest) u := by rw [hrunl, afterLeaf_open hopen]
      _ = afterLeaf rest v := hrunr rest

/-! ## Reading any bits -/

/-- Where the bits complete the tree, they begin with the tokens of a tree. By induction over the number of bits: behind the token of an
internal node the bits begin with its left subtree, and behind that with its right one. -/
theorem Parsed.reads_some_tree {c : Bits} {s u : State} (h : Parsed s) (ho : ¬ TreeClosed s) (hp : s.phase ≠ .dPad)
    (hrun : treeBits c s = .ok () u) (hu : u.phase = .dPad) :
    ∃ T rest t, c = T.ser ++ rest ∧ TreeRead T s t ∧ afterLeaf rest t = .ok () u := by
  induction hn : c.length using Nat.strong_induction_on generalizing c s with
  | _ n ih =>
    subst hn
    match c with
    | [] => cases hrun; exact absurd hu hp
    | true :: c =>
      by_cases hlen : c.length < 8
      · rw [treeBits_true h.flag, treeBits_waiting rfl (by dsimp only; omega)] at hrun
        cases hrun
        exact absurd hu hp
      · have hsplit : true :: c = (HTree.leaf (byteOfBits (c.take 8))).ser ++ c.drop 8 := by
          rw [HTree.ser, bitsOfByte_byteOfBits (List.length_take_of_le (Nat.not_lt.1 hlen)), List.cons_append, List.take_append_drop]
        obtain ⟨b, hb⟩ := h.seen (byteOfBits (c.take 8))
        rw [hsplit] at hrun ⊢
        cases b with
        | true =>
          have hdup := treeLeaf_seen (s := s.withSymbol (byteOfBits (c.take 8))) hb
          rw [treeBits_leaf h.flag, hdup] at hrun
          cases hrun
        | false =>
          obtain ⟨t, hleaf, ht⟩ := h.leafRead ho hb
          exact ⟨_, _, t, rfl, ht, (hleaf _).symm.trans hrun⟩
    | false :: c =>
      rw [treeBits_false h.flag] at hrun
      by_cases hi : s.tInts + 1 = s.nsym
      · rw [treeFlag_badTree hi] at hrun
        cases hrun
      obtain ⟨t, htok, hint⟩ := h.internalRead ho hi
      have htp : t.phase ≠ .dPad := hint.only.phase_eq ▸ hp
      rw [htok, Res.next_ok] at hrun
      obtain ⟨l, c1, v, rfl, hv, hafter⟩ := ih c.length (Nat.lt_succ_self _) hint.parsed (by simp [TreeClosed, hint.tLwi]) htp hrun rfl
      have hopen := hv.not_closed hint
      rw [afterLeaf_open hopen] at hafter
      obtain ⟨r, c2, w, rfl, hw, hend⟩ := ih c1.length (by simp) hv.parsed hopen (hv.only.phase_eq ▸ htp) hafter rfl
      exact ⟨.node l r, c2, w, by simp [HTree.ser], .node hint hv hw, hend⟩

/-! ## From the start of D_TREE -/

/-- The parser at the start of a tree section with N >= 2 (46_codec_commands.md R252, 44_framing.md R215). -/
structure SectionStart (s : State) : Prop where
  parsed : Parsed s
  phase : s.phase = .dTree
  many : s.nsym ≠ 1
  none : s.tNodes = 0
  unseen : ∀ y : Byte, Memory.read s.seen y.toNat = some false

/-- The state after the tree is complete. -/
def State.treeDone (s : State) : State := { s with root := 0, phase := .dPad }

theorem SectionStart.not_closed {s : State} (h : SectionStart s) : ¬ TreeClosed s := by simp [TreeClosed, h.none]

/-- A tree read from the start closes, and then has as many leaves as internal nodes and one. -/
theorem SectionStart.closed {s t : State} {T : HTree} (h : SectionStart s) (ht : TreeRead T s t) :
    TreeClosed t ∧ t.tLeaves = T.leaves.length ∧ t.tInts + 1 = T.leaves.length ∧ T.leaves.length ≤ s.nsym ∧ t.nsym = s.nsym := by
  have hcount := h.parsed.count
  have hnone := h.none
  obtain ⟨hps, hlwi⟩ := h.parsed.fresh h.none
  have hints := ht.parsed.ints
  have hnsym : t.nsym = s.nsym := by rw [ht.only]
  have htl := ht.tLeaves
  have hti := ht.tInts
  refine ⟨⟨ht.tLwi, ?_, ?_⟩, by omega, by omega, by omega, hnsym⟩
  · have hsize := T.size_add_one
    have hpos := T.leaves_pos
    rw [ht.tNodes]; omega
  · rw [ht.psN, State.stackLeft, hlwi, hps]; rfl

/-- The tokens of a tree with N distinct symbols complete it, and the bits behind them are not examined (R218). -/
theorem SectionStart.completes {s : State} (h : SectionStart s) {T : HTree} (hnd : T.leaves.Nodup)
    (hN : T.leaves.length = s.nsym) (rest : Bits) : ∃ t, TreeRead T s t ∧ treeBits (T.ser ++ rest) s = .ok () t.treeDone := by
  have hints : s.tInts = 0 := by have := h.parsed.count; have := h.none; omega
  obtain ⟨t, ht, hrun⟩ := h.parsed.reads h.not_closed hnd (fun y _ => h.unseen y) (by omega)
  obtain ⟨hclosed, hleaves, -, -, hnsym⟩ := h.closed ht
  exact ⟨t, ht, by rw [hrun, afterLeaf, treeComplete_whole hclosed (by omega)]; rfl⟩

/-- Bits that complete the tree begin with such tokens. -/
theorem SectionStart.of_completes {s u : State} (h : SectionStart s) {c : Bits} (hrun : treeBits c s = .ok () u)
    (hu : u.phase = .dPad) :
    ∃ T rest t, c = T.ser ++ rest ∧ T.leaves.length = s.nsym ∧ TreeRead T s t ∧ u = t.treeDone := by
  obtain ⟨T, rest, t, hc, ht, hafter⟩ := h.parsed.reads_some_tree h.not_closed (by simp [h.phase]) hrun hu
  obtain ⟨hclosed, hleaves, -, hle, hnsym⟩ := h.closed ht
  rw [afterLeaf] at hafter
  rcases Nat.lt_or_ge t.tLeaves t.nsym with hlt | hge
  · rw [treeComplete_short hclosed hlt] at hafter
    cases hafter
  · rw [treeComplete_whole hclosed hge] at hafter
    cases hafter
    exact ⟨T, rest, t, hc, by omega, ht, rfl⟩

end Sys2Proof.Machine

/-! PROOF. The tree section byte by byte (44_framing.md R217, R218, R226): which input beats end the parse of a header in D_PAD, and the two
directions of the law of the parser. -/

namespace Sys2Proof.Machine

/-! ## Data beats in the phases of the header (30_encoding.md R114) -/

theorem feed_cons (w : BitVec 10) (ws : List (BitVec 10)) (s : State) : feed (w :: ws) s = onNext (feedBeat w s) (feed ws) := rfl

section FeedBeat
variable {s : State} (b : Byte)

theorem feedBeat_dCount (hp : s.phase = .dCount) : feedBeat (dataBeat b) s = .next (decCount b s) := by
  simp [feedBeat, decode, decodeInput, hp, runDecoded, exec, execDecCount]

theorem feedBeat_decTree1 (hp : s.phase = .dTree) (hN : s.nsym = 1) : feedBeat (dataBeat b) s = (decTree1 b s).outcome := by
  simp [feedBeat, decode, decodeInput, hp, hN, runDecoded, exec, execDecTree1]

theorem feedBeat_decTree (hp : s.phase = .dTree) (hN : s.nsym ≠ 1) : feedBeat (dataBeat b) s = exec (.decTree b) s := by
  simp [feedBeat, decode, decodeInput, hp, hN, runDecoded]

/-- The phases that a header leaves D_PAD for on a data beat. -/
def PastPad (s : State) : Prop := s.phase = .dPayload ∨ s.phase = .error

theorem feedBeat_dPad {t : State} (hp : s.phase = .dPad) (h : feedBeat (dataBeat b) s = .next t) : PastPad t := by
  have hexec : feedBeat (dataBeat b) s = exec (.decPad b) s := by simp [feedBeat, decode, decodeInput, hp, runDecoded]
  obtain ⟨-, hrun⟩ := reading_eq_next.1 (hexec.symm.trans h)
  rcases (decPad_post b s).outcome hrun with ⟨rfl, -⟩ | rfl
  · exact .inl rfl
  · exact .inr rfl

theorem PastPad.feedBeat {t : State} (hs : PastPad s) (h : feedBeat (dataBeat b) s = .next t) : PastPad t := by
  rcases hs with hp | hp
  · have hexec : Machine.feedBeat (dataBeat b) s = exec (.decData b) s := by
      simp [Machine.feedBeat, decode, decodeInput, hp, runDecoded]
    obtain ⟨-, hrun⟩ := reading_eq_next.1 (hexec.symm.trans h)
    rcases (decData_post b s).outcome hrun with ⟨u, ⟨ys, hu⟩, rfl⟩ | hraise
    · exact .inl (by rw [hu]; exact hp)
    · exact hraise.elim
  · have hstop : Machine.feedBeat (dataBeat b) s = .refused .notSelected := by
      simp [Machine.feedBeat, decode, decodeInput, hp, runDecoded]
    rw [hstop] at h; cases h

end FeedBeat

theorem PastPad.feed {s u : State} (hs : PastPad s) {bs : List Byte} (h : feed (bs.map dataBeat) s = .next u) : PastPad u := by
  induction bs generalizing s with
  | nil => cases h; exact hs
  | cons b bs ih =>
    obtain ⟨t, ht, hrest⟩ := onNext_eq_next.1 h
    exact ih (hs.feedBeat b ht) hrest

/-- A data beat behind the tree section leaves D_PAD for good. -/
theorem nil_of_feed_dPad {s u : State} (hs : s.phase = .dPad ∨ PastPad s) {bs : List Byte}
    (h : feed (bs.map dataBeat) s = .next u) (hu : u.phase = .dPad) : bs = [] ∧ s = u := by
  have hnot : ¬ PastPad u := by simp [PastPad, hu]
  cases bs with
  | nil => cases h; exact ⟨rfl, rfl⟩
  | cons b bs =>
    obtain ⟨t, ht, hrest⟩ := onNext_eq_next.1 h
    have hpast : PastPad t := hs.elim (fun hp => feedBeat_dPad b hp ht) fun hp => hp.feedBeat b ht
    exact absurd (hpast.feed hrest) hnot

/-! ## Bytes of the tree section (R218) -/

/-- The bits of bytes, most significant first (30_encoding.md R105). -/
def bitsOfBytes (bs : List Byte) : Bits := bs.flatMap bitsOfByte

theorem bitsOfBytes_cons (b : Byte) (bs : List Byte) : bitsOfBytes (b :: bs) = bitsOfByte b ++ bitsOfBytes bs := rfl

theorem bitsOfBytes_append_singleton (bs : List Byte) (b : Byte) : bitsOfBytes (bs ++ [b]) = bitsOfBytes bs ++ bitsOfByte b := by
  simp [bitsOfBytes]

theorem bitsOfBytes_length (bs : List Byte) : (bitsOfBytes bs).length = 8 * bs.length := by
  simp [bitsOfBytes, bitsOfByte, List.length_flatMap, Nat.mul_comm]

/-- The loop of DEC.TREE over bits cut in two: the second part is looked at where the first does not complete the tree. -/
theorem treeBits_append {s : State} (hp : s.phase = .dTree) (c d : Bits) :
    treeBits (c ++ d) s = (treeBits c s).next fun t => if t.phase = .dPad then .ok () t else treeBits d t := by
  induction c generalizing s with
  | nil => simp [treeBits, hp]
  | cons x c ih =>
    have hpost := treeBit_post x s
    rw [List.cons_append, treeBits_cons, treeBits_cons]
    cases hbit : treeBit x s with
    | ok complete t =>
      rw [hbit] at hpost
      cases complete with
      | true => rfl
      | false => exact ih (ParserOnly.phase_eq hpost |>.trans hp)
    | raised t => rfl
    | fault f => rfl

/-- Where the loop goes through, it stays in D_TREE with its `nsym`, or completes the tree. -/
theorem phase_of_treeBits {s t : State} (hp : s.phase = .dTree) {c : Bits} (h : treeBits c s = .ok () t) :
    (t.phase = .dTree ∧ t.nsym = s.nsym) ∨ t.phase = .dPad := by
  have hpost := treeBits_post c s
  rw [h] at hpost
  rcases hpost with hpost | ⟨hpad, -⟩
  · exact .inl ⟨hpost.phase_eq.trans hp, by rw [hpost]⟩
  · exact .inr hpad

theorem exec_decTree_dTree {s : State} (hp : s.phase = .dTree) (b : Byte) :
    exec (.decTree b) s = (treeBits (bitsOfByte b) s).outcome := exec_decTree b (readable_parser hp)

/-- Bytes whose bits do not complete the tree, as beats and as operations. -/
theorem run_decTree {bs : List Byte} {s t : State} (hp : s.phase = .dTree) (hN : s.nsym ≠ 1)
    (h : treeBits (bitsOfBytes bs) s = .ok () t) (ht : t.phase = .dTree) :
    (∀ ws, feed (bs.map dataBeat ++ ws) s = feed ws t) ∧ ∀ is, execAll (bs.map .decTree ++ is) s = execAll is t := by
  induction bs generalizing s with
  | nil => cases h; exact ⟨fun _ => rfl, fun _ => rfl⟩
  | cons b bs ih =>
    rw [bitsOfBytes_cons, treeBits_append hp] at h
    obtain ⟨v, hv, hrest⟩ := Res.next_eq_ok.1 h
    have hexec : exec (.decTree b) s = .next v := by rw [exec_decTree_dTree hp, hv, Res.outcome_ok]
    rcases phase_of_treeBits hp hv with ⟨hvp, hvn⟩ | hvp
    · rw [if_neg (by simp [hvp])] at hrest
      obtain ⟨hfeed, hall⟩ := ih hvp (hvn ▸ hN) hrest
      refine ⟨fun ws => ?_, fun is => ?_⟩
      · rw [List.map_cons, List.cons_append, feed_cons, feedBeat_decTree b hp hN, hexec]
        exact hfeed ws
      · rw [List.map_cons, List.cons_append, execAll_cons, hexec]
        exact hall is
    · rw [if_pos hvp] at hrest
      cases hrest
      rw [hvp] at ht; cases ht

/-- Where a parse of bytes ends in D_PAD, their bits complete the tree, and those of all bytes but the last do not. -/
theorem treeBits_of_feed {bs : List Byte} {s u : State} (hp : s.phase = .dTree) (hN : s.nsym ≠ 1)
    (h : feed (bs.map dataBeat) s = .next u) (hu : u.phase = .dPad) :
    ∃ init b t, bs = init ++ [b] ∧ treeBits (bitsOfBytes init) s = .ok () t ∧ t.phase = .dTree ∧
      treeBits (bitsOfBytes bs) s = .ok () u := by
  induction bs generalizing s with
  | nil => cases h; rw [hp] at hu; cases hu
  | cons b bs ih =>
    rw [List.map_cons, feed_cons, feedBeat_decTree b hp hN, exec_decTree_dTree hp] at h
    obtain ⟨v, hv, hrest⟩ := onNext_eq_next.1 h
    rw [bitsOfBytes_cons, treeBits_append hp]
    rcases Res.outcome_eq_next.1 hv with hv | hv
    · rcases phase_of_treeBits hp hv with ⟨hvp, hvn⟩ | hvp
      · obtain ⟨init, b', t, rfl, ht, htp, hall⟩ := ih hvp (hvn ▸ hN) hrest
        refine ⟨b :: init, b', t, rfl, ?_, htp, ?_⟩
        · rw [bitsOfBytes_cons, treeBits_append hp, hv, Res.next_ok, if_neg (by simp [hvp]), ht]
        · rw [hv, Res.next_ok, if_neg (by simp [hvp]), hall]
      · obtain ⟨rfl, rfl⟩ := nil_of_feed_dPad (.inl hvp) hrest hu
        exact ⟨[], b, s, rfl, rfl, hp, by rw [hv, Res.next_ok, if_pos hvp]⟩
    · have hraised := treeBits_post (bitsOfByte b) s
      rw [hv] at hraised
      obtain ⟨rfl, rfl⟩ := nil_of_feed_dPad (.inr (.inr (ParserRaised.phase_eq hraised))) hrest hu
      rw [ParserRaised.phase_eq hraised] at hu
      cases hu

/-! ## The section of a tree with N >= 2 -/

/-- Some bytes are the tree section of `T` and fewer than eight bits behind it (30_encoding.md R106). -/
def SectionBytes (T : HTree) (bs : List Byte) : Prop := ∃ rest : Bits, rest.length < 8 ∧ bitsOfBytes bs = T.sectionBits ++ rest

/-- The bytes of a section end the parse in D_PAD with the last of them. -/
theorem SectionStart.run {s : State} (h : SectionStart s) {T : HTree} (hnd : T.leaves.Nodup) (hN : T.leaves.length = s.nsym)
    {bs : List Byte} {rest : Bits} (hrest : rest.length < 8) (hbs : bitsOfBytes bs = T.ser ++ rest) :
    ∃ t, TreeRead T s t ∧ feed (bs.map dataBeat) s = .next t.treeDone ∧ execAll (bs.map .decTree) s = .next t.treeDone := by
  obtain ⟨t, ht, hrun⟩ := h.completes hnd hN rest
  rw [← hbs] at hrun
  rcases bs.eq_nil_or_concat' with rfl | ⟨init, b, rfl⟩
  · have hser := T.ser_length
    have hpos := T.leaves_pos
    have hlen := congrArg List.length hbs
    rw [bitsOfBytes_length, List.length_append] at hlen
    simp at hlen; omega
  rw [bitsOfBytes_append_singleton] at hrun hbs
  rw [treeBits_append h.phase] at hrun
  obtain ⟨v, hv, hlast⟩ := Res.next_eq_ok.1 hrun
  rcases phase_of_treeBits h.phase hv with ⟨hvp, hvn⟩ | hvp
  · rw [if_neg (by simp [hvp])] at hlast
    obtain ⟨hfeed, hall⟩ := run_decTree h.phase h.many hv hvp
    have hexec : exec (.decTree b) v = .next t.treeDone := by rw [exec_decTree_dTree hvp, hlast, Res.outcome_ok]
    refine ⟨t, ht, ?_, ?_⟩
    · rw [List.map_append, hfeed, List.map_singleton, feed_cons, feedBeat_decTree b hvp (hvn ▸ h.many), hexec]; rfl
    · rw [List.map_append, hall, List.map_singleton, execAll_cons, hexec]; rfl
  · -- complete without the last byte: the bits behind the tree would be eight or more
    obtain ⟨U, more, -, hinit, -⟩ := h.of_completes hv hvp
    rw [hinit, List.append_assoc] at hbs
    obtain ⟨-, hmore⟩ := HTree.ser_append_inj hbs
    have hlen := congrArg List.length hmore
    rw [List.length_append, show (bitsOfByte b).length = 8 from rfl] at hlen
    omega

/-- Bytes that end the parse in D_PAD are the section of a tree. -/
theorem SectionStart.of_run {s u : State} (h : SectionStart s) {bs : List Byte} (hrun : feed (bs.map dataBeat) s = .next u)
    (hu : u.phase = .dPad) :
    ∃ T rest t, rest.length < 8 ∧ bitsOfBytes bs = T.ser ++ rest ∧ T.leaves.length = s.nsym ∧ TreeRead T s t ∧ u = t.treeDone := by
  obtain ⟨init, b, v, rfl, hv, hvp, hall⟩ := treeBits_of_feed h.phase h.many hrun hu
  obtain ⟨T, rest, t, hbs, hN, ht, rfl⟩ := h.of_completes hall hu
  refine ⟨T, rest, t, ?_, hbs, hN, ht, rfl⟩
  -- with eight or more bits behind it the tree would have been complete without the last byte
  by_contra hlong
  have hinit : bitsOfBytes init = T.ser ++ rest.take (rest.length - 8) := by
    have hlen := congrArg List.length hbs
    rw [bitsOfBytes_append_singleton] at hbs hlen
    rw [List.length_append, List.length_append, show (bitsOfByte b).length = 8 from rfl] at hlen
    have htake := congrArg (List.take (bitsOfBytes init).length) hbs
    rw [List.take_left, List.take_append, List.take_of_length_le (by omega)] at htake
    rw [htake]
    congr 2; omega
  obtain ⟨w, -, hw⟩ := h.completes ht.nodup hN (rest.take (rest.length - 8))
  rw [← hinit, hv] at hw
  cases hw
  cases hvp

end Sys2Proof.Machine

/-! PROOF. The law of the header parser (44_framing.md R226), from CMD.DECOMPRESS on and for every N. -/

namespace Sys2Proof.Machine

/-! ## From CMD.DECOMPRESS and the N byte to D_TREE (46_codec_commands.md R252, 44_framing.md R215) -/

/-- The state after CMD.DECOMPRESS and the N byte. -/
def State.afterCount (n : Byte) (s : State) : State := decCount n (cmdDecompress s)

theorem feed_header (n : Byte) (bs : List Byte) (s : State) :
    onNext (exec .cmdDecompress s) (feed ((n :: bs).map dataBeat)) = feed (bs.map dataBeat) (s.afterCount n) := by
  have hexec : exec .cmdDecompress s = .next (cmdDecompress s) := rfl
  rw [hexec, onNext_next, List.map_cons, feed_cons, feedBeat_dCount n rfl]; rfl

theorem execAll_header (n : Byte) (is : List Instr) (s : State) :
    execAll (.cmdDecompress :: .decCount n :: is) s = execAll is (s.afterCount n) := rfl

theorem afterCount_sectionStart (s : State) {n : Byte} (hN : countOfByte n ≠ 1) : SectionStart (s.afterCount n) := by
  obtain ⟨hpos, hle⟩ := countOfByte_range n
  have hunseen : ∀ y : Byte, Memory.read (s.afterCount n).seen y.toNat = some false := fun y =>
    Memory.read_fill alpha false y.isLt
  have hparsed : Parsed (s.afterCount n) := {
    flag := rfl
    nodes := fun _ hk => absurd hk (Nat.not_lt_zero _)
    above := fun _ _ => rfl
    stack := fun _ hi => absurd hi (Nat.not_lt_zero _)
    seen := fun y => ⟨false, hunseen y⟩
    count := rfl
    fresh := fun _ => ⟨rfl, rfl⟩
    owed := fun h0 => absurd h0 (Nat.lt_irrefl 0)
    pushed := fun hl => absurd hl Bool.false_ne_true
    room := Nat.le_refl 0
    ints := hpos
    small := hle }
  exact ⟨hparsed, rfl, hN, rfl, hunseen⟩

/-- The byte of a count is read as the count (30_encoding.md R101). -/
theorem countOfByte_ofNat {N : Nat} (h0 : 0 < N) (h : N ≤ 256) : countOfByte (BitVec.ofNat 8 (N % 256)) = N := by
  unfold countOfByte
  rcases Nat.lt_or_eq_of_le h with hlt | rfl
  · have hval : (BitVec.ofNat 8 (N % 256)).toNat = N := by rw [BitVec.toNat_ofNat]; omega
    have hne : BitVec.ofNat 8 (N % 256) ≠ 0#8 := fun h0' => by rw [h0'] at hval; simp at hval; omega
    rw [if_neg hne, hval]
  · rfl

theorem HTree.leaves_le_of_nodup {T : HTree} (h : T.leaves.Nodup) : T.leaves.length ≤ 256 := by
  simpa using (h.map (BitVec.equivFin (m := 8)).injective).length_le_card

/-! ## The single leaf (R217, 30_encoding.md R103) -/

/-- The state after DEC.TREE1. -/
def State.oneLeaf (y : Byte) (s : State) : State := { s with node := s.nodeWith 0 true y, root := 0, phase := .dPad }

theorem HTree.eq_leaf {T : HTree} (h : T.leaves.length = 1) : ∃ y, T = .leaf y := by
  cases T with
  | leaf y => exact ⟨y, rfl⟩
  | node l r =>
    have hl := l.leaves_pos
    have hr := r.leaves_pos
    rw [leaves, List.length_append] at h; omega

/-- With two leaves or more the section is the tokens (30_encoding.md R102). -/
theorem HTree.sectionBits_eq_ser {T : HTree} (h : T.leaves.length ≠ 1) : T.sectionBits = T.ser := by
  cases T with
  | leaf y => exact absurd rfl h
  | node l r => rfl

/-- The section of a single leaf is its symbol. -/
theorem sectionBytes_leaf {y : Byte} {bs : List Byte} : SectionBytes (.leaf y) bs ↔ bs = [y] := by
  constructor
  · rintro ⟨rest, hrest, hbs⟩
    have hlen := congrArg List.length hbs
    rw [bitsOfBytes_length, List.length_append, show (HTree.leaf y).sectionBits.length = 8 from rfl] at hlen
    obtain ⟨b, rfl⟩ := List.length_eq_one_iff.1 (show bs.length = 1 by omega)
    rw [bitsOfBytes_cons] at hbs
    obtain ⟨hb, -⟩ := List.append_inj hbs rfl
    rw [bitsOfByte_injective hb]
  · rintro rfl
    exact ⟨[], Nat.succ_pos 7, rfl⟩

/-- With N = 1 exactly one byte ends the parse in D_PAD. -/
theorem feed_decTree1 {s u : State} (hp : s.phase = .dTree) (hN : s.nsym = 1) {bs : List Byte} :
    (feed (bs.map dataBeat) s = .next u ∧ u.phase = .dPad) ↔ ∃ y, bs = [y] ∧ u = s.oneLeaf y := by
  constructor
  · rintro ⟨hrun, hu⟩
    cases bs with
    | nil => cases hrun; rw [hp] at hu; cases hu
    | cons y bs =>
      rw [List.map_cons, feed_cons, feedBeat_decTree1 y hp hN] at hrun
      obtain ⟨rfl, hlast⟩ := nil_of_feed_dPad (s := s.oneLeaf y) (.inl rfl) hrun hu
      exact ⟨y, rfl, hlast.symm⟩
  · rintro ⟨y, rfl, rfl⟩
    refine ⟨?_, rfl⟩
    rw [List.map_singleton, feed_cons, feedBeat_decTree1 y hp hN]; rfl

/-! ## The two directions, for every N -/

/-- In `u` the tree section of `T` has been parsed from `s`. -/
structure SectionParsed (T : HTree) (s u : State) : Prop where
  only : TreeSectionOnly s u
  phase : u.phase = .dPad
  root : u.root = 0
  err : u.err = s.err
  tree : Represents u.node 0 T
  above : ∀ k, 2 * T.leaves.length - 1 ≤ k → Memory.read u.node k = none
  counters : T.leaves.length ≠ 1 → u.tNodes = 2 * T.leaves.length - 1 ∧ u.tLeaves = T.leaves.length ∧
    u.tInts = T.leaves.length - 1

theorem SectionStart.parsed_of_read {s t : State} (h : SectionStart s) {T : HTree} (ht : TreeRead T s t) :
    SectionParsed T s t.treeDone := by
  obtain ⟨-, hleaves, hints, -, -⟩ := h.closed ht
  have hsize := T.size_add_one
  have hnodes := ht.tNodes
  rw [h.none, Nat.zero_add] at hnodes
  have htree : PreOrderAt t.node 0 T := h.none ▸ ht.tree
  exact {
    only := by unfold TreeSectionOnly; rw [State.treeDone, ht.only]
    phase := rfl
    root := rfl
    err := by rw [State.treeDone, ht.only]
    tree := htree.represents
    above := fun k hk => ht.parsed.above k (by omega)
    counters := fun _ => ⟨show t.tNodes = _ by omega, hleaves, show t.tInts = _ by omega⟩ }

theorem sectionParsed_oneLeaf {s : State} (hs : s.node = []) (y : Byte) : SectionParsed (.leaf y) s (s.oneLeaf y) where
  only := rfl
  phase := rfl
  root := rfl
  err := rfl
  tree := ⟨_, (read_nodeWith s 0 true y 0).trans (if_pos rfl), rfl, rfl⟩
  above k hk := by
    have hpos : 1 ≤ k := hk
    exact (read_nodeWith s 0 true y k).trans ((if_neg (by omega)).trans (by rw [hs]; rfl))
  counters h := absurd rfl h

/-- A tree with N distinct symbols is parsed from its section, given as beats or as operations. -/
theorem section_parsed (s : State) {n : Byte} {T : HTree} (hnd : T.leaves.Nodup) (hN : T.leaves.length = countOfByte n)
    {bs : List Byte} (hbs : SectionBytes T bs) :
    ∃ u, SectionParsed T (s.afterCount n) u ∧ feed (bs.map dataBeat) (s.afterCount n) = .next u ∧
      execAll (bs.map (if T.leaves.length = 1 then .decTree1 else .decTree)) (s.afterCount n) = .next u := by
  by_cases h1 : T.leaves.length = 1
  · obtain ⟨y, rfl⟩ := HTree.eq_leaf h1
    obtain rfl := sectionBytes_leaf.1 hbs
    obtain ⟨hrun, -⟩ := (feed_decTree1 (s := s.afterCount n) rfl (hN.symm.trans h1)).2 ⟨y, rfl, rfl⟩
    exact ⟨_, sectionParsed_oneLeaf rfl y, hrun, rfl⟩
  · obtain ⟨rest, hrest, hbits⟩ := hbs
    rw [HTree.sectionBits_eq_ser h1] at hbits
    have hstart := afterCount_sectionStart s (n := n) (hN ▸ h1)
    obtain ⟨t, ht, hfeed, hall⟩ := hstart.run hnd hN hrest hbits
    exact ⟨_, hstart.parsed_of_read ht, hfeed, by rw [if_neg h1]; exact hall⟩

/-- What ends the parse in D_PAD is the section of such a tree. -/
theorem section_of_parsed {s u : State} {n : Byte} {bs : List Byte}
    (hrun : feed (bs.map dataBeat) (s.afterCount n) = .next u) (hu : u.phase = .dPad) :
    ∃ T, T.leaves.Nodup ∧ T.leaves.length = countOfByte n ∧ SectionBytes T bs ∧ SectionParsed T (s.afterCount n) u := by
  by_cases h1 : countOfByte n = 1
  · obtain ⟨y, rfl, rfl⟩ := (feed_decTree1 (s := s.afterCount n) rfl h1).1 ⟨hrun, hu⟩
    exact ⟨.leaf y, List.nodup_singleton y, h1.symm, sectionBytes_leaf.2 rfl, sectionParsed_oneLeaf rfl y⟩
  · have hstart := afterCount_sectionStart s h1
    obtain ⟨T, rest, t, hrest, hbits, hN, ht, rfl⟩ := hstart.of_run hrun hu
    have hsection : T.sectionBits = T.ser := HTree.sectionBits_eq_ser (hN ▸ h1)
    exact ⟨T, ht.nodup, hN, ⟨rest, hrest, hsection ▸ hbits⟩, hstart.parsed_of_read ht⟩

/-! ## What the other arrays hold (10_state.md R20) -/

section Kept
variable {T : HTree} {s u : State} {n : Byte} (h : SectionParsed T (s.afterCount n) u)
include h

theorem SectionParsed.freqAt (i : Nat) : u.freqAt i = s.freqAt i := by
  rw [← openTransaction_freqAt s i, h.only]; rfl

theorem SectionParsed.codeAt (i : Nat) : u.codeAt i = s.codeAt i := by
  rw [← openTransaction_codeAt s i, h.only]; rfl

theorem SectionParsed.nodeAt {k : Nat} (hk : 2 * T.leaves.length - 1 ≤ k) : u.nodeAt k = s.nodeAt k := by
  have hold : u.old = (openTransaction s).old := by rw [h.only]; rfl
  rw [← openTransaction_nodeAt s k, State.nodeAt, h.above k hk, hold]; rfl

theorem SectionParsed.nsym : u.nsym = countOfByte n := by rw [h.only]; rfl

theorem SectionParsed.oq : u.oq = s.oq := by rw [h.only]; rfl

end Kept

/-- Packed bytes are the packed bits and fewer than eight behind them (43_bitstream.md R180). -/
theorem sectionBytes_packed (T : HTree) : SectionBytes T (packed T.sectionBits) := by
  refine ⟨(bitsOfBytes (packed T.sectionBits)).drop T.sectionBits.length, ?_, ?_⟩
  · rw [List.length_drop, bitsOfBytes_length, packed_length]; omega
  · conv_lhs => rw [← List.take_append_drop T.sectionBits.length (bitsOfBytes (packed T.sectionBits))]
    rw [bitsOfBytes, take_flatMap_bitsOfByte_packed]

/-- Settles O51: reading the tokens of a tree leaves that tree, and bits that complete a tree begin with the tokens of one. -/
theorem parserRebuildsTheTree : Obligations.ParserRebuildsTheTree := by
  unfold Obligations.ParserRebuildsTheTree
  refine ⟨fun s T hnd => ?_, fun s n bs => ?_⟩
  · have hcount : T.leaves.length = countOfByte (BitVec.ofNat 8 (T.leaves.length % 256)) :=
      (countOfByte_ofNat T.leaves_pos (HTree.leaves_le_of_nodup hnd)).symm
    obtain ⟨u, hu, -, hrun⟩ := section_parsed s hnd hcount (sectionBytes_packed T)
    exact ⟨u, (execAll_header _ _ s).trans hrun, hu.phase, hu.root, hu.nsym.trans hcount.symm, hu.tree, hu.counters, hu.oq, hu.err,
      fun k hk => ⟨hu.above k hk, hu.nodeAt hk⟩, fun i => ⟨hu.freqAt i, hu.codeAt i⟩⟩
  · intro N run IsSection
    have hfeed : run = feed (bs.map dataBeat) (s.afterCount n) := feed_header n bs s
    have hends : ∀ u, run = .next u → u.phase = .dPad →
        ∃ T, IsSection T ∧ SectionParsed T (s.afterCount n) u := fun u hrun hu => by
      obtain ⟨T, hnd, hN, hbs, hT⟩ := section_of_parsed (hfeed.symm.trans hrun) hu
      exact ⟨T, ⟨hnd, hN, hbs⟩, hT⟩
    refine ⟨⟨fun ⟨u, hrun, hu⟩ => ?_, fun ⟨T, hnd, hN, hbs⟩ => ?_⟩, fun u hrun hu => ?_⟩
    · obtain ⟨T, hT, -⟩ := hends u hrun hu
      exact ⟨T, hT⟩
    · obtain ⟨u, hu, hrun, -⟩ := section_parsed s hnd hN hbs
      exact ⟨u, hfeed.trans hrun, hu.phase⟩
    · obtain ⟨T, hT, hparsed⟩ := hends u hrun hu
      exact ⟨hparsed.nsym, hparsed.root, T, hT, hparsed.tree⟩

end Sys2Proof.Machine

/-! PROOF. Walking the payload (45_decode.md R231 to R237): what one WALK does, what DEC.DATA and DEC.END do with the held byte, and that
walking the codes of some symbols gives these symbols, whatever `nsym` holds. -/

namespace Sys2Proof.Machine

/-! ## One step down the tree (R232, R233) -/

/-- A step that ends at a leaf emits its symbol and returns to the root. `t` is `s`, or `s` with one more free value taken. -/
theorem walkBit_to_leaf {x : Bool} {c : Nat} {m : Node} {s t : State} (hc : readChild x s.cur s = .ok c t)
    (hm : Memory.read t.node c = some m) (hl : m.leaf = true) :
    walkBit x s = .ok () { emit m.sym t with cur := t.root } := by
  rw [walkBit, hc, Res.bind_ok, readNode_some hm, Res.bind_ok, if_pos hl]

/-- A step that ends at an internal node stays there. -/
theorem walkBit_to_inner {x : Bool} {c : Nat} {m : Node} {s t : State} (hc : readChild x s.cur s = .ok c t)
    (hm : Memory.read t.node c = some m) (hl : m.leaf = false) : walkBit x s = .ok () { t with cur := c } := by
  rw [walkBit, hc, Res.bind_ok, readNode_some hm, Res.bind_ok, if_neg (by simp [hl])]

theorem walkBit_to_unwritten {x : Bool} {c : Nat} {s t : State} (hc : readChild x s.cur s = .ok c t)
    (hm : Memory.read t.node c = none) : walkBit x s = .fault (.unwritten .node c) := by
  rw [walkBit, hc, Res.bind_ok, readNode_none hm, Res.bind_fault]

theorem walkBit1_leaf {x : Bool} {n : Node} {s : State} (hn : Memory.read s.node s.root = some n) (hl : n.leaf = true) :
    walkBit1 x s = .ok () (emit n.sym s) := by
  rw [walkBit1, readSym_leaf hn hl, Res.bind_ok]

/-- At a root that is no leaf a free value is emitted (93_implementation_defined.md V2). -/
theorem walkBit1_inner {x : Bool} {n : Node} {s : State} (hn : Memory.read s.node s.root = some n) (hl : n.leaf = false) :
    walkBit1 x s = .ok () (emit (Config.freeSym s.draws) { s with draws := s.draws + 1 }) := by
  rw [walkBit1, readSym_inner hn hl, Res.bind_ok]

/-- WALK.BIT by the child it reads, the field of an internal node or a free index. -/
theorem exec_walkBit_step {x : Bool} {c : Nat} {m : Node} {s t : State} (hr : Readable s [.reader, .tree])
    (hc : readChild x s.cur s = .ok c t) (hm : Memory.read t.node c = some m) :
    (m.leaf = true → exec (.walkBit x) s = .next { emit m.sym t with cur := t.root }) ∧
    (m.leaf = false → exec (.walkBit x) s = .next { t with cur := c }) := by
  rw [exec_walkBit x hr]
  exact ⟨fun hl => congrArg Res.outcome (walkBit_to_leaf hc hm hl), fun hl => congrArg Res.outcome (walkBit_to_inner hc hm hl)⟩

/-- Settles O52. -/
theorem walkStepsDownTheTree : Obligations.WalkStepsDownTheTree := by
  unfold Obligations.WalkStepsDownTheTree
  intro s x n
  refine ⟨fun m hr hn hl hm => ?_, fun m hr hn hl hm => ?_, fun hr hn => ⟨fun hl => ?_, fun hl => ?_⟩⟩
  · exact exec_walkBit_step hr (readChild_inner hn hl) hm
  · exact exec_walkBit_step hr (readChild_leaf hn hl) hm
  · rw [exec_walkBit1 x hr, walkBit1_leaf hn hl]; rfl
  · rw [exec_walkBit1 x hr, walkBit1_inner hn hl]; rfl

/-! ## The held byte (R231, R234) -/

/-- R.BITS returns the first bits of the byte (43_bitstream.md R182). -/
theorem rBits_eq_topBits (v : Byte) {n : Nat} (h : n ≤ 8) : rBits v n = topBits v n := (topBits_eq_take v h).symm

/-- In D_PAYLOAD the walk over any bits completes, by WALK.BIT or WALK.BIT1 run one by one, and emits at most a symbol for each bit. -/
theorem Decoding.walks {s : State} (h : Decoding s) (c : Bits) :
    ∃ (u : State) (ys : List Byte), Machine.walkBits c s = .ok () u ∧ execAll (c.map (walkOp s.nsym)) s = .next u ∧
      u = { s with cur := u.cur, oq := s.oq ++ dataBeats ys } ∧ ys.length ≤ c.length ∧
      (s.nsym = 1 → ys.length = c.length) := by
  obtain ⟨n, -, ht, hw⟩ := h.inv.ready h.phase
  obtain ⟨k, ys, he, -, hle, hone⟩ := Machine.walkBits_ok c ht hw
  exact ⟨_, ys, he, by rw [execAll_walkOp h.phase, he, Res.outcome_ok], rfl, hle, hone⟩

theorem decData_first {b : Byte} {s : State} (hv : s.holdV = false) :
    decData b s = .ok () { s with hold := b, holdV := true } := by simp [decData, hv]

theorem decData_held {b : Byte} {s u : State} (hv : s.holdV = true) (hu : walkBits (topBits s.hold 8) s = .ok () u) :
    decData b s = .ok () { u with hold := b, holdV := true } := by
  rw [decData, if_pos hv, rBits_eq_topBits _ le_rfl, hu, Res.next_ok]

/-- Settles O53. -/
theorem payloadByteIsHeldForOneBeat : Obligations.PayloadByteIsHeldForOneBeat := by
  unfold Obligations.PayloadByteIsHeldForOneBeat
  refine fun b s => ⟨fun hr hv => ?_, fun hv hi hp => ?_⟩
  · rw [exec_decData b hr, decData_first hv, Res.outcome_ok]
  · obtain ⟨u, ys, hwalk, hrun, hu, hle, hone⟩ := (Decoding.mk hi hp).walks (topBits s.hold 8)
    rw [topBits_length] at hle hone
    exact ⟨u, ys, hrun, hu, hle, hone, by rw [exec_decData b (readable_walk hp), decData_held hv hwalk, Res.outcome_ok]⟩

theorem decLast_padExceeds {s : State} (hv : s.holdV = false) (hp : s.pad ≠ 0) :
    decLast s = .raised (raise .corruptArtifact infoPadExceeds (BitVec.ofNat 8 s.pad) s) := by
  rw [decLast, if_neg (by simp [hv]), if_pos hp, raising]

theorem decLast_empty {s : State} (hv : s.holdV = false) (hp : s.pad = 0) : decLast s = .ok () s := by
  rw [decLast, if_neg (by simp [hv]), if_neg (not_not.2 hp)]

theorem decLast_held {s u : State} (hv : s.holdV = true) (hu : walkBits (topBits s.hold (8 - s.pad)) s = .ok () u) :
    decLast s = .ok () { u with holdV := false } := by
  rw [decLast, if_pos hv, rBits_eq_topBits _ (Nat.sub_le ..), hu, Res.next_ok]

theorem decEnd_midPath {s t : State} (h : decLast s = .ok () t) (hc : t.cur ≠ t.root) :
    decEnd s = .raised (raise .corruptArtifact infoMidPath 0#8 t) := by
  rw [decEnd, h, Res.next_ok, if_pos hc, raising]

theorem decEnd_closes {s t : State} (h : decLast s = .ok () t) (hc : t.cur = t.root) :
    decEnd s = .ok () { emitEnd t with doneOk := true, phase := .idle } := by
  rw [decEnd, h, Res.next_ok, if_neg (not_not.2 hc)]

/-- Settles O54: the last byte is walked, or there is none, and then `cur` decides. -/
theorem endOfPayload : Obligations.EndOfPayload := by
  unfold Obligations.EndOfPayload
  refine fun s => ⟨fun hr hv hp => ?_, fun hr hv hp hc => ?_, fun hr hv hp hc => ?_, fun hv hi hp => ?_⟩
  · rw [exec_decEnd hr, decEnd, decLast_padExceeds hv hp]; rfl
  · rw [exec_decEnd hr, decEnd_midPath (decLast_empty hv hp) hc]; rfl
  · rw [exec_decEnd hr, decEnd_closes (decLast_empty hv hp) hc]; rfl
  · obtain ⟨u, ys, hwalk, hrun, hu, -⟩ := (Decoding.mk hi hp).walks (topBits s.hold (8 - s.pad))
    have hroot : u.root = s.root := by rw [hu]
    have hlast := decLast_held hv hwalk
    have hexec : exec .decEnd s = (decEnd s).outcome := exec_decEnd (readable_of_phase hp (by simp) (by simp) rfl)
    refine ⟨u, ys, hrun, hu, fun hc => ?_, fun hc => ?_⟩
    · rw [hexec, decEnd_midPath hlast (hroot ▸ hc)]; rfl
    · rw [hexec, decEnd_closes hlast (hc.trans hroot.symm)]; rfl

/-! ## The codes of some symbols (R237)

WALK chooses its operation by `nsym`, and WALK.BIT and WALK.BIT1 themselves do not look at it. So a run of one of them may be taken from
the state in which `nsym` is the number of leaves, and there it is the walk. -/

/-- The state with `nsym` replaced. -/
def State.setNsym (s : State) (n : Nat) : State := { s with nsym := n }

theorem onNext_reading (gs : List Group) (s : State) (o : Host.Outcome State Fault Refusal)
    (k : State → Host.Outcome State Fault Refusal) : onNext (reading gs s o) k = reading gs s (onNext o k) := by
  induction gs with
  | nil => rfl
  | cons g gs ih =>
    rw [reading_cons, reading_cons]
    split
    · exact ih
    · rfl

/-- The child of a node that is written, and how many free values have been taken then, are the same for every `nsym`. -/
theorem readChild_setNsym {x : Bool} {k : Nat} {e : Node} {s : State} (h : Memory.read s.node k = some e) :
    ∃ c d, ∀ n, readChild x k (s.setNsym n) = .ok c { s.setNsym n with draws := d } := by
  cases hl : e.leaf with
  | true => exact ⟨(Config.freeIndex s.draws).toNat, s.draws + 1, fun n => readChild_leaf (s := s.setNsym n) h hl⟩
  | false => exact ⟨_, s.draws, fun n => readChild_inner (s := s.setNsym n) h hl⟩

theorem walkBit_setNsym (x : Bool) (s : State) (n : Nat) :
    (walkBit x (s.setNsym n)).outcome = onNext (walkBit x s).outcome fun t => .next (t.setNsym n) := by
  cases hn : Memory.read s.node s.cur with
  | none => rw [walkBit_unwritten hn, walkBit_unwritten (s := s.setNsym n) hn]; rfl
  | some e =>
    obtain ⟨c, d, hc⟩ := readChild_setNsym (x := x) hn
    have hs : readChild x s.cur s = .ok c { s with draws := d } := hc s.nsym
    have ht : readChild x (s.setNsym n).cur (s.setNsym n) = .ok c { s.setNsym n with draws := d } := hc n
    cases hm : Memory.read s.node c with
    | none => rw [walkBit_to_unwritten hs hm, walkBit_to_unwritten ht hm]; rfl
    | some m =>
      cases hl : m.leaf with
      | true => rw [walkBit_to_leaf hs hm hl, walkBit_to_leaf ht hm hl]; rfl
      | false => rw [walkBit_to_inner hs hm hl, walkBit_to_inner ht hm hl]; rfl

theorem walkBit1_setNsym (x : Bool) (s : State) (n : Nat) :
    (walkBit1 x (s.setNsym n)).outcome = onNext (walkBit1 x s).outcome fun t => .next (t.setNsym n) := by
  cases hn : Memory.read s.node s.root with
  | none => rw [walkBit1_unwritten hn, walkBit1_unwritten (s := s.setNsym n) hn]; rfl
  | some e =>
    cases hl : e.leaf with
    | true => rw [walkBit1_leaf hn hl, walkBit1_leaf (s := s.setNsym n) hn hl]; rfl
    | false => rw [walkBit1_inner hn hl, walkBit1_inner (s := s.setNsym n) hn hl]; rfl

theorem exec_walkOp_setNsym (N : Nat) (x : Bool) (s : State) (n : Nat) :
    exec (walkOp N x) (s.setNsym n) = onNext (exec (walkOp N x) s) fun t => .next (t.setNsym n) := by
  unfold walkOp
  split
  · exact (congrArg (reading [.tree] s) (walkBit1_setNsym x s n)).trans (onNext_reading ..).symm
  · exact (congrArg (reading [.reader, .tree] s) (walkBit_setNsym x s n)).trans (onNext_reading ..).symm

theorem execAll_walkOp_setNsym (N : Nat) (c : Bits) (s : State) (n : Nat) :
    execAll (c.map (walkOp N)) (s.setNsym n) = onNext (execAll (c.map (walkOp N)) s) fun t => .next (t.setNsym n) := by
  induction c generalizing s with
  | nil => rfl
  | cons x c ih =>
    rw [List.map_cons, execAll_cons, execAll_cons, exec_walkOp_setNsym]
    cases exec (walkOp N x) s with
    | next t => exact ih t
    | fault f => rfl
    | refused r => rfl

/-- The reader's registers may be read in D_PAYLOAD only (10_state.md R47). -/
theorem dPayload_of_readable {s : State} {gs : List Group} (h : Readable s (.reader :: gs)) : s.phase = .dPayload := by
  have hr : s.meaningful .reader = true := h _ List.mem_cons_self
  unfold State.meaningful at hr
  cases hp : s.phase <;> simp [hp, Group.afterSuccess, Group.inError, Group.duringPhase] at hr ⊢

/-- WALK.BIT or WALK.BIT1 for each bit, as the given number of leaves chooses: the walk from where `nsym` is that number. -/
theorem execAll_walkOp_eq (N : Nat) (c : Bits) {s : State} (hp : s.phase = .dPayload) :
    execAll (c.map (walkOp N)) s = onNext (walkBits c (s.setNsym N)).outcome fun t => .next (t.setNsym s.nsym) := by
  rw [← execAll_walkOp (s := s.setNsym N) hp c]
  exact execAll_walkOp_setNsym N c (s.setNsym N) s.nsym

/-- Settles O55: where `nsym` is the number of leaves the walk inverts the codes. -/
theorem walkInvertsTheCodes : Obligations.WalkInvertsTheCodes := by
  unfold Obligations.WalkInvertsTheCodes
  intro s T L hr hT hc hL
  rw [execAll_walkOp_eq _ _ (dPayload_of_readable hr), walkBits_codes (s := s.setNsym T.leaves.length) hT Iff.rfl hc hL]
  rfl

end Sys2Proof.Machine

/-! PROOF. In a state with the invariant no step stops (46_codec_commands.md R260, 70_reset_and_hazards.md R331). One lemma per
operation that a step can run: what the invariant says of the phase gives the elements that the operation reads. -/

namespace Sys2Proof.Machine

/-- There is a next state. -/
def Answers (o : Host.Outcome State Fault Refusal) : Prop := ∃ t, o = .next t

theorem answers_next (t : State) : Answers (.next t) := ⟨t, rfl⟩

/-! ## The phase of an event -/

theorem isInternal_of_event {s : State} (h : s.event = .internal) : Phase.isInternal s.phase = true := by
  unfold State.event at h
  dsimp only at h
  repeat' split at h
  all_goals simp_all

theorem takesCommand_of_event {s : State} {op : BitVec 2} (h : s.event = .command op) : Phase.takesCommand s.phase = true := by
  unfold State.event at h
  dsimp only at h
  repeat' split at h
  all_goals simp_all [State.cmdReady]

theorem takesInput_of_event {s : State} {w : BitVec 10} (h : s.event = .input w) : Phase.takesInput s.phase = true := by
  unfold State.event at h
  dsimp only at h
  repeat' split at h
  all_goals simp_all [State.inReady]

/-! ## The internal steps (R259) -/

theorem Inv.build_answers {s : State} (h : Inv s) (hp : s.phase = .build) : Answers (exec .build s) := by
  obtain ⟨c, t, hrun⟩ := h.exists_buildRun hp
  exact ⟨_, hrun.exec_build hp⟩

theorem Inv.derive_answers {s : State} (h : Inv s) (hp : s.phase = .derive) : Answers (exec .derive s) := by
  obtain ⟨hc, -, ⟨T, hT, hN⟩, -⟩ := h.ready hp
  rw [exec_derive (readable_of_phase hp (by simp) (by simp) rfl), derive_ok hT (h.widths.depth_le hN) hc.covers.read_all]
  exact answers_next _

theorem Inv.emitHdr_answers {s : State} (h : Inv s) (hp : s.phase = .emitHdr) : Answers (exec .emitHdr s) := by
  obtain ⟨⟨T, hT, hN⟩, -, hw, -⟩ := h.ready hp
  rw [exec_emitHdr (readable_of_phase hp (by simp) (by simp) rfl),
    emitHdr_ok hT (h.widths.depth_le hN) hN hw ((h.mid (by simp [hp])).wAcc hw)]
  exact answers_next _

theorem isInternal_iff (ph : Phase) : Phase.isInternal ph = true ↔ ph = .build ∨ ph = .derive ∨ ph = .emitHdr := by
  cases ph <;> decide

theorem Inv.internalStep_answers {s : State} (h : Inv s) (hp : Phase.isInternal s.phase = true) : Answers (internalStep s) := by
  unfold internalStep
  rcases (isInternal_iff s.phase).1 hp with hp | hp | hp <;> rw [hp]
  · exact h.build_answers hp
  · exact h.derive_answers hp
  · exact h.emitHdr_answers hp

/-! ## The commands (R250 to R258) -/

/-- No command reads anything. -/
theorem command_answers {s : State} {op : BitVec 2} (hp : Phase.takesCommand s.phase = true) :
    Answers (runDecoded (decodeCommand s.phase op) s) := by
  rcases (takesCommand_iff s.phase).1 hp with hp | hp <;> rw [hp, decodeCommand]
  · split
    · exact answers_next _
    · split
      · exact answers_next _
      · split <;> exact answers_next _
  · split <;> exact answers_next _

/-! ## The input beats -/

theorem Inv.freqCount_answers {s : State} (h : Inv s) (hp : s.phase = .scan) (b : Byte) : Answers (exec (.freqCount b) s) := by
  obtain ⟨hc, -⟩ := h.ready hp
  obtain ⟨f, hf, -⟩ := hc.covers.read b.isLt
  rw [exec_freqCount b (readable_of_phase hp (by simp) (by simp) rfl)]
  by_cases hmax : s.total = s.cfg.maxCnt
  · rw [freqCount_overflow hmax]; exact answers_next _
  · rw [freqCount_ok hmax hf]; exact answers_next _

theorem scanEnd_answers {s : State} (hp : s.phase = .scan) : Answers (exec .scanEnd s) := by
  rw [exec_scanEnd (readable_of_phase hp (by simp) (by simp) rfl)]
  by_cases h0 : s.total = 0
  · rw [scanEnd_empty h0]; exact answers_next _
  · rw [scanEnd_ok h0]; exact answers_next _

theorem Inv.encSym_answers {s : State} (h : Inv s) (hp : s.phase = .encode) (b : Byte) : Answers (exec (.encSym b) s) := by
  obtain ⟨hc, -⟩ := h.ready hp
  obtain ⟨c, hr, -⟩ := hc.covers.read b.isLt
  rw [exec_encSym b (readable_of_phase hp (by simp) (by simp) rfl)]
  by_cases h0 : c.len = 0
  · rw [encSym_unknown hr h0]; exact answers_next _
  · rcases Nat.lt_or_ge s.paybits (s.bitcnt + c.len) with hlong | hfits
    · rw [encSym_tooLong hr h0 hlong]; exact answers_next _
    · rw [encSym_ok hr h0 hfits]; exact answers_next _

theorem encEnd_answers {s : State} (hp : s.phase = .encode) : Answers (exec .encEnd s) := by
  rw [exec_encEnd (readable_of_phase hp (by simp) (by simp) rfl)]
  by_cases hb : s.bitcnt = s.paybits
  · rw [encEnd_ok hb]; exact answers_next _
  · rw [encEnd_tooShort hb]; exact answers_next _

theorem Inv.decTree_answers {s : State} (h : Inv s) (hp : s.phase = .dTree) (hN : s.nsym ≠ 1) (b : Byte) :
    Answers (exec (.decTree b) s) := by
  rw [exec_decTree_dTree hp]
  exact (h.inTree hp hN).treeBits_next _

theorem decPad_answers {s : State} (hp : s.phase = .dPad) (b : Byte) : Answers (exec (.decPad b) s) := by
  rw [exec_decPad b (readable_of_phase hp (by simp) (by simp) rfl)]
  rcases Nat.lt_or_ge 7 b.toNat with hbad | hle
  · rw [decPad_bad hbad]; exact answers_next _
  · rw [decPad_ok hle]; exact answers_next _

theorem Decoding.decData_answers {s : State} (h : Decoding s) (b : Byte) : Answers (exec (.decData b) s) := by
  obtain ⟨t, ht, -⟩ := h.decData_ok b
  rw [exec_decData b (readable_walk h.phase), ht]; exact answers_next _

/-- The last byte is walked, or there is none and then `pad` decides (45_decode.md R234). -/
theorem Decoding.decLast_ends {s : State} (h : Decoding s) :
    (∃ t, Machine.decLast s = .ok () t) ∨ ∃ t, Machine.decLast s = .raised t := by
  cases hv : s.holdV with
  | true =>
    obtain ⟨u, hu, -⟩ := h.walkBits_ok (topBits s.hold (8 - s.pad))
    exact .inl ⟨_, decLast_held hv hu⟩
  | false =>
    by_cases h0 : s.pad = 0
    · exact .inl ⟨_, decLast_empty hv h0⟩
    · exact .inr ⟨_, decLast_padExceeds hv h0⟩

theorem Decoding.decEnd_answers {s : State} (h : Decoding s) : Answers (exec .decEnd s) := by
  rw [exec_decEnd (readable_of_phase h.phase (by simp) (by simp) rfl)]
  rcases h.decLast_ends with ⟨t, ht⟩ | ⟨t, ht⟩
  · by_cases hc : t.cur = t.root
    · rw [decEnd_closes ht hc]; exact answers_next _
    · rw [decEnd_midPath ht hc]; exact answers_next _
  · rw [Machine.decEnd, ht]; exact answers_next _

/-- Every kind of beat, in every phase that takes input. -/
theorem Inv.feedBeat_answers {s : State} (h : Inv s) (hp : Phase.takesInput s.phase = true) (w : BitVec 10) :
    Answers (feedBeat w s) := by
  have hraise : ∀ e i d, Answers (.next (Machine.raise e i d s)) := fun e i d => answers_next _
  change Answers (runDecoded (decodeInput s.phase (decide (s.nsym = 1)) w) s)
  unfold decodeInput
  rcases (takesInput_iff s.phase).1 hp with hp | hp | hp | hp | hp | hp <;> rw [hp]
  · cases beatKind w with
    | data b => exact h.freqCount_answers hp b
    | endOfStream => exact scanEnd_answers hp
    | fail => exact hraise _ _ _
  · cases beatKind w with
    | data b => exact h.encSym_answers hp b
    | endOfStream => exact encEnd_answers hp
    | fail => exact hraise _ _ _
  · cases beatKind w with
    | data b => exact answers_next _
    | endOfStream | fail => exact hraise _ _ _
  · cases beatKind w with
    | data b =>
      by_cases hN : s.nsym = 1
      · rw [decide_eq_true hN]; exact answers_next _
      · rw [decide_eq_false hN]; exact h.decTree_answers hp hN b
    | endOfStream | fail => exact hraise _ _ _
  · cases beatKind w with
    | data b => exact decPad_answers hp b
    | endOfStream | fail => exact hraise _ _ _
  · cases beatKind w with
    | data b => exact (Decoding.mk h hp).decData_answers b
    | endOfStream => exact (Decoding.mk h hp).decEnd_answers
    | fail => exact hraise _ _ _

/-! ## The step -/

/-- Settles O16, by the event of the coming edge. -/
theorem stepNeverStops : Obligations.StepNeverStops := by
  unfold Obligations.StepNeverStops
  intro s h
  have ht := h.tick
  cases he : s.event with
  | reset => exact ⟨_, step_of_reset he⟩
  | output => exact ⟨_, step_of_output he⟩
  | idle => exact ⟨_, step_of_idle he⟩
  | internal =>
    have hstep : step s = internalStep s := by unfold step; rw [he]; rfl
    rw [hstep]; exact h.internalStep_answers (isInternal_of_event he)
  | command op =>
    have hstep : step s = runDecoded (decodeCommand s.tick.phase op) s.tick := by unfold step; rw [he]; rfl
    rw [hstep]; exact command_answers (takesCommand_of_event (s := s) he)
  | input w =>
    have hstep : step s = feedBeat w s.tick := by unfold step; rw [he]; rfl
    rw [hstep]; exact ht.feedBeat_answers (takesInput_of_event (s := s) he) w

end Sys2Proof.Machine

/-! PROOF. The transition table of the phases (46_codec_commands.md R257), and the commands that open a decompress (R252) or are ignored
(R258). -/

namespace Sys2Proof.Machine

/-! ## The phases that an operation can end in (R257) -/

theorem transferOutput_phase (s : State) : (transferOutput s).phase = s.phase := by
  unfold transferOutput
  split <;> rfl

/-- Every operation that a step runs ends in one of the given phases, whether it returns or raises an error. -/
abbrev Res.EndsIn (phs : List Phase) (r : Res Unit) : Prop := r.Post (fun _ t => t.phase ∈ phs) fun t => t.phase ∈ phs

theorem Res.Post.endsIn {phs : List Phase} {r : Res Unit} {t : State} (h : r.EndsIn phs) (e : r.outcome = .next t) :
    t.phase ∈ phs := (h.outcome e).elim id id

theorem build_endsIn (s : State) : (build s).EndsIn [.derive] :=
  (build_post s).mono (fun _ _ h => List.mem_singleton.2 h.1) fun _ h => h.elim

theorem derive_endsIn (s : State) : (derive s).EndsIn [.emitHdr] :=
  (derive_post s).mono (fun _ t (h : t = _) => by rw [h]; exact List.mem_singleton_self _) fun _ h => h.elim

theorem emitHdr_endsIn (s : State) : (emitHdr s).EndsIn [.encode] :=
  (emitHdr_post s).mono (fun _ _ h => List.mem_singleton.2 h.1) fun _ h => h.elim

theorem freqCount_endsIn (b : Byte) {s : State} (hp : s.phase = .scan) : (freqCount b s).EndsIn [.scan, .error] := by
  refine (freqCount_post b s).mono ?_ ?_
  · rintro _ _ ⟨-, _, -, rfl⟩; simp [hp]
  · rintro _ rfl; simp [raise]

theorem scanEnd_endsIn (s : State) : (scanEnd s).EndsIn [.build, .error] := by
  refine (scanEnd_post s).mono ?_ ?_
  · rintro _ _ ⟨-, rfl⟩; exact List.mem_cons_self
  · rintro _ ⟨-, rfl⟩; simp [raise]

theorem encSym_endsIn (b : Byte) {s : State} (hp : s.phase = .encode) : (encSym b s).EndsIn [.encode, .error] := by
  refine (encSym_post b s).mono ?_ ?_
  · rintro _ _ ⟨c, -, -, -, rfl⟩
    rw [putBits_frame]; simp [hp]
  · rintro _ (rfl | rfl) <;> simp [raise]

theorem encEnd_endsIn (s : State) : (encEnd s).EndsIn [.idle, .error] := by
  refine (encEnd_post s).mono ?_ ?_
  · rintro _ _ ⟨-, rfl⟩; exact List.mem_cons_self
  · rintro _ rfl; simp [raise]

theorem decTree1_endsIn (b : Byte) (s : State) : (decTree1 b s).EndsIn [.dPad] := by
  rw [decTree1_eq]; exact List.mem_singleton_self _

theorem decTree_endsIn (b : Byte) {s : State} (hp : s.phase = .dTree) : (decTree b s).EndsIn [.dTree, .dPad, .error] := by
  refine (treeBits_post (rBits b 8) s).mono ?_ fun _ h => by simp [h.phase_eq]
  rintro _ _ (h | ⟨h, -⟩)
  · simp [h.phase_eq, hp]
  · simp [h]

theorem decPad_endsIn (b : Byte) (s : State) : (decPad b s).EndsIn [.dPayload, .error] := by
  refine (decPad_post b s).mono ?_ ?_
  · rintro _ _ ⟨rfl, -⟩; exact List.mem_cons_self
  · rintro _ rfl; simp [raise]

theorem decData_endsIn (b : Byte) {s : State} (hp : s.phase = .dPayload) : (decData b s).EndsIn [.dPayload] := by
  refine (decData_post b s).mono ?_ fun _ h => h.elim
  rintro _ _ ⟨u, ⟨ys, hu⟩, rfl⟩
  rw [hu]; exact List.mem_singleton.2 hp

theorem decEnd_endsIn (s : State) : (decEnd s).EndsIn [.idle, .error] := by
  refine (decEnd_post s).mono ?_ ?_
  · rintro _ _ ⟨_, _, -, -, rfl⟩; exact List.mem_cons_self
  · rintro _ ⟨_, _, _, _, -, rfl⟩; simp [raise]

/-! ## The table (R257) -/

/-- Settles O10: `step_cases` names the operation that ran, and the table lists the phases that it can end in. -/
theorem phaseMovesAsTheTableSays : Obligations.PhaseMovesAsTheTableSays := by
  unfold Obligations.PhaseMovesAsTheTableSays
  intro s t hs
  cases step_cases hs with
  | reset h e => rw [h, e]; exact List.mem_singleton_self _
  | output h e => rw [h, e]; exact List.mem_singleton.2 (transferOutput_phase s.tick)
  | idle h e => rw [h, e]; exact List.mem_singleton_self _
  | build h p e => rw [h, p]; exact (build_endsIn s).endsIn e
  | derive h p e => rw [h, p]; exact (derive_endsIn s).endsIn e
  | emitHdr h p e => rw [h, p]; exact (emitHdr_endsIn s).endsIn e
  | compress h p e => rw [h, p, e]; exact List.mem_singleton_self _
  | decompress h p e => rw [h, p, e]; exact List.mem_singleton_self _
  | clear h p e => rcases p with p | p <;> rw [h, p, e] <;> exact List.mem_singleton_self _
  | reserved op h h1 h2 h3 p e => rw [h, p, e]; simp [phasesAfter, h1, h2, h3, raise]
  | ignored op h hop p e => rw [h, p, e]; simp [phasesAfter, hop, State.tick, p]
  | freqCount w b h k p e => rw [h, p]; simpa [phasesAfter, k] using (freqCount_endsIn b (s := s.tick) p).endsIn e
  | scanEnd w h k p e => rw [h, p]; simpa [phasesAfter, k] using (scanEnd_endsIn s.tick).endsIn e
  | encSym w b h k p e => rw [h, p]; simpa [phasesAfter, k] using (encSym_endsIn b (s := s.tick) p).endsIn e
  | encEnd w h k p e => rw [h, p]; simpa [phasesAfter, k] using (encEnd_endsIn s.tick).endsIn e
  | sourceFailure w h k p e => rcases p with p | p <;> rw [h, p, e] <;> simp [phasesAfter, k, raise]
  | decCount w b h k p e => rw [h, p, e]; simp [phasesAfter, k, decCount]
  | decTree1 w b h k p n e =>
    rw [h, p]; simp [phasesAfter, k, List.mem_singleton.1 ((decTree1_endsIn b s.tick).endsIn e)]
  | decTree w b h k p n e => rw [h, p]; simpa [phasesAfter, k] using (decTree_endsIn b (s := s.tick) p).endsIn e
  | decPad w b h k p e => rw [h, p]; simpa [phasesAfter, k] using (decPad_endsIn b s.tick).endsIn e
  | truncated w h k p e => rcases p with p | p | p <;> rw [h, p, e] <;> simp [phasesAfter, k, truncated, raise]
  | sourceFailed w h k p e => rcases p with p | p | p | p <;> rw [h, p, e] <;> simp [phasesAfter, k, sourceFailed, raise]
  | decData w b h k p e => rw [h, p]; simpa [phasesAfter, k] using (decData_endsIn b (s := s.tick) p).endsIn e
  | decEnd w h k p e => rw [h, p]; simpa [phasesAfter, k] using (decEnd_endsIn s.tick).endsIn e

/-! ## CMD.DECOMPRESS and CMD.IGNORED (R252, R258) -/

/-- Settles O19: SEEN is filled with zeros, and what the other arrays held goes over to what earlier transactions have left. -/
theorem decompressOpensTheParser : Obligations.DecompressOpensTheParser := by
  unfold Obligations.DecompressOpensTheParser
  intro s
  exact ⟨Memory.fill 256 false, cmdDecompress s, fun y hy => Memory.read_fill 256 false hy,
    fun y hy => Memory.read_fill_of_le false hy, rfl, rfl, fun i =>
      ⟨openTransaction_freqAt s i, openTransaction_nodeAt s i, openTransaction_codeAt s i, openTransaction_pstackAt s i⟩⟩

/-- Settles O20. -/
theorem otherCommandsAreIgnoredInError : Obligations.OtherCommandsAreIgnoredInError := by
  unfold Obligations.OtherCommandsAreIgnoredInError
  intro op s hop
  exact ⟨if_neg hop, { s with rangesEnded := true }, rfl, rfl⟩

end Sys2Proof.Machine

/-! PROOF. The two passes of a compress, beat by beat (40_frequency.md R132, R133, 44_framing.md R207, R208), each with one equation for a
DATA beat and one for the END: what lets the transaction go on, and that nothing else does, since ERROR takes no input. -/

namespace Sys2Proof.Machine

/-! ## The beats (30_encoding.md R114) -/

/-- A beat runs the operation that the decoder reads. -/
theorem feedBeat_of_decode {w : BitVec 10} {s : State} {i : Instr}
    (h : decodeInput s.phase (decide (s.nsym = 1)) w = .ok i) : feedBeat w s = exec i s := by
  have hd : decode (.input s.phase (decide (s.nsym = 1))) (.inBeat w) = .ok i := h
  rw [feedBeat, hd]; rfl

/-- ERROR takes no input (R98). -/
theorem feedBeat_error {s : State} (hp : s.phase = .error) (w : BitVec 10) : feedBeat w s = .refused .notSelected := by
  have hd : decode (.input s.phase (decide (s.nsym = 1))) (.inBeat w) = .error .noInputInPhase := by rw [hp]; rfl
  rw [feedBeat, hd]; rfl

theorem stream_nil : stream [] = [endBeat] := rfl

theorem feed_stream_nil (s : State) : feed (stream []) s = feedBeat endBeat s := by
  rw [stream_nil, feed_cons]
  cases feedBeat endBeat s <;> rfl

theorem feed_stream_cons (b : Byte) (S : List Byte) (s : State) :
    feed (stream (b :: S)) s = onNext (feedBeat (dataBeat b) s) (feed (stream S)) := rfl

theorem feed_stream_error {s : State} (hp : s.phase = .error) (S : List Byte) :
    feed (stream S) s = .refused .notSelected := by
  cases S with
  | nil => rw [feed_stream_nil, feedBeat_error hp]
  | cons b S => rw [feed_stream_cons, feedBeat_error hp]; rfl

section Beats
variable {s : State} (b : Byte)

theorem feedBeat_freqCount (hp : s.phase = .scan) : feedBeat (dataBeat b) s = exec (.freqCount b) s :=
  feedBeat_of_decode (by simp [decodeInput, hp])

theorem feedBeat_scanEnd (hp : s.phase = .scan) : feedBeat endBeat s = exec .scanEnd s :=
  feedBeat_of_decode (by simp [decodeInput, hp])

theorem feedBeat_encSym (hp : s.phase = .encode) : feedBeat (dataBeat b) s = exec (.encSym b) s :=
  feedBeat_of_decode (by simp [decodeInput, hp])

theorem feedBeat_encEnd (hp : s.phase = .encode) : feedBeat endBeat s = exec .encEnd s :=
  feedBeat_of_decode (by simp [decodeInput, hp])

theorem feedBeat_decPad (hp : s.phase = .dPad) : feedBeat (dataBeat b) s = exec (.decPad b) s :=
  feedBeat_of_decode (by simp [decodeInput, hp])

theorem feedBeat_decData (hp : s.phase = .dPayload) : feedBeat (dataBeat b) s = exec (.decData b) s :=
  feedBeat_of_decode (by simp [decodeInput, hp])

theorem feedBeat_decEnd (hp : s.phase = .dPayload) : feedBeat endBeat s = exec .decEnd s :=
  feedBeat_of_decode (by simp [decodeInput, hp])

end Beats

/-! ## Pass 1 (40_frequency.md R132, R133) -/

section PassOne
variable {s t : State} {S : List Byte} (h : PassOne s S t)
include h

theorem PassOne.feed_end (hS : S ≠ []) : feed (stream []) t = .next { t with phase := .build } := by
  rw [feed_stream_nil, feedBeat_scanEnd h.phase, (h.scanEnd hS).1]

theorem PassOne.feed_end_empty (hS : S = []) : feed (stream []) t = .next (raise .emptyInput infoNone 0#8 t) := by
  have htotal : t.total = 0 := by rw [h.total, hS]; rfl
  rw [feed_stream_nil, feedBeat_scanEnd h.phase, exec_scanEnd h.readable, scanEnd_empty htotal, Res.outcome_raised]

theorem PassOne.feed_data (hlt : S.length < s.cfg.maxCnt) (b : Byte) (S' : List Byte) :
    feed (stream (b :: S')) t = feed (stream S') (t.countBeat b (S.count b)) := by
  rw [feed_stream_cons, feedBeat_freqCount b h.phase, h.exec_freqCount b hlt, onNext_next]

/-- The beat behind MAXCNT beats overflows (R132), and then nothing is taken. -/
theorem PassOne.feed_overflow (hmax : S.length = s.cfg.maxCnt) (b : Byte) (S' : List Byte) :
    feed (stream (b :: S')) t = .refused .notSelected := by
  have htotal : t.total = t.cfg.maxCnt := by rw [h.total, h.cfg, hmax]
  rw [feed_stream_cons, feedBeat_freqCount b h.phase, Machine.exec_freqCount b h.readable, freqCount_overflow htotal,
    Res.outcome_raised, onNext_next, feed_stream_error rfl]

end PassOne

/-- Pass 1 of a sequence that fits goes on to BUILD. -/
theorem PassOne.feed_stream {s t : State} {S : List Byte} (h : PassOne s S t) (S' : List Byte) (hne : S ++ S' ≠ [])
    (hle : (S ++ S').length ≤ s.cfg.maxCnt) :
    ∃ u, PassOne s (S ++ S') u ∧ feed (stream S') t = .next { u with phase := .build } := by
  induction S' generalizing S t with
  | nil =>
    rw [List.append_nil] at hne ⊢
    exact ⟨t, h, h.feed_end hne⟩
  | cons b S' ih =>
    have hlt : S.length < s.cfg.maxCnt := by rw [List.length_append, List.length_cons] at hle; omega
    rw [List.append_cons] at hne hle ⊢
    rw [h.feed_data hlt]
    exact ih (h.countBeat b) hne hle

/-- Pass 1 ends without an error only for a sequence that has a byte and fits. -/
theorem PassOne.of_feed_stream {s t u : State} {S : List Byte} (h : PassOne s S t) {S' : List Byte}
    (hle : S.length ≤ s.cfg.maxCnt) (hrun : feed (stream S') t = .next u) (hu : u.phase ≠ .error) :
    S ++ S' ≠ [] ∧ (S ++ S').length ≤ s.cfg.maxCnt := by
  induction S' generalizing S t with
  | nil =>
    rw [List.append_nil]
    refine ⟨fun hS => hu ?_, hle⟩
    rw [h.feed_end_empty hS] at hrun
    cases hrun; rfl
  | cons b S' ih =>
    rcases Nat.lt_or_eq_of_le hle with hlt | hmax
    · rw [h.feed_data hlt] at hrun
      rw [List.append_cons]
      exact ih (h.countBeat b) (by rw [List.length_append]; exact hlt) hrun
    · rw [h.feed_overflow hmax] at hrun
      cases hrun

/-! ## The codes of the symbols (42_codebook.md R164) -/

/-- The code of a symbol, as the codebook holds it. -/
def HTree.codeOf (T : HTree) (y : Byte) : Bits := ((Memory.read (codebook T) y.toNat).map CodeEntry.bits).getD []

/-- The codes of some symbols, one after the other. -/
def HTree.encode (T : HTree) (S : List Byte) : Bits := S.flatMap T.codeOf

theorem HTree.encode_cons (T : HTree) (y : Byte) (S : List Byte) : T.encode (y :: S) = T.codeOf y ++ T.encode S := rfl

section Codes
variable {T : HTree} (hn : T.leaves.Nodup) {y : Byte}
include hn

theorem HTree.codeOf_mem_codes (hy : y ∈ T.leaves) : (y, T.codeOf y) ∈ T.codes := by
  obtain ⟨q, hq, rfl⟩ := HTree.exists_code_of_mem_leaves hy
  rw [codeOf, read_codebook hn hq]; exact hq

theorem read_codebook_of_mem (hy : y ∈ T.leaves) :
    Memory.read (codebook T) y.toNat = some { len := (T.codeOf y).length, bits := T.codeOf y } :=
  read_codebook hn (HTree.codeOf_mem_codes hn hy)

end Codes

theorem read_codebook_of_not_mem {T : HTree} {y : Byte} (hy : y ∉ T.leaves) :
    Memory.read (codebook T) y.toNat = some { len := 0, bits := [] } := by
  rw [codebook, read_storeCodes_of_not_mem (by rwa [HTree.codes_leaves]), Memory.read_fill alpha _ y.isLt]

theorem lenAt_codebook_eq {T : HTree} (hn : T.leaves.Nodup) {y : Byte} (hy : y ∈ T.leaves) :
    lenAt (codebook T) y.toNat = (T.codeOf y).length := lenAt_codebook hn (HTree.codeOf_mem_codes hn hy)

/-- The payload that is predicted from the counts of `S` is as long as the codes of `S` (42_codebook.md R166). -/
theorem payload_eq_length_encode {freq : Memory Nat} {T : HTree} {S : List Byte}
    (hT : T.leaves.Perm ((occurring freq (List.range alpha)).map (BitVec.ofNat 8))) (hmem : ∀ y, y ∈ T.leaves ↔ y ∈ S)
    (hcount : ∀ y : Byte, countAt freq y.toNat = S.count y) : payload freq (codebook T) = (T.encode S).length := by
  have hn : T.leaves.Nodup := hT.nodup_iff.2 (nodup_occurring freq)
  have hset : T.leaves.toFinset = S.toFinset := by ext y; simp [hmem]
  calc payload freq (codebook T)
      = (T.leaves.map fun y => S.count y * (T.codeOf y).length).sum := by
        rw [payload, sum_range_eq_sum_leaves hT]
        exact congrArg List.sum (List.map_congr_left fun y hy => by rw [hcount, lenAt_codebook_eq hn hy])
    _ = ∑ y ∈ S.toFinset, S.count y * (T.codeOf y).length := by rw [← hset, List.sum_toFinset _ hn]
    _ = (S.map fun y => (T.codeOf y).length).sum := (Finset.sum_list_map_count S _).symm
    _ = (T.encode S).length := by rw [HTree.encode, List.length_flatMap]

/-! ## Pass 2 (44_framing.md R207, R208) -/

/-- The state in ENCODE when the bits `c` of some codes have been put. -/
def State.encoded (c : Bits) (s : State) : State := { putBits c s with bitcnt := s.bitcnt + c.length }

theorem putBits_bitcnt (c : Bits) (s : State) (n : Nat) :
    putBits c { s with bitcnt := n } = { putBits c s with bitcnt := n } := by
  induction c generalizing s with
  | nil => rfl
  | cons x c ih =>
    rw [putBits_cons, putBits_cons, ← ih]
    unfold putBit
    split <;> rfl

theorem encoded_append (c d : Bits) (s : State) : s.encoded (c ++ d) = (s.encoded c).encoded d := by
  have hput := putBits_bitcnt d (putBits c s) (s.bitcnt + c.length)
  unfold State.encoded
  rw [hput, putBits_append, List.length_append, Nat.add_assoc]

theorem encoded_frame (c : Bits) (s : State) :
    s.encoded c = { s with
      oq := (s.encoded c).oq, wAcc := (s.encoded c).wAcc, wN := (s.encoded c).wN, bitcnt := s.bitcnt + c.length } := by
  unfold State.encoded
  conv_lhs => rw [putBits_frame]

/-- `s` stands in ENCODE with the codes of `T`. -/
structure PassTwo (T : HTree) (s : State) : Prop where
  phase : s.phase = .encode
  code : s.code = codebook T
  nodup : T.leaves.Nodup

section PassTwo
variable {T : HTree} {s : State} (h : PassTwo T s)
include h

theorem PassTwo.encoded (c : Bits) : PassTwo T (s.encoded c) where
  phase := by rw [encoded_frame]; exact h.phase
  code := by rw [encoded_frame]; exact h.code
  nodup := h.nodup

theorem PassTwo.exec_encSym {y : Byte} : exec (.encSym y) s = (encSym y s).outcome :=
  Machine.exec_encSym y (readable_of_phase h.phase (by simp) (by simp) rfl)

theorem PassTwo.read_code {y : Byte} (hy : y ∈ T.leaves) :
    Memory.read s.code y.toNat = some { len := (T.codeOf y).length, bits := T.codeOf y } := by
  rw [h.code]; exact read_codebook_of_mem h.nodup hy

theorem PassTwo.codeOf_length_ne {y : Byte} (hy : y ∈ T.leaves) : (T.codeOf y).length ≠ 0 :=
  Nat.ne_of_gt (HTree.one_le_codes_length (HTree.codeOf_mem_codes h.nodup hy))

/-- A symbol that has a code, which fits the payload, is encoded. -/
theorem PassTwo.feed_data {y : Byte} (hy : y ∈ T.leaves) (hfits : s.bitcnt + (T.codeOf y).length ≤ s.paybits) (S : List Byte) :
    feed (stream (y :: S)) s = feed (stream S) (s.encoded (T.codeOf y)) := by
  rw [feed_stream_cons, feedBeat_encSym y h.phase, h.exec_encSym,
    encSym_ok (h.read_code hy) (h.codeOf_length_ne hy) hfits, List.take_length, Res.outcome_ok, onNext_next]
  rfl

/-- A symbol without a code, or whose code does not fit, is an error, and then nothing is taken. -/
theorem PassTwo.feed_data_refused {y : Byte} (hbad : y ∈ T.leaves → s.paybits < s.bitcnt + (T.codeOf y).length) (S : List Byte) :
    feed (stream (y :: S)) s = .refused .notSelected := by
  rw [feed_stream_cons, feedBeat_encSym y h.phase, h.exec_encSym]
  by_cases hy : y ∈ T.leaves
  · rw [encSym_tooLong (h.read_code hy) (h.codeOf_length_ne hy) (hbad hy), Res.outcome_raised, onNext_next,
      feed_stream_error rfl]
  · have hread : Memory.read s.code y.toNat = some { len := 0, bits := [] } := by
      rw [h.code]; exact read_codebook_of_not_mem hy
    rw [encSym_unknown hread rfl, Res.outcome_raised, onNext_next, feed_stream_error rfl]

theorem PassTwo.feed_end (hb : s.bitcnt = s.paybits) :
    feed (stream []) s = .next { emitEnd (flush s) with doneOk := true, phase := .idle } := by
  rw [feed_stream_nil, feedBeat_encEnd h.phase, exec_encEnd (readable_of_phase h.phase (by simp) (by simp) rfl), encEnd_ok hb,
    Res.outcome_ok]

theorem PassTwo.feed_end_tooShort (hb : s.bitcnt ≠ s.paybits) :
    feed (stream []) s = .next (raise .passMismatch infoTooShort 0#8 s) := by
  rw [feed_stream_nil, feedBeat_encEnd h.phase, exec_encEnd (readable_of_phase h.phase (by simp) (by simp) rfl),
    encEnd_tooShort hb, Res.outcome_raised]

end PassTwo

/-- Pass 2 succeeds where every symbol has a code and the codes are as long as the payload. -/
theorem PassTwo.feed_stream {T : HTree} {s : State} (h : PassTwo T s) {S : List Byte} (hS : ∀ y ∈ S, y ∈ T.leaves)
    (hlen : s.bitcnt + (T.encode S).length = s.paybits) :
    feed (stream S) s = .next { emitEnd (flush (s.encoded (T.encode S))) with doneOk := true, phase := .idle } := by
  induction S generalizing s with
  | nil => exact h.feed_end hlen
  | cons y S ih =>
    rw [HTree.encode_cons, List.length_append] at hlen
    obtain ⟨hy, hS⟩ := List.forall_mem_cons.1 hS
    have hcnt : (s.encoded (T.codeOf y)).bitcnt = s.bitcnt + (T.codeOf y).length := rfl
    have hpay : (s.encoded (T.codeOf y)).paybits = s.paybits := by rw [encoded_frame]
    rw [h.feed_data hy (by omega), ih (h.encoded _) hS (by omega), HTree.encode_cons, encoded_append]

/-- Pass 2 succeeds only there. -/
theorem PassTwo.of_feed_stream {T : HTree} {s t : State} (h : PassTwo T s) {S : List Byte}
    (hrun : feed (stream S) s = .next t) (ht : t.phase = .idle) :
    (∀ y ∈ S, y ∈ T.leaves) ∧ s.bitcnt + (T.encode S).length = s.paybits := by
  induction S generalizing s with
  | nil =>
    refine ⟨fun _ hy => absurd hy List.not_mem_nil, ?_⟩
    by_contra hb
    rw [h.feed_end_tooShort hb] at hrun
    cases hrun; cases ht
  | cons y S ih =>
    by_cases hgood : y ∈ T.leaves ∧ s.bitcnt + (T.codeOf y).length ≤ s.paybits
    · obtain ⟨hy, hfits⟩ := hgood
      rw [h.feed_data hy hfits] at hrun
      obtain ⟨hS, hlen⟩ := ih (h.encoded _) hrun
      have hcnt : (s.encoded (T.codeOf y)).bitcnt = s.bitcnt + (T.codeOf y).length := rfl
      have hpay : (s.encoded (T.codeOf y)).paybits = s.paybits := by rw [encoded_frame]
      refine ⟨List.forall_mem_cons.2 ⟨hy, hS⟩, ?_⟩
      rw [HTree.encode_cons, List.length_append]; omega
    · rw [h.feed_data_refused (fun hy => by by_contra hle; exact hgood ⟨hy, by omega⟩)] at hrun
      cases hrun

/-- From an empty writer pass 2 puts the packed codes and the end beat behind what waits. -/
theorem oq_flush_encoded {s : State} (hn : s.wN = 0) (ha : s.wAcc = 0#8) (c : Bits) :
    (flush (s.encoded c)).oq = s.oq ++ dataBeats (packed c) := by
  have hflush : ∀ (t : State) (n : Nat), (flush { t with bitcnt := n }).oq = (flush t).oq := fun t n => by
    unfold flush; split <;> rfl
  rw [State.encoded, hflush, flush_putBits c (pending_nil hn ha), List.nil_append]

end Sys2Proof.Machine

/-! PROOF. A whole compress (46_codec_commands.md R255, R270): the tree depends on the counts alone (41_tree_build.md R149), so from every
state with the same CNT_W pass 1 leads to ENCODE with the same header written; pass 2 then puts the codes. -/

namespace Sys2Proof.Machine

/-! ## The tree of the counts (41_tree_build.md R146, R149) -/

/-- A tree reads no node above its root. -/
theorem Built.congr {freq : Memory Nat} {m m' : Memory Node} {k : Nat} {T : HTree} (h : Built freq m k T)
    (hm : ∀ j, j ≤ k → Memory.read m j = Memory.read m' j) : Built freq m' k T := by
  induction T generalizing k with
  | leaf y =>
    obtain ⟨n, hn, hleaf⟩ := h
    exact ⟨n, hm k (Nat.le_refl k) ▸ hn, hleaf⟩
  | node l r ihl ihr =>
    obtain ⟨n, hn, hl, hf, hlt, hrt, hL, hR⟩ := h
    exact ⟨n, hm k (Nat.le_refl k) ▸ hn, hl, hf, hlt, hrt, ihl hL fun j hj => hm j (by omega),
      ihr hR fun j hj => hm j (by omega)⟩

/-- BUILD in `s` makes the tree `T`. -/
def BuildsTree (T : HTree) (s : State) : Prop :=
  ∃ m, build s = .ok () (s.built m) ∧ Represents m (2 * s.nsym - 2) T

/-- From the same counts BUILD makes the same tree, with a leaf for each symbol that occurs. -/
theorem Counted.exists_tree {s : State} (h : Counted s) (hpos : 0 < s.total) (hmax : s.total ≤ s.cfg.maxCnt) (hnode : s.node = []) :
    ∃ T : HTree, T.leaves.Perm ((Machine.occurring s.freq (List.range alpha)).map (BitVec.ofNat 8)) ∧
      ∀ s', Counted s' → s'.freq = s.freq → BuildsTree T s' := by
  obtain ⟨m, T, hb, hbuilt, -, hperm, -⟩ := build_ok h hpos h.le_total hmax ⟨by rw [hnode]; rfl, by simp [hnode]⟩
  refine ⟨T, hperm, fun s' h' hf => ?_⟩
  have hN : s'.nsym = s.nsym := by rw [h.nsym, h'.nsym, hf]
  have htotal : s'.total = s.total := by rw [h.total, h'.total, hf]
  obtain ⟨c, t, hrun⟩ := h.exists_buildRun hpos
  obtain ⟨c', t', hrun'⟩ := h'.exists_buildRun (htotal ▸ hpos)
  have hsame := hrun.merges.sameQueue (hN ▸ hrun'.merges) (sameQueue_queued hf.symm)
  obtain rfl : t.node = m := congrArg State.node (Res.ok.inj (hrun.build.symm.trans hb)).2
  refine ⟨t'.node, hrun'.build, ?_⟩
  rw [hN]
  have hpos' := h.one_le_nsym hpos
  exact (hbuilt.congr fun j hj => hsame.node j (by rw [hrun.seq]; omega)).represents

/-! ## From pass 1 to ENCODE (46_codec_commands.md R255) -/

/-- The header of an artifact with the tree `T` and `P` bits of payload (30_encoding.md R100 to R107). -/
def HTree.header (T : HTree) (P : Nat) : List Byte :=
  [byteOfCount T.leaves.length] ++ packed T.sectionBits ++ [BitVec.ofNat 8 (padOf P)]

/-- `t` stands at the start of pass 2, with a header put behind what waits in `s`. -/
structure HeaderWritten (T : HTree) (P : Nat) (s t : State) : Prop where
  pass : PassTwo T t
  paybits : t.paybits = P
  bitcnt : t.bitcnt = 0
  wN : t.wN = 0
  wAcc : t.wAcc = 0#8
  oq : t.oq = s.oq ++ dataBeats (T.header P)

theorem internalStep_build {s : State} (hp : s.phase = .build) : internalStep s = (build s).outcome := by
  rw [internalStep, hp, ← exec_build (readable_counts_of_build hp)]; rfl

theorem internalStep_derive {s : State} (hp : s.phase = .derive) : internalStep s = (derive s).outcome := by
  rw [internalStep, hp, ← exec_derive (readable_of_phase hp (by simp) (by simp) rfl)]; rfl

theorem internalStep_emitHdr {s : State} (hp : s.phase = .emitHdr) : internalStep s = (emitHdr s).outcome := by
  rw [internalStep, hp, ← exec_emitHdr (readable_of_phase hp (by simp) (by simp) rfl)]; rfl

/-- The three internal steps of a compress. -/
def threeSteps (s : State) : Host.Outcome State Fault Refusal := onNext (internalStep s) fun s => onNext (internalStep s) internalStep

/-- The state that DERIVE leaves for the tree `T`. -/
def State.derived (T : HTree) (s : State) : State :=
  { s with
    code := codebook T, paybits := payload s.freq (codebook T), pad := padOf (payload s.freq (codebook T)), bitcnt := 0
    phase := .emitHdr }

/-- BUILD, DERIVE and EMIT_HDR write the header of the tree. -/
theorem threeSteps_ok {T : HTree} {s : State} (hp : s.phase = .build) (hc : Counted s) (hT : BuildsTree T s)
    (hn : T.leaves.Nodup) (hN : T.leaves.length = s.nsym) (hw : s.wN = 0) (ha : s.wAcc = 0#8) :
    ∃ t, threeSteps s = .next t ∧ HeaderWritten T (payload s.freq (codebook T)) s t := by
  obtain ⟨m, hbuild, hrep⟩ := hT
  have hd : T.depth ≤ codeMax := HTree.depth_le_of_nodup hn
  have hderive : derive (s.built m) = .ok () ((s.built m).derived T) := derive_ok hrep hd hc.covers.read_all
  have hemit := emitHdr_ok (s := (s.built m).derived T) hrep hd hN hw ha
  have hrun : threeSteps s = (emitHdr ((s.built m).derived T)).outcome := by
    rw [threeSteps, internalStep_build hp, hbuild, Res.outcome_ok, onNext_next, internalStep_derive rfl, hderive,
      Res.outcome_ok, onNext_next, internalStep_emitHdr rfl]
  rw [hrun, hemit]
  refine ⟨_, rfl, ⟨rfl, rfl, hn⟩, rfl, rfl, hw, ha, ?_⟩
  rw [HTree.header, hN]; rfl

/-- The parts of a compress: pass 1, the internal steps, pass 2. -/
theorem compressRun_eq (S1 S2 : List Byte) (s : State) :
    compressRun S1 S2 s =
      onNext (feed (stream S1) (cmdCompress s)) fun s => onNext (threeSteps s) fun s => feed (stream S2) s := by
  have hexec : exec .cmdCompress s = .next (cmdCompress s) := rfl
  rw [compressRun, hexec, onNext_next]
  cases feed (stream S1) (cmdCompress s) with
  | fault f => rfl
  | refused r => rfl
  | next u =>
    rw [onNext_next, onNext_next, threeSteps]
    cases internalStep u with
    | fault f => rfl
    | refused r => rfl
    | next v =>
      rw [onNext_next, onNext_next]
      cases internalStep v <;> rfl

theorem PassOne.freq_eq {s s' t t' : State} {S : List Byte} (h : PassOne s S t) (h' : PassOne s' S t') : t'.freq = t.freq := by
  refine arraysWithEqualContentsAreEqual Nat alpha _ _ h'.counted.covers.wf h.counted.covers.wf fun i => ?_
  rcases Nat.lt_or_ge i alpha with hi | hi
  · have hy : (BitVec.ofNat 8 i).toNat = i := by rw [BitVec.toNat_ofNat]; exact Nat.mod_eq_of_lt hi
    rw [← hy, h.count, h'.count]
  · have hnone : ∀ {u : State}, Counted u → Memory.read u.freq i = none := fun hu => by
      rw [Memory.read_none_iff, hu.covers, List.mem_range]; exact Nat.not_lt.2 hi
    rw [hnone h.counted, hnone h'.counted]

/-- The symbols that occur are those of the input. -/
theorem PassOne.mem_occurring {s t : State} {S : List Byte} (h : PassOne s S t) (y : Byte) :
    y ∈ (occurring t.freq (List.range alpha)).map (BitVec.ofNat 8) ↔ y ∈ S := by
  have hcount : countAt t.freq y.toNat = S.count y := by rw [countAt, h.count]; rfl
  rw [← List.count_pos_iff (l := S), ← hcount]
  constructor
  · intro hy
    obtain ⟨i, hi, rfl⟩ := List.mem_map.1 hy
    rw [toNat_ofNat_of_mem_occurring hi]
    exact (Machine.mem_occurring.1 hi).2
  · intro hy
    exact List.mem_map.2 ⟨y.toNat, Machine.mem_occurring.2 ⟨y.isLt, hy⟩, by simp⟩

/-- Pass 1 and the internal steps: the tree and the header depend on the input alone. -/
theorem exists_header {S : List Byte} {s : State} (hS : S ≠ []) (hle : S.length ≤ s.cfg.maxCnt) :
    ∃ T : HTree, T.leaves.Nodup ∧ (∀ y, y ∈ T.leaves ↔ y ∈ S) ∧
      ∀ s', s'.cfg = s.cfg → ∃ t, HeaderWritten T (T.encode S).length s' t ∧ ∀ S2, compressRun S S2 s' = feed (stream S2) t := by
  obtain ⟨u, hu, -⟩ := (passOne_cmdCompress s).feed_stream S hS hle
  have hlen : 0 < S.length := List.length_pos_iff.2 hS
  rw [List.nil_append] at hu
  obtain ⟨T, hperm, hbuilds⟩ := hu.counted.exists_tree (by rw [hu.total]; exact hlen) (by rw [hu.total, hu.cfg]; exact hle)
    (by rw [hu.frame]; rfl)
  have hn : T.leaves.Nodup := hperm.nodup_iff.2 (nodup_occurring u.freq)
  have hmem : ∀ y, y ∈ T.leaves ↔ y ∈ S := fun y => hperm.mem_iff.trans (hu.mem_occurring y)
  refine ⟨T, hn, hmem, fun s' hcfg => ?_⟩
  obtain ⟨v, hv, hrun⟩ := (passOne_cmdCompress s').feed_stream S hS (hcfg ▸ hle)
  rw [List.nil_append] at hv
  have hf : v.freq = u.freq := hu.freq_eq hv
  have hc : Counted { v with phase := .build } := ⟨hv.counted.covers, hv.counted.total, hv.counted.nsym⟩
  have hN : T.leaves.length = v.nsym := by rw [hperm.length_eq, List.length_map, ← hf, hv.counted.occurring.1]
  obtain ⟨t, hsteps, ht⟩ := threeSteps_ok (s := { v with phase := .build }) rfl hc (hbuilds _ hc hf) hn hN
    (by rw [hv.frame]; rfl) (by rw [hv.frame]; rfl)
  have hpay : payload v.freq (codebook T) = (T.encode S).length :=
    payload_eq_length_encode (hf ▸ hperm) hmem fun y => by rw [countAt, hv.count]; rfl
  have hoq : v.oq = s'.oq := by rw [hv.frame]; rfl
  refine ⟨t, ⟨ht.pass, ht.paybits.trans hpay, ht.bitcnt, ht.wN, ht.wAcc, ?_⟩, fun S2 => ?_⟩
  · rw [ht.oq, ← hoq, ← hpay]
  · rw [compressRun_eq, hrun, onNext_next, hsteps, onNext_next]

/-! ## The artifact (R270) -/

/-- The artifact with the tree `T` and the payload bits `c` (30_encoding.md R100). -/
def HTree.artifact (T : HTree) (c : Bits) : List Byte := T.header c.length ++ packed c

/-- Pass 2 with symbols of the tree whose codes are as long as predicted completes the artifact. -/
theorem HeaderWritten.pass2 {T : HTree} {P : Nat} {s t : State} (h : HeaderWritten T P s t) {S : List Byte}
    (hS : ∀ y ∈ S, y ∈ T.leaves) (hP : (T.encode S).length = P) :
    ∃ u, feed (stream S) t = .next u ∧ u.phase = .idle ∧ u.doneOk = true ∧
      u.oq = s.oq ++ dataBeats (T.artifact (T.encode S)) ++ [endOfOutput] := by
  refine ⟨_, h.pass.feed_stream hS (by rw [h.bitcnt, h.paybits, Nat.zero_add, hP]), rfl, rfl, ?_⟩
  show (flush (t.encoded (T.encode S))).oq ++ [endOfOutput] = _
  rw [oq_flush_encoded h.wN h.wAcc, h.oq, HTree.artifact, hP]
  simp [dataBeats]

/-- Settles O59: pass 2 with the bytes of pass 1 puts as many bits as DERIVE has predicted from their counts. -/
theorem compressWritesTheArtifact : Obligations.CompressWritesTheArtifact := by
  unfold Obligations.CompressWritesTheArtifact
  intro S s hS hle
  obtain ⟨T, hn, hmem, hall⟩ := exists_header hS hle
  obtain ⟨t, ht, hrun⟩ := hall s rfl
  obtain ⟨u, hu, hp, hd, hoq⟩ := ht.pass2 (fun y hy => (hmem y).2 hy) rfl
  exact ⟨u, T, T.codeOf, (hrun S).trans hu, hp, hd, hn, hmem, fun y hy => HTree.codeOf_mem_codes hn ((hmem y).2 hy), hoq⟩

end Sys2Proof.Machine

/-! PROOF. A whole decompress (46_codec_commands.md R256, R272): the header is parsed into the tree it was written from, and the held bytes
are walked one beat late. The walk does not look at `hold`; that is said once, for every part of the state that the walk does not look
at. -/

namespace Sys2Proof.Machine

/-! ## Operations that do not look at a part of the state -/

/-- The same result with its state changed. -/
def Res.mapState {α : Type} (f : State → State) (r : Res α) : Res α :=
  match r with
  | .ok a s => .ok a (f s)
  | .raised s => .raised (f s)
  | .fault e => .fault e

@[simp] theorem Res.mapState_ok {α : Type} (f : State → State) (a : α) (s : State) :
    (Res.ok a s).mapState f = .ok a (f s) := rfl
@[simp] theorem Res.mapState_raised {α : Type} (f : State → State) (s : State) :
    (Res.raised s : Res α).mapState f = .raised (f s) := rfl
@[simp] theorem Res.mapState_fault {α : Type} (f : State → State) (e : Fault) :
    (Res.fault e : Res α).mapState f = .fault e := rfl

/-- Changing the state by `f` before the operation is changing it afterwards. -/
def Commutes {α : Type} (f : State → State) (k : State → Res α) : Prop := ∀ s, k (f s) = (k s).mapState f

section Commutes
variable {α β : Type} {f : State → State}

theorem Commutes.bind {k : State → Res α} {g : α → State → Res β} (hk : Commutes f k) (hg : ∀ a, Commutes f (g a)) :
    Commutes f fun s => (k s).bind g := fun s => by
  show (k (f s)).bind g = ((k s).bind g).mapState f
  rw [hk s]
  cases k s with
  | ok a t => exact hg a t
  | raised t => rfl
  | fault e => rfl

theorem Commutes.next {k : State → Res Unit} {g : State → Res β} (hk : Commutes f k) (hg : Commutes f g) :
    Commutes f fun s => (k s).next g := hk.bind fun _ => hg

/-- Changing other fields first. -/
theorem Commutes.comp {k : State → Res α} (hk : Commutes f k) {g : State → State} (hg : ∀ s, g (f s) = f (g s)) :
    Commutes f fun s => k (g s) := fun s => by
  show k (g (f s)) = _
  rw [hg, hk]

/-- A choice that `f` does not change. -/
theorem Commutes.ite {p : State → Prop} [DecidablePred p] {k g : State → Res α} (hp : ∀ s, p (f s) ↔ p s) (hk : Commutes f k)
    (hg : Commutes f g) : Commutes f fun s => if p s then k s else g s := fun s => by
  by_cases h : p s
  · simp only [hp, h, if_true]; exact hk s
  · simp only [hp, h, if_false]; exact hg s

theorem commutes_ok (a : α) {g : State → State} (hg : ∀ s, g (f s) = f (g s)) : Commutes f fun s => Res.ok a (g s) :=
  fun s => congrArg (Res.ok a) (hg s)

theorem commutes_readAt (sp : Space) (m : Memory α) (i : Nat) : Commutes f (readAt sp m i) := fun s => by
  unfold readAt; cases Memory.read m i <;> rfl

end Commutes

/-! ## The walk (45_decode.md R231 to R233) -/

/-- `f` changes nothing that the walk looks at, and what the walk writes it leaves. -/
structure WalkBlind (f : State → State) : Prop where
  node : ∀ s, (f s).node = s.node
  root : ∀ s, (f s).root = s.root
  cur : ∀ s, (f s).cur = s.cur
  nsym : ∀ s, (f s).nsym = s.nsym
  draws : ∀ s, (f s).draws = s.draws
  setCur : ∀ s c, { f s with cur := c } = f { s with cur := c }
  setDraws : ∀ s d, { f s with draws := d } = f { s with draws := d }
  emit : ∀ b s, Machine.emit b (f s) = f (Machine.emit b s)

section WalkBlind
variable {f : State → State} (hf : WalkBlind f)
include hf

theorem WalkBlind.readNode (k : Nat) : Commutes f (readNode k) := fun s => by
  unfold Machine.readNode
  rw [hf.node]; exact commutes_readAt .node s.node k s

theorem WalkBlind.readSym (k : Nat) : Commutes f (readSym k) :=
  (hf.readNode k).bind fun n s => by
    split
    · rfl
    · rw [hf.draws, hf.setDraws]; rfl

theorem WalkBlind.readChild (x : Bool) (k : Nat) : Commutes f (readChild x k) :=
  (hf.readNode k).bind fun n s => by
    split
    · rw [hf.draws, hf.setDraws]; rfl
    · rfl

theorem WalkBlind.walkBit (x : Bool) : Commutes f (walkBit x) := fun s => by
  unfold Machine.walkBit
  rw [hf.cur]
  refine (hf.readChild x s.cur).bind (fun c => (hf.readNode c).bind fun m t => ?_) s
  split
  · rw [hf.emit, hf.setCur, hf.root]; rfl
  · rw [hf.setCur]; rfl

theorem WalkBlind.walkBit1 (x : Bool) : Commutes f (walkBit1 x) := fun s => by
  unfold Machine.walkBit1
  rw [hf.root]
  exact (hf.readSym s.root).bind (fun y => commutes_ok () (hf.emit y)) s

theorem WalkBlind.walk (x : Bool) : Commutes f (walk x) := fun s => by
  unfold Machine.walk
  rw [hf.nsym]
  split
  · exact hf.walkBit1 x s
  · exact hf.walkBit x s

theorem WalkBlind.walkBits (c : Bits) : Commutes f (walkBits c) := by
  induction c with
  | nil => exact fun _ => rfl
  | cons x c ih => exact (hf.walk x).next ih

end WalkBlind

/-! ## The held byte (45_decode.md R231, R234) -/

/-- The state that holds the byte `b`, or none. -/
def State.holding (b : Byte) (v : Bool) (s : State) : State := { s with hold := b, holdV := v }

theorem walkBlind_holding (b : Byte) (v : Bool) : WalkBlind (State.holding b v) := by
  constructor <;> intros <;> rfl

/-- A transaction that has ended well. -/
def State.closed (s : State) : State := { emitEnd s with doneOk := true, phase := .idle }

/-- The bits of a held byte and of the bytes behind it, but for the pad bits of the last, are walked, and the end beat closes. -/
theorem feed_held {bs : List Byte} {s u : State} (hp : s.phase = .dPayload) (hv : s.holdV = true) (hpad : s.pad ≤ 7)
    (hw : walkBits ((bitsOfBytes (s.hold :: bs)).take (8 * (bs.length + 1) - s.pad)) s = .ok () u) (hu : u.cur = u.root) :
    ∃ b, feed (stream bs) s = .next (u.holding b false).closed := by
  induction bs generalizing s u with
  | nil =>
    have hbits : (bitsOfBytes [s.hold]).take (8 * (0 + 1) - s.pad) = topBits s.hold (8 - s.pad) := by
      rw [topBits_eq_take _ (Nat.sub_le ..)]; simp [bitsOfBytes]
    rw [List.length_nil, hbits] at hw
    refine ⟨u.hold, ?_⟩
    rw [feed_stream_nil, feedBeat_decEnd hp, exec_decEnd (readable_of_phase hp (by simp) (by simp) rfl),
      decEnd_closes (decLast_held hv hw) hu]
    rfl
  | cons b bs ih =>
    have hbits : (bitsOfBytes (s.hold :: b :: bs)).take (8 * ((b :: bs).length + 1) - s.pad) =
        topBits s.hold 8 ++ (bitsOfBytes (b :: bs)).take (8 * (bs.length + 1) - s.pad) := by
      rw [bitsOfBytes_cons, topBits_eight, List.length_cons,
        show 8 * (bs.length + 1 + 1) - s.pad = (bitsOfByte s.hold).length + (8 * (bs.length + 1) - s.pad) by
          rw [show (bitsOfByte s.hold).length = 8 from rfl]; omega,
        List.take_length_add_append]
    rw [hbits, walkBits_append] at hw
    obtain ⟨v, hfirst, hrest⟩ := Res.next_eq_ok.1 hw
    have hpost := walkBits_post (topBits s.hold 8) s
    rw [hfirst] at hpost
    obtain ⟨ys, hv'⟩ := hpost
    have hvp : v.phase = .dPayload := by rw [hv']; exact hp
    have hvpad : v.pad = s.pad := by rw [hv']
    have hnext : walkBits ((bitsOfBytes (b :: bs)).take (8 * (bs.length + 1) - s.pad)) (v.holding b true) =
        .ok () (u.holding b true) := by rw [(walkBlind_holding b true).walkBits, hrest]; rfl
    rw [← hvpad] at hnext
    obtain ⟨last, hclose⟩ := ih (s := v.holding b true) hvp rfl (hvpad ▸ hpad) hnext hu
    refine ⟨last, ?_⟩
    rw [feed_stream_cons, feedBeat_decData b hp, exec_decData b (readable_walk hp), decData_held hv hfirst, Res.outcome_ok,
      onNext_next]
    exact hclose

/-- Packed bits are walked to the last of them (43_bitstream.md R180). -/
theorem feed_packed {c : Bits} {s u : State} (hp : s.phase = .dPayload) (hv : s.holdV = false) (hpad : s.pad = padOf c.length)
    (hc : c ≠ []) (hw : walkBits c s = .ok () u) (hu : u.cur = u.root) :
    ∃ b, feed (stream (packed c)) s = .next (u.holding b false).closed := by
  have hpos : 0 < c.length := List.length_pos_iff.2 hc
  have hlen := packed_length c
  have htake := take_flatMap_bitsOfByte_packed c
  cases hbytes : packed c with
  | nil => rw [hbytes, List.length_nil] at hlen; omega
  | cons h bs =>
    rw [hbytes, List.length_cons] at hlen
    rw [hbytes] at htake
    have hn : 8 * (bs.length + 1) - padOf c.length = c.length := by unfold padOf; omega
    have hbits : (bitsOfBytes (h :: bs)).take (8 * (bs.length + 1) - s.pad) = c := by rw [hpad, hn]; exact htake
    have hwalk : walkBits ((bitsOfBytes (h :: bs)).take (8 * (bs.length + 1) - s.pad)) (s.holding h true) =
        .ok () (u.holding h true) := by rw [hbits, (walkBlind_holding h true).walkBits, hw]; rfl
    obtain ⟨b, hclose⟩ := feed_held (s := s.holding h true) hp rfl
      (by show s.pad ≤ 7; rw [hpad]; unfold padOf; omega) hwalk hu
    refine ⟨b, ?_⟩
    rw [feed_stream_cons, feedBeat_decData h hp, exec_decData h (readable_walk hp), decData_first hv, Res.outcome_ok,
      onNext_next]
    exact hclose

/-! ## From the artifact (30_encoding.md R100) -/

theorem feed_append (ws vs : List (BitVec 10)) (s : State) : feed (ws ++ vs) s = onNext (feed ws s) (feed vs) := by
  induction ws generalizing s with
  | nil => rfl
  | cons w ws ih =>
    rw [List.cons_append, feed_cons, feed_cons]
    cases feedBeat w s with
    | next t => exact ih t
    | fault f => rfl
    | refused r => rfl

theorem stream_append (bs bs' : List Byte) : stream (bs ++ bs') = bs.map dataBeat ++ stream bs' := by
  rw [stream, stream, List.map_append, List.append_assoc]

/-- The pad byte opens the payload (44_framing.md R224). -/
def State.payloadOpened (p : Nat) (s : State) : State := { s with pad := p, holdV := false, cur := s.root, phase := .dPayload }

theorem feedBeat_pad {s : State} (hp : s.phase = .dPad) {p : Nat} (h7 : p ≤ 7) :
    feedBeat (dataBeat (BitVec.ofNat 8 p)) s = .next (s.payloadOpened p) := by
  have hval : (BitVec.ofNat 8 p).toNat = p := by rw [BitVec.toNat_ofNat]; omega
  rw [feedBeat_decPad _ hp, exec_decPad _ (readable_of_phase hp (by simp) (by simp) rfl), decPad_ok (by omega), hval,
    Res.outcome_ok]
  rfl

/-- The header of an artifact is parsed into its tree, from every state. -/
theorem decompressRun_header {T : HTree} (hn : T.leaves.Nodup) (P : Nat) (bs : List Byte) (s : State) :
    ∃ u, SectionParsed T (s.afterCount (byteOfCount T.leaves.length)) u ∧
      decompressRun (T.header P ++ bs) s = feed (stream bs) (u.payloadOpened (padOf P)) := by
  have hcount : T.leaves.length = countOfByte (byteOfCount T.leaves.length) :=
    (countOfByte_ofNat T.leaves_pos (HTree.leaves_le_of_nodup hn)).symm
  obtain ⟨u, hu, hrun, -⟩ := section_parsed s hn hcount (sectionBytes_packed T)
  refine ⟨u, hu, ?_⟩
  have hexec : exec .cmdDecompress s = .next (cmdDecompress s) := rfl
  have hsplit : T.header P ++ bs =
      byteOfCount T.leaves.length :: (packed T.sectionBits ++ BitVec.ofNat 8 (padOf P) :: bs) := by simp [HTree.header]
  rw [decompressRun, hexec, onNext_next, hsplit, feed_stream_cons, feedBeat_dCount _ rfl, onNext_next, stream_append,
    feed_append]
  show onNext (feed _ (s.afterCount _)) _ = _
  rw [hrun, onNext_next, feed_stream_cons, feedBeat_pad hu.phase (by unfold padOf; omega), onNext_next]

/-- A code is not empty, so the codes of some symbols are not. -/
theorem HTree.encode_ne_nil {T : HTree} (hn : T.leaves.Nodup) {S : List Byte} (hne : S ≠ []) (hS : ∀ y ∈ S, y ∈ T.leaves) :
    T.encode S ≠ [] := by
  obtain ⟨y, S', rfl⟩ := List.exists_cons_of_ne_nil hne
  have hone := HTree.one_le_codes_length (HTree.codeOf_mem_codes hn (hS y List.mem_cons_self))
  intro hnil
  rw [HTree.encode_cons, List.append_eq_nil_iff] at hnil
  exact absurd (congrArg List.length hnil.1) (Nat.ne_of_gt hone)

/-- Decompressing an artifact gives the symbols whose codes are its payload (R272). -/
theorem decompressRun_artifact {T : HTree} (hn : T.leaves.Nodup) {S : List Byte} (hne : S ≠ [])
    (hS : ∀ y ∈ S, y ∈ T.leaves) (s : State) :
    ∃ u, decompressRun (T.artifact (T.encode S)) s = .next u ∧ u.phase = .idle ∧ u.doneOk = true ∧
      u.oq = s.oq ++ dataBeats S ++ [endOfOutput] := by
  obtain ⟨u, hu, hrun⟩ := decompressRun_header hn (T.encode S).length (packed (T.encode S)) s
  have hN : T.leaves.length = u.nsym := by
    rw [hu.nsym]; exact (countOfByte_ofNat T.leaves_pos (HTree.leaves_le_of_nodup hn)).symm
  have hT : Represents u.node u.root T := by rw [hu.root]; exact hu.tree
  have hL : ∀ q ∈ S.map fun y => (y, T.codeOf y), q ∈ T.codes := fun q hq => by
    obtain ⟨y, hy, rfl⟩ := List.mem_map.1 hq
    exact HTree.codeOf_mem_codes hn (hS y hy)
  have hwalk := walkBits_codes (s := u.payloadOpened (padOf (T.encode S).length)) hT (by rw [hN]; rfl) rfl hL
  have hbits : (S.map fun y => (y, T.codeOf y)).flatMap Prod.snd = T.encode S := by rw [List.flatMap_map]; rfl
  have hsyms : (S.map fun y => (y, T.codeOf y)).map Prod.fst = S := by simp [List.map_map, Function.comp_def]
  rw [hbits, hsyms] at hwalk
  obtain ⟨b, hfeed⟩ := feed_packed rfl rfl rfl (HTree.encode_ne_nil hn hne hS) hwalk rfl
  refine ⟨_, by rw [HTree.artifact, hrun, hfeed], rfl, rfl, ?_⟩
  show u.oq ++ dataBeats S ++ [endOfOutput] = _
  rw [hu.oq]

end Sys2Proof.Machine

/-! PROOF. No operation but CLEAR and RESET depends on what waits in `oq` (20_memory.md R74; 46_codec_commands.md R272, R273): with other
beats in front it does the same, and puts its own behind them. One lemma per operation, each put together from those it calls, as the
operation is. -/

namespace Sys2Proof.Machine

/-- The state with the beats `q` in front of those that wait. -/
def State.behind (q : List OutBeat) (s : State) : State := { s with oq := q ++ s.oq }

section Behind
variable {q : List OutBeat}

/-! ## The writer (43_bitstream.md R175 to R180) -/

theorem pushBeat_behind (b : OutBeat) (s : State) : pushBeat b (s.behind q) = (pushBeat b s).behind q := by
  simp [pushBeat, State.behind]

theorem emit_behind (b : Byte) (s : State) : emit b (s.behind q) = (emit b s).behind q := pushBeat_behind _ s

theorem emitEnd_behind (s : State) : emitEnd (s.behind q) = (emitEnd s).behind q := pushBeat_behind _ s

theorem putBit_behind (x : Bool) (s : State) : putBit x (s.behind q) = (putBit x s).behind q := by
  dsimp only [putBit, State.behind]
  split
  · exact emit_behind (q := q) _ { s with wAcc := 0#8, wN := 0 }
  · rfl

theorem putBits_behind (c : Bits) (s : State) : putBits c (s.behind q) = (putBits c s).behind q := by
  induction c generalizing s with
  | nil => rfl
  | cons x c ih => rw [putBits, putBit_behind, ih]; rfl

theorem flush_behind (s : State) : flush (s.behind q) = (flush s).behind q := by
  dsimp only [flush, State.behind]
  split
  · exact emit_behind (q := q) _ { s with wAcc := 0#8, wN := 0 }
  · rfl

theorem writePayload_behind (bs : List Byte) (s : State) : writePayload bs (s.behind q) = (writePayload bs s).behind q := by
  induction bs generalizing s with
  | nil => rfl
  | cons b bs ih => rw [writePayload, putBits_behind, ih]; rfl

/-! ## The arrays -/

theorem behind_readFreq (i : Nat) : Commutes (State.behind q) (readFreq i) := fun s => commutes_readAt .freq s.freq i s

theorem behind_readCode (i : Nat) : Commutes (State.behind q) (readCode i) := fun s => commutes_readAt .code s.code i s

theorem behind_readSeen (i : Nat) : Commutes (State.behind q) (readSeen i) := fun s => commutes_readAt .seen s.seen i s

theorem behind_writeNode (k : Nat) (n : Node) : Commutes (State.behind q) (writeNode k n) := fun s => by
  unfold writeNode; split <;> rfl

theorem behind_writeTreeNode (k : Nat) (leaf : Bool) (y : Byte) : Commutes (State.behind q) (writeTreeNode k leaf y) := fun s =>
  behind_writeNode k { leaf := leaf, sym := y, freq := (s.nodeAt k).bind Node.freq, left := 0, right := 0 } s

/-! ## The walk (45_decode.md) -/

theorem walkBlind_behind : WalkBlind (State.behind q) := by
  constructor
  case emit => exact emit_behind
  all_goals intros; rfl

theorem behind_readNode (k : Nat) : Commutes (State.behind q) (readNode k) := walkBlind_behind.readNode k

theorem behind_readSym (k : Nat) : Commutes (State.behind q) (readSym k) := walkBlind_behind.readSym k

theorem behind_decData (b : Byte) : Commutes (State.behind q) (decData b) :=
  .next (.ite (fun _ => Iff.rfl) (fun s => walkBlind_behind.walkBits (rBits s.hold 8) s) (commutes_ok () fun _ => rfl))
    (commutes_ok () fun _ => rfl)

theorem behind_decLast : Commutes (State.behind q) decLast :=
  .ite (fun _ => Iff.rfl)
    (.next (fun s => walkBlind_behind.walkBits (rBits s.hold (8 - s.pad)) s) (commutes_ok () fun _ => rfl))
    (.ite (fun _ => Iff.rfl) (fun _ => rfl) (commutes_ok () fun _ => rfl))

theorem behind_decEnd : Commutes (State.behind q) decEnd :=
  behind_decLast.next (.ite (fun _ => Iff.rfl) (fun _ => rfl) (commutes_ok () fun s => by rw [emitEnd_behind]; rfl))

theorem behind_readPayload (bs : List Byte) : Commutes (State.behind q) (readPayload bs) := by
  induction bs with
  | nil => exact fun _ => rfl
  | cons b bs ih => exact (behind_decData b).next ih

/-! ## Counting and the tree (40_frequency.md, 41_tree_build.md) -/

theorem behind_freqCount (b : Byte) : Commutes (State.behind q) (freqCount b) :=
  .ite (fun _ => Iff.rfl) (fun _ => rfl) ((behind_readFreq b.toNat).bind fun _ => commutes_ok () fun _ => rfl)

theorem behind_scanEnd : Commutes (State.behind q) scanEnd :=
  .ite (fun _ => Iff.rfl) (fun _ => rfl) (commutes_ok () fun _ => rfl)

theorem behind_pqInsert (f k : Nat) : Commutes (State.behind q) (pqInsert f k) :=
  .ite (fun _ => Iff.rfl) (commutes_ok () fun _ => rfl) (fun _ => rfl)

theorem behind_pqExtractMin : Commutes (State.behind q) pqExtractMin := fun s => by
  dsimp only [pqExtractMin, State.behind]; split <;> rfl

theorem behind_pqInitFrom (ys : List Nat) : Commutes (State.behind q) (pqInitFrom ys) := by
  induction ys with
  | nil => exact fun _ => rfl
  | cons y ys ih =>
    refine (behind_readFreq y).bind fun f => .ite (fun _ => Iff.rfl) (fun s => ?_) ih
    exact (behind_writeNode s.seq _).next ((behind_pqInsert f s.seq).next ih) s

theorem behind_pqInit : Commutes (State.behind q) pqInit := (behind_pqInitFrom (List.range alpha)).comp fun _ => rfl

theorem behind_merge : Commutes (State.behind q) merge :=
  behind_pqExtractMin.bind fun e1 => behind_pqExtractMin.bind fun e2 s =>
    (behind_writeNode s.seq _).next (behind_pqInsert (e1.freq + e2.freq) s.seq) s

theorem behind_mergeLoop (rounds : Nat) : Commutes (State.behind q) (mergeLoop rounds) := by
  induction rounds with
  | zero => exact fun _ => rfl
  | succ n ih => exact .ite (fun _ => Iff.rfl) (behind_merge.next ih) (commutes_ok () fun _ => rfl)

theorem behind_build : Commutes (State.behind q) build :=
  behind_pqInit.next (.next (fun s => behind_mergeLoop s.pqCount s) (behind_pqExtractMin.bind fun _ => commutes_ok () fun _ => rfl))

/-! ## The codebook (42_codebook.md) -/

theorem behind_codeAssignFrom (room k : Nat) (p : Bits) : Commutes (State.behind q) (codeAssignFrom room k p) := by
  induction room generalizing k p with
  | zero => exact fun _ => rfl
  | succ room ih =>
    exact (behind_readNode k).bind fun n => .ite (fun _ => Iff.rfl) (commutes_ok () fun _ => rfl) ((ih _ _).next (ih _ _))

theorem behind_codeAssign1 : Commutes (State.behind q) codeAssign1 :=
  .bind (fun s => behind_readSym s.root s) fun _ => commutes_ok () fun _ => rfl

theorem behind_codeLookup (b : Byte) : Commutes (State.behind q) (codeLookup b) := behind_readCode b.toNat

theorem behind_paySum (ys : List Nat) : Commutes (State.behind q) (paySum ys) := by
  induction ys with
  | nil => exact fun _ => rfl
  | cons y ys ih =>
    exact (behind_readFreq y).bind fun _ => (behind_readCode y).bind fun _ => ih.bind fun _ => commutes_ok _ fun _ => rfl

theorem behind_padPredict : Commutes (State.behind q) padPredict :=
  (behind_paySum (List.range alpha)).bind fun _ => commutes_ok () fun _ => rfl

theorem behind_derive : Commutes (State.behind q) derive :=
  .bind (fun s => behind_readNode s.root (codeClear s)) fun _ =>
    .next (.ite (fun _ => Iff.rfl) behind_codeAssign1 fun s => behind_codeAssignFrom _ s.root [] s)
      (behind_padPredict.next (commutes_ok () fun _ => rfl))

/-! ## Writing the artifact (44_framing.md R195 to R208) -/

theorem behind_hdrTree1 : Commutes (State.behind q) hdrTree1 :=
  .bind (fun s => behind_readSym s.root s) fun y => commutes_ok () (emit_behind y)

theorem behind_serFrom (room k : Nat) : Commutes (State.behind q) (serFrom room k) := by
  induction room generalizing k with
  | zero => exact fun _ => rfl
  | succ room ih =>
    refine (behind_readNode k).bind fun n => .ite (fun _ => Iff.rfl)
      (commutes_ok () fun s => ?_) (((ih n.left).comp (putBit_behind false)).next (ih n.right))
    rw [putBit_behind, putBits_behind]

theorem behind_hdrTree : Commutes (State.behind q) hdrTree :=
  .next (fun s => behind_serFrom (codeMax + 1) s.root s) (commutes_ok () flush_behind)

theorem behind_emitHdr : Commutes (State.behind q) emitHdr := by
  have hbody : Commutes (State.behind q) fun s => if s.nsym = 1 then hdrTree1 s else hdrTree s :=
    .ite (fun _ => Iff.rfl) behind_hdrTree1 behind_hdrTree
  exact (hbody.comp fun s => emit_behind (byteOfCount s.nsym) s).next
    (commutes_ok () fun s => congrArg (fun t : State => { t with phase := .encode }) (emit_behind (BitVec.ofNat 8 s.pad) s))

theorem behind_encSym (b : Byte) : Commutes (State.behind q) (encSym b) :=
  (behind_codeLookup b).bind fun c => .ite (fun _ => Iff.rfl) (fun _ => rfl)
    (.ite (fun _ => Iff.rfl) (fun _ => rfl) (commutes_ok () fun s => by rw [putBits_behind]; rfl))

theorem behind_encEnd : Commutes (State.behind q) encEnd :=
  .ite (fun _ => Iff.rfl) (fun _ => rfl) (commutes_ok () fun s => by rw [flush_behind, emitEnd_behind]; rfl)

/-! ## Parsing the header (44_framing.md R215 to R224) -/

theorem behind_decTree1 (b : Byte) : Commutes (State.behind q) (decTree1 b) :=
  (behind_writeTreeNode 0 true b).next (commutes_ok () fun _ => rfl)

theorem behind_popStack : Commutes (State.behind q) popStack :=
  .ite (fun _ => Iff.rfl) (fun _ => rfl)
    (.bind (fun s => commutes_readAt .pstack s.pstack (s.psN - 1) s) fun p => commutes_ok p fun _ => rfl)

theorem behind_pushStack (k : Nat) : Commutes (State.behind q) (pushStack k) :=
  .ite (fun _ => Iff.rfl) (commutes_ok () fun _ => rfl) (fun _ => rfl)

theorem behind_treeAttach (k : Nat) : Commutes (State.behind q) (treeAttach k) :=
  .ite (fun _ => Iff.rfl) (commutes_ok () fun _ => rfl)
    (.ite (fun _ => Iff.rfl) ((behind_readNode (k - 1)).bind fun _ => behind_writeNode (k - 1) _)
      (behind_popStack.bind fun p => (behind_readNode p).bind fun _ => behind_writeNode p _))

theorem behind_treeFlag (x : Bool) : Commutes (State.behind q) (treeFlag x) :=
  .ite (fun _ => Iff.rfl) (commutes_ok () fun _ => rfl)
    (.ite (fun _ => Iff.rfl) (fun _ => rfl) fun s =>
      have hlast := commutes_ok (f := State.behind q) ()
        (g := fun t => { t with tLwi := true, tInts := t.tInts + 1, tNodes := t.tNodes + 1 }) fun _ => rfl
      (behind_treeAttach s.tNodes).next ((behind_writeTreeNode s.tNodes false 0#8).next
        ((behind_pushStack s.tNodes).next hlast)) s)

theorem behind_treeComplete : Commutes (State.behind q) treeComplete :=
  .ite (fun _ => Iff.rfl) (.ite (fun _ => Iff.rfl) (fun _ => rfl) (commutes_ok true fun _ => rfl))
    (commutes_ok false fun _ => rfl)

theorem behind_treeLeaf (y : Byte) : Commutes (State.behind q) (treeLeaf y) :=
  (behind_readSeen y.toNat).bind fun _ => .ite (fun _ => Iff.rfl) (fun _ => rfl) fun s =>
    have hlast := behind_treeComplete.comp (f := State.behind q)
      (g := fun t => { t with tLwi := false, tLeaves := t.tLeaves + 1, tNodes := t.tNodes + 1 }) fun _ => rfl
    ((behind_treeAttach s.tNodes).next ((behind_writeTreeNode s.tNodes true y).next hlast))
      { s with seen := Memory.write s.seen y.toNat true }

theorem behind_treeSymbit (x : Bool) : Commutes (State.behind q) (treeSymbit x) := fun s => by
  dsimp only [treeSymbit, State.behind]
  split
  · exact behind_treeLeaf (q := q) _ { s with
      tSym := s.tSym <<< 1 ||| if x then 1#8 else 0#8, tSymn := s.tSymn + 1, tState := .flag }
  · rfl

theorem behind_treeBit (x : Bool) : Commutes (State.behind q) (treeBit x) := fun s => by
  dsimp only [treeBit, State.behind]
  split
  · exact (behind_treeFlag x).next (commutes_ok (f := State.behind q) (g := id) false fun _ => rfl) s
  · exact behind_treeSymbit x s

theorem behind_treeBits (c : Bits) : Commutes (State.behind q) (treeBits c) := by
  induction c with
  | nil => exact fun _ => rfl
  | cons x c ih => exact (behind_treeBit x).bind fun _ => .ite (fun _ => Iff.rfl) (commutes_ok () fun _ => rfl) ih

theorem behind_decPad (b : Byte) : Commutes (State.behind q) (decPad b) :=
  .ite (fun _ => Iff.rfl) (fun _ => rfl) (commutes_ok () fun _ => rfl)

/-! ## Whole operations -/

/-- What is run behind the beats `q` leads where it leads without them, with `q` in front. -/
def RunsBehind (q : List OutBeat) (k : State → Host.Outcome State Fault Refusal) : Prop :=
  ∀ s, k (s.behind q) = onNext (k s) fun t => .next (t.behind q)

theorem runsBehind_next {f : State → State} (hf : ∀ s, f (s.behind q) = (f s).behind q) : RunsBehind q fun s => .next (f s) :=
  fun s => congrArg Host.Outcome.next (hf s)

theorem RunsBehind.reading {k : State → Host.Outcome State Fault Refusal} (hk : RunsBehind q k) (gs : List Group) :
    RunsBehind q fun s => reading gs s (k s) := fun s => by
  induction gs with
  | nil => exact hk s
  | cons g gs ih =>
    have hm : (s.behind q).meaningful g = s.meaningful g := rfl
    show Machine.reading (g :: gs) (s.behind q) (k (s.behind q)) = onNext (Machine.reading (g :: gs) s (k s)) _
    rw [reading_cons, reading_cons, hm]
    split
    · exact ih
    · rfl

theorem RunsBehind.ite {p : State → Prop} [DecidablePred p] {k g : State → Host.Outcome State Fault Refusal}
    (hp : ∀ s : State, p (s.behind q) ↔ p s) (hk : RunsBehind q k) (hg : RunsBehind q g) :
    RunsBehind q fun s => if p s then k s else g s := fun s => by
  by_cases h : p s
  · simp only [hp, h, if_true]; exact hk s
  · simp only [hp, h, if_false]; exact hg s

theorem Commutes.outcome {k : State → Res Unit} (hk : Commutes (State.behind q) k) : RunsBehind q fun s => (k s).outcome :=
  fun s => by
    show (k (s.behind q)).outcome = onNext (k s).outcome _
    rw [hk s]; cases k s <;> rfl

theorem Commutes.outcomeRet {α : Type} {k : State → Res α} (hk : Commutes (State.behind q) k) (f : α → Ret) :
    RunsBehind q fun s => (k s).outcomeRet f := fun s => by
  show (k (s.behind q)).outcomeRet f = onNext ((k s).outcomeRet f) _
  rw [hk s]; cases k s <;> rfl

theorem runsBehind_artifact {k g : State → Host.Outcome State Fault Refusal} (hk : RunsBehind q k) (hg : RunsBehind q g) :
    RunsBehind q fun s => if s.writesArtifact then k s else g s := .ite (fun _ => Iff.rfl) hk hg

/-- No operation but CLEAR and RESET depends on what waits in `oq`. -/
theorem runsBehind_exec {i : Instr} (hclear : i ≠ .cmdClear) (hreset : i ≠ .reset) : RunsBehind q (exec i) := by
  cases i with
  | cmdClear => exact absurd rfl hclear
  | reset => exact absurd rfl hreset
  | cmdCompress | cmdDecompress | cmdReserved | cmdIgnored | freqClear | codeClear | errorEntry | rBits
  | scanFail | encFail | decFail | decCount | decTruncCount | decSrcfailCount | decTruncTree | decSrcfailTree | decTruncPad
  | decSrcfailPad => exact fun _ => rfl
  | freqCount b => exact (behind_freqCount b).outcome.reading _
  | scanEnd => exact behind_scanEnd.outcome.reading _
  | build => exact behind_build.outcome.reading _
  | pqInsert f k => exact (behind_pqInsert f k).outcome.reading _
  | pqExtractMin => exact (behind_pqExtractMin.outcomeRet _).reading _
  | pqInit => exact behind_pqInit.outcome.reading _
  | merge => exact behind_merge.outcome.reading _
  | derive => exact behind_derive.outcome.reading _
  | codeAssign k p => exact (behind_codeAssignFrom _ k p).outcome.reading _
  | codeAssign1 => exact behind_codeAssign1.outcome.reading _
  | codeLookup b => exact ((behind_codeLookup b).outcomeRet _).reading _
  | padPredict => exact behind_padPredict.outcome.reading _
  | wPutbit x => exact (runsBehind_next (putBit_behind x)).reading _
  | wPutbits c => exact (runsBehind_next (putBits_behind c)).reading _
  | wFlush => exact (runsBehind_next fun s => by rw [flush_behind]; rfl).reading _
  | wPutbyte v => exact runsBehind_next (emit_behind v)
  | emitHdr => exact behind_emitHdr.outcome.reading _
  | hdrCount => exact (runsBehind_next fun s => emit_behind (byteOfCount s.nsym) s).reading _
  | hdrTree1 => exact behind_hdrTree1.outcome.reading _
  | hdrTree => exact behind_hdrTree.outcome.reading _
  | hdrPad => exact (runsBehind_next fun s => emit_behind (BitVec.ofNat 8 s.pad) s).reading _
  | encSym b => exact (behind_encSym b).outcome.reading _
  | encEnd => exact behind_encEnd.outcome.reading _
  | outData b => exact runsBehind_next (emit_behind b)
  | outEnd => exact runsBehind_next emitEnd_behind
  | decTree1 b => exact (behind_decTree1 b).outcome
  | decTree b => exact (behind_treeBits _).outcome.reading _
  | decPad b => exact (behind_decPad b).outcome.reading _
  | treeFlag x => exact (behind_treeFlag x).outcome.reading _
  | treeSymbit x => exact ((behind_treeSymbit x).outcomeRet _).reading _
  | treeAttach k => exact (behind_treeAttach k).outcome.reading _
  | treeComplete => exact (behind_treeComplete.outcomeRet _).reading _
  | walkBit x => exact (walkBlind_behind.walkBit x).outcome.reading _
  | walkBit1 x => exact (walkBlind_behind.walkBit1 x).outcome.reading _
  | decData b => exact (behind_decData b).outcome.reading _
  | decEnd => exact behind_decEnd.outcome.reading _
  | artN n => exact runsBehind_artifact (runsBehind_next (emit_behind n)) fun _ => rfl
  | artTree1 y => exact runsBehind_artifact (runsBehind_next (emit_behind y)) (behind_decTree1 y).outcome
  | tInternal =>
    exact runsBehind_artifact ((runsBehind_next (putBit_behind false)).reading _) ((behind_treeBits _).outcome.reading _)
  | tLeaf y =>
    exact runsBehind_artifact ((runsBehind_next (putBits_behind _)).reading _) ((behind_treeBits _).outcome.reading _)
  | artTreepad n => exact runsBehind_artifact ((runsBehind_next (putBits_behind _)).reading _) fun _ => rfl
  | artPad p => exact runsBehind_artifact (runsBehind_next (emit_behind _)) ((behind_decPad _).outcome.reading _)
  | artPayload bs =>
    exact runsBehind_artifact ((runsBehind_next (writePayload_behind bs)).reading _) ((behind_readPayload bs).outcome.reading _)
  | code c =>
    exact runsBehind_artifact ((runsBehind_next (putBits_behind c)).reading _)
      ((walkBlind_behind.walkBits c).outcome.reading _)

end Behind

/-- What an operation puts behind the waiting beats does not depend on them, and neither does where it stops. -/
theorem exec_replace_oq {i : Instr} (hclear : i ≠ .cmdClear) (hreset : i ≠ .reset) (s : State) (q : List OutBeat) :
    (∀ t, exec i s = .next t →
      ∃ bs, t.oq = s.oq ++ bs ∧ exec i { s with oq := q } = .next { t with oq := q ++ bs }) ∧
    ∀ f, exec i s = .fault f → exec i { s with oq := q } = .fault f := by
  have hfront : ∀ r, exec i { s with oq := r } = onNext (exec i { s with oq := [] }) fun t => .next (t.behind r) := fun r => by
    rw [← runsBehind_exec hclear hreset { s with oq := [] }, State.behind, List.append_nil]
  have hs : exec i s = onNext (exec i { s with oq := [] }) fun t => .next (t.behind s.oq) := hfront s.oq
  rw [hfront q, hs]
  cases exec i { s with oq := [] } with
  | next t =>
    refine ⟨fun u hu => ?_, fun f hf => nomatch hf⟩
    cases hu
    exact ⟨t.oq, rfl, rfl⟩
  | fault e => exact ⟨fun u hu => (nomatch hu), fun f hf => hf⟩
  | refused r => exact ⟨fun u hu => (nomatch hu), fun f hf => nomatch hf⟩

/-! ## A compress that succeeds (R272) -/

/-- An ERROR state has no internal step (46_codec_commands.md R259). -/
theorem internalStep_error {s : State} (hp : s.phase = .error) : internalStep s = .refused .notSelected := by
  rw [internalStep, hp]; rfl

/-- Where a compress has a next state, its pass 1 has a byte and fits. -/
theorem passOne_of_compressRun {S1 S2 : List Byte} {s t : State} (hrun : compressRun S1 S2 s = .next t) :
    S1 ≠ [] ∧ S1.length ≤ s.cfg.maxCnt := by
  rw [compressRun_eq, onNext_eq_next] at hrun
  obtain ⟨u, hpass, hrest⟩ := hrun
  refine (passOne_cmdCompress s).of_feed_stream (Nat.zero_le _) hpass fun hu => ?_
  rw [threeSteps, internalStep_error hu] at hrest
  cases hrest

/-- A compress that succeeds has found a code for each symbol of pass 2, and the codes are as long as predicted. -/
theorem HeaderWritten.of_pass2 {T : HTree} {P : Nat} {s t u : State} (h : HeaderWritten T P s t) {S : List Byte}
    (hrun : feed (stream S) t = .next u) (hu : u.phase = .idle) : (∀ y ∈ S, y ∈ T.leaves) ∧ (T.encode S).length = P := by
  obtain ⟨hS, hlen⟩ := h.pass.of_feed_stream hrun hu
  rw [h.bitcnt, h.paybits, Nat.zero_add] at hlen
  exact ⟨hS, hlen⟩

/-- Settles O60: the artifact is the header of pass 1's tree and the codes of pass 2, which the decoder walks back to pass 2. -/
theorem decompressInvertsCompress : Obligations.DecompressInvertsCompress := by
  unfold Obligations.DecompressInvertsCompress
  refine ⟨fun S1 S2 s t hrun hidle => ?_, fun i s q hclear hreset => exec_replace_oq hclear hreset s q⟩
  obtain ⟨hne, hle⟩ := passOne_of_compressRun hrun
  obtain ⟨T, hn, hmem, hall⟩ := exists_header hne hle
  obtain ⟨v, hv, hcompress⟩ := hall s rfl
  rw [hcompress] at hrun
  obtain ⟨hS, hP⟩ := hv.of_pass2 hrun hidle
  have hne2 : S2 ≠ [] := by
    rintro rfl
    exact HTree.encode_ne_nil hn hne (fun y hy => (hmem y).2 hy) (List.eq_nil_of_length_eq_zero hP.symm)
  refine ⟨T.artifact (T.encode S2), ?_, decompressRun_artifact hn hne2 hS, fun s' hcfg => ?_⟩
  · obtain ⟨u, hu, -, -, hoq⟩ := hv.pass2 hS hP
    obtain rfl := Host.Outcome.next.inj (hrun.symm.trans hu)
    exact hoq
  · obtain ⟨v', hv', hcompress'⟩ := hall s' hcfg
    obtain ⟨u, hu, hp, -, hoq⟩ := hv'.pass2 hS hP
    exact ⟨u, (hcompress' S2).trans hu, hp, hoq⟩

end Sys2Proof.Machine

/-! PROOF. Errors (60_exceptions.md): what error entry writes (R290), that only a command or an input beat enters ERROR (R280), and that
only CLEAR and a reset leave it (R293). -/

namespace Sys2Proof.Machine

/-! ## Error entry (R290) -/

/-- Settles O21: ERROR.ENTRY is `raise`, and each of the ten other operations is `raise` with its own code and sub-cause. -/
theorem errorEntryWritesTheRecord : Obligations.ErrorEntryWritesTheRecord := by
  unfold Obligations.ErrorEntryWritesTheRecord
  refine ⟨fun _ _ _ _ => rfl, fun s => ?_⟩
  simp only [List.forall_mem_cons]
  exact ⟨rfl, rfl, rfl, rfl, rfl, rfl, rfl, rfl, rfl, rfl, List.forall_mem_nil _⟩

/-! ## Who raises an error (R280) -/

/-- The event ended in error entry, with a code that is not NONE and before anything else had changed the phase of `s`. -/
def RaisedFrom (s t : State) : Prop :=
  ∃ e info data u, e ≠ ErrCode.none ∧ u.phase = s.phase ∧ t = raise e info data u

theorem RaisedFrom.of_raise {e : ErrCode} (he : e ≠ .none) (info : BitVec 4) (data : Byte) {s u : State}
    (hu : u.phase = s.phase) : RaisedFrom s (raise e info data u) := ⟨e, info, data, u, he, hu, rfl⟩

theorem RaisedFrom.record {s t : State} (h : RaisedFrom s t) : t.errPhase = s.phase ∧ t.err ≠ .none := by
  obtain ⟨e, info, data, u, he, hu, rfl⟩ := h
  exact ⟨hu, he⟩

theorem ParserRaised.raisedFrom {s t : State} (h : ParserRaised s t) : RaisedFrom s t := by
  obtain ⟨u, info, data, hu, -, rfl⟩ := h
  exact .of_raise (by decide) info data hu.phase_eq

/-- Where it returns it is not in ERROR, and where it raises it has kept the phase up to there. -/
abbrev Res.ErrsByRaise (s : State) (r : Res Unit) : Prop := r.Post (fun _ t => t.phase ≠ .error) (RaisedFrom s)

theorem Res.Post.raisedFrom {s t : State} {r : Res Unit} (h : r.ErrsByRaise s) (e : r.outcome = .next t)
    (ht : t.phase = .error) : RaisedFrom s t := (h.outcome e).elim (fun hok => absurd ht hok) id

theorem freqCount_errsByRaise (b : Byte) {s : State} (hp : s.phase ≠ .error) : (freqCount b s).ErrsByRaise s := by
  refine (freqCount_post b s).mono ?_ ?_
  · rintro _ _ ⟨-, _, -, rfl⟩; exact hp
  · rintro _ rfl; exact .of_raise (by decide) _ _ rfl

theorem scanEnd_errsByRaise (s : State) : (scanEnd s).ErrsByRaise s := by
  refine (scanEnd_post s).mono ?_ ?_
  · rintro _ _ ⟨-, rfl⟩; exact Phase.noConfusion
  · rintro _ ⟨-, rfl⟩; exact .of_raise (by decide) _ _ rfl

theorem encSym_errsByRaise (b : Byte) {s : State} (hp : s.phase ≠ .error) : (encSym b s).ErrsByRaise s := by
  refine (encSym_post b s).mono ?_ ?_
  · rintro _ _ ⟨_, -, -, -, rfl⟩
    rw [putBits_frame]; exact hp
  · rintro _ (rfl | rfl) <;> exact .of_raise (by decide) _ _ rfl

theorem encEnd_errsByRaise (s : State) : (encEnd s).ErrsByRaise s := by
  refine (encEnd_post s).mono ?_ ?_
  · rintro _ _ ⟨-, rfl⟩; exact Phase.noConfusion
  · rintro _ rfl; exact .of_raise (by decide) _ _ rfl

theorem decTree1_errsByRaise (b : Byte) (s : State) : (decTree1 b s).ErrsByRaise s := by
  rw [decTree1_eq]; exact Phase.noConfusion

theorem decTree_errsByRaise (b : Byte) {s : State} (hp : s.phase ≠ .error) : (decTree b s).ErrsByRaise s := by
  refine (treeBits_post (rBits b 8) s).mono ?_ fun _ h => h.raisedFrom
  rintro _ _ (h | ⟨h, -⟩)
  · rwa [h.phase_eq]
  · rw [h]; exact Phase.noConfusion

theorem decPad_errsByRaise (b : Byte) (s : State) : (decPad b s).ErrsByRaise s := by
  refine (decPad_post b s).mono ?_ ?_
  · rintro _ _ ⟨rfl, -⟩; exact Phase.noConfusion
  · rintro _ rfl; exact .of_raise (by decide) _ _ rfl

theorem decEnd_errsByRaise (s : State) : (decEnd s).ErrsByRaise s := by
  refine (decEnd_post s).mono ?_ ?_
  · rintro _ _ ⟨_, _, -, -, rfl⟩; exact Phase.noConfusion
  · rintro _ ⟨u, v, info, data, ⟨_, hu⟩, rfl⟩
    exact .of_raise (by decide) info data (by rw [hu])

/-- By the table of R257, which has ERROR only in rows of a command or an input beat. -/
theorem transfer_of_enters_error {s t : State} (hs : step s = .next t) (hp : s.phase ≠ .error) (ht : t.phase = .error) :
    (∃ op, s.event = .command op) ∨ ∃ w, s.event = .input w := by
  have hrow : Phase.error ∈ phasesAfter s.phase s.event := ht ▸ phaseMovesAsTheTableSays s t hs
  cases he : s.event with
  | command op => exact .inl ⟨op, rfl⟩
  | input w => exact .inr ⟨w, rfl⟩
  | reset => simp [he, phasesAfter] at hrow
  | output => simp [he, phasesAfter, hp.symm] at hrow
  | idle => simp [he, phasesAfter, hp.symm] at hrow
  | internal => cases h : s.phase <;> simp [he, h, phasesAfter] at hrow

/-- A step that enters ERROR is error entry, in the phase of the state it starts from. What is no transfer is out by the lemma above,
and the transfers that raise no error are out by their row of R257, or by what they run. -/
theorem raisedFrom_of_enters_error {s t : State} (hs : step s = .next t) (hp : s.phase ≠ .error) (ht : t.phase = .error) :
    RaisedFrom s t := by
  have htransfer := transfer_of_enters_error hs hp ht
  have hrow : Phase.error ∈ phasesAfter s.phase s.event := ht ▸ phaseMovesAsTheTableSays s t hs
  cases step_cases hs with
  | reset h _ => simp [h] at htransfer
  | output h _ => simp [h] at htransfer
  | idle h _ => simp [h] at htransfer
  | build h _ _ => simp [h] at htransfer
  | derive h _ _ => simp [h] at htransfer
  | emitHdr h _ _ => simp [h] at htransfer
  | compress h p _ => simp [h, p, phasesAfter] at hrow
  | decompress h p _ => simp [h, p, phasesAfter] at hrow
  | clear _ _ e => rw [e] at ht; cases ht
  | reserved _ _ _ _ _ _ e => rw [e]; exact .of_raise (by decide) _ _ rfl
  | ignored _ _ _ p _ => exact absurd p hp
  | freqCount _ b _ _ _ e => exact (freqCount_errsByRaise b (s := s.tick) hp).raisedFrom e ht
  | scanEnd _ _ _ _ e => exact (scanEnd_errsByRaise s.tick).raisedFrom e ht
  | encSym _ b _ _ _ e => exact (encSym_errsByRaise b (s := s.tick) hp).raisedFrom e ht
  | encEnd _ _ _ _ e => exact (encEnd_errsByRaise s.tick).raisedFrom e ht
  | sourceFailure _ _ _ _ e => rw [e]; exact .of_raise (by decide) _ _ rfl
  | decCount _ _ h k p _ => simp [h, k, p, phasesAfter] at hrow
  | decTree1 _ b _ _ _ _ e => exact (decTree1_errsByRaise b s.tick).raisedFrom e ht
  | decTree _ b _ _ _ _ e => exact (decTree_errsByRaise b (s := s.tick) hp).raisedFrom e ht
  | decPad _ b _ _ _ e => exact (decPad_errsByRaise b s.tick).raisedFrom e ht
  | truncated _ _ _ _ e => rw [e]; exact .of_raise (by decide) _ _ rfl
  | sourceFailed _ _ _ _ e => rw [e]; exact .of_raise (by decide) _ _ rfl
  | decData _ _ h k p _ => simp [h, k, p, phasesAfter] at hrow
  | decEnd _ _ _ _ e => exact (decEnd_errsByRaise s.tick).raisedFrom e ht

/-- Settles O11: the event by the table of R257, the record by the operation that ran. -/
theorem errorsComeFromTransfersOnly : Obligations.ErrorsComeFromTransfersOnly := by
  unfold Obligations.ErrorsComeFromTransfersOnly
  exact fun s t hs hp ht => ⟨transfer_of_enters_error hs hp ht, (raisedFrom_of_enters_error hs hp ht).record⟩

/-! ## The way out of ERROR (R293) -/

theorem transferOutput_errorRecord (s : State) :
    (transferOutput s).err = s.err ∧ (transferOutput s).errInfo = s.errInfo ∧
      (transferOutput s).errPhase = s.errPhase ∧ (transferOutput s).errData = s.errData := by
  unfold transferOutput
  split <;> exact ⟨rfl, rfl, rfl, rfl⟩

/-- Settles O12: in ERROR the block has no internal step and takes no input beat, CLEAR and reset are `resetBlock`, and an output
transfer, an ignored command and a step without an event keep the record. -/
theorem errorIsLeftByClearOrReset : Obligations.ErrorIsLeftByClearOrReset := by
  unfold Obligations.ErrorIsLeftByClearOrReset
  intro s t hs hp
  have hrow := phaseMovesAsTheTableSays s t hs
  rw [hp] at hrow
  cases he : s.event with
  | reset =>
    cases (step_of_reset he).symm.trans hs
    exact .inr ⟨.inl rfl, resetBlock_atReset s.tick⟩
  | output =>
    cases (step_of_output he).symm.trans hs
    exact .inl ⟨(transferOutput_phase s.tick).trans hp, transferOutput_errorRecord s.tick⟩
  | internal => simp [he, phasesAfter] at hrow
  | command op =>
    have hd : decode (.command s.phase) (.cmd op) = if op = 3#2 then .ok .cmdClear else .ok (.cmdIgnored op) := by rw [hp]; rfl
    by_cases hop : op = 3#2
    · cases (step_of_command he (hd.trans (if_pos hop))).symm.trans hs
      exact .inr ⟨.inr (congrArg Event.command hop), resetBlock_atReset s.tick⟩
    · cases (step_of_command he (hd.trans (if_neg hop))).symm.trans hs
      exact .inl ⟨hp, rfl, rfl, rfl, rfl⟩
  | input w => simp [he, phasesAfter] at hrow
  | idle =>
    cases (step_of_idle he).symm.trans hs
    exact .inl ⟨hp, rfl, rfl, rfl, rfl⟩

end Sys2Proof.Machine
